-- ==== Sys2Proof/Word.lean ====
section
/-! DEFINITION. The numbers and sets of the part, each with the range the spec gives it
(00_scope.md, "Numbering and Ranges" and "Part Numbers at a Glance"). A set is a bit mask, bit n standing for
member n, because the link sends it so (R167). -/

namespace Sys2Proof

abbrev Byte := BitVec 8
abbrev Word16 := BitVec 16
abbrev Word32 := BitVec 32

/-- A master port, 0..3. -/
abbrev Port := Fin 4
/-- A publication group, 0..15. -/
abbrev Group := Fin 16
/-- An exchange page, 0..319. -/
abbrev Page := Fin 320
/-- An entry of a port's view table, 0..127. -/
abbrev PortPage := Fin 128
/-- A frame of exchange memory, 0..511. -/
abbrev Frame := Fin 512
/-- An entry of a plan, 0..47. -/
abbrev SlotNo := Fin 48
/-- A stop line, 0 (STOP0) or 1 (STOP1). -/
abbrev Line := Fin 2
/-- A watch counter, 0..3. -/
abbrev WatchNo := Fin 4

abbrev PortSet := BitVec 4
abbrev GroupSet := BitVec 16
/-- Weekdays 0..6. -/
abbrev WeekdaySet := BitVec 7
/-- ALARM, STOP, PLAN_SWITCHED, SYNC at bits 0..3 (R167). -/
abbrev KindSet := BitVec 4
/-- The nine notice kinds at bits 0..8, FAULT at bit 9, LOST at bit 10 (R167). -/
abbrev AttentionSet := BitVec 11
/-- The cycle count and the filter fields: six-bit numbers (R32). -/
abbrev CycleCount := BitVec 6

end Sys2Proof
end

