-- ==== Sys2Proof/Machine/Wire.lean ====
section
/-! DEFINITION. How numbers travel on the link (R167), and the table of request identifiers with their parameter
lengths (section 9.2). -/

namespace Sys2Proof.Machine

/-- The less significant byte of a 16-bit number. -/
def lowByte (w : Word16) : Byte := w.extractLsb' 0 8

/-- The more significant byte of a 16-bit number. -/
def highByte (w : Word16) : Byte := w.extractLsb' 8 8

/-- A two-byte number, least significant byte first (R167). -/
def bytes16 (w : Word16) : List Byte := [lowByte w, highByte w]

/-- A four-byte number, least significant byte first (R167). -/
def bytes32 (w : Word32) : List Byte :=
  bytes16 (w.extractLsb' 0 16) ++ bytes16 (w.extractLsb' 16 16)

/-- The number that two bytes spell, least significant byte first (R167). -/
def join16 (low high : Byte) : Word16 := high ++ low

/-- The number that four bytes spell, least significant byte first (R167). -/
def join32 (b0 b1 b2 b3 : Byte) : Word32 := join16 b2 b3 ++ join16 b0 b1

/-- Yes/no is sent as 1/0 (R167). -/
def yesNo (b : Bool) : Byte := if b then 1 else 0

/-- A number or a named value's position, in one byte. -/
def byteOf (n : Nat) : Byte := BitVec.ofNat 8 n

/-- A number in two bytes. -/
def bytesOf16 (n : Nat) : List Byte := bytes16 (BitVec.ofNat 16 n)

/-- A number in four bytes. -/
def bytesOf32 (n : Nat) : List Byte := bytes32 (BitVec.ofNat 32 n)

/-- Two flags packed lowest bit first, as the rights bytes are (R174). -/
def twoFlags (first second : Bool) : Byte := byteOf (first.toNat + 2 * second.toNat)

/-- The bits of a byte as they pass, most significant first (R166). -/
def bitsOf (b : Byte) : List Bool := (List.finRange 8).map fun k => b.getMsbD k.val

/-- The bytes that bits spell, eight bits a byte, most significant bit first; a byte cut short is discarded (R166). -/
def bytesOfBits : List Bool → List Byte
  | b7 :: b6 :: b5 :: b4 :: b3 :: b2 :: b1 :: b0 :: rest =>
    BitVec.ofBoolListBE [b7, b6, b5, b4, b3, b2, b1, b0] :: bytesOfBits rest
  | _ => []

/-- The request identifiers of section 9.2, each with its parameter length (a STAGE_WRITE's data are not counted,
R167). -/
def requestTable : List (Nat × Nat) :=
  [(0x01, 0), (0x02, 0), (0x03, 0), (0x04, 0), (0x05, 2),
   (0x10, 5), (0x11, 5), (0x12, 2), (0x13, 2), (0x14, 1),
   (0x18, 3), (0x19, 2), (0x1A, 3), (0x1B, 3), (0x1C, 1), (0x1D, 1),
   (0x20, 8), (0x21, 2), (0x22, 3), (0x23, 0), (0x24, 5),
   (0x30, 1), (0x31, 4), (0x32, 0),
   (0x38, 2), (0x39, 0), (0x3A, 1), (0x3B, 0),
   (0x40, 6), (0x41, 2), (0x42, 0),
   (0x48, 5), (0x49, 1), (0x4A, 0),
   (0x50, 2), (0x51, 7), (0x52, 5), (0x53, 0),
   (0x58, 0), (0x59, 0), (0x5A, 5)]

/-- The header check of R169: the identifier is in the table and the parameter length is the one the table gives. -/
def headerAccepted (identifier length : Byte) : Bool :=
  requestTable.lookup identifier.toNat == some length.toNat

end Sys2Proof.Machine
end

