-- ==== Sys2Proof/Syntax.lean ====
section
/-! DEFINITION. The commands of the part: one constructor per row of spec/opcode_table.json, in the table's order.
A request carries the port it arrives on and the fields of its parameters as the wire sends them (R167, R174), so
that a value outside its range can be sent and is answered BAD_RANGE (R170). -/

namespace Sys2Proof

/-- A stop input's level: ACTIVE while the pin is driven low (R117). -/
inductive Level where
  | inactive
  | active
  deriving DecidableEq, Repr

inductive Instr where
  /-- PART_STATUS (R182). -/
  | partStatus (p : Port)
  /-- START (R179). -/
  | start (p : Port)
  /-- HALT (R180). -/
  | halt (p : Port)
  /-- PORT_RESET (R183). -/
  | portReset (p : Port)
  /-- PORT_RIGHTS_SET: target port, rights byte (R177). -/
  | portRightsSet (p : Port) (target rights : Byte)
  /-- DEFINE_PAGE: exchange page, group, reader set, writer set (R10). -/
  | definePage (p : Port) (page : Word16) (group readers writers : Byte)
  /-- PAGE_SET: exchange page, group, reader set, writer set (R11). -/
  | pageSet (p : Port) (page : Word16) (group readers writers : Byte)
  /-- RETIRE_PAGE: exchange page (R12). -/
  | retirePage (p : Port) (page : Word16)
  /-- PAGE_STATUS: exchange page (R13). -/
  | pageStatus (p : Port) (page : Word16)
  /-- STAGE_LIMIT: limit (R14). -/
  | stageLimit (p : Port) (limit : Byte)
  /-- READ: port page, offset, length (R15). -/
  | read (p : Port) (portPage offset length : Byte)
  /-- STAGE_OPEN: port page, copy choice (R18). -/
  | stageOpen (p : Port) (portPage copy : Byte)
  /-- STAGE_WRITE: port page, offset, length; the data follow (R20). -/
  | stageWrite (p : Port) (portPage offset length : Byte)
  /-- STAGE_READ: port page, offset, length (R17). -/
  | stageRead (p : Port) (portPage offset length : Byte)
  /-- STAGE_READY: port page (R22). -/
  | stageReady (p : Port) (portPage : Byte)
  /-- STAGE_DROP: port page (R23). -/
  | stageDrop (p : Port) (portPage : Byte)
  /-- SLOT_SET: plan, slot index, duration, publish group, notify set, filter value, filter mask (R46). -/
  | slotSet (p : Port) (plan slot : Byte) (duration : Word16) (group notify value mask : Byte)
  /-- PLAN_LENGTH: plan, slot count (R47). -/
  | planLength (p : Port) (plan count : Byte)
  /-- PLAN_READ: plan, first index, number of entries (R49). -/
  | planRead (p : Port) (plan first number : Byte)
  /-- PLAN_SWITCH (R50). -/
  | planSwitch (p : Port)
  /-- SYNC_SET: sync mode, gap limit (R41). -/
  | syncSet (p : Port) (mode : Byte) (gap : Word32)
  /-- GROUP_STATUS: group (R76). -/
  | groupStatus (p : Port) (group : Byte)
  /-- WATCH_SET: counter, group, event, mode (R80). -/
  | watchSet (p : Port) (counter group event mode : Byte)
  /-- WATCH_READ (R81). -/
  | watchRead (p : Port)
  /-- HOLD: group set (R87). -/
  | hold (p : Port) (groups : Word16)
  /-- RELEASE (R88). -/
  | release (p : Port)
  /-- HOLD_LIMIT: limit (R89). -/
  | holdLimit (p : Port) (limit : Byte)
  /-- HOLD_READ (R90). -/
  | holdRead (p : Port)
  /-- VIEW_SET: target port, port page, presence byte, exchange page, rights byte (R101, R174). -/
  | viewSet (p : Port) (target portPage presence : Byte) (page : Word16) (rights : Byte)
  /-- VIEW_GET: target port, port page (R103). -/
  | viewGet (p : Port) (target portPage : Byte)
  /-- FAULT_TAKE (R112). -/
  | faultTake (p : Port)
  /-- STOP_SET: line, filter time, freeze set, mode (R118). -/
  | stopSet (p : Port) (line filterTime : Byte) (freeze : Word16) (mode : Byte)
  /-- STOP_CLEAR: line (R125). -/
  | stopClear (p : Port) (line : Byte)
  /-- STOP_READ (R129). -/
  | stopRead (p : Port)
  /-- TRIM_SET: trim, 16-bit two's complement (R135, R167). -/
  | trimSet (p : Port) (trim : Word16)
  /-- TIME_SET: year, month, day, hour, minute, second, weekday (R139). -/
  | timeSet (p : Port) (year month day hour minute second weekday : Byte)
  /-- ALARM_SET: enabled, weekday set, hour, minute, action (R142). -/
  | alarmSet (p : Port) (enabled weekdays hour minute action : Byte)
  /-- TIME_READ (R141). -/
  | timeRead (p : Port)
  /-- NOTICE_PEEK (R156). -/
  | noticePeek (p : Port)
  /-- NOTICE_POP (R157). -/
  | noticePop (p : Port)
  /-- PORT_SELF: group subscription, accepted kinds, attention set (R159). -/
  | portSelf (p : Port) (groups : Word16) (kinds : Byte) (attention : Word16)
  /-- BAD_REQUEST: the two header bytes of a request that the header check refuses (R169). -/
  | badRequest (p : Port) (identifier length : Byte)
  /-- READ_COMPLETION: the last data byte of a READ passes (R15). -/
  | readCompletion (p : Port)
  /-- STAGE_READ_COMPLETION: the last data byte of a STAGE_READ passes (R17). -/
  | stageReadCompletion (p : Port)
  /-- STAGE_WRITE_COMPLETION: the data bytes of a STAGE_WRITE pass, the last of them among them (R21, R172). -/
  | stageWriteCompletion (p : Port) (data : List Byte)
  /-- SELECT_RELEASE: SEL rises (R173). -/
  | selectRelease (p : Port)
  /-- PART_RESET: a low sample of RESET (R186). -/
  | partReset
  /-- RESET_RELEASE: the first high sample of RESET (R185). -/
  | resetRelease
  /-- END_OF_SLOT: the slot timer reaches the slot's duration (R38). -/
  | endOfSlot
  /-- SYNC_EDGE: SYNC_IN rises, and the rise is sampled (R42). -/
  | syncEdge
  /-- GAP_EXPIRY: the gap timer reaches the gap limit (R43). -/
  | gapExpiry
  /-- CYCLE_PULSE_END: one tick after a cycle start (R40). -/
  | cyclePulseEnd
  /-- STOP_INPUT_CHANGE: a stop input takes a new level (R119). -/
  | stopInputChange (line : Line) (level : Level)
  /-- FILTER_TIMER_EXPIRY: a line's filter timer reaches the filter time (R120). -/
  | filterTimerExpiry (line : Line)
  /-- SECOND_BOUNDARY: the tick count reaches the length of the second (R134). -/
  | secondBoundary
  /-- ALARM_SWITCH_REQUEST: the schedule takes the alarm's switch request (R145). -/
  | alarmSwitchRequest
  /-- SELECT_PERIOD_BEGIN: SEL falls (R168). -/
  | selectPeriodBegin (p : Port)
  /-- LAST_RESPONSE_BYTE: the last response byte passes (R168). -/
  | lastResponseByte (p : Port)
  deriving DecidableEq, Repr

end Sys2Proof
end

