-- ==== Sys2Proof/WellFormed.lean ====
section
/-! DEFINITION. Which terms of Instr stand for an event that the link can have. A request's fields are wire bytes, so
every request is well formed (a value out of range is answered BAD_RANGE, R170). -/

namespace Sys2Proof

/-- BAD_REQUEST is the refusal at the header check, so its header must be one that the check refuses (R169); the data
bytes of a STAGE_WRITE are 1..64 (R20). -/
def Instr.wellFormed : Instr → Bool
  | .badRequest _ identifier length => !Machine.headerAccepted identifier length
  | .stageWriteCompletion _ data => decide (1 ≤ data.length ∧ data.length ≤ 64)
  | _ => true

end Sys2Proof
end

