-- ==== Sys2Proof/Decode.lean ====
section
/-! DEFINITION. The request records of the link (R167, R169, R174): the bytes of each request, and the request that a
record's bytes spell. The rows of spec/opcode_table.json give no bits, so no table word spells a command. -/

namespace Sys2Proof

/-- The command that a table word spells: none, since no row of the table gives bits (notes/assumptions/20.md). -/
def decodeTableWord (_nbits _w : Nat) : Option Instr := none

/-- A request record: identifier, parameter length, parameters (R167). -/
def recordOf (identifier : Byte) (params : List Byte) : List Byte :=
  identifier :: Machine.byteOf params.length :: params

/-- The header and parameter bytes of a request, in the order its owning rule names them (R167, R174); for
BAD_REQUEST the two header bytes (R169). A command that is no request has none. -/
def Instr.record : Instr → List Byte
  | .partStatus _ => recordOf 0x01 []
  | .start _ => recordOf 0x02 []
  | .halt _ => recordOf 0x03 []
  | .portReset _ => recordOf 0x04 []
  | .portRightsSet _ target rights => recordOf 0x05 [target, rights]
  | .definePage _ page group readers writers => recordOf 0x10 (Machine.bytes16 page ++ [group, readers, writers])
  | .pageSet _ page group readers writers => recordOf 0x11 (Machine.bytes16 page ++ [group, readers, writers])
  | .retirePage _ page => recordOf 0x12 (Machine.bytes16 page)
  | .pageStatus _ page => recordOf 0x13 (Machine.bytes16 page)
  | .stageLimit _ limit => recordOf 0x14 [limit]
  | .read _ portPage offset length => recordOf 0x18 [portPage, offset, length]
  | .stageOpen _ portPage copy => recordOf 0x19 [portPage, copy]
  | .stageWrite _ portPage offset length => recordOf 0x1A [portPage, offset, length]
  | .stageRead _ portPage offset length => recordOf 0x1B [portPage, offset, length]
  | .stageReady _ portPage => recordOf 0x1C [portPage]
  | .stageDrop _ portPage => recordOf 0x1D [portPage]
  | .slotSet _ plan slot duration group notify value mask =>
      recordOf 0x20 ([plan, slot] ++ Machine.bytes16 duration ++ [group, notify, value, mask])
  | .planLength _ plan count => recordOf 0x21 [plan, count]
  | .planRead _ plan first number => recordOf 0x22 [plan, first, number]
  | .planSwitch _ => recordOf 0x23 []
  | .syncSet _ mode gap => recordOf 0x24 (mode :: Machine.bytes32 gap)
  | .groupStatus _ group => recordOf 0x30 [group]
  | .watchSet _ counter group event mode => recordOf 0x31 [counter, group, event, mode]
  | .watchRead _ => recordOf 0x32 []
  | .hold _ groups => recordOf 0x38 (Machine.bytes16 groups)
  | .release _ => recordOf 0x39 []
  | .holdLimit _ limit => recordOf 0x3A [limit]
  | .holdRead _ => recordOf 0x3B []
  | .viewSet _ target portPage presence page rights =>
      recordOf 0x40 ([target, portPage, presence] ++ Machine.bytes16 page ++ [rights])
  | .viewGet _ target portPage => recordOf 0x41 [target, portPage]
  | .faultTake _ => recordOf 0x42 []
  | .stopSet _ line filterTime freeze mode =>
      recordOf 0x48 ([line, filterTime] ++ Machine.bytes16 freeze ++ [mode])
  | .stopClear _ line => recordOf 0x49 [line]
  | .stopRead _ => recordOf 0x4A []
  | .trimSet _ trim => recordOf 0x50 (Machine.bytes16 trim)
  | .timeSet _ year month day hour minute second weekday =>
      recordOf 0x51 [year, month, day, hour, minute, second, weekday]
  | .alarmSet _ enabled weekdays hour minute action => recordOf 0x52 [enabled, weekdays, hour, minute, action]
  | .timeRead _ => recordOf 0x53 []
  | .noticePeek _ => recordOf 0x58 []
  | .noticePop _ => recordOf 0x59 []
  | .portSelf _ groups kinds attention =>
      recordOf 0x5A (Machine.bytes16 groups ++ [kinds] ++ Machine.bytes16 attention)
  | .badRequest _ identifier length => [identifier, length]
  | .readCompletion _ => []
  | .stageReadCompletion _ => []
  | .stageWriteCompletion _ _ => []
  | .selectRelease _ => []
  | .partReset => []
  | .resetRelease => []
  | .endOfSlot => []
  | .syncEdge => []
  | .gapExpiry => []
  | .cyclePulseEnd => []
  | .stopInputChange _ _ => []
  | .filterTimerExpiry _ => []
  | .secondBoundary => []
  | .alarmSwitchRequest => []
  | .selectPeriodBegin _ => []
  | .lastResponseByte _ => []

/-- The port a request (or a refused header) arrives on; none for the other commands. -/
def Instr.requestPort? : Instr → Option Port
  | .partStatus p | .start p | .halt p | .portReset p | .portRightsSet p _ _ | .definePage p _ _ _ _
  | .pageSet p _ _ _ _ | .retirePage p _ | .pageStatus p _ | .stageLimit p _ | .read p _ _ _ | .stageOpen p _ _
  | .stageWrite p _ _ _ | .stageRead p _ _ _ | .stageReady p _ | .stageDrop p _ | .slotSet p _ _ _ _ _ _ _
  | .planLength p _ _ | .planRead p _ _ _ | .planSwitch p | .syncSet p _ _ | .groupStatus p _
  | .watchSet p _ _ _ _ | .watchRead p | .hold p _ | .release p | .holdLimit p _ | .holdRead p
  | .viewSet p _ _ _ _ _ | .viewGet p _ _ | .faultTake p | .stopSet p _ _ _ _ | .stopClear p _ | .stopRead p
  | .trimSet p _ | .timeSet p _ _ _ _ _ _ _ | .alarmSet p _ _ _ _ _ | .timeRead p | .noticePeek p | .noticePop p
  | .portSelf p _ _ _ | .badRequest p _ _ => some p
  | .readCompletion _ | .stageReadCompletion _ | .stageWriteCompletion _ _ | .selectRelease _ | .partReset
  | .resetRelease | .endOfSlot | .syncEdge | .gapExpiry | .cyclePulseEnd | .stopInputChange _ _
  | .filterTimerExpiry _ | .secondBoundary | .alarmSwitchRequest | .selectPeriodBegin _ | .lastResponseByte _ => none

/-- The request of an accepted identifier with its parameter bytes; none where their number is not the table's. -/
def decodeParams (p : Port) (identifier : Nat) (params : List Byte) : Option Instr :=
  match params with
  | [] =>
    match identifier with
    | 0x01 => some (.partStatus p)
    | 0x02 => some (.start p)
    | 0x03 => some (.halt p)
    | 0x04 => some (.portReset p)
    | 0x23 => some (.planSwitch p)
    | 0x32 => some (.watchRead p)
    | 0x39 => some (.release p)
    | 0x3B => some (.holdRead p)
    | 0x42 => some (.faultTake p)
    | 0x4A => some (.stopRead p)
    | 0x53 => some (.timeRead p)
    | 0x58 => some (.noticePeek p)
    | 0x59 => some (.noticePop p)
    | _ => none
  | [a] =>
    match identifier with
    | 0x14 => some (.stageLimit p a)
    | 0x1C => some (.stageReady p a)
    | 0x1D => some (.stageDrop p a)
    | 0x30 => some (.groupStatus p a)
    | 0x3A => some (.holdLimit p a)
    | 0x49 => some (.stopClear p a)
    | _ => none
  | [a, b] =>
    match identifier with
    | 0x05 => some (.portRightsSet p a b)
    | 0x12 => some (.retirePage p (Machine.join16 a b))
    | 0x13 => some (.pageStatus p (Machine.join16 a b))
    | 0x19 => some (.stageOpen p a b)
    | 0x21 => some (.planLength p a b)
    | 0x38 => some (.hold p (Machine.join16 a b))
    | 0x41 => some (.viewGet p a b)
    | 0x50 => some (.trimSet p (Machine.join16 a b))
    | _ => none
  | [a, b, c] =>
    match identifier with
    | 0x18 => some (.read p a b c)
    | 0x1A => some (.stageWrite p a b c)
    | 0x1B => some (.stageRead p a b c)
    | 0x22 => some (.planRead p a b c)
    | _ => none
  | [a, b, c, d] =>
    match identifier with
    | 0x31 => some (.watchSet p a b c d)
    | _ => none
  | [a, b, c, d, e] =>
    match identifier with
    | 0x10 => some (.definePage p (Machine.join16 a b) c d e)
    | 0x11 => some (.pageSet p (Machine.join16 a b) c d e)
    | 0x24 => some (.syncSet p a (Machine.join32 b c d e))
    | 0x48 => some (.stopSet p a b (Machine.join16 c d) e)
    | 0x52 => some (.alarmSet p a b c d e)
    | 0x5A => some (.portSelf p (Machine.join16 a b) c (Machine.join16 d e))
    | _ => none
  | [a, b, c, d, e, f] =>
    match identifier with
    | 0x40 => some (.viewSet p a b c (Machine.join16 d e) f)
    | _ => none
  | [a, b, c, d, e, f, g] =>
    match identifier with
    | 0x51 => some (.timeSet p a b c d e f g)
    | _ => none
  | [a, b, c, d, e, f, g, h] =>
    match identifier with
    | 0x20 => some (.slotSet p a b (Machine.join16 c d) e f g h)
    | _ => none
  | _ => none

/-- The command that the bytes received on port p in the REQUEST state spell: a header that the check refuses is
BAD_REQUEST at its second byte (R169), and a header with exactly its parameters is the request. Fewer or more bytes
spell no command. -/
def decodeRecord (p : Port) : List Byte → Option Instr
  | identifier :: length :: params =>
    if Machine.headerAccepted identifier length then
      if params.length = length.toNat then decodeParams p identifier.toNat params else none
    else if params.isEmpty then some (.badRequest p identifier length)
    else none
  | _ => none

end Sys2Proof
end

