-- ==== Sys2Proof/Config.lean ====
section
/-! DEFINITION. What revision 1 of the part fixes, and the one free value of the model. -/

namespace Sys2Proof.Config

/-- The model number that PART_STATUS reports (R182). -/
def modelNumber : Word16 := 432
/-- The revision that PART_STATUS reports (R182). -/
def revision : Byte := 1
/-- Bytes of one frame (01, introduction). -/
def frameBytes : Nat := 64
/-- Notices a queue holds at most (R151). -/
def queueLimit : Nat := 32
/-- Stagings one port may hold at most (R7, R18). -/
def stagingLimit : Nat := 8
/-- The highest value of a watch counter (R77). -/
def watchLimit : Nat := 65535
/-- Ticks of a second under trim 0 (R132). -/
def nominalSecond : Int := 1000000

/-- The free value of the model: where the spec lets blocks take claims "in either order" within one step, or now or
later (notes/assumptions/9.md), the choice is read from here. The first argument is a counter in State that every such step advances, the second the
number of the draw within the step. It has no body, so nothing can be proved of the order chosen
(notes/assumptions/7.md). -/
opaque order : Nat → Nat → Nat

end Sys2Proof.Config
end

