-- ==== Sys2Proof/Machine/State.lean ====
section
/-! DEFINITION. The state of the part, block by block, each block holding what its chapter says it owns; the reasons a
step can stop (there are none of the part's own); and the state after reset. Plain data throughout. -/

namespace Sys2Proof.Machine

/-! ### Part control and link ports (09) -/

/-- The part state (R178). -/
inductive PartState where
  | setup
  | run
  deriving DecidableEq, Repr

/-- The status codes of section 9.3, in the order of their numbers 0..21. -/
inductive Status where
  | ok | badRequest | badRange | wrongState | noPermission | notMapped | noRight | pageUnused | noData | inUse
  | pageBusy | notStaged | alreadyReady | noFrame | tooMany | groupFrozen | held | notHeld | planLocked
  | switchPending | nothingThere | stopActive
  deriving DecidableEq, Repr

/-- A response record: status code and body; the header's body length is the number of body bytes (R167, R175). -/
structure Response where
  status : Status
  body : List Byte
  deriving DecidableEq, Repr

/-- The data requests (R110), in the order of that rule's list. -/
inductive DataRequest where
  | read
  | stageOpen
  | stageWrite
  | stageRead
  | stageReady
  | stageDrop
  deriving DecidableEq, Repr

/-- A transfer: port page, offset 0..63 and length 1..64 with offset + length at most 64. -/
structure Transfer where
  portPage : PortPage
  offset : Fin 64
  length : Nat
  deriving DecidableEq, Repr

/-- A data request with its parameters (section 9.2). -/
inductive DataCall where
  | read (t : Transfer)
  | stageOpen (portPage : PortPage) (copy : Bool)
  | stageWrite (t : Transfer)
  | stageRead (t : Transfer)
  | stageReady (portPage : PortPage)
  | stageDrop (portPage : PortPage)
  deriving DecidableEq, Repr

/-- A set of the four claims of a port reset: the exchange map's, the hold table's, the view unit's and the notice
unit's (R183). -/
structure ResetClaims where
  stagings : Bool
  hold : Bool
  fault : Bool
  queue : Bool
  deriving DecidableEq, Repr

def ResetClaims.none : ResetClaims := { stagings := false, hold := false, fault := false, queue := false }

def ResetClaims.all : ResetClaims := { stagings := true, hold := true, fault := true, queue := true }

/-- What is still to be taken of an accepted request before its acceptance is complete: claims of a PORT_RESET (R183),
or the exchange map's claim of a data request whose view part has passed: its page part, on the exchange page that the
view part recorded, with the request's own rule (R104, R109). -/
inductive Outstanding where
  | portReset (left : ResetClaims)
  | pagePart (x : DataCall) (page : Page)
  deriving DecidableEq, Repr

/-- The five states of a port's transaction (R168), and accepted: the last parameter byte has passed and the request is
accepted, but claims of it are still outstanding, so that its response, or the data phase of a STAGE_WRITE, has not
begun. It lies before the next byte of the link (R171, R183; notes/assumptions/9.md). WRITE_DATA keeps the number of
data bytes still to come and, when the acceptance was refused, the code of the refusal (R172). RESPONSE keeps the
response record. -/
inductive TxState where
  | idle
  | request
  | accepted (o : Outstanding)
  | writeData (remaining : Nat) (refusal : Option Status)
  | response (r : Response)
  | done
  deriving DecidableEq, Repr

/-- Which of the two requests with a read data phase is in flight. -/
inductive ReadKind where
  | read
  | stageRead
  deriving DecidableEq, Repr

/-- A READ or STAGE_READ accepted and not yet completed or aborted: the exchange page it resolved to and the frame
it recorded at acceptance, on which it holds a read reference (R5, R15, R17). -/
structure ReadInFlight where
  kind : ReadKind
  page : Page
  frame : Frame
  deriving DecidableEq, Repr

/-- The write buffer of a STAGE_WRITE: the exchange page and serial recorded at acceptance, the offset, and the data
bytes that have passed (R20, R172). -/
structure WriteBuffer where
  page : Page
  serial : Word16
  offset : Nat
  data : List Byte
  deriving DecidableEq, Repr

/-- The rights part of a port record (R176). -/
structure Rights where
  map : Bool
  plan : Bool
  deriving DecidableEq, Repr

/-- One link port: its SEL pin (selected: driven low), the transaction in flight and what belongs to it, and the
rights. -/
structure LinkPort where
  selected : Bool
  tx : TxState
  received : List Byte
  write : Option WriteBuffer
  reading : Option ReadInFlight
  rights : Rights
  deriving DecidableEq, Repr

/-! ### Exchange map (01) -/

/-- OPEN or READY (R7). -/
inductive StagingState where
  | opened
  | ready
  deriving DecidableEq, Repr

/-- A staging record (R7). -/
structure Staging where
  frame : Frame
  stager : Port
  state : StagingState
  cyclesLeft : Byte
  serial : Word16
  deriving DecidableEq, Repr

/-- A page record (R1). -/
structure PageRecord where
  defined : Bool
  group : Group
  readers : PortSet
  writers : PortSet
  live : Option Frame
  sequence : Word16
  lastPublished : Option CycleCount
  readersSince : PortSet
  staging : Option Staging
  deriving DecidableEq, Repr

/-- The field values of an UNUSED page (R1). -/
def PageRecord.unused : PageRecord :=
  { defined := false, group := 0, readers := 0, writers := 0, live := none, sequence := 0, lastPublished := none,
    readersSince := 0, staging := none }

/-- Frame contents: byte o of frame f is the cell at address 64 f + o. Addresses strictly rise and no listed byte is
zero, which is what an unlisted address reads as (notes/assumptions/2.md). -/
abbrev Memory := List Host.Cell

/-- The exchange map: page table, frame contents, free list (head first), read-reference counts, retiring set
(ascending), staging serial counter, stage limit (R1 to R9). -/
structure ExchangeMap where
  pages : Vector PageRecord 320
  frames : Memory
  freeList : List Frame
  refs : Vector Nat 512
  retiring : List Frame
  serial : Word16
  stageLimit : Byte
  deriving DecidableEq, Repr

/-! ### Schedule (02) -/

/-- A slot entry (R31). -/
structure SlotEntry where
  duration : Word16
  group : Option Group
  notify : PortSet
  filterValue : CycleCount
  filterMask : CycleCount
  deriving DecidableEq, Repr

/-- A plan: 48 entries and a slot count, 1..48 (R31). -/
structure Plan where
  entries : Vector SlotEntry 48
  count : Fin 49
  deriving DecidableEq, Repr

inductive PlanName where
  | a
  | b
  deriving DecidableEq, Repr

/-- The engine state (R34). -/
inductive Engine where
  | off
  | inCycle
  | waitingSync
  deriving DecidableEq, Repr

inductive SyncMode where
  | free
  | triggered
  deriving DecidableEq, Repr

/-- The running slot timer: ticks elapsed, and the duration the entry held when the slot began (R34, R38). -/
structure SlotTimer where
  elapsed : Nat
  duration : Nat
  deriving DecidableEq, Repr

/-- The schedule (R34), its output CYCLE_OUT (R40; high: true), and whether SYNC_IN has risen since it was last sampled, so
that the next tick finds the edge (R42, notes/assumptions/15.md). A timer that is stopped is none. -/
structure Schedule where
  planA : Plan
  planB : Plan
  active : PlanName
  pendingSwitch : Bool
  engine : Engine
  firstCycle : Bool
  cycleCount : CycleCount
  slotIndex : SlotNo
  slotTimer : Option SlotTimer
  syncMode : SyncMode
  gapLimit : Nat
  gapTimer : Option Nat
  cycleOut : Bool
  syncRise : Bool
  deriving DecidableEq, Repr

/-! ### Publication unit (03) -/

/-- The last outcome of a group (R57), in the order of that rule's list. -/
inductive GroupOutcome where
  | noOutcome
  | published
  | deferred
  | frozen
  | catchUp
  | dropped
  deriving DecidableEq, Repr

/-- A group status record (R57). -/
structure GroupStatus where
  last : GroupOutcome
  cycle : CycleCount
  published : Nat
  late : Nat
  mark : Bool
  deriving DecidableEq, Repr

inductive WatchEvent where
  | publishedPages
  | latePages
  | deferredPoints
  | frozenPoints
  deriving DecidableEq, Repr

inductive WatchMode where
  | cycle
  | accumulate
  deriving DecidableEq, Repr

/-- A watch counter (R77). -/
structure Watch where
  group : Group
  event : WatchEvent
  mode : WatchMode
  value : Nat
  running : Nat
  deriving DecidableEq, Repr

structure PublicationUnit where
  groups : Vector GroupStatus 16
  watches : Vector Watch 4
  deriving DecidableEq, Repr

/-! ### Hold table (04) -/

/-- A hold record (R85). -/
structure Hold where
  groups : GroupSet
  cyclesLeft : Nat
  deriving DecidableEq, Repr

structure HoldTable where
  records : Vector (Option Hold) 4
  limit : Nat
  deriving DecidableEq, Repr

/-! ### View unit (05) -/

/-- A present view entry (R99). -/
structure ViewEntry where
  page : Page
  read : Bool
  stage : Bool
  deriving DecidableEq, Repr

/-- The cause of a fault (R110). -/
inductive FaultCause where
  | notMapped
  | noRight
  | pageUnused
  deriving DecidableEq, Repr

/-- An occupied fault record (R110). -/
structure FaultRecord where
  cause : FaultCause
  request : DataRequest
  portPage : PortPage
  offset : Fin 64
  cycle : CycleCount
  repeated : Bool
  deriving DecidableEq, Repr

structure ViewUnit where
  views : Vector (Vector (Option ViewEntry) 128) 4
  faults : Vector (Option FaultRecord) 4
  deriving DecidableEq, Repr

/-! ### Stop unit (06) -/

inductive StopMode where
  | follow
  | latch
  deriving DecidableEq, Repr

/-- A pending filter change (R117). -/
structure PendingChange where
  level : Level
  timer : Nat
  deriving DecidableEq, Repr

/-- One stop line (R117): its pin, the settings, and the state. -/
structure StopLine where
  pin : Level
  filterTime : Byte
  freeze : GroupSet
  mode : StopMode
  input : Level
  filtered : Level
  stop : Level
  pending : Option PendingChange
  deriving DecidableEq, Repr

/-- Both lines and the frozen group set (R127). -/
structure StopUnit where
  lines : Vector StopLine 2
  frozen : GroupSet
  deriving DecidableEq, Repr

/-! ### Timebase (07) -/

/-- A calendar record (R137). -/
structure Calendar where
  year : Nat
  month : Nat
  day : Nat
  hour : Nat
  minute : Nat
  second : Nat
  weekday : Nat
  deriving DecidableEq, Repr

inductive AlarmAction where
  | notice
  | noticeAndSwitch
  deriving DecidableEq, Repr

/-- The alarm record (R142). -/
structure Alarm where
  enabled : Bool
  weekdays : WeekdaySet
  hour : Nat
  minute : Nat
  action : AlarmAction
  deriving DecidableEq, Repr

/-- The timebase (R132). The pending alarm answer holds the second of day of its match. -/
structure Timebase where
  tickCount : Nat
  trim : Int
  stagedTrim : Option Int
  calendar : Calendar
  stagedTime : Option Calendar
  alarm : Alarm
  pendingAlarm : Option Nat
  deriving DecidableEq, Repr

/-! ### Notice unit (08) -/

inductive StopEvent where
  | active
  | inactive
  | inputReleased
  deriving DecidableEq, Repr

inductive SyncDetail where
  | early
  | missed
  deriving DecidableEq, Repr

/-- A notice's kind with the fields of its kind (R153). -/
inductive NoticeBody where
  | groupPoint (group : Group) (outcome : GroupOutcome) (published late : Nat)
  | late (page : Page) (group : Group)
  | stageExpired (page : Page) (serial : Word16)
  | holdBroken (groups : GroupSet)
  | slot (slot : SlotNo)
  | alarm (requested taken : Bool)
  | stop (line : Line) (event : StopEvent)
  | planSwitched (plan : PlanName)
  | sync (detail : SyncDetail)
  deriving DecidableEq, Repr

/-- A notice's stamp (R152). -/
structure Stamp where
  cycle : CycleCount
  slot : SlotNo
  second : Nat
  deriving DecidableEq, Repr

structure Notice where
  stamp : Stamp
  body : NoticeBody
  deriving DecidableEq, Repr

/-- What the notice unit holds for one port (R151, R159, R161, R162): queue (head first), lost flag, subscription
part, fault occupancy as last reported, and the ATTN line (asserted: true). -/
structure NoticePort where
  queue : List Notice
  lost : Bool
  subscription : GroupSet
  kinds : KindSet
  attention : AttentionSet
  faultOccupied : Bool
  attn : Bool
  deriving DecidableEq, Repr

structure NoticeUnit where
  ports : Vector NoticePort 4
  deriving DecidableEq, Repr

/-! ### The whole part -/

/-- The part: the commands waiting (first in, first out), the counter of free orders (the model's own field), whether
RESET is held, and the blocks. -/
structure State where
  pending : List Instr
  choices : Nat
  inReset : Bool
  part : PartState
  link : Vector LinkPort 4
  map : ExchangeMap
  sched : Schedule
  pub : PublicationUnit
  hold : HoldTable
  view : ViewUnit
  stop : StopUnit
  time : Timebase
  notice : NoticeUnit
  deriving DecidableEq, Repr

/-- Reasons for which the part stops in an error. It has none: "The part has no error state of its own" (R175), so no
command of the model raises one. Safe: nothing is stopped that goes on. -/
inductive Fault where
  deriving DecidableEq, Repr

/-- Reasons for which the model has no meaning for a command. -/
inductive Refusal where
  /-- Raised by an arm of exec whose command has no meaning yet, with the row's mnemonic; no arm raises it. Safe. -/
  | notModelled (mnemonic : String)
  deriving DecidableEq, Repr

/-! ### Replacing one field -/

def State.setPending (s : State) (q : List Instr) : State := { s with pending := q }
def State.setChoices (s : State) (n : Nat) : State := { s with choices := n }
def State.setInReset (s : State) (b : Bool) : State := { s with inReset := b }
def State.setPart (s : State) (x : PartState) : State := { s with part := x }
def State.setLink (s : State) (x : Vector LinkPort 4) : State := { s with link := x }
def State.setMap (s : State) (x : ExchangeMap) : State := { s with map := x }
def State.setSched (s : State) (x : Schedule) : State := { s with sched := x }
def State.setPub (s : State) (x : PublicationUnit) : State := { s with pub := x }
def State.setHold (s : State) (x : HoldTable) : State := { s with hold := x }
def State.setView (s : State) (x : ViewUnit) : State := { s with view := x }
def State.setStop (s : State) (x : StopUnit) : State := { s with stop := x }
def State.setTime (s : State) (x : Timebase) : State := { s with time := x }
def State.setNotice (s : State) (x : NoticeUnit) : State := { s with notice := x }

/-! ### Reset values -/

/-- A port in IDLE with no rights (R186); SEL high (notes/assumptions/3.md). -/
def LinkPort.reset : LinkPort :=
  { selected := false, tx := .idle, received := [], write := none, reading := none,
    rights := { map := false, plan := false } }

/-- The exchange map after part reset (R28); frame contents: notes/assumptions/2.md. -/
def ExchangeMap.reset : ExchangeMap :=
  { pages := Vector.replicate 320 PageRecord.unused, frames := [], freeList := List.finRange 512,
    refs := Vector.replicate 512 0, retiring := [], serial := 0, stageLimit := 8 }

/-- A slot entry after part reset (R54). -/
def SlotEntry.reset : SlotEntry :=
  { duration := 1000, group := none, notify := 0, filterValue := 0, filterMask := 0 }

/-- A plan after part reset (R54). -/
def Plan.reset : Plan := { entries := Vector.replicate 48 SlotEntry.reset, count := 1 }

/-- The schedule after part reset (R54). -/
def Schedule.reset : Schedule :=
  { planA := Plan.reset, planB := Plan.reset, active := .a, pendingSwitch := false, engine := .off,
    firstCycle := false, cycleCount := 0, slotIndex := 0, slotTimer := none, syncMode := .free, gapLimit := 0,
    gapTimer := none, cycleOut := false, syncRise := false }

/-- The publication unit after part reset (R82). -/
def PublicationUnit.reset : PublicationUnit :=
  { groups := Vector.replicate 16 { last := .noOutcome, cycle := 0, published := 0, late := 0, mark := false },
    watches := Vector.replicate 4
      { group := 0, event := .publishedPages, mode := .cycle, value := 0, running := 0 } }

/-- The hold table after part reset (R97). -/
def HoldTable.reset : HoldTable := { records := Vector.replicate 4 none, limit := 2 }

/-- The view unit after part reset (R114). -/
def ViewUnit.reset : ViewUnit :=
  { views := Vector.replicate 4 (Vector.replicate 128 none), faults := Vector.replicate 4 none }

/-- A stop line after part reset (R130); pin and input level: notes/assumptions/3.md. -/
def StopLine.reset : StopLine :=
  { pin := .inactive, filterTime := 0, freeze := 0, mode := .follow, input := .inactive, filtered := .inactive,
    stop := .inactive, pending := none }

/-- The stop unit after part reset (R130). -/
def StopUnit.reset : StopUnit := { lines := Vector.replicate 2 StopLine.reset, frozen := 0 }

/-- The timebase after part reset (R148). -/
def Timebase.reset : Timebase :=
  { tickCount := 0, trim := 0, stagedTrim := none,
    calendar := { year := 0, month := 1, day := 1, hour := 0, minute := 0, second := 0, weekday := 6 },
    stagedTime := none,
    alarm := { enabled := false, weekdays := 0, hour := 0, minute := 0, action := .notice },
    pendingAlarm := none }

/-- The notice unit's part of one port after part reset (R163). -/
def NoticePort.reset : NoticePort :=
  { queue := [], lost := false, subscription := 0, kinds := 0, attention := 0, faultOccupied := false, attn := false }

/-- The part right after reset: every block at its reset values, RESET just released, nothing waiting
(notes/assumptions/1.md, 3.md, 7.md for what the spec does not give). -/
def State.reset : State :=
  { pending := [], choices := 0, inReset := false, part := .setup, link := Vector.replicate 4 LinkPort.reset,
    map := ExchangeMap.reset, sched := Schedule.reset, pub := PublicationUnit.reset, hold := HoldTable.reset,
    view := ViewUnit.reset, stop := StopUnit.reset, time := Timebase.reset,
    notice := { ports := Vector.replicate 4 NoticePort.reset } }

end Sys2Proof.Machine
end

