-- ==== Sys2Proof/Machine/Operands.lean ====
section
/-! DEFINITION. The range checks of R170: each function reads the wire fields of a request and gives the values they
stand for, or none where the request is answered BAD_RANGE. -/

namespace Sys2Proof.Machine

/-- A number below n. -/
def finOf? (n x : Nat) : Option (Fin n) := if h : x < n then some ⟨x, h⟩ else none

def portOf? (b : Byte) : Option Port := finOf? 4 b.toNat
def groupOf? (b : Byte) : Option Group := finOf? 16 b.toNat
def pageOf? (w : Word16) : Option Page := finOf? 320 w.toNat
def portPageOf? (b : Byte) : Option PortPage := finOf? 128 b.toNat
def slotOf? (b : Byte) : Option SlotNo := finOf? 48 b.toNat
def lineOf? (b : Byte) : Option Line := finOf? 2 b.toNat
def watchOf? (b : Byte) : Option WatchNo := finOf? 4 b.toNat

/-- A number in lo..hi. -/
def rangeOf? (lo hi x : Nat) : Option Nat := if lo ≤ x ∧ x ≤ hi then some x else none

/-- A mask byte with zero in every bit outside positions 0..w-1 (R170). -/
def maskOf? (w : Nat) (b : Byte) : Option (BitVec w) := if b.toNat < 2 ^ w then some (b.setWidth w) else none

/-- A yes/no byte holds 0 or 1 (R170). -/
def boolOf? (b : Byte) : Option Bool := if b = 0 then some false else if b = 1 then some true else none

/-- A byte of two packed flags: zero outside bits 0 and 1 (R170, R174). -/
def twoFlagsOf? (b : Byte) : Option (Bool × Bool) :=
  if b.toNat < 4 then some (b.getLsbD 0, b.getLsbD 1) else none

def planOf? (b : Byte) : Option PlanName := if b = 0 then some .a else if b = 1 then some .b else none

def syncModeOf? (b : Byte) : Option SyncMode :=
  if b = 0 then some .free else if b = 1 then some .triggered else none

def stopModeOf? (b : Byte) : Option StopMode := if b = 0 then some .follow else if b = 1 then some .latch else none

def watchEventOf? (b : Byte) : Option WatchEvent :=
  if b = 0 then some .publishedPages
  else if b = 1 then some .latePages
  else if b = 2 then some .deferredPoints
  else if b = 3 then some .frozenPoints
  else none

def watchModeOf? (b : Byte) : Option WatchMode := if b = 0 then some .cycle else if b = 1 then some .accumulate else none

def alarmActionOf? (b : Byte) : Option AlarmAction :=
  if b = 0 then some .notice else if b = 1 then some .noticeAndSwitch else none

/-- The publish group of a slot entry: none is sent as 255 (R167). -/
def slotGroupOf? (b : Byte) : Option (Option Group) := if b = 255 then some none else (groupOf? b).map some

/-- PORT_RIGHTS_SET: target port and rights byte (R177). -/
def rightsParams (target rights : Byte) : Option (Port × Rights) := do
  let t ← portOf? target
  let r ← twoFlagsOf? rights
  return (t, { map := r.1, plan := r.2 })

/-- The page definition that DEFINE_PAGE and PAGE_SET carry. -/
structure PageParams where
  page : Page
  group : Group
  readers : PortSet
  writers : PortSet
  deriving DecidableEq, Repr

/-- DEFINE_PAGE and PAGE_SET (R10, R11). -/
def pageParams (page : Word16) (group readers writers : Byte) : Option PageParams := do
  let i ← pageOf? page
  let g ← groupOf? group
  let r ← maskOf? 4 readers
  let w ← maskOf? 4 writers
  return { page := i, group := g, readers := r, writers := w }

/-- READ, STAGE_WRITE and STAGE_READ (section 1.5, R20, R170). -/
def transferParams (portPage offset length : Byte) : Option Transfer := do
  let pp ← portPageOf? portPage
  let o ← finOf? 64 offset.toNat
  let n ← rangeOf? 1 (64 - o.val) length.toNat
  return { portPage := pp, offset := o, length := n }

/-- STAGE_OPEN: port page and copy choice (R18). -/
def stageOpenParams (portPage copy : Byte) : Option (PortPage × Bool) := do
  let pp ← portPageOf? portPage
  let c ← boolOf? copy
  return (pp, c)

/-- The entry that SLOT_SET carries (R46). -/
structure SlotParams where
  plan : PlanName
  slot : SlotNo
  entry : SlotEntry
  deriving DecidableEq, Repr

/-- SLOT_SET (R46). -/
def slotParams (plan slot : Byte) (duration : Word16) (group notify value mask : Byte) : Option SlotParams := do
  let n ← planOf? plan
  let k ← slotOf? slot
  let _ ← rangeOf? 20 65535 duration.toNat
  let g ← slotGroupOf? group
  let ports ← maskOf? 4 notify
  let v ← maskOf? 6 value
  let m ← maskOf? 6 mask
  return { plan := n, slot := k,
           entry := { duration := duration, group := g, notify := ports, filterValue := v, filterMask := m } }

/-- A slot count 1..48. -/
def slotCountOf? (b : Byte) : Option (Fin 49) := if b.toNat = 0 then none else finOf? 49 b.toNat

/-- PLAN_LENGTH (R47). -/
def planLengthParams (plan count : Byte) : Option (PlanName × Fin 49) := do
  let n ← planOf? plan
  let c ← slotCountOf? count
  return (n, c)

/-- What PLAN_READ asks for. -/
structure PlanReadParams where
  plan : PlanName
  first : Nat
  number : Nat
  deriving DecidableEq, Repr

/-- PLAN_READ: first index 0..47, number 1..16, first + number at most 48 (R49). -/
def planReadParams (plan first number : Byte) : Option PlanReadParams := do
  let n ← planOf? plan
  let i ← rangeOf? 0 47 first.toNat
  let c ← rangeOf? 1 16 number.toNat
  if i + c ≤ 48 then some { plan := n, first := i, number := c } else none

/-- A gap limit: 0, or 100..1,000,000 (R41). -/
def gapLimitOf? (w : Word32) : Option Nat :=
  if w.toNat = 0 then some 0 else rangeOf? 100 1000000 w.toNat

/-- SYNC_SET (R41). -/
def syncParams (mode : Byte) (gap : Word32) : Option (SyncMode × Nat) := do
  let m ← syncModeOf? mode
  let g ← gapLimitOf? gap
  return (m, g)

/-- What WATCH_SET carries. -/
structure WatchParams where
  counter : WatchNo
  group : Group
  event : WatchEvent
  mode : WatchMode
  deriving DecidableEq, Repr

/-- WATCH_SET (R80). -/
def watchParams (counter group event mode : Byte) : Option WatchParams := do
  let c ← watchOf? counter
  let g ← groupOf? group
  let e ← watchEventOf? event
  let m ← watchModeOf? mode
  return { counter := c, group := g, event := e, mode := m }

/-- HOLD: a nonempty group set (R87). -/
def holdParams (groups : Word16) : Option GroupSet := if groups = 0 then none else some groups

/-- What VIEW_SET carries. -/
structure ViewParams where
  target : Port
  portPage : PortPage
  entry : Option ViewEntry
  deriving DecidableEq, Repr

/-- The entry of VIEW_SET: with the entry absent, page and rights are not examined (R101, R170). The presence byte
holds 0 or 1 (notes/assumptions/14.md). -/
def viewEntryOf? (presence : Byte) (page : Word16) (rights : Byte) : Option (Option ViewEntry) := do
  let present ← boolOf? presence
  if present then do
    let i ← pageOf? page
    let r ← twoFlagsOf? rights
    return some { page := i, read := r.1, stage := r.2 }
  else return none

/-- VIEW_SET (R101). -/
def viewParams (target portPage presence : Byte) (page : Word16) (rights : Byte) : Option ViewParams := do
  let t ← portOf? target
  let pp ← portPageOf? portPage
  let e ← viewEntryOf? presence page rights
  return { target := t, portPage := pp, entry := e }

/-- VIEW_GET (R103). -/
def viewGetParams (target portPage : Byte) : Option (Port × PortPage) := do
  let t ← portOf? target
  let pp ← portPageOf? portPage
  return (t, pp)

/-- The settings that STOP_SET carries. -/
structure StopParams where
  line : Line
  filterTime : Byte
  freeze : GroupSet
  mode : StopMode
  deriving DecidableEq, Repr

/-- STOP_SET (R118). -/
def stopParams (line filterTime : Byte) (freeze : Word16) (mode : Byte) : Option StopParams := do
  let l ← lineOf? line
  let m ← stopModeOf? mode
  return { line := l, filterTime := filterTime, freeze := freeze, mode := m }

/-- TRIM_SET: a 16-bit two's-complement number in -2000..+2000 (R135, R167). -/
def trimOf? (w : Word16) : Option Int :=
  if -2000 ≤ w.toInt ∧ w.toInt ≤ 2000 then some w.toInt else none

/-- A year divisible by 4 is a leap year (R137). -/
def isLeap (year : Nat) : Bool := year % 4 == 0

/-- The length of a month in a year (R137). -/
def monthLength (year month : Nat) : Nat :=
  match month with
  | 2 => if isLeap year then 29 else 28
  | 4 => 30
  | 6 => 30
  | 9 => 30
  | 11 => 30
  | _ => 31

/-- A valid date and time (R137). -/
def Calendar.valid (c : Calendar) : Bool :=
  decide (c.year ≤ 99) && decide (1 ≤ c.month) && decide (c.month ≤ 12) && decide (1 ≤ c.day) &&
    decide (c.day ≤ monthLength c.year c.month) && decide (c.hour ≤ 23) && decide (c.minute ≤ 59) &&
    decide (c.second ≤ 59) && decide (c.weekday ≤ 6)

/-- TIME_SET: the record is checked as a whole (R139). -/
def timeParams (year month day hour minute second weekday : Byte) : Option Calendar :=
  let c : Calendar :=
    { year := year.toNat, month := month.toNat, day := day.toNat, hour := hour.toNat, minute := minute.toNat,
      second := second.toNat, weekday := weekday.toNat }
  if c.valid then some c else none

/-- ALARM_SET (R142). -/
def alarmParams (enabled weekdays hour minute action : Byte) : Option Alarm := do
  let e ← boolOf? enabled
  let d ← maskOf? 7 weekdays
  let h ← rangeOf? 0 23 hour.toNat
  let m ← rangeOf? 0 59 minute.toNat
  let a ← alarmActionOf? action
  return { enabled := e, weekdays := d, hour := h, minute := m, action := a }

/-- The subscription part that PORT_SELF carries. -/
structure SelfParams where
  subscription : GroupSet
  kinds : KindSet
  attention : AttentionSet
  deriving DecidableEq, Repr

/-- PORT_SELF: four kind positions and eleven attention positions, all other bits zero (R159). -/
def selfParams (groups : Word16) (kinds : Byte) (attention : Word16) : Option SelfParams := do
  let k ← maskOf? 4 kinds
  if attention.toNat < 2 ^ 11 then
    some { subscription := groups, kinds := k, attention := attention.setWidth 11 }
  else none

end Sys2Proof.Machine
end

