-- ==== Sys2Proof/Machine/Memory.lean ====
section
/-! DEFINITION. Frame contents: 512 frames of 64 bytes (01, introduction), one byte read and one byte write, and the
wider accesses built from them. -/

namespace Sys2Proof.Machine

/-- What a byte address holds; an unlisted one reads as zero (notes/assumptions/2.md). -/
def Memory.read : Memory → Nat → Byte
  | [], _ => 0
  | (x, v) :: rest, a => if x = a then v else Memory.read rest a

/-- One byte written, the list kept canonical: writing zero removes the entry. -/
def Memory.write : Memory → Nat → Byte → Memory
  | [], a, b => if b = 0 then [] else [(a, b)]
  | (x, v) :: rest, a, b =>
    if a < x then (if b = 0 then (x, v) :: rest else (a, b) :: (x, v) :: rest)
    else if a = x then (if b = 0 then rest else (a, b) :: rest)
    else (x, v) :: Memory.write rest a b

/-- Bytes written to rising addresses from a. -/
def Memory.writeBytes : Memory → Nat → List Byte → Memory
  | m, _, [] => m
  | m, a, b :: bs => Memory.writeBytes (Memory.write m a b) (a + 1) bs

/-- Addresses strictly rise from lo, lie in the 32 KiB of exchange memory, and no listed byte is zero. -/
def Memory.wfFrom : Nat → Memory → Bool
  | _, [] => true
  | lo, (x, v) :: rest => decide (lo ≤ x) && decide (x < 32768) && decide (v ≠ 0) && Memory.wfFrom (x + 1) rest

/-- The canonical form. -/
def Memory.wf (m : Memory) : Bool := Memory.wfFrom 0 m

/-- The address of byte o of frame f. -/
def frameAddress (f : Frame) (o : Nat) : Nat := Config.frameBytes * f.val + o

/-- Bytes offset .. offset + length - 1 of frame f. -/
def Memory.readFrame (m : Memory) (f : Frame) (offset length : Nat) : List Byte :=
  (List.range length).map fun i => Memory.read m (frameAddress f (offset + i))

/-- The bytes of frame f from offset onward replaced by data (R21); a frame has 64 bytes and no more. -/
def Memory.writeFrame (m : Memory) (f : Frame) (offset : Nat) (data : List Byte) : Memory :=
  Memory.writeBytes m (frameAddress f offset) (data.take (Config.frameBytes - offset))

end Sys2Proof.Machine
end

