-- ==== Sys2Proof/Machine/Flags.lean ====
section
/-! DEFINITION. The conditions that the part computes from its state: set membership, filter match, coverage by holds,
the frozen group set, the attention line, the numbers of named values. -/

namespace Sys2Proof.Machine

/-- One value for each port. -/
def forPorts {α : Type} (f : Port → α) : Vector α 4 := #v[f 0, f 1, f 2, f 3]

/-- The ports of a set, ascending. -/
def portsOf (set : PortSet) : List Port := (List.finRange 4).filter fun p => set.getLsbD p.val

/-- The groups of a set, ascending. -/
def groupsOf (set : GroupSet) : List Group := (List.finRange 16).filter fun g => set.getLsbD g.val

/-- A port set with one more member. -/
def PortSet.join (set : PortSet) (p : Port) : PortSet := set ||| BitVec.twoPow 4 p.val

/-- The cycle count agrees with the filter value in every position the mask selects (R32). -/
def filterMatches (count value mask : CycleCount) : Bool := ((count ^^^ value) &&& mask) == 0

/-! ### Holds (R86) -/

/-- The groups a hold record names; none for an absent record. -/
def Hold.groupsOf? : Option Hold → GroupSet
  | none => 0
  | some h => h.groups

/-- The groups covered by at least one record (R86). -/
def HoldTable.covered (h : HoldTable) : GroupSet :=
  Hold.groupsOf? h.records[(0 : Port)] ||| Hold.groupsOf? h.records[(1 : Port)] |||
    Hold.groupsOf? h.records[(2 : Port)] ||| Hold.groupsOf? h.records[(3 : Port)]

/-- Whether any record covers g (R86). -/
def HoldTable.covers (h : HoldTable) (g : Group) : Bool := h.covered.getLsbD g.val

/-- The ports whose record contains g, as a mask (R76, R86). -/
def HoldTable.holders (h : HoldTable) (g : Group) : PortSet :=
  (List.finRange 4).foldl
    (fun set p => if (Hold.groupsOf? h.records[p]).getLsbD g.val then PortSet.join set p else set) 0

/-! ### Stop unit (R127) -/

/-- What a line adds to the frozen group set. -/
def StopLine.frozenPart (l : StopLine) : GroupSet :=
  match l.stop with
  | .active => l.freeze
  | .inactive => 0

/-- The union of the freeze sets of the lines whose stop state is ACTIVE (R127). -/
def StopUnit.frozenUnion (u : StopUnit) : GroupSet :=
  u.lines[(0 : Line)].frozenPart ||| u.lines[(1 : Line)].frozenPart

/-- Whether g is in the frozen group set. -/
def StopUnit.isFrozen (u : StopUnit) (g : Group) : Bool := u.frozen.getLsbD g.val

/-- Whether the stop state of at least one line is ACTIVE (R40). -/
def StopUnit.anyActive (u : StopUnit) : Bool :=
  decide (u.lines[(0 : Line)].stop = .active) || decide (u.lines[(1 : Line)].stop = .active)

/-! ### Notice kinds and the attention line -/

/-- A kind's position in the attention set: its kind number less one (R155, R167). -/
def NoticeBody.attentionBit : NoticeBody → Nat
  | .groupPoint .. => 0
  | .late .. => 1
  | .stageExpired .. => 2
  | .holdBroken .. => 3
  | .slot .. => 4
  | .alarm .. => 5
  | .stop .. => 6
  | .planSwitched .. => 7
  | .sync .. => 8

/-- The condition under which a port's attention line is asserted (R161). -/
def NoticePort.attentionCondition (n : NoticePort) : Bool :=
  n.queue.any (fun x => n.attention.getLsbD x.body.attentionBit) ||
    (n.faultOccupied && n.attention.getLsbD 9) || (n.lost && n.attention.getLsbD 10)

/-! ### Numbers of named values -/

/-- A status code's number (section 9.3). -/
def Status.code : Status → Nat
  | .ok => 0
  | .badRequest => 1
  | .badRange => 2
  | .wrongState => 3
  | .noPermission => 4
  | .notMapped => 5
  | .noRight => 6
  | .pageUnused => 7
  | .noData => 8
  | .inUse => 9
  | .pageBusy => 10
  | .notStaged => 11
  | .alreadyReady => 12
  | .noFrame => 13
  | .tooMany => 14
  | .groupFrozen => 15
  | .held => 16
  | .notHeld => 17
  | .planLocked => 18
  | .switchPending => 19
  | .nothingThere => 20
  | .stopActive => 21

/-- The other named values, each by its position in the list of its owning rule (R167). -/
def PartState.code : PartState → Byte
  | .setup => 0
  | .run => 1

def Engine.code : Engine → Byte
  | .off => 0
  | .inCycle => 1
  | .waitingSync => 2

def PlanName.code : PlanName → Byte
  | .a => 0
  | .b => 1

def GroupOutcome.code : GroupOutcome → Byte
  | .noOutcome => 0
  | .published => 1
  | .deferred => 2
  | .frozen => 3
  | .catchUp => 4
  | .dropped => 5

def WatchEvent.code : WatchEvent → Byte
  | .publishedPages => 0
  | .latePages => 1
  | .deferredPoints => 2
  | .frozenPoints => 3

def WatchMode.code : WatchMode → Byte
  | .cycle => 0
  | .accumulate => 1

def FaultCause.code : FaultCause → Byte
  | .notMapped => 0
  | .noRight => 1
  | .pageUnused => 2

def DataRequest.code : DataRequest → Byte
  | .read => 0
  | .stageOpen => 1
  | .stageWrite => 2
  | .stageRead => 3
  | .stageReady => 4
  | .stageDrop => 5

def levelCode : Level → Byte
  | .inactive => 0
  | .active => 1

def StopMode.code : StopMode → Byte
  | .follow => 0
  | .latch => 1

def AlarmAction.code : AlarmAction → Byte
  | .notice => 0
  | .noticeAndSwitch => 1

/-- The stop events in a notice record are numbered from 1 (R155). -/
def StopEvent.code : StopEvent → Byte
  | .active => 1
  | .inactive => 2
  | .inputReleased => 3

/-- The sync details in a notice record are numbered from 1 (R155). -/
def SyncDetail.code : SyncDetail → Byte
  | .early => 1
  | .missed => 2

end Sys2Proof.Machine
end

