-- ==== Sys2Proof/Machine/Ops.lean ====
section
/-! DEFINITION. The operations every family shares: free orders, the link port's handling of a request (acceptance,
refusal, answer), stamps, and the notice unit's claims. -/

namespace Sys2Proof.Machine

/-! ### Free orders -/

/-- The i-th draw of this step from the free value (notes/assumptions/7.md). -/
def State.draw (s : State) (i : Nat) : Nat := Config.order s.choices i

/-- The next step draws afresh. -/
def State.bump (s : State) : State := s.setChoices (s.choices + 1)

/-- x placed into a list at a position that k chooses among all positions. -/
def insertAt {α : Type} (k : Nat) (x : α) (l : List α) : List α :=
  match l with
  | [] => [x]
  | y :: ys =>
    match k % (ys.length + 2) with
    | 0 => x :: y :: ys
    | n + 1 => (y :: ys).take (n + 1) ++ x :: (y :: ys).drop (n + 1)

/-- A list in an order that the draws choose among all orders. -/
def shuffle {α : Type} (pick : Nat → Nat) : Nat → List α → List α
  | _, [] => []
  | i, x :: xs => insertAt (pick i) x (shuffle pick (i + 1) xs)

/-- How many leading elements of a list end with the last one that must stay ahead of x. -/
def ahead {α : Type} (before : α → α → Bool) (x : α) : List α → Nat
  | [] => 0
  | y :: ys =>
    match ahead before x ys with
    | 0 => if before y x then 1 else 0
    | n + 1 => n + 2

/-- x placed into a list at a position that k chooses among all those behind the elements that must stay ahead of it. -/
def place {α : Type} (before : α → α → Bool) (k : Nat) (x : α) (l : List α) : List α :=
  l.take (ahead before x l) ++ insertAt k x (l.drop (ahead before x l))

/-- The elements of a list placed one by one into placed: an order that the draws choose among all those in which an
element stays ahead of each later one that it is before. -/
def arrange {α : Type} (before : α → α → Bool) (pick : Nat → Nat) : Nat → List α → List α → List α
  | _, placed, [] => placed
  | i, placed, x :: xs => arrange before pick (i + 1) (place before (pick i) x placed) xs

/-! ### Link ports -/

def State.port (s : State) (p : Port) : LinkPort := s.link[p]

def State.setPort (s : State) (p : Port) (l : LinkPort) : State := s.setLink (s.link.set p l)

/-- Port p is in REQUEST, so that header and parameter bytes are taken (R168); during part reset the ports take no
select (R185). -/
def State.awaitsRequest (s : State) (p : Port) : Bool := !s.inReset && decide ((s.port p).tx = .request)

/-- The header and parameter bytes of a request have passed (R168). -/
def State.receive (s : State) (p : Port) (bytes : List Byte) : State :=
  s.setPort p { s.port p with received := bytes }

/-- The answer is complete and the response begins (R168, R171, R175). -/
def State.answer (s : State) (p : Port) (status : Status) (body : List Byte) : State :=
  s.setPort p { s.port p with tx := .response { status := status, body := body } }

/-- The two rights (R176). -/
inductive RightName where
  | map
  | plan
  deriving DecidableEq, Repr

/-- Whether port p holds a right (R176). -/
def State.holdsRight (s : State) (p : Port) : RightName → Bool
  | .map => (s.port p).rights.map
  | .plan => (s.port p).rights.plan

/-- The rights check of R170: in RUN, a request that needs a right from a port without it; in SETUP no right is
checked. -/
def State.lacksRight (s : State) (p : Port) : Option RightName → Bool
  | none => false
  | some r => decide (s.part = .run) && !s.holdsRight p r

/-- A request whose last parameter byte passes on port p (R168, R170, R171): the range check, then the rights check,
then acceptance, which hands it to its block (act). On a port that is not in REQUEST the bytes are no request and
nothing changes (notes/assumptions/6.md). -/
def State.serve {α : Type} (s : State) (p : Port) (record : List Byte) (right : Option RightName)
    (params : Option α) (act : α → State → State) : State :=
  if s.awaitsRequest p then
    match params with
    | none => (s.receive p record).answer p .badRange []
    | some a =>
      if s.lacksRight p right then (s.receive p record).answer p .noPermission []
      else act a (s.receive p record)
  else s

/-- A request that its owning rule allows in SETUP only is answered WRONG_STATE in RUN (section 9.2). -/
def State.inSetup (s : State) (p : Port) (act : State → State) : State :=
  if s.part = .setup then act s else s.answer p .wrongState []

/-- While RESET is held every block holds its reset values, so its events do not happen (R185). -/
def State.unlessReset (s : State) (act : State → State) : State := if s.inReset then s else act s

/-! ### Stamps -/

/-- The second of day of a calendar (R147). -/
def Calendar.secondOfDay (c : Calendar) : Nat := c.hour * 3600 + c.minute * 60 + c.second

/-- The stamp of a notice sent now (R147, R152). -/
def State.stamp (s : State) : Stamp :=
  { cycle := s.sched.cycleCount, slot := s.sched.slotIndex, second := s.time.calendar.secondOfDay }

/-! ### The notice unit -/

/-- The four kinds that a port chooses to accept, by their bits (R159, R167). -/
inductive AcceptedKind where
  | alarm
  | stop
  | planSwitched
  | sync
  deriving DecidableEq, Repr

def AcceptedKind.bit : AcceptedKind → Nat
  | .alarm => 0
  | .stop => 1
  | .planSwitched => 2
  | .sync => 3

/-- How a notice finds its ports (R153). -/
inductive Recipients where
  | port (p : Port)
  | subscribers (g : Group)
  | accepting (k : AcceptedKind)
  deriving DecidableEq, Repr

/-- A notice on its way to the notice unit. -/
structure Message where
  recipients : Recipients
  notice : Notice
  deriving DecidableEq, Repr

/-- Whether a notice goes to port p, under the subscription part p holds when the notice is taken (R153). -/
def Recipients.reach (r : Recipients) (p : Port) (n : NoticePort) : Bool :=
  match r with
  | .port q => decide (p = q)
  | .subscribers g => n.subscription.getLsbD g.val
  | .accepting k => n.kinds.getLsbD k.bit

/-- The attention line brought up to date (R161). -/
def NoticePort.refresh (n : NoticePort) : NoticePort := { n with attn := n.attentionCondition }

/-- A notice joins the queue, or is discarded at a full queue, which sets the lost flag (R151, R154). -/
def NoticePort.append (n : NoticePort) (x : Notice) : NoticePort :=
  if n.queue.length < Config.queueLimit then NoticePort.refresh { n with queue := n.queue ++ [x] }
  else NoticePort.refresh { n with lost := true }

/-- The head is removed; a removal that empties the queue clears the lost flag (R157). -/
def NoticePort.pop (n : NoticePort) : NoticePort :=
  NoticePort.refresh { n with queue := n.queue.tail, lost := n.lost && !n.queue.tail.isEmpty }

/-- The queue emptied and the lost flag cleared (R165). -/
def NoticePort.clear (n : NoticePort) : NoticePort := NoticePort.refresh { n with queue := [], lost := false }

/-- The view unit's report of the fault record's occupancy (R162). -/
def NoticePort.reportFault (n : NoticePort) (occupied : Bool) : NoticePort :=
  NoticePort.refresh { n with faultOccupied := occupied }

/-- The claims that the other blocks bring to the notice unit. -/
inductive NoticeClaim where
  | message (m : Message)
  | emptyQueue (p : Port)
  | faultReport (p : Port) (occupied : Bool)
  deriving DecidableEq, Repr

/-- What one claim does to one port (R154, R162, R165). -/
def NoticePort.take (n : NoticePort) (p : Port) : NoticeClaim → NoticePort
  | .message m => if m.recipients.reach p n then n.append m.notice else n
  | .emptyQueue q => if p = q then n.clear else n
  | .faultReport q occupied => if p = q then n.reportFault occupied else n

/-- One claim over all recipients (R154). -/
def NoticeUnit.take (u : NoticeUnit) (c : NoticeClaim) : NoticeUnit :=
  { ports := forPorts fun p => NoticePort.take u.ports[p] p c }

/-- Claims of the notice unit, in the order in which it takes them. -/
def State.takeNotices (s : State) (cs : List NoticeClaim) : State := s.setNotice (cs.foldl NoticeUnit.take s.notice)

/-- Notices sent, in order. -/
def State.notify (s : State) (ms : List Message) : State := s.takeNotices (ms.map .message)

/-- A notice to the ports that accept its kind, stamped now (R153). -/
def State.broadcast (s : State) (k : AcceptedKind) (body : NoticeBody) : Message :=
  { recipients := .accepting k, notice := { stamp := s.stamp, body := body } }

/-- A notice addressed to one port, stamped now (R153). -/
def State.address (s : State) (p : Port) (body : NoticeBody) : Message :=
  { recipients := .port p, notice := { stamp := s.stamp, body := body } }

/-- One port's part of the notice unit replaced. -/
def NoticeUnit.setPort (u : NoticeUnit) (p : Port) (n : NoticePort) : NoticeUnit := { ports := u.ports.set p n }

end Sys2Proof.Machine
end

