-- ==== Sys2Proof/Machine/MapOps.lean ====
section
/-! DEFINITION. The exchange map's own operations: frames entering and leaving their roles, read references, removal of
stagings, the countdown at a cycle start, and the publication swap. -/

namespace Sys2Proof.Machine

def ExchangeMap.page (m : ExchangeMap) (i : Page) : PageRecord := m.pages[i]

def ExchangeMap.setPage (m : ExchangeMap) (i : Page) (r : PageRecord) : ExchangeMap :=
  { m with pages := m.pages.set i r }

/-- The retiring set is unordered (R6); its list is kept ascending so that equal sets are equal lists. -/
def insertFrame (f : Frame) : List Frame → List Frame
  | [] => [f]
  | g :: rest => if f.val ≤ g.val then f :: g :: rest else g :: insertFrame f rest

/-- A frame leaves its role as live or staging frame: to the free list tail, or to the retiring set while it is
referenced (R4, R6). -/
def ExchangeMap.release (m : ExchangeMap) (f : Frame) : ExchangeMap :=
  if m.refs[f] = 0 then { m with freeList := m.freeList ++ [f] }
  else { m with retiring := insertFrame f m.retiring }

/-- The same for a page that may have no live frame. -/
def ExchangeMap.releaseLive (m : ExchangeMap) : Option Frame → ExchangeMap
  | none => m
  | some f => m.release f

/-- One more read reference on a frame (R5). -/
def ExchangeMap.addRef (m : ExchangeMap) (f : Frame) : ExchangeMap := { m with refs := m.refs.set f (m.refs[f] + 1) }

/-- One read reference released: a retiring frame whose count falls to 0 goes to the free list tail in the same event
(R5, R6). -/
def ExchangeMap.dropRef (m : ExchangeMap) (f : Frame) : ExchangeMap :=
  let m' := { m with refs := m.refs.set f (m.refs[f] - 1) }
  if m.refs[f] - 1 = 0 ∧ f ∈ m.retiring then
    { m' with retiring := m.retiring.erase f, freeList := m.freeList ++ [f] }
  else m'

/-- Whether the staging of a page belongs to port p: the request identity of R18 to R23. -/
def PageRecord.stagedBy (r : PageRecord) (p : Port) : Option Staging :=
  match r.staging with
  | none => none
  | some st => if st.stager = p then some st else none

/-- The number of pages that port p stages (R7, R18). -/
def ExchangeMap.stagingCount (m : ExchangeMap) (p : Port) : Nat :=
  (List.finRange 320).countP fun i => ((m.page i).stagedBy p).isSome

/-- The staging of a page is removed and its frame released (R3, R4, R6). -/
def ExchangeMap.removeStaging (m : ExchangeMap) (i : Page) : ExchangeMap :=
  match (m.page i).staging with
  | none => m
  | some st => (m.setPage i { m.page i with staging := none }).release st.frame

/-- Every staging removed, in ascending exchange page order (R29). -/
def ExchangeMap.removeAllStagings (m : ExchangeMap) : ExchangeMap :=
  (List.finRange 320).foldl ExchangeMap.removeStaging m

/-- The stagings of port p removed, in ascending exchange page order (R30). -/
def ExchangeMap.removeStagingsOf (m : ExchangeMap) (p : Port) : ExchangeMap :=
  (List.finRange 320).foldl
    (fun m i => if ((m.page i).stagedBy p).isSome then m.removeStaging i else m) m

/-- An expired staging, for its notice (R25). -/
structure Expired where
  page : Page
  stager : Port
  serial : Word16
  deriving DecidableEq, Repr

/-- The countdown of one page's staging at a cycle start: an OPEN staging with cycles left is reduced by one and
expires at 0; READY stagings and stagings with 0 left are passed over (R9, R25). -/
def ExchangeMap.countPage (r : ExchangeMap × List Expired) (i : Page) : ExchangeMap × List Expired :=
  match (r.1.page i).staging with
  | none => r
  | some st =>
    if st.state = .opened ∧ st.cyclesLeft ≠ 0 then
      if st.cyclesLeft = 1 then
        (r.1.removeStaging i, r.2 ++ [{ page := i, stager := st.stager, serial := st.serial }])
      else
        (r.1.setPage i { r.1.page i with staging := some { st with cyclesLeft := st.cyclesLeft - 1 } }, r.2)
    else r

/-- The exchange map's claim at a cycle start, over all stagings in ascending exchange page order (R25). -/
def ExchangeMap.countStagings (m : ExchangeMap) : ExchangeMap × List Expired :=
  (List.finRange 320).foldl ExchangeMap.countPage (m, [])

/-- What the swap returns to the publication unit (R63, R64): the pages made live, and the late pages with their
stagers. -/
structure SwapResult where
  map : ExchangeMap
  published : Nat
  late : List (Page × Port)
  deriving DecidableEq, Repr

/-- A page with a READY staging goes live (R2, R63). -/
def ExchangeMap.publishPage (m : ExchangeMap) (i : Page) (st : Staging) (cycle : CycleCount) : ExchangeMap :=
  (m.setPage i
    { m.page i with
      live := some st.frame, staging := none, sequence := (m.page i).sequence + 1, readersSince := 0,
      lastPublished := some cycle }).releaseLive (m.page i).live

/-- The swap's visit to one page (R63, R64). -/
def ExchangeMap.swapPage (g : Group) (cycle : CycleCount) (r : SwapResult) (i : Page) : SwapResult :=
  if (r.map.page i).defined = true ∧ (r.map.page i).group = g then
    match (r.map.page i).staging with
    | none => r
    | some st =>
      match st.state with
      | .opened => { r with late := r.late ++ [(i, st.stager)] }
      | .ready => { r with map := r.map.publishPage i st cycle, published := r.published + 1 }
  else r

/-- The publication swap of a group, in ascending exchange page order (R63). -/
def ExchangeMap.swap (m : ExchangeMap) (g : Group) (cycle : CycleCount) : SwapResult :=
  (List.finRange 320).foldl (ExchangeMap.swapPage g cycle) { map := m, published := 0, late := [] }

/-- A staging opened on the frame at the head of the free list (R8, R9, R18). -/
def ExchangeMap.openStaging (m : ExchangeMap) (i : Page) (p : Port) (copy : Bool) (f : Frame) (rest : List Frame) :
    ExchangeMap :=
  let content :=
    match copy, (m.page i).live with
    | true, some live => m.frames.readFrame live 0 Config.frameBytes
    | _, _ => List.replicate Config.frameBytes 0
  let serial := m.serial + 1
  { m with
    pages := m.pages.set i
      { m.page i with
        staging := some { frame := f, stager := p, state := .opened, cyclesLeft := m.stageLimit, serial := serial } }
    frames := m.frames.writeFrame f 0 content
    freeList := rest
    serial := serial }

end Sys2Proof.Machine
end

