-- ==== Sys2Proof/Machine/ViewOps.lean ====
section
/-! DEFINITION. The access check and the fault record (05). -/

namespace Sys2Proof.Machine

/-- Which data request it is (R110). -/
def DataCall.request : DataCall → DataRequest
  | .read _ => .read
  | .stageOpen _ _ => .stageOpen
  | .stageWrite _ => .stageWrite
  | .stageRead _ => .stageRead
  | .stageReady _ => .stageReady
  | .stageDrop _ => .stageDrop

/-- The port page that a data request names. -/
def DataCall.portPage : DataCall → PortPage
  | .read t => t.portPage
  | .stageOpen pp _ => pp
  | .stageWrite t => t.portPage
  | .stageRead t => t.portPage
  | .stageReady pp => pp
  | .stageDrop pp => pp

/-- The offset that a fault record keeps: the request's for READ, STAGE_WRITE and STAGE_READ, else 0 (R110). -/
def DataCall.offset : DataCall → Fin 64
  | .read t => t.offset
  | .stageOpen _ _ => 0
  | .stageWrite t => t.offset
  | .stageRead t => t.offset
  | .stageReady _ => 0
  | .stageDrop _ => 0

def ViewUnit.entry (v : ViewUnit) (p : Port) (pp : PortPage) : Option ViewEntry := v.views[p][pp]

/-- An entry written whole, or made absent (R99, R101). -/
def ViewUnit.setEntry (v : ViewUnit) (p : Port) (pp : PortPage) (e : Option ViewEntry) : ViewUnit :=
  { v with views := v.views.set p (v.views[p].set pp e) }

/-- Whether an entry holds the right a data request needs: read right for READ, stage right for STAGE_* (R104). -/
def ViewEntry.allows (e : ViewEntry) : DataRequest → Bool
  | .read => e.read
  | _ => e.stage

/-- Whether a page admits port p: reader set for READ, writer set for STAGE_* (R104). -/
def PageRecord.admits (r : PageRecord) (p : Port) : DataRequest → Bool
  | .read => r.readers.getLsbD p.val
  | _ => r.writers.getLsbD p.val

/-- The view part of the check (R104 to R106). -/
def ViewUnit.viewPart (v : ViewUnit) (p : Port) (pp : PortPage) (q : DataRequest) : Except FaultCause Page :=
  match v.entry p pp with
  | none => .error .notMapped
  | some e => if e.allows q then .ok e.page else .error .noRight

/-- The page part of the check (R104, R106, R107). -/
def ExchangeMap.pagePart (m : ExchangeMap) (p : Port) (i : Page) (q : DataRequest) : Except FaultCause Page :=
  if (m.page i).defined then
    if (m.page i).admits p q then .ok i else .error .noRight
  else .error .pageUnused

/-- The status that answers a refusal of the check (R105 to R107). -/
def FaultCause.status : FaultCause → Status
  | .notMapped => .notMapped
  | .noRight => .noRight
  | .pageUnused => .pageUnused

/-- A refusal by the check fills port p's empty fault record, with a report of the occupancy, or sets the repeated flag
of an occupied one (R111, R113). -/
def State.recordFault (s : State) (p : Port) (cause : FaultCause) (x : DataCall) : State :=
  match s.view.faults[p] with
  | none =>
    (s.setView
      { s.view with
        faults := s.view.faults.set p
          (some
            { cause := cause, request := x.request, portPage := x.portPage, offset := x.offset
              cycle := s.sched.cycleCount, repeated := false }) }).takeNotices
      [.faultReport p true]
  | some r =>
    s.setView { s.view with faults := s.view.faults.set p (some { r with repeated := true }) }

/-- Port p's fault record emptied (R112, R116). -/
def ViewUnit.emptyFault (v : ViewUnit) (p : Port) : ViewUnit := { v with faults := v.faults.set p none }

end Sys2Proof.Machine
end

