-- ==== Sys2Proof/Machine/DataRequests.lean ====
section
/-! DEFINITION. The data requests (sections 1.5 and 1.6), which pass the access check of 5.3. -/

namespace Sys2Proof.Machine

/-- A read begins: one reference on the frame, the frame recorded, and the response with the two-byte number and the
bytes of the frame from offset (R5, R15, R17, R167). -/
def State.beginRead (s : State) (p : Port) (r : ReadInFlight) (number : Word16) (t : Transfer) : State :=
  ((s.setMap (s.map.addRef r.frame)).setPort p { s.port p with reading := some r }).answer p .ok
    (bytes16 number ++ s.map.frames.readFrame r.frame t.offset.val t.length)

/-- READ past the view check (R15). -/
def State.acceptRead (s : State) (p : Port) (t : Transfer) (i : Page) : State :=
  match (s.map.page i).live with
  | none => s.answer p .noData []
  | some f => s.beginRead p { kind := .read, page := i, frame := f } (s.map.page i).sequence t

/-- STAGE_READ past the view check (R17). -/
def State.acceptStageRead (s : State) (p : Port) (t : Transfer) (i : Page) : State :=
  match (s.map.page i).stagedBy p with
  | none => s.answer p .notStaged []
  | some st => s.beginRead p { kind := .stageRead, page := i, frame := st.frame } st.serial t

/-- STAGE_OPEN past the view check: the five checks in order, then the opening (R18). -/
def State.acceptStageOpen (s : State) (p : Port) (copy : Bool) (i : Page) : State :=
  if s.part ≠ .run then s.answer p .wrongState []
  else if s.stop.isFrozen (s.map.page i).group then s.answer p .groupFrozen []
  else
    match (s.map.page i).staging with
    | some st => s.answer p .pageBusy [byteOf st.stager.val]
    | none =>
      if s.map.stagingCount p ≥ Config.stagingLimit then s.answer p .tooMany []
      else
        match s.map.freeList with
        | [] => s.answer p .noFrame []
        | f :: rest =>
          (s.setMap (s.map.openStaging i p copy f rest)).answer p .ok
            (bytesOf16 i.val ++ bytes16 (s.map.serial + 1))

/-- A STAGE_WRITE refused by the check or by the exchange map keeps its data phase; the data are discarded and the
response follows the last data byte (R20, R108, R172). -/
def State.refuseWrite (s : State) (p : Port) (length : Nat) (code : Status) : State :=
  s.setPort p { s.port p with tx := .writeData length (some code), write := none }

/-- STAGE_WRITE past the view check (R20). -/
def State.acceptStageWrite (s : State) (p : Port) (t : Transfer) (i : Page) : State :=
  match (s.map.page i).stagedBy p with
  | none => s.refuseWrite p t.length .notStaged
  | some st =>
    match st.state with
    | .ready => s.refuseWrite p t.length .alreadyReady
    | .opened =>
      s.setPort p
        { s.port p with
          tx := .writeData t.length none
          write := some { page := i, serial := st.serial, offset := t.offset.val, data := [] } }

/-- STAGE_READY past the view check (R22). -/
def State.acceptStageReady (s : State) (p : Port) (i : Page) : State :=
  match (s.map.page i).stagedBy p with
  | none => s.answer p .notStaged []
  | some st =>
    match st.state with
    | .ready => s.answer p .alreadyReady []
    | .opened =>
      (s.setMap (s.map.setPage i { s.map.page i with staging := some { st with state := .ready } })).answer p .ok []

/-- STAGE_DROP past the view check (R23). -/
def State.acceptStageDrop (s : State) (p : Port) (i : Page) : State :=
  match (s.map.page i).stagedBy p with
  | none => s.answer p .notStaged []
  | some _ => (s.setMap (s.map.removeStaging i)).answer p .ok []

/-- The request's own rule, of a data request that has passed the check (R104). -/
def State.acceptData (s : State) (p : Port) (x : DataCall) (i : Page) : State :=
  match x with
  | .read t => s.acceptRead p t i
  | .stageOpen _ copy => s.acceptStageOpen p copy i
  | .stageWrite t => s.acceptStageWrite p t i
  | .stageRead t => s.acceptStageRead p t i
  | .stageReady _ => s.acceptStageReady p i
  | .stageDrop _ => s.acceptStageDrop p i

/-- A refusal by either part of the check: the view unit records the fault, and the request is answered with the code of
the failing part (R104, R108, R111). -/
def State.refuseData (s : State) (p : Port) (x : DataCall) (c : FaultCause) : State :=
  match x with
  | .stageWrite t => (s.recordFault p c x).refuseWrite p t.length c.status
  | _ => (s.recordFault p c x).answer p c.status []

/-- The exchange map's one claim of a data request on the exchange page i: the page part of the check and, where it
passes, the request's own rule (R104). -/
def State.takePagePart (s : State) (p : Port) (x : DataCall) (i : Page) : State :=
  match s.map.pagePart p i x.request with
  | .error c => s.refuseData p x c
  | .ok i => s.acceptData p x i

/-- A data request at its acceptance: the view part, whose entry fixes the exchange page (R104). The exchange map's claim
follows at once or later, as the draws choose, so that claims of other ports can fall between the two parts (R109). -/
def State.acceptCall (s : State) (p : Port) (x : DataCall) : State :=
  match s.view.viewPart p x.portPage x.request with
  | .error c => s.refuseData p x c
  | .ok i =>
    let s' := (s.setPort p { s.port p with tx := .accepted (.pagePart x i) }).bump
    if (s.draw 0).testBit 0 then s'.takePagePart p x i else s'

/-- READ (R15). -/
def execRead (p : Port) (portPage offset length : Byte) (s : State) : Host.Outcome State Fault Refusal :=
  .next (s.serve p (Instr.read p portPage offset length).record none (transferParams portPage offset length)
    fun t s => s.acceptCall p (.read t))

/-- STAGE_OPEN (R18). -/
def execStageOpen (p : Port) (portPage copy : Byte) (s : State) : Host.Outcome State Fault Refusal :=
  .next (s.serve p (Instr.stageOpen p portPage copy).record none (stageOpenParams portPage copy)
    fun x s => s.acceptCall p (.stageOpen x.1 x.2))

/-- STAGE_WRITE (R20). -/
def execStageWrite (p : Port) (portPage offset length : Byte) (s : State) : Host.Outcome State Fault Refusal :=
  .next (s.serve p (Instr.stageWrite p portPage offset length).record none (transferParams portPage offset length)
    fun t s => s.acceptCall p (.stageWrite t))

/-- STAGE_READ (R17). -/
def execStageRead (p : Port) (portPage offset length : Byte) (s : State) : Host.Outcome State Fault Refusal :=
  .next (s.serve p (Instr.stageRead p portPage offset length).record none (transferParams portPage offset length)
    fun t s => s.acceptCall p (.stageRead t))

/-- STAGE_READY (R22). -/
def execStageReady (p : Port) (portPage : Byte) (s : State) : Host.Outcome State Fault Refusal :=
  .next (s.serve p (Instr.stageReady p portPage).record none (portPageOf? portPage)
    fun pp s => s.acceptCall p (.stageReady pp))

/-- STAGE_DROP (R23). -/
def execStageDrop (p : Port) (portPage : Byte) (s : State) : Host.Outcome State Fault Refusal :=
  .next (s.serve p (Instr.stageDrop p portPage).record none (portPageOf? portPage)
    fun pp s => s.acceptCall p (.stageDrop pp))

end Sys2Proof.Machine
end

