-- ==== Sys2Proof/Machine/PublicationOps.lean ====
section
/-! DEFINITION. Publication points, catch-ups and the hold table's reports (03, 04), and the claims that one event
hands to several blocks, taken one after another in an order the spec leaves open. -/

namespace Sys2Proof.Machine

/-! ### Outcomes -/

/-- What an outcome adds to a watch counter of its group (R78). -/
def WatchEvent.amount (e : WatchEvent) (o : GroupOutcome) (published late : Nat) : Nat :=
  match e, o with
  | .publishedPages, .published => published
  | .publishedPages, .catchUp => published
  | .latePages, .published => late
  | .latePages, .catchUp => late
  | .deferredPoints, .deferred => 1
  | .frozenPoints, .frozen => 1
  | .frozenPoints, .dropped => 1
  | _, _ => 0

/-- An addition that stops at 65535 (R77). -/
def saturate (value amount : Nat) : Nat := if value + amount ≤ Config.watchLimit then value + amount else Config.watchLimit

/-- A watch counter takes an outcome of group g (R78). -/
def Watch.take (w : Watch) (g : Group) (o : GroupOutcome) (published late : Nat) : Watch :=
  if w.group = g then
    match w.mode with
    | .accumulate => { w with value := saturate w.value (w.event.amount o published late) }
    | .cycle => { w with running := saturate w.running (w.event.amount o published late) }
  else w

/-- A watch counter at a cycle start (R79). -/
def Watch.roll (w : Watch) : Watch :=
  match w.mode with
  | .cycle => { w with value := w.running, running := 0 }
  | .accumulate => w

/-- The four counters' roll (R79). -/
def PublicationUnit.roll (u : PublicationUnit) : PublicationUnit :=
  { u with watches := forPorts fun n => Watch.roll u.watches[n] }

/-- An outcome replaces the first four fields of the group's status record together and is taken by the watch
counters (R57, R78). The deferral mark is left. -/
def PublicationUnit.record (u : PublicationUnit) (g : Group) (o : GroupOutcome) (cycle : CycleCount)
    (published late : Nat) : PublicationUnit :=
  { groups := u.groups.set g
      { last := o, cycle := cycle, published := published, late := late, mark := u.groups[g].mark }
    watches := forPorts fun n => Watch.take u.watches[n] g o published late }

/-- The deferral mark of a group set or cleared (R58). -/
def PublicationUnit.setMark (u : PublicationUnit) (g : Group) (b : Bool) : PublicationUnit :=
  { u with groups := u.groups.set g { u.groups[g] with mark := b } }

/-- Every deferral mark cleared, nothing else changed (R83). -/
def PublicationUnit.clearMarks (u : PublicationUnit) : PublicationUnit :=
  (List.finRange 16).foldl (fun v g => v.setMark g false) u

/-- The GROUP_POINT notice of an outcome (R75). -/
def State.groupPoint (s : State) (g : Group) (o : GroupOutcome) (published late : Nat) : Message :=
  { recipients := .subscribers g, notice := { stamp := s.stamp, body := .groupPoint g o published late } }

/-- An outcome that publishes nothing: FROZEN, DEFERRED or DROPPED (R60, R61, R68). -/
def State.recordQuiet (s : State) (g : Group) (o : GroupOutcome) : State × List Message :=
  (s.setPub (s.pub.record g o s.sched.cycleCount 0 0), [s.groupPoint g o 0 0])

/-- An outcome that publishes: PUBLISHED or CATCH_UP. The swap is handed to the exchange map; LATE notices in page
order, then the GROUP_POINT notice (R62, R64, R65, R67). -/
def State.publish (s : State) (g : Group) (o : GroupOutcome) : State × List Message :=
  let r := s.map.swap g s.sched.cycleCount
  ((s.setMap r.map).setPub (s.pub.record g o s.sched.cycleCount r.published r.late.length),
    r.late.map (fun x => s.address x.2 (.late x.1 g)) ++ [s.groupPoint g o r.published r.late.length])

/-- A publication point of group g (R59). -/
def State.takePoint (s : State) (g : Group) : State × List Message :=
  if s.stop.isFrozen g then s.recordQuiet g .frozen
  else if s.hold.covers g then (s.setPub (s.pub.setMark g true)).recordQuiet g .deferred
  else s.publish g .published

/-- A no-longer-held report for group g (R66). -/
def State.takeReport (s : State) (g : Group) : State × List Message :=
  if s.pub.groups[g].mark then
    if s.stop.isFrozen g then (s.setPub (s.pub.setMark g false)).recordQuiet g .dropped
    else (s.setPub (s.pub.setMark g false)).publish g .catchUp
  else (s, [])

/-! ### Holds ending -/

/-- The records after a cycle start's countdown: cycles left reduced by one, records that reach 0 removed (R91). -/
def Hold.count : Option Hold → Option Hold
  | none => none
  | some h => if h.cyclesLeft ≤ 1 then none else some { h with cyclesLeft := h.cyclesLeft - 1 }

/-- The hold table after a cycle start (R91). -/
def HoldTable.count (h : HoldTable) : HoldTable := { h with records := forPorts fun p => Hold.count h.records[p] }

/-- The record of port p removed. -/
def HoldTable.remove (h : HoldTable) (p : Port) : HoldTable := { h with records := h.records.set p none }

/-- The groups covered before a removal and not after it, ascending (R86). -/
def HoldTable.uncovered (before after : HoldTable) : List Group := groupsOf (before.covered &&& ~~~after.covered)

/-- The HOLD_BROKEN notices of a cycle start, in ascending port order (R91, R92). -/
def State.holdBroken (s : State) : List Message :=
  (List.finRange 4).filterMap fun p =>
    match s.hold.records[p] with
    | none => none
    | some h => if h.cyclesLeft ≤ 1 then some (s.address p (.holdBroken h.groups)) else none

/-! ### Claims of several blocks -/

/-- The claims that an event hands to the exchange map, the hold table and the publication unit. -/
inductive Claim where
  | countHolds
  | rollWatches
  | point (g : Group)
  | report (g : Group)
  | removeHold (p : Port)
  deriving DecidableEq, Repr

/-- One claim taken, with the notices its block sends. -/
def State.takeClaim (s : State) : Claim → State × List Message
  | .countHolds => (s.setHold s.hold.count, s.holdBroken)
  | .rollWatches => (s.setPub s.pub.roll, [])
  | .point g => s.takePoint g
  | .report g => s.takeReport g
  | .removeHold p => (s.setHold (s.hold.remove p), [])

/-- Whose notices keep an order among themselves at a slot start or a cycle start: the schedule's own (R39), the
exchange map's expiries (R25), those of the hold table's claim with its reports (R65, R92), and those of the
publication point (R65). -/
inductive Sender where
  | schedule
  | exchangeMap
  | holdTable
  | point
  deriving DecidableEq, Repr

/-- A notice with its sender. -/
structure Outgoing where
  sender : Sender
  message : Message
  deriving DecidableEq, Repr

def Claim.sender : Claim → Sender
  | .point _ => .point
  | _ => .holdTable

/-- Claims taken in order, with their notices in order. -/
def State.takeClaims (s : State) : List Claim → State × List Outgoing
  | [] => (s, [])
  | c :: cs =>
    let r := s.takeClaim c
    let rest := r.1.takeClaims cs
    (rest.1, r.2.map (Outgoing.mk c.sender) ++ rest.2)

/-- The groups that a notice of an outcome or of a break is about. -/
def NoticeBody.groups : NoticeBody → GroupSet
  | .groupPoint g _ _ _ => BitVec.twoPow 16 g.val
  | .late _ g => BitVec.twoPow 16 g.val
  | .holdBroken groups => groups
  | _ => 0

/-- Whether a notice handed on earlier reaches the notice unit earlier. Notices of one sender do. Those of different
senders carry no order (R154), but that a LATE stands before the STAGE_EXPIRED of the same staging (R27), and that
HOLD_BROKEN, LATE and GROUP_POINT notices about the same group stand in the order of the break and the point (R70, R92;
notes/assumptions/8.md). -/
def Outgoing.before (x y : Outgoing) : Bool :=
  decide (x.sender = y.sender) ||
    match x.message.notice.body, y.message.notice.body with
    | .late i _, .stageExpired j _ => decide (i = j)
    | b, b' => decide (b.groups &&& b'.groups ≠ 0)

/-- The notices of one event reach the notice unit, in an order that the draws choose among those allowed. -/
def State.notifyFrom (s : State) (pick : Nat → Nat) (xs : List Outgoing) : State :=
  s.notify ((arrange Outgoing.before pick 0 [] xs).map Outgoing.message)

/-- The hold table's claim at a cycle start with its reports, which no other claim of the publication unit
interrupts (R66, R86, R91). -/
def State.holdCountClaims (s : State) : List Claim :=
  .countHolds :: (s.hold.uncovered s.hold.count).map .report

/-- The removal of port p's record with its reports (R86, R88, R98). -/
def State.holdRemovalClaims (s : State) (p : Port) : List Claim :=
  .removeHold p :: (s.hold.uncovered (s.hold.remove p)).map .report

/-- The publication unit's own claims of a cycle start: the roll, then the point of slot 0 if there is one (R39, R79). -/
def publicationClaims (point : Option Group) : List Claim := .rollWatches :: (point.map Claim.point).toList

/-- A run of claims placed whole among others, at a position that k chooses. -/
def insertRun (k : Nat) (run others : List Claim) : List Claim :=
  others.take (k % (others.length + 1)) ++ run ++ others.drop (k % (others.length + 1))

/-- STAGE_EXPIRED notices (R25). -/
def State.expiredNotices (s : State) (es : List Expired) : List Message :=
  es.map fun e => s.address e.stager (.stageExpired e.page e.serial)

/-! ### Cycle starts -/

/-- A STAGE_READY of port p finds on page i a staging to mark: the page part of the check passes, and the staging is p's
and OPEN (R22, R104). -/
def ExchangeMap.marks (m : ExchangeMap) (p : Port) (i : Page) : Bool :=
  match m.pagePart p i .stageReady, (m.page i).stagedBy p with
  | .ok _, some st => decide (st.state = .opened)
  | _, _ => false

/-- The exchange map's claim of port p's STAGE_READY, if it is outstanding and finds a staging to mark
(notes/assumptions/9.md). -/
def State.markReady (s : State) (p : Port) : State :=
  match (s.port p).tx with
  | .accepted (.pagePart (.stageReady pp) i) => if s.map.marks p i then s.takePagePart p (.stageReady pp) i else s
  | _ => s

/-- What is taken at a cycle start: the claims of the hold table and the publication unit, the exchange map's countdown
(R25), and the marking of a staging whose STAGE_READY falls between them (R26, R70). -/
inductive CycleClaim where
  | block (c : Claim)
  | countStagings
  | markReady (p : Port)
  deriving DecidableEq, Repr

/-- One of them taken, with the notices its block sends. -/
def State.takeCycleClaim (s : State) : CycleClaim → State × List Outgoing
  | .block c => ((s.takeClaim c).1, (s.takeClaim c).2.map (Outgoing.mk c.sender))
  | .countStagings =>
    (s.setMap s.map.countStagings.1, (s.expiredNotices s.map.countStagings.2).map (Outgoing.mk .exchangeMap))
  | .markReady p => (s.markReady p, [])

/-- They are taken in order, with their notices in order. -/
def State.takeCycleClaims (s : State) : List CycleClaim → State × List Outgoing
  | [] => (s, [])
  | c :: cs =>
    let r := s.takeCycleClaim c
    let rest := r.1.takeCycleClaims cs
    (rest.1, r.2 ++ rest.2)

/-- Of the markings that may fall among a cycle start's claims, those that the draws choose, each at a position that the
draws choose. -/
def insertMarks (pick : Nat → Nat) (claims : List CycleClaim) : List CycleClaim :=
  (List.finRange 4).foldl
    (fun l p => if (pick 2).testBit p.val then insertAt (pick (p.val + 3)) (.markReady p) l else l) claims

/-- The claims of a cycle start, in an order that the draws choose among those the spec allows (R26, R36, R39, R66, R70).
point is the group of slot 0's publication point, if its filter matches. -/
def State.cycleStartClaims (s : State) (pick : Nat → Nat) (point : Option Group) : List CycleClaim :=
  insertMarks pick
    (insertAt (pick 1) .countStagings
      ((insertRun (pick 0) s.holdCountClaims (publicationClaims point)).map .block))

/-- The claims that a cycle start hands to the exchange map, the hold table and the publication unit, with their notices
in the order in which they are sent. -/
def State.handOutCycleStart (pick : Nat → Nat) (point : Option Group) (s : State) : State × List Outgoing :=
  s.takeCycleClaims (s.cycleStartClaims pick point)

end Sys2Proof.Machine
end

