-- ==== Sys2Proof/Machine/ResetOps.lean ====
section
/-! DEFINITION. The four claims of a port reset (09, section 9.6), each taken by its block in its own time. -/

namespace Sys2Proof.Machine

/-- The claims of a set that are not in another. -/
def ResetClaims.without (x y : ResetClaims) : ResetClaims :=
  { stagings := x.stagings && !y.stagings, hold := x.hold && !y.hold, fault := x.fault && !y.fault
    queue := x.queue && !y.queue }

/-- A subset of a set, which k chooses among all its subsets. -/
def ResetClaims.chosen (x : ResetClaims) (k : Nat) : ResetClaims :=
  { stagings := x.stagings && k.testBit 0, hold := x.hold && k.testBit 1, fault := x.fault && k.testBit 2
    queue := x.queue && k.testBit 3 }

/-- The exchange map's and the hold table's claims of the port reset of p: the removal of p's stagings (R30), and of
p's hold record with its reports (R98). The first falls anywhere among the second and its reports, as k chooses (R69).
-/
def State.resetBlocks (k : Nat) (p : Port) (which : ResetClaims) (s : State) : State × List Outgoing :=
  let claims := if which.hold then s.holdRemovalClaims p else []
  let before := s.takeClaims (claims.take (k % (claims.length + 1)))
  let stripped := if which.stagings then before.1.setMap (before.1.map.removeStagingsOf p) else before.1
  let after := stripped.takeClaims (claims.drop (k % (claims.length + 1)))
  (after.1, before.2 ++ after.2)

/-- The notice unit's claims that go with them: the catch-ups' notices, and, anywhere among them, the emptying of p's
queue and the report of p's emptied fault record (R165, R184). -/
def resetNotices (pick : Nat → Nat) (p : Port) (which : ResetClaims) (xs : List Outgoing) : List NoticeClaim :=
  let sent := xs.map fun x => NoticeClaim.message x.message
  let emptied := if which.queue then insertAt (pick 2) (.emptyQueue p) sent else sent
  if which.fault then insertAt (pick 3) (.faultReport p false) emptied else emptied

/-- Claims of the port reset of p taken at their blocks (R183): the exchange map's, the hold table's, the view unit's
(R116) and the notice unit's. -/
def State.resetPort (pick : Nat → Nat) (p : Port) (which : ResetClaims) (s : State) : State :=
  let r := s.resetBlocks (pick 1) p which
  let s' := if which.fault then r.1.setView (r.1.view.emptyFault p) else r.1
  s'.takeNotices (resetNotices pick p which r.2)

/-- Of the claims of p's port reset that are left, those in now are taken. With the last of them the answer is complete
and the response begins: OK with an empty body (R171, R183). -/
def State.takeResetClaims (s : State) (p : Port) (left now : ResetClaims) : State :=
  let s' := (s.resetPort s.draw p now).bump
  if left.without now = ResetClaims.none then s'.answer p .ok []
  else s'.setPort p { s'.port p with tx := .accepted (.portReset (left.without now)) }

/-- The port reset of p is handed on (R183): the draws choose which of its four claims are taken at once, and the rest
are outstanding. -/
def State.beginReset (s : State) (p : Port) : State :=
  s.takeResetClaims p ResetClaims.all (ResetClaims.all.chosen (s.draw 0))

end Sys2Proof.Machine
end

