-- ==== Sys2Proof/Machine/Claims.lean ====
section
/-! DEFINITION. The claims that an accepted request still has outstanding, taken at a tick or before its transaction goes
on (R104, R109, R183). -/

namespace Sys2Proof.Machine

/-- What is outstanding of port p's request is taken: all of it, before the next byte of p's link passes or p's select
period ends (R171, R183). -/
def State.settle (s : State) (p : Port) : State :=
  match (s.port p).tx with
  | .accepted (.portReset left) => s.takeResetClaims p left left
  | .accepted (.pagePart x i) => s.takePagePart p x i
  | _ => s

/-- At a tick the draws choose whether the page part of port p's request is taken, and which of its port reset's claims
are. -/
def State.settleSome (s : State) (p : Port) : State :=
  match (s.port p).tx with
  | .accepted (.portReset left) => s.takeResetClaims p left (left.chosen (s.draw 0))
  | .accepted (.pagePart x i) => (if (s.draw 0).testBit 0 then s.takePagePart p x i else s).bump
  | _ => s

/-- Whether claims of an accepted request are outstanding. -/
def LinkPort.claimsOutstanding (l : LinkPort) : Bool :=
  match l.tx with
  | .accepted _ => true
  | _ => false

end Sys2Proof.Machine
end

