-- ==== Sys2Proof/Machine/StopOps.lean ====
section
/-! DEFINITION. The stop unit's operations (06): the filter, the stop state, the frozen group set. -/

namespace Sys2Proof.Machine

def StopUnit.line (u : StopUnit) (l : Line) : StopLine := u.lines[l]

/-- A line replaced, and the frozen group set brought up to date within the same claim (R127). -/
def StopUnit.setLine (u : StopUnit) (l : Line) (x : StopLine) : StopUnit :=
  let u' := { u with lines := u.lines.set l x }
  { u' with frozen := u'.frozenUnion }

/-- The line after its filtered level takes a level (R120, R122, R123). -/
def StopLine.pass (x : StopLine) (level : Level) : StopLine :=
  { x with
    pending := none
    filtered := level
    stop :=
      match level, x.mode with
      | .active, _ => .active
      | .inactive, .follow => .inactive
      | .inactive, .latch => x.stop }

/-- The line event of the STOP notice that a change of the filtered level sends (R122, R123). -/
def StopLine.passEvent (x : StopLine) (level : Level) : StopEvent :=
  match level, x.mode with
  | .active, _ => .active
  | .inactive, .follow => .inactive
  | .inactive, .latch => .inputReleased

/-- A STOP notice (R124). -/
def State.stopNotice (s : State) (l : Line) (e : StopEvent) : Message := s.broadcast .stop (.stop l e)

/-- The filtered level takes a level, with the effect on the stop state, the frozen group set and the STOP notice, in
one claim (R120, R122, R123). -/
def State.passFilter (s : State) (l : Line) (level : Level) : State :=
  (s.setStop (s.stop.setLine l ((s.stop.line l).pass level))).notify
    [s.stopNotice l ((s.stop.line l).passEvent level)]

/-- A line's filter timer expires; without a pending change the expiry does not happen (R120). -/
def State.expireFilter (s : State) (l : Line) : State :=
  match (s.stop.line l).pending with
  | none => s
  | some c => s.passFilter l c.level

/-- A change of a line's sampled input level (R119). A sample equal to the last one is no change. -/
def State.sampleStop (s : State) (l : Line) (level : Level) : State :=
  if level = (s.stop.line l).input then s
  else if level = (s.stop.line l).filtered then
    s.setStop (s.stop.setLine l { s.stop.line l with input := level, pending := none })
  else
    let s' :=
      s.setStop (s.stop.setLine l
        { s.stop.line l with input := level, pending := some { level := level, timer := 0 } })
    if (s.stop.line l).filterTime = 0 then s'.passFilter l level else s'

/-- The pin takes a level. -/
def State.driveStop (s : State) (l : Line) (level : Level) : State :=
  s.setStop (s.stop.setLine l { s.stop.line l with pin := level })

/-- Whether a line's pending change has reached its filter time (R118, R120). -/
def StopLine.expired (x : StopLine) : Bool :=
  match x.pending with
  | none => false
  | some c => decide (x.filterTime.toNat ≤ c.timer)

end Sys2Proof.Machine
end

