-- ==== Sys2Proof/Machine/ScheduleOps.lean ====
section
/-! DEFINITION. The schedule's operations (02): plans, slot starts, cycle starts, plan switches. -/

namespace Sys2Proof.Machine

def PlanName.other : PlanName → PlanName
  | .a => .b
  | .b => .a

def Schedule.plan (c : Schedule) : PlanName → Plan
  | .a => c.planA
  | .b => c.planB

def Schedule.setPlan (c : Schedule) (n : PlanName) (x : Plan) : Schedule :=
  match n with
  | .a => { c with planA := x }
  | .b => { c with planB := x }

def Schedule.activePlan (c : Schedule) : Plan := c.plan c.active

/-- The plan lock: in RUN, the active plan, and either plan while a switch is pending (R48). -/
def State.planLocked (s : State) (n : PlanName) : Bool :=
  decide (s.part = .run) && (decide (n = s.sched.active) || s.sched.pendingSwitch)

/-- Slot k begins: its timer starts from 0 and runs for the duration the entry holds now (R37, R38). -/
def Schedule.beginSlot (c : Schedule) (k : SlotNo) : Schedule :=
  { c with
    slotIndex := k
    slotTimer := some { elapsed := 0, duration := c.activePlan.entries[k].duration.toNat } }

/-- The schedule's own part of a cycle start (R36, R40, R52): the pending switch adopted, the cycle count, slot 0, the
engine, and the pulse unless a stop line is ACTIVE. -/
def Schedule.beginCycle (c : Schedule) (stopped : Bool) : Schedule :=
  Schedule.beginSlot
    { c with
      active := if c.pendingSwitch then c.active.other else c.active
      pendingSwitch := false
      cycleCount := if c.firstCycle then 0 else c.cycleCount + 1
      firstCycle := false
      engine := .inCycle
      gapTimer := none
      cycleOut := !stopped }
    0

/-- Whether the filter of the current slot's entry matches the cycle count (R32, R37). -/
def Schedule.slotActs (c : Schedule) : Bool :=
  filterMatches c.cycleCount c.activePlan.entries[c.slotIndex].filterValue c.activePlan.entries[c.slotIndex].filterMask

/-- The group of the current slot's publication point, if its filter matches (R37). -/
def Schedule.slotPoint (c : Schedule) : Option Group :=
  if c.slotActs then c.activePlan.entries[c.slotIndex].group else none

/-- The SLOT notices of the current slot's start (R37). -/
def State.slotNotices (s : State) : List Message :=
  if s.sched.slotActs then
    (portsOf s.sched.activePlan.entries[s.sched.slotIndex].notify).map fun p => s.address p (.slot s.sched.slotIndex)
  else []

/-- The PLAN_SWITCHED notice, naming the active plan (R36, R50). -/
def State.switchedNotice (s : State) : Message := s.broadcast .planSwitched (.planSwitched s.sched.active)

/-- A slot start that is no cycle start (R37): the point and the SLOT notices, whose notices reach the notice unit in
either order. -/
def State.startSlot (pick : Nat → Nat) (s : State) : State :=
  let r := s.takeClaims (s.sched.slotPoint.map Claim.point).toList
  r.1.notifyFrom pick (s.slotNotices.map (Outgoing.mk .schedule) ++ r.2)

/-- A cycle start (R36 to R40), with the schedule's notices that precede it (a SYNC MISSED). The schedule's notices
keep their order among themselves (R39). -/
def State.startCycle (pick : Nat → Nat) (earlier : List Message) (s : State) : State :=
  let s' := s.setSched (s.sched.beginCycle s.stop.anyActive)
  let own := earlier ++ (if s.sched.pendingSwitch then [s'.switchedNotice] else []) ++ s'.slotNotices
  let r := s'.handOutCycleStart pick s'.sched.slotPoint
  r.1.notifyFrom (fun i => pick (i + 7)) (own.map (Outgoing.mk .schedule) ++ r.2)

/-- The engine enters WAITING_SYNC; the gap timer starts from 0 when the gap limit is not 0 (R35, R38, R43). -/
def Schedule.wait (c : Schedule) : Schedule :=
  { c with engine := .waitingSync, slotTimer := none, gapTimer := if c.gapLimit = 0 then none else some 0 }

/-- The schedule's START, within the claim that sets RUN (R35, R179). -/
def State.startSchedule (pick : Nat → Nat) (s : State) : State :=
  let c := { s.sched with cycleCount := 0, slotIndex := 0, firstCycle := true }
  match s.sched.syncMode with
  | .free => (s.setSched c).startCycle pick []
  | .triggered => s.setSched c.wait

/-- The end of a slot (R38); it does not happen unless the engine is IN_CYCLE (R38, R55). -/
def State.endSlot (pick : Nat → Nat) (s : State) : State :=
  match s.sched.engine with
  | .inCycle =>
    if h : s.sched.slotIndex.val + 1 < s.sched.activePlan.count.val then
      (s.setSched (s.sched.beginSlot ⟨s.sched.slotIndex.val + 1, by omega⟩)).startSlot pick
    else
      match s.sched.syncMode with
      | .free => s.startCycle pick []
      | .triggered => s.setSched s.sched.wait
  | _ => s

/-- A sync edge (R42). -/
def State.syncEdge (pick : Nat → Nat) (s : State) : State :=
  match s.sched.engine, s.sched.syncMode with
  | .waitingSync, _ => s.startCycle pick []
  | .inCycle, .triggered => s.notify [s.broadcast .sync (.sync .early)]
  | _, _ => s

/-- A gap expiry (R43); it does not happen unless the gap timer runs (R44, R55). -/
def State.expireGap (pick : Nat → Nat) (s : State) : State :=
  match s.sched.engine, s.sched.gapTimer with
  | .waitingSync, some _ => s.startCycle pick [s.broadcast .sync (.sync .missed)]
  | _, _ => s

/-- A switch claim, from PLAN_SWITCH or from the alarm (R50, R51): in SETUP the active plan is swapped at once with a
PLAN_SWITCHED notice; in RUN a pending switch is set, unless one is pending already. Answers whether it was taken. -/
def State.takeSwitch (s : State) : State × Bool :=
  match s.part with
  | .setup =>
    let s' := s.setSched { s.sched with active := s.sched.active.other }
    (s'.notify [s'.switchedNotice], true)
  | .run =>
    if s.sched.pendingSwitch then (s, false)
    else (s.setSched { s.sched with pendingSwitch := true }, true)

/-- The schedule's part of HALT (R55): engine OFF, timers stopped, pending switch cancelled; CYCLE_OUT is low while the
engine is OFF (R40). -/
def Schedule.stopEngine (c : Schedule) : Schedule :=
  { c with engine := .off, slotTimer := none, gapTimer := none, pendingSwitch := false, cycleOut := false }

end Sys2Proof.Machine
end

