-- ==== Sys2Proof/Machine/TimeOps.lean ====
section
/-! DEFINITION. The timebase's operations (07): calendar advance, second boundary, alarm. -/

namespace Sys2Proof.Machine

/-- The length of the second under way, in ticks (R132). -/
def Timebase.secondLength (t : Timebase) : Nat := (Config.nominalSecond - t.trim).toNat

/-- Step 6 of the advance: a carried year (R138). -/
def Calendar.carryYear (c : Calendar) : Calendar :=
  if c.year + 1 ≥ 100 then { c with year := 0 } else { c with year := c.year + 1 }

/-- Step 5: a carried month (R138). -/
def Calendar.carryMonth (c : Calendar) : Calendar :=
  if c.month + 1 ≥ 13 then Calendar.carryYear { c with month := 1 } else { c with month := c.month + 1 }

/-- Step 4: a carried day, and the weekday; the month's length is that of month and year before the advance (R138). -/
def Calendar.carryDay (c : Calendar) : Calendar :=
  let c' := { c with weekday := if c.weekday ≥ 6 then 0 else c.weekday + 1 }
  if c.day + 1 > monthLength c.year c.month then Calendar.carryMonth { c' with day := 1 }
  else { c' with day := c.day + 1 }

/-- Step 3: a carried hour (R138). -/
def Calendar.carryHour (c : Calendar) : Calendar :=
  if c.hour + 1 ≥ 24 then Calendar.carryDay { c with hour := 0 } else { c with hour := c.hour + 1 }

/-- Step 2: a carried minute (R138). -/
def Calendar.carryMinute (c : Calendar) : Calendar :=
  if c.minute + 1 ≥ 60 then Calendar.carryHour { c with minute := 0 } else { c with minute := c.minute + 1 }

/-- One second added, with carries field by field (R138). -/
def Calendar.advance (c : Calendar) : Calendar :=
  if c.second + 1 ≥ 60 then Calendar.carryMinute { c with second := 0 } else { c with second := c.second + 1 }

/-- Whether the alarm matches the calendar after the advance (R143). -/
def Alarm.fires (a : Alarm) (c : Calendar) : Bool :=
  a.enabled && decide (c.second = 0) && decide (c.hour = a.hour) && decide (c.minute = a.minute) &&
    a.weekdays.getLsbD c.weekday

/-- Step 1 of a second boundary: the tick count returns to 0 and a staged trim is adopted (R134). -/
def Timebase.beginSecond (t : Timebase) : Timebase :=
  { t with tickCount := 0, trim := t.stagedTrim.getD t.trim, stagedTrim := none }

/-- The alarm's action at a match (R143): the ALARM notice at once, or a pending alarm answer with the request handed
to the schedule (R145). -/
def State.fireAlarm (s : State) : State :=
  match s.time.alarm.action with
  | .notice => s.notify [s.broadcast .alarm (.alarm false false)]
  | .noticeAndSwitch => s.setTime { s.time with pendingAlarm := some s.time.calendar.secondOfDay }

/-- A second boundary, in one claim (R134). -/
def State.boundary (s : State) : State :=
  let t := s.time.beginSecond
  match t.stagedTime with
  | some c => s.setTime { t with calendar := c, stagedTime := none }
  | none =>
    let s' := s.setTime { t with calendar := t.calendar.advance }
    if t.alarm.fires t.calendar.advance then s'.fireAlarm else s'

/-- The schedule takes the alarm's switch request and answers; the timebase sends the ALARM notice with the answer and
the second of day of the match (R144, R145). Without a pending answer there is no request. -/
def State.answerAlarm (s : State) : State :=
  match s.time.pendingAlarm with
  | none => s
  | some second =>
    let r := s.takeSwitch
    let s' := r.1.setTime { r.1.time with pendingAlarm := none }
    s'.notify
      [{ recipients := .accepting .alarm
         notice :=
          { stamp := { cycle := s'.sched.cycleCount, slot := s'.sched.slotIndex, second := second }
            body := .alarm true r.2 } }]

end Sys2Proof.Machine
end

