-- ==== Sys2Proof/Machine/ClockEvents.lean ====
section
/-! DEFINITION. The schedule's own events (02), and one tick of the reference clock. An expiry's command is the expiry
itself: its sender sends it when the timer reaches its limit (notes/assumptions/5.md), and the tick raises it then. -/

namespace Sys2Proof.Machine

/-- CYCLE_OUT returns low (R40). -/
def State.endPulse (s : State) : State := s.setSched { s.sched with cycleOut := false }

/-- END_OF_SLOT (R38). -/
def execEndOfSlot (s : State) : Host.Outcome State Fault Refusal :=
  .next (s.unlessReset fun s => (s.endSlot s.draw).bump)

/-- A rise of SYNC_IN is sampled, and the schedule takes the edge (R42). -/
def State.takeEdge (s : State) : State := (s.syncEdge fun i => s.draw (i + 1)).bump

/-- SYNC_IN rises, and the rise stands until the next tick samples it (R42). -/
def State.leaveEdge (s : State) : State := (s.setSched { s.sched with syncRise := true }).bump

/-- SYNC_EDGE (R42): the draws choose whether the rise is sampled now, at the moment of the last tick, or at the next
tick, among all that falls there (R44, R45). While one rise stands, a further one is sampled now
(notes/assumptions/15.md). -/
def execSyncEdge (s : State) : Host.Outcome State Fault Refusal :=
  .next (s.unlessReset fun s => if !s.sched.syncRise && (s.draw 0).testBit 0 then s.leaveEdge else s.takeEdge)

/-- GAP_EXPIRY (R43). -/
def execGapExpiry (s : State) : Host.Outcome State Fault Refusal :=
  .next (s.unlessReset fun s => (s.expireGap s.draw).bump)

/-- CYCLE_PULSE_END (R40). -/
def execCyclePulseEnd (s : State) : Host.Outcome State Fault Refusal := .next (s.unlessReset State.endPulse)

/-- What can fall at a tick: the expiry of a timer, a sync edge, the schedule's answer to the alarm, the sample of a stop
input that has changed, and claims of an accepted request that are still outstanding. -/
inductive TickEvent where
  | slot
  | gap
  | edge
  | filter (l : Line)
  | second
  | alarmAnswer
  | sample (l : Line)
  | claims (p : Port)
  deriving DecidableEq, Repr

def SlotTimer.tick (t : SlotTimer) : SlotTimer := { t with elapsed := t.elapsed + 1 }

def StopLine.tick (x : StopLine) : StopLine :=
  { x with pending := x.pending.map fun c => { c with timer := c.timer + 1 } }

/-- Every counter of the reference clock goes on by one: the second's tick count (R133), the slot timer (R38), the gap
timer (R43), the filter timers (R117); the pulse of the last tick ends (R40). -/
def State.count (s : State) : State :=
  ((s.setTime { s.time with tickCount := s.time.tickCount + 1 }).setSched
    { s.sched with
      slotTimer := s.sched.slotTimer.map SlotTimer.tick
      gapTimer := s.sched.gapTimer.map (· + 1)
      cycleOut := false }).setStop
    { s.stop with lines := #v[s.stop.lines[(0 : Line)].tick, s.stop.lines[(1 : Line)].tick] }

/-- Whether the slot timer has reached the slot's duration (R38). -/
def Schedule.slotDue (c : Schedule) : Bool :=
  match c.slotTimer with
  | none => false
  | some t => decide (t.duration ≤ t.elapsed)

/-- Whether the gap timer has reached the gap limit (R43). -/
def Schedule.gapDue (c : Schedule) : Bool :=
  match c.gapTimer with
  | none => false
  | some n => decide (c.gapLimit ≤ n)

/-- Whether the sampled level of a line differs from its pin (R117, R119). -/
def StopLine.changed (x : StopLine) : Bool := decide (x.pin ≠ x.input)

/-- What falls at this tick, counters already advanced: each expiry whose counter has reached its limit (R38, R43,
R120, R133), the edge of a rise of SYNC_IN that stands (R42), the alarm's switch request that stands or that the second boundary may raise (R145), the changed stop
inputs (R119), and the ports whose request has claims outstanding, each as often as a port reset has claims, so that
what else falls can fall between two of them (R109, R183). -/
def State.due (s : State) : List TickEvent :=
  (if s.sched.slotDue then [TickEvent.slot] else []) ++ (if s.sched.gapDue then [TickEvent.gap] else []) ++
    (if s.sched.syncRise then [TickEvent.edge] else []) ++
    ((List.finRange 2).filter fun l => (s.stop.line l).expired).map TickEvent.filter ++
    (if s.time.secondLength ≤ s.time.tickCount then [TickEvent.second, TickEvent.alarmAnswer]
      else if s.time.pendingAlarm.isSome then [TickEvent.alarmAnswer] else []) ++
    ((List.finRange 2).filter fun l => (s.stop.line l).changed).map TickEvent.sample ++
    ((List.finRange 4).filter fun p => (s.port p).claimsOutstanding).flatMap fun p => List.replicate 4 (.claims p)

/-- One of them taken, as its command is. -/
def State.takeEvent (s : State) : TickEvent → State
  | .slot => (s.endSlot s.draw).bump
  | .gap => (s.expireGap s.draw).bump
  | .edge => (s.setSched { s.sched with syncRise := false }).takeEdge
  | .filter l => s.expireFilter l
  | .second => s.boundary
  | .alarmAnswer => s.answerAlarm
  | .sample l => s.sampleStop l (s.stop.line l).pin
  | .claims p => s.settleSome p

/-- One tick of the reference clock: the counters, then what falls at this tick, in an order that the draws choose;
the order among the two lines' samples (and so their STOP notices) and among all else that falls together, a sync edge
and an expiry among it, is the model's free value (R44, R45, R120, R121, R124, R154). During part reset nothing counts (R133, R185;
notes/assumptions/4.md, 19.md). -/
def State.tick (s : State) : State :=
  s.unlessReset fun s => (shuffle s.draw 0 s.count.due).foldl State.takeEvent s.count.bump

end Sys2Proof.Machine
end

