-- ==== Sys2Proof/Machine/HoldRequests.lean ====
section
/-! DEFINITION. The hold table's requests (section 4.2). -/

namespace Sys2Proof.Machine

/-- A hold record as sent: group set and cycles left (R87, R88, R90). -/
def Hold.bytes (h : Hold) : List Byte := bytes16 h.groups ++ [byteOf h.cyclesLeft]

/-- HOLD: the part in RUN, no record yet, then the record (R87). -/
def State.takeHold (s : State) (p : Port) (groups : GroupSet) : State :=
  if s.part ≠ .run then s.answer p .wrongState []
  else
    match s.hold.records[p] with
    | some h => s.answer p .held h.bytes
    | none =>
      (s.setHold
        { s.hold with
          records := s.hold.records.set p (some { groups := groups, cyclesLeft := s.hold.limit }) }).answer p .ok
        (Hold.bytes { groups := groups, cyclesLeft := s.hold.limit })

/-- The hold record of p removed with the reports and what follows from them, in one claim (R86, R88). -/
def State.endHold (s : State) (p : Port) : State :=
  (s.takeClaims (s.holdRemovalClaims p)).1.notify ((s.takeClaims (s.holdRemovalClaims p)).2.map Outgoing.message)

/-- RELEASE (R88). -/
def State.releaseHold (s : State) (p : Port) : State :=
  match s.hold.records[p] with
  | none => s.answer p .notHeld []
  | some h => (s.endHold p).answer p .ok h.bytes

/-- One port's part of HOLD_READ's body: presence byte, then the record or zeros (R90, R174). -/
def Hold.slotBytes : Option Hold → List Byte
  | none => [0, 0, 0, 0]
  | some h => 1 :: h.bytes

/-- The body of HOLD_READ (R90). -/
def HoldTable.body (h : HoldTable) : List Byte :=
  byteOf h.limit :: (Hold.slotBytes h.records[(0 : Port)] ++ Hold.slotBytes h.records[(1 : Port)] ++
    Hold.slotBytes h.records[(2 : Port)] ++ Hold.slotBytes h.records[(3 : Port)])

/-- HOLD (R87). -/
def execHold (p : Port) (groups : Word16) (s : State) : Host.Outcome State Fault Refusal :=
  .next (s.serve p (Instr.hold p groups).record none (holdParams groups) fun g s => s.takeHold p g)

/-- RELEASE (R88). -/
def execRelease (p : Port) (s : State) : Host.Outcome State Fault Refusal :=
  .next (s.serve p (Instr.release p).record none (some ()) fun _ s => s.releaseHold p)

/-- HOLD_LIMIT (R89). -/
def execHoldLimit (p : Port) (limit : Byte) (s : State) : Host.Outcome State Fault Refusal :=
  .next (s.serve p (Instr.holdLimit p limit).record none (rangeOf? 1 16 limit.toNat) fun n s =>
    s.inSetup p fun s => (s.setHold { s.hold with limit := n }).answer p .ok [])

/-- HOLD_READ (R90). -/
def execHoldRead (p : Port) (s : State) : Host.Outcome State Fault Refusal :=
  .next (s.serve p (Instr.holdRead p).record none (some ()) fun _ s => s.answer p .ok s.hold.body)

end Sys2Proof.Machine
end

