-- ==== Sys2Proof/Machine/Link.lean ====
section
/-! DEFINITION. The link's own events (09): select edges, the refused header, the last bytes of data and responses;
and what a port's lines carry: the bytes on SDO, and the command that the bits on SDI spell. -/

namespace Sys2Proof.Machine

/-! ### The lines -/

/-- A response record as it leaves on SDO: status code, body length, body (R167, R175). -/
def Response.record (r : Response) : List Byte := byteOf r.status.code :: byteOf r.body.length :: r.body

/-- The byte that port p sends on SDO, none where SDO is not driven: while SEL is high and during part reset (R166,
R185). In RESPONSE it is byte n of the response record, counted from the byte that follows the one whose passing moved
the transaction into RESPONSE; at every byte at which there is nothing to send it is 0xFF (R166, R168). While claims of
the request are outstanding no byte of its response is sent (R171, R183). In a select period already begun when the reset is
released, which is ignored to its end with the port in IDLE and SEL low (R185), it is 0xFF from the release on: the model's
choice (notes/assumptions/21.md). -/
def State.sdo (s : State) (p : Port) (n : Nat) : Option Byte :=
  if s.inReset || !(s.port p).selected then none
  else
    match (s.port p).tx with
    | .response r => some (r.record.getD n 0xFF)
    | _ => some 0xFF

/-- The k-th bit that port p sets up on SDO while its transaction stands in its present state, counted from 0: the bytes
of SDO one after another, each most significant bit first (R166). -/
def State.sdoBit (s : State) (p : Port) (k : Nat) : Option Bool :=
  (s.sdo p (k / 8)).bind fun b => (bitsOf b)[k % 8]?

/-- An edge on a port's lines (R166): of SELn, or of SCKn, at whose rise SDIn is sampled. -/
inductive LineEdge where
  | selectFalls
  | selectRises
  | clockRises (sdi : Bool)
  | clockFalls
  deriving DecidableEq, Repr

/-- What a port's SDO carries: its level, none where it is not driven, and the number of bits set up since the transaction
entered its present state. -/
structure OutLine where
  level : Option Bool
  setUp : Nat
  deriving DecidableEq, Repr

/-- SDO at an edge, while the part is in state s: it changes at each falling edge of SCK, and the first bit of the first
byte is set up when SEL falls. While SEL is high it is not driven, and edges on SCK are ignored (R166). A fall of SEL is
taken in the state that SELECT_PERIOD_BEGIN leaves. -/
def State.drive (s : State) (p : Port) (x : OutLine) (e : LineEdge) : OutLine :=
  if s.inReset || !(s.port p).selected then { level := none, setUp := 0 }
  else
    match e with
    | .selectFalls => { level := s.sdoBit p x.setUp, setUp := x.setUp + 1 }
    | .clockFalls => { level := s.sdoBit p x.setUp, setUp := x.setUp + 1 }
    | .clockRises _ => x
    | .selectRises => { level := none, setUp := 0 }

/-- SDO over the edges that fall while the transaction stands in one state. The level is that at entry, which the first
edge to set a bit up replaces: the last bit of the state before, or none where the state begins with SEL's fall. -/
def State.driveAll (s : State) (p : Port) (level : Option Bool) (edges : List LineEdge) : OutLine :=
  edges.foldl (s.drive p) { level := level, setUp := 0 }

/-- The bits that a port samples on SDI, one at each rising edge of SCK (R166). -/
def sampledBits (edges : List LineEdge) : List Bool :=
  edges.filterMap fun e =>
    match e with
    | .clockRises sdi => some sdi
    | _ => none

/-- The command that bits on port p's SDI spell, sampled one after another since the transaction entered its state:
the request record in REQUEST, the data of a STAGE_WRITE behind its acceptance. A byte cut short is discarded, and bits while
SEL is high or in the other states are ignored (R166, R168). -/
def State.heard (s : State) (p : Port) (bits : List Bool) : Option Instr :=
  if s.inReset || !(s.port p).selected then none
  else
    match (s.port p).tx, bytesOfBits bits with
    | .request, bytes => decodeRecord p bytes
    | .writeData _ _, b :: bytes => some (.stageWriteCompletion p (b :: bytes))
    | .accepted (.pagePart (.stageWrite _) _), b :: bytes => some (.stageWriteCompletion p (b :: bytes))
    | _, _ => none

/-! ### Events -/

/-- SEL falls: IDLE to REQUEST (R168). During part reset the ports take no select (R185); a port that leaves reset with
SEL low stays in IDLE until SEL rises, so the select period is ignored to its end. -/
def State.selectFalls (s : State) (p : Port) : State :=
  if (s.port p).selected then s
  else if !s.inReset && decide ((s.port p).tx = .idle) then
    s.setPort p { s.port p with selected := true, tx := .request, received := [] }
  else s.setPort p { s.port p with selected := true }

/-- SEL rises: the transaction ends and the port returns to IDLE; a READ or STAGE_READ still in its data phase is
aborted, which releases its read reference with the retiring-set step, and a write buffer is emptied (R15, R17, R20,
R173). -/
def State.endTransaction (s : State) (p : Port) : State :=
  let l := { s.port p with selected := false, tx := .idle, received := [], write := none, reading := none }
  match (s.port p).reading with
  | none => s.setPort p l
  | some r => (s.setMap (s.map.dropRef r.frame)).setPort p l

/-- SEL rises, if it was low. -/
def State.selectRises (s : State) (p : Port) : State :=
  if (s.port p).selected then s.endTransaction p else s

/-- The header check's refusal (R169). A header that the check accepts is no refusal: the port stays in REQUEST with
the header received (notes/assumptions/13.md). -/
def State.refuseHeader (s : State) (p : Port) (identifier length : Byte) : State :=
  if s.awaitsRequest p then
    if headerAccepted identifier length then s.receive p [identifier, length]
    else (s.receive p [identifier, length]).answer p .badRequest []
  else s

/-- Port p joins readers-since-publication if the frame it read is still the live frame of the page (R15). -/
def ExchangeMap.joinReaders (m : ExchangeMap) (p : Port) (r : ReadInFlight) : ExchangeMap :=
  if (m.page r.page).defined = true ∧ (m.page r.page).live = some r.frame then
    m.setPage r.page { m.page r.page with readersSince := PortSet.join (m.page r.page).readersSince p }
  else m

/-- The read in flight of a port in RESPONSE (R172). -/
def LinkPort.readInResponse (l : LinkPort) : Option ReadInFlight :=
  match l.tx with
  | .response _ => l.reading
  | _ => none

/-- The port after the last data byte of its read has passed (R168). -/
def LinkPort.readDone (l : LinkPort) : LinkPort := { l with tx := .done, reading := none }

/-- Completion of a READ (R15): the reference is released with the retiring-set step, and the port joins
readers-since-publication if its frame is still live. -/
def State.completeRead (s : State) (p : Port) : State :=
  match (s.port p).readInResponse with
  | some r =>
    match r.kind with
    | .read => (s.setMap ((s.map.dropRef r.frame).joinReaders p r)).setPort p (s.port p).readDone
    | .stageRead => s
  | none => s

/-- Completion of a STAGE_READ (R17): the reference is released with the retiring-set step. -/
def State.completeStageRead (s : State) (p : Port) : State :=
  match (s.port p).readInResponse with
  | some r =>
    match r.kind with
    | .read => s
    | .stageRead => (s.setMap (s.map.dropRef r.frame)).setPort p (s.port p).readDone
  | none => s

/-- The staging that a write buffer was accepted against, if it still exists on its page and is OPEN (R21). -/
def ExchangeMap.writeTarget (m : ExchangeMap) (p : Port) (w : WriteBuffer) : Option Staging :=
  match (m.page w.page).stagedBy p with
  | none => none
  | some st => if st.serial = w.serial ∧ st.state = .opened then some st else none

/-- The exchange map's claim at the completion of a STAGE_WRITE (R21): the bytes are written, or nothing is. -/
def State.applyWrite (s : State) (p : Port) (w : WriteBuffer) : State × Status :=
  match s.map.writeTarget p w with
  | none => (s, .notStaged)
  | some st =>
    (s.setMap { s.map with frames := s.map.frames.writeFrame st.frame w.offset w.data }, .ok)

/-- Data bytes pass in WRITE_DATA (R172). Bytes short of the last are gathered, or discarded after a refused
acceptance; with the last byte the transaction completes and the response follows. Bytes after the last are ignored, as
SDI is in RESPONSE (R168; notes/assumptions/12.md). -/
def State.dataBytes (s : State) (p : Port) (data : List Byte) : State :=
  match (s.port p).tx with
  | .writeData remaining refusal =>
    let now := data.take remaining
    let buffer := (s.port p).write.map fun w => { w with data := w.data ++ now }
    if now.length < remaining then
      s.setPort p { s.port p with tx := .writeData (remaining - now.length) refusal, write := buffer }
    else
      let s' := s.setPort p { s.port p with write := none }
      match refusal, buffer with
      | some code, _ => s'.answer p code []
      | none, some w => (s'.applyWrite p w).1.answer p (s'.applyWrite p w).2 []
      | none, none => s'.answer p .notStaged []
  | _ => s

/-- The port after the last byte of its response has passed (R168). -/
def State.done (s : State) (p : Port) : State := s.setPort p { s.port p with tx := .done }

/-- The last response byte of a transaction other than an OK READ or STAGE_READ passes: RESPONSE to DONE (R168). -/
def State.responseSent (s : State) (p : Port) : State :=
  match (s.port p).tx, (s.port p).reading with
  | .response _, none => s.done p
  | _, _ => s

/-- SELECT_PERIOD_BEGIN (R168). -/
def execSelectPeriodBegin (p : Port) (s : State) : Host.Outcome State Fault Refusal := .next (s.selectFalls p)

/-- SELECT_RELEASE (R173). Claims outstanding are taken first, as at every event that moves the transaction on. -/
def execSelectRelease (p : Port) (s : State) : Host.Outcome State Fault Refusal :=
  .next ((s.settle p).selectRises p)

/-- BAD_REQUEST (R169). -/
def execBadRequest (p : Port) (identifier length : Byte) (s : State) : Host.Outcome State Fault Refusal :=
  .next (s.refuseHeader p identifier length)

/-- READ_COMPLETION (R15). -/
def execReadCompletion (p : Port) (s : State) : Host.Outcome State Fault Refusal :=
  .next ((s.settle p).completeRead p)

/-- STAGE_READ_COMPLETION (R17). -/
def execStageReadCompletion (p : Port) (s : State) : Host.Outcome State Fault Refusal :=
  .next ((s.settle p).completeStageRead p)

/-- STAGE_WRITE_COMPLETION (R21). -/
def execStageWriteCompletion (p : Port) (data : List Byte) (s : State) : Host.Outcome State Fault Refusal :=
  .next ((s.settle p).dataBytes p data)

/-- LAST_RESPONSE_BYTE (R168). -/
def execLastResponseByte (p : Port) (s : State) : Host.Outcome State Fault Refusal :=
  .next ((s.settle p).responseSent p)

end Sys2Proof.Machine
end

