-- ==== Sys2Proof/Machine/NoticeRequests.lean ====
section
/-! DEFINITION. NOTICE_PEEK, NOTICE_POP and PORT_SELF (08). -/

namespace Sys2Proof.Machine

/-- Bytes 8 to 11 of a notice record (R155). -/
def NoticeBody.bytes : NoticeBody → List Byte
  | .groupPoint g o made missed => [byteOf g.val, o.code, byteOf made, byteOf missed]
  | .late i g => bytesOf16 i.val ++ [byteOf g.val, 0]
  | .stageExpired i serial => bytesOf16 i.val ++ bytes16 serial
  | .holdBroken groups => bytes16 groups ++ [0, 0]
  | .slot k => [byteOf k.val, 0, 0, 0]
  | .alarm requested taken => [yesNo requested, yesNo taken, 0, 0]
  | .stop l e => [byteOf l.val, e.code, 0, 0]
  | .planSwitched n => [n.code, 0, 0, 0]
  | .sync d => [d.code, 0, 0, 0]

/-- The 16 bytes of a notice record (R155). -/
def Notice.bytes (n : Notice) : List Byte :=
  [byteOf (n.body.attentionBit + 1), n.stamp.cycle.setWidth 8, byteOf n.stamp.slot.val, 0] ++
    bytesOf32 n.stamp.second ++ n.body.bytes ++ [0, 0, 0, 0]

/-- NOTICE_PEEK (R156). -/
def State.peekNotice (s : State) (p : Port) : State :=
  match s.notice.ports[p].queue with
  | [] => s.answer p .nothingThere []
  | x :: rest => s.answer p .ok ([byteOf (rest.length + 1), yesNo s.notice.ports[p].lost] ++ x.bytes)

/-- NOTICE_POP (R157): queue length and lost flag after the removal, and the removed record. -/
def State.popNotice (s : State) (p : Port) : State :=
  match s.notice.ports[p].queue with
  | [] => s.answer p .nothingThere []
  | x :: rest =>
    (s.setNotice (s.notice.setPort p s.notice.ports[p].pop)).answer p .ok
      ([byteOf rest.length, yesNo (NoticePort.pop s.notice.ports[p]).lost] ++ x.bytes)

/-- The subscription part of a port replaced, the attention line brought up to date (R159, R161). -/
def NoticePort.subscribe (n : NoticePort) (x : SelfParams) : NoticePort :=
  NoticePort.refresh { n with subscription := x.subscription, kinds := x.kinds, attention := x.attention }

/-- The subscription part as sent (R159, R167). -/
def NoticePort.subscriptionBytes (n : NoticePort) : List Byte :=
  bytes16 n.subscription ++ [n.kinds.setWidth 8] ++ bytes16 (n.attention.setWidth 16)

/-- NOTICE_PEEK (R156). -/
def execNoticePeek (p : Port) (s : State) : Host.Outcome State Fault Refusal :=
  .next (s.serve p (Instr.noticePeek p).record none (some ()) fun _ s => s.peekNotice p)

/-- NOTICE_POP (R157). -/
def execNoticePop (p : Port) (s : State) : Host.Outcome State Fault Refusal :=
  .next (s.serve p (Instr.noticePop p).record none (some ()) fun _ s => s.popNotice p)

/-- PORT_SELF (R159). -/
def execPortSelf (p : Port) (groups : Word16) (kinds : Byte) (attention : Word16) (s : State) :
    Host.Outcome State Fault Refusal :=
  .next (s.serve p (Instr.portSelf p groups kinds attention).record none (selfParams groups kinds attention)
    fun x s =>
      (s.setNotice (s.notice.setPort p (s.notice.ports[p].subscribe x))).answer p .ok
        s.notice.ports[p].subscriptionBytes)

end Sys2Proof.Machine
end

