-- ==== Sys2Proof/Machine/PageRequests.lean ====
section
/-! DEFINITION. The page definition requests (section 1.4). -/

namespace Sys2Proof.Machine

/-- An UNUSED page becomes EMPTY with the given definition (R10). -/
def PageParams.fresh (x : PageParams) : PageRecord :=
  { PageRecord.unused with defined := true, group := x.group, readers := x.readers, writers := x.writers }

/-- DEFINE_PAGE (R10). -/
def State.definePage (s : State) (p : Port) (x : PageParams) : State :=
  if (s.map.page x.page).defined then s.answer p .inUse []
  else (s.setMap (s.map.setPage x.page x.fresh)).answer p .ok []

/-- A request on a defined page without a staging; PAGE_UNUSED and PAGE_BUSY otherwise, the latter with the stager
(R11, R12, R175). -/
def State.onQuietPage (s : State) (p : Port) (i : Page) (act : State → State) : State :=
  if (s.map.page i).defined then
    match (s.map.page i).staging with
    | some st => s.answer p .pageBusy [byteOf st.stager.val]
    | none => (act s).answer p .ok []
  else s.answer p .pageUnused []

/-- PAGE_SET's effect (R11). -/
def ExchangeMap.redefine (m : ExchangeMap) (x : PageParams) : ExchangeMap :=
  m.setPage x.page { m.page x.page with group := x.group, readers := x.readers, writers := x.writers }

/-- RETIRE_PAGE's effect (R12). -/
def ExchangeMap.retire (m : ExchangeMap) (i : Page) : ExchangeMap :=
  (m.setPage i PageRecord.unused).releaseLive (m.page i).live

/-- The 16 bytes of a page status record (R13). -/
def PageRecord.statusBytes (r : PageRecord) (i : Page) : List Byte :=
  let flags :=
    r.defined.toNat + 2 * r.live.isSome.toNat + 4 * r.staging.isSome.toNat +
      8 * (match r.staging with
        | some st => (decide (st.state = .ready)).toNat
        | none => 0) +
      16 * r.lastPublished.isSome.toNat
  let stager := match r.staging with
    | some st => st.stager.val
    | none => 0
  let left := match r.staging with
    | some st => st.cyclesLeft
    | none => 0
  let serial := match r.staging with
    | some st => st.serial
    | none => 0
  let stagingFrame := match r.staging with
    | some st => st.frame.val
    | none => 0
  let live := match r.live with
    | some f => f.val
    | none => 0
  bytesOf16 i.val ++ [byteOf flags, byteOf r.group.val, r.writers ++ r.readers,
      byteOf (r.readersSince.toNat + 16 * stager)] ++
    bytes16 r.sequence ++ [(r.lastPublished.getD 0).setWidth 8, left] ++ bytes16 serial ++ bytesOf16 live ++
    bytesOf16 stagingFrame

/-- DEFINE_PAGE (R10). -/
def execDefinePage (p : Port) (page : Word16) (group readers writers : Byte) (s : State) :
    Host.Outcome State Fault Refusal :=
  .next (s.serve p (Instr.definePage p page group readers writers).record (some .map)
    (pageParams page group readers writers) fun x s => s.definePage p x)

/-- PAGE_SET (R11). -/
def execPageSet (p : Port) (page : Word16) (group readers writers : Byte) (s : State) :
    Host.Outcome State Fault Refusal :=
  .next (s.serve p (Instr.pageSet p page group readers writers).record (some .map)
    (pageParams page group readers writers) fun x s =>
      s.onQuietPage p x.page fun s => s.setMap (s.map.redefine x))

/-- RETIRE_PAGE (R12). -/
def execRetirePage (p : Port) (page : Word16) (s : State) : Host.Outcome State Fault Refusal :=
  .next (s.serve p (Instr.retirePage p page).record (some .map) (pageOf? page) fun i s =>
    s.onQuietPage p i fun s => s.setMap (s.map.retire i))

/-- PAGE_STATUS (R13). -/
def execPageStatus (p : Port) (page : Word16) (s : State) : Host.Outcome State Fault Refusal :=
  .next (s.serve p (Instr.pageStatus p page).record none (pageOf? page) fun i s =>
    s.answer p .ok ((s.map.page i).statusBytes i))

/-- STAGE_LIMIT (R14). -/
def execStageLimit (p : Port) (limit : Byte) (s : State) : Host.Outcome State Fault Refusal :=
  .next (s.serve p (Instr.stageLimit p limit).record none (some limit) fun n s =>
    s.inSetup p fun s => (s.setMap { s.map with stageLimit := n }).answer p .ok [])

end Sys2Proof.Machine
end

