-- ==== Sys2Proof/Machine/PartRequests.lean ====
section
/-! DEFINITION. Part control, port reset, rights and the reset input (09). -/

namespace Sys2Proof.Machine

/-- The 12 bytes of PART_STATUS (R182). -/
def State.partStatusBody (s : State) : List Byte :=
  bytes16 Config.modelNumber ++
    [Config.revision, s.part.code, s.sched.engine.code, s.sched.active.code, yesNo s.sched.pendingSwitch,
      s.sched.cycleCount.setWidth 8, byteOf s.sched.slotIndex.val] ++
    bytesOf16 s.map.freeList.length ++ [byteOf s.map.retiring.length]

/-- PART_STATUS (R182). -/
def execPartStatus (p : Port) (s : State) : Host.Outcome State Fault Refusal :=
  .next (s.serve p (Instr.partStatus p).record none (some ()) fun _ s => s.answer p .ok s.partStatusBody)

/-- START in SETUP: RUN, and the schedule's START in the same claim (R35, R179). -/
def State.startPart (s : State) : State := ((s.setPart .run).startSchedule s.draw).bump

/-- START (R179). -/
def execStart (p : Port) (s : State) : Host.Outcome State Fault Refusal :=
  .next (s.serve p (Instr.start p).record none (some ()) fun _ s =>
    s.inSetup p fun s => s.startPart.answer p .ok [])

/-- Every hold record removed, without notices or reports (R96). -/
def HoldTable.removeAll (h : HoldTable) : HoldTable := { h with records := forPorts fun _ => none }

/-- HALT's one claim over every block (R180, R55, R29, R96, R83). -/
def State.haltPart (s : State) : State :=
  ((((s.setPart .setup).setSched s.sched.stopEngine).setMap s.map.removeAllStagings).setHold s.hold.removeAll).setPub
    s.pub.clearMarks

/-- HALT (R180). -/
def execHalt (p : Port) (s : State) : Host.Outcome State Fault Refusal :=
  .next (s.serve p (Instr.halt p).record (some .plan) (some ()) fun _ s =>
    if s.part = .run then s.haltPart.answer p .ok [] else s.answer p .wrongState [])

/-- PORT_RESET (R183). -/
def execPortReset (p : Port) (s : State) : Host.Outcome State Fault Refusal :=
  .next (s.serve p (Instr.portReset p).record none (some ()) fun _ s => s.beginReset p)

/-- PORT_RIGHTS_SET (R177). -/
def execPortRightsSet (p : Port) (target rights : Byte) (s : State) : Host.Outcome State Fault Refusal :=
  .next (s.serve p (Instr.portRightsSet p target rights).record none (rightsParams target rights) fun x s =>
    s.inSetup p fun s =>
      (s.setPort x.1 { s.port x.1 with rights := x.2 }).answer p .ok
        [twoFlags (s.port x.1).rights.map (s.port x.1).rights.plan])

/-- The part held in reset: every block at its reset values, every transaction aborted without a response (R28, R54,
R82, R97, R114, R130, R148, R163, R186). Frame contents are not cleared (R3, R28), and the pins are as they are driven.
-/
def State.holdInReset (s : State) : State :=
  { State.reset with
    pending := s.pending
    choices := s.choices
    inReset := true
    link := forPorts fun p => { LinkPort.reset with selected := (s.port p).selected }
    map := { ExchangeMap.reset with frames := s.map.frames }
    stop :=
      { lines := #v[{ StopLine.reset with pin := s.stop.lines[(0 : Line)].pin },
          { StopLine.reset with pin := s.stop.lines[(1 : Line)].pin }],
        frozen := 0 } }

/-- PART_RESET (R185, R186). -/
def execPartReset (s : State) : Host.Outcome State Fault Refusal := .next s.holdInReset

/-- RESET_RELEASE (R185). -/
def execResetRelease (s : State) : Host.Outcome State Fault Refusal := .next (s.setInReset false)

end Sys2Proof.Machine
end

