-- ==== Sys2Proof/Machine/PlanRequests.lean ====
section
/-! DEFINITION. The schedule's requests (sections 2.4 to 2.6). -/

namespace Sys2Proof.Machine

/-- A plan edit, refused with PLAN_LOCKED by the lock (R48). -/
def State.editPlan (s : State) (p : Port) (n : PlanName) (edit : Plan → Plan) : State :=
  if s.planLocked n then s.answer p .planLocked []
  else (s.setSched (s.sched.setPlan n (edit (s.sched.plan n)))).answer p .ok []

/-- One entry as sent: duration, publish group (255 for none), notify set, filter value, filter mask (R31, R167). -/
def SlotEntry.bytes (e : SlotEntry) : List Byte :=
  bytes16 e.duration ++
    [match e.group with
      | none => 255
      | some g => byteOf g.val,
      e.notify.setWidth 8, e.filterValue.setWidth 8, e.filterMask.setWidth 8]

/-- The body of PLAN_READ (R49, R174). -/
def State.planReadBody (s : State) (x : PlanReadParams) : List Byte :=
  [byteOf (s.sched.plan x.plan).count.val, twoFlags (decide (x.plan = s.sched.active)) s.sched.pendingSwitch] ++
    (((List.finRange 48).filter fun k => decide (x.first ≤ k.val ∧ k.val < x.first + x.number)).flatMap fun k =>
      (s.sched.plan x.plan).entries[k].bytes)

/-- SLOT_SET (R46). -/
def execSlotSet (p : Port) (plan slot : Byte) (duration : Word16) (group notify value mask : Byte) (s : State) :
    Host.Outcome State Fault Refusal :=
  .next (s.serve p (Instr.slotSet p plan slot duration group notify value mask).record (some .plan)
    (slotParams plan slot duration group notify value mask) fun x s =>
      s.editPlan p x.plan fun pl => { pl with entries := pl.entries.set x.slot x.entry })

/-- PLAN_LENGTH (R47). -/
def execPlanLength (p : Port) (plan count : Byte) (s : State) : Host.Outcome State Fault Refusal :=
  .next (s.serve p (Instr.planLength p plan count).record (some .plan) (planLengthParams plan count) fun x s =>
    s.editPlan p x.1 fun pl => { pl with count := x.2 })

/-- PLAN_READ (R49). -/
def execPlanRead (p : Port) (plan first number : Byte) (s : State) : Host.Outcome State Fault Refusal :=
  .next (s.serve p (Instr.planRead p plan first number).record none (planReadParams plan first number) fun x s =>
    s.answer p .ok (s.planReadBody x))

/-- PLAN_SWITCH: the answer names the active plan after the request and the pending switch (R50, R174). -/
def State.switchPlan (s : State) (p : Port) : State :=
  if s.takeSwitch.2 then
    s.takeSwitch.1.answer p .ok [s.takeSwitch.1.sched.active.code, yesNo s.takeSwitch.1.sched.pendingSwitch]
  else s.answer p .switchPending []

/-- PLAN_SWITCH (R50). -/
def execPlanSwitch (p : Port) (s : State) : Host.Outcome State Fault Refusal :=
  .next (s.serve p (Instr.planSwitch p).record (some .plan) (some ()) fun _ s => s.switchPlan p)

/-- SYNC_SET (R41). -/
def execSyncSet (p : Port) (mode : Byte) (gap : Word32) (s : State) : Host.Outcome State Fault Refusal :=
  .next (s.serve p (Instr.syncSet p mode gap).record none (syncParams mode gap) fun x s =>
    s.inSetup p fun s => (s.setSched { s.sched with syncMode := x.1, gapLimit := x.2 }).answer p .ok [])

end Sys2Proof.Machine
end

