-- ==== Sys2Proof/Machine/PublicationRequests.lean ====
section
/-! DEFINITION. GROUP_STATUS and the watch counters' requests (sections 3.7 and 3.8). -/

namespace Sys2Proof.Machine

/-- The body of GROUP_STATUS (R76). -/
def State.groupStatusBody (s : State) (g : Group) : List Byte :=
  [byteOf g.val, s.pub.groups[g].last.code, s.pub.groups[g].cycle.setWidth 8, byteOf s.pub.groups[g].published,
    byteOf s.pub.groups[g].late, yesNo s.pub.groups[g].mark, (s.hold.holders g).setWidth 8,
    yesNo (s.stop.isFrozen g)]

/-- One counter as WATCH_READ reports it (R81). -/
def Watch.bytes (w : Watch) : List Byte := [byteOf w.group.val, w.event.code, w.mode.code] ++ bytesOf16 w.value

/-- The body of WATCH_READ (R81). -/
def PublicationUnit.watchBody (u : PublicationUnit) : List Byte :=
  u.watches[(0 : WatchNo)].bytes ++ u.watches[(1 : WatchNo)].bytes ++ u.watches[(2 : WatchNo)].bytes ++
    u.watches[(3 : WatchNo)].bytes

/-- GROUP_STATUS (R76). -/
def execGroupStatus (p : Port) (group : Byte) (s : State) : Host.Outcome State Fault Refusal :=
  .next (s.serve p (Instr.groupStatus p group).record none (groupOf? group) fun g s =>
    s.answer p .ok (s.groupStatusBody g))

/-- WATCH_SET (R80). -/
def execWatchSet (p : Port) (counter group event mode : Byte) (s : State) : Host.Outcome State Fault Refusal :=
  .next (s.serve p (Instr.watchSet p counter group event mode).record none (watchParams counter group event mode)
    fun x s =>
      (s.setPub
        { s.pub with
          watches := s.pub.watches.set x.counter
            { group := x.group, event := x.event, mode := x.mode, value := 0, running := 0 } }).answer p .ok [])

/-- WATCH_READ (R81). -/
def execWatchRead (p : Port) (s : State) : Host.Outcome State Fault Refusal :=
  .next (s.serve p (Instr.watchRead p).record none (some ()) fun _ s => s.answer p .ok s.pub.watchBody)

end Sys2Proof.Machine
end

