-- ==== Sys2Proof/Machine/StopRequests.lean ====
section
/-! DEFINITION. The stop unit's requests and pin events (06). -/

namespace Sys2Proof.Machine

/-- STOP_SET in SETUP (R118): the three settings replaced together; a pending change whose timer has reached the new
filter time expires within the claim, under the new settings. -/
def State.setStopLine (s : State) (x : StopParams) : State :=
  let s' :=
    s.setStop (s.stop.setLine x.line
      { s.stop.line x.line with filterTime := x.filterTime, freeze := x.freeze, mode := x.mode })
  if (s'.stop.line x.line).expired then s'.expireFilter x.line else s'

/-- A line's settings as sent (R118). -/
def StopLine.settingsBytes (x : StopLine) : List Byte := [x.filterTime] ++ bytes16 x.freeze ++ [x.mode.code]

/-- A line as STOP_READ reports it (R129, R174). -/
def StopLine.bytes (x : StopLine) : List Byte :=
  x.settingsBytes ++ [levelCode x.input, levelCode x.filtered, levelCode x.stop] ++
    (match x.pending with
      | none => [0, 0, 0]
      | some c => [1, levelCode c.level, byteOf c.timer])

/-- The body of STOP_READ (R129). -/
def StopUnit.body (u : StopUnit) : List Byte := (u.line 0).bytes ++ (u.line 1).bytes ++ bytes16 u.frozen

/-- STOP_CLEAR against the line as it stands (R125). -/
def State.clearStop (s : State) (p : Port) (l : Line) : State :=
  match (s.stop.line l).stop, (s.stop.line l).filtered with
  | .active, .inactive =>
    ((s.setStop (s.stop.setLine l { s.stop.line l with stop := .inactive })).notify
      [s.stopNotice l .inactive]).answer p .ok [levelCode .inactive, levelCode .inactive]
  | .active, .active => s.answer p .stopActive [levelCode .active, levelCode .active]
  | .inactive, f => s.answer p .ok [levelCode .inactive, levelCode f]

/-- STOP_SET (R118). -/
def execStopSet (p : Port) (line filterTime : Byte) (freeze : Word16) (mode : Byte) (s : State) :
    Host.Outcome State Fault Refusal :=
  .next (s.serve p (Instr.stopSet p line filterTime freeze mode).record none (stopParams line filterTime freeze mode)
    fun x s => s.inSetup p fun s => (s.setStopLine x).answer p .ok (s.stop.line x.line).settingsBytes)

/-- STOP_CLEAR (R125). -/
def execStopClear (p : Port) (line : Byte) (s : State) : Host.Outcome State Fault Refusal :=
  .next (s.serve p (Instr.stopClear p line).record (some .plan) (lineOf? line) fun l s => s.clearStop p l)

/-- STOP_READ (R129). -/
def execStopRead (p : Port) (s : State) : Host.Outcome State Fault Refusal :=
  .next (s.serve p (Instr.stopRead p).record none (some ()) fun _ s => s.answer p .ok s.stop.body)

/-- STOP_INPUT_CHANGE (R119): the pin takes a level and is sampled; during part reset it is not sampled (R130, R185;
notes/assumptions/16.md). -/
def execStopInputChange (line : Line) (level : Level) (s : State) : Host.Outcome State Fault Refusal :=
  .next ((s.driveStop line level).unlessReset fun s => s.sampleStop line level)

/-- FILTER_TIMER_EXPIRY (R120). -/
def execFilterTimerExpiry (line : Line) (s : State) : Host.Outcome State Fault Refusal :=
  .next (s.unlessReset fun s => s.expireFilter line)

end Sys2Proof.Machine
end

