-- ==== Sys2Proof/Machine/TimeRequests.lean ====
section
/-! DEFINITION. The timebase's requests and events (07). -/

namespace Sys2Proof.Machine

/-- Trim as sent: 16-bit two's complement (R167). -/
def trimBytes (t : Int) : List Byte := bytes16 (BitVec.ofInt 16 t)

/-- An optional trim: presence byte, then the value or zeros (R174). -/
def stagedTrimBytes : Option Int → List Byte
  | none => [0, 0, 0]
  | some t => 1 :: trimBytes t

/-- A calendar record as sent (R137). -/
def Calendar.bytes (c : Calendar) : List Byte :=
  [byteOf c.year, byteOf c.month, byteOf c.day, byteOf c.hour, byteOf c.minute, byteOf c.second, byteOf c.weekday]

/-- An optional calendar record: presence byte, then the record or zeros (R174). -/
def stagedTimeBytes : Option Calendar → List Byte
  | none => [0, 0, 0, 0, 0, 0, 0, 0]
  | some c => 1 :: c.bytes

/-- An alarm record as sent (R142). -/
def Alarm.bytes (a : Alarm) : List Byte :=
  [yesNo a.enabled, a.weekdays.setWidth 8, byteOf a.hour, byteOf a.minute, a.action.code]

/-- The body of TIME_READ (R141). -/
def Timebase.body (t : Timebase) : List Byte :=
  t.calendar.bytes ++ bytesOf32 t.tickCount ++ trimBytes t.trim ++ stagedTrimBytes t.stagedTrim ++
    stagedTimeBytes t.stagedTime ++ t.alarm.bytes

/-- TRIM_SET (R135). -/
def execTrimSet (p : Port) (trim : Word16) (s : State) : Host.Outcome State Fault Refusal :=
  .next (s.serve p (Instr.trimSet p trim).record (some .plan) (trimOf? trim) fun t s =>
    (s.setTime { s.time with stagedTrim := some t }).answer p .ok (trimBytes s.time.trim ++ stagedTrimBytes (some t)))

/-- TIME_SET (R139). -/
def execTimeSet (p : Port) (year month day hour minute second weekday : Byte) (s : State) :
    Host.Outcome State Fault Refusal :=
  .next (s.serve p (Instr.timeSet p year month day hour minute second weekday).record (some .plan)
    (timeParams year month day hour minute second weekday) fun c s =>
      (s.setTime { s.time with stagedTime := some c }).answer p .ok (s.time.calendar.bytes ++ c.bytes))

/-- ALARM_SET (R142). -/
def execAlarmSet (p : Port) (enabled weekdays hour minute action : Byte) (s : State) :
    Host.Outcome State Fault Refusal :=
  .next (s.serve p (Instr.alarmSet p enabled weekdays hour minute action).record (some .plan)
    (alarmParams enabled weekdays hour minute action) fun a s =>
      (s.setTime { s.time with alarm := a }).answer p .ok s.time.alarm.bytes)

/-- TIME_READ (R141). -/
def execTimeRead (p : Port) (s : State) : Host.Outcome State Fault Refusal :=
  .next (s.serve p (Instr.timeRead p).record none (some ()) fun _ s => s.answer p .ok s.time.body)

/-- SECOND_BOUNDARY (R134). -/
def execSecondBoundary (s : State) : Host.Outcome State Fault Refusal := .next (s.unlessReset State.boundary)

/-- ALARM_SWITCH_REQUEST (R145). -/
def execAlarmSwitchRequest (s : State) : Host.Outcome State Fault Refusal := .next (s.unlessReset State.answerAlarm)

end Sys2Proof.Machine
end

