-- ==== Sys2Proof/Machine/ViewRequests.lean ====
section
/-! DEFINITION. VIEW_SET, VIEW_GET and FAULT_TAKE (sections 5.2 and 5.4). -/

namespace Sys2Proof.Machine

/-- A view entry as VIEW_SET's body reports it: presence byte, exchange page, rights byte, zero when absent (R101,
R174). -/
def ViewEntry.bytes : Option ViewEntry → List Byte
  | none => [0, 0, 0, 0]
  | some e => 1 :: bytesOf16 e.page.val ++ [twoFlags e.read e.stage]

/-- The body of VIEW_GET: target port, port page, the six flags in one byte, exchange page (R103, R174). -/
def State.viewGetBody (s : State) (t : Port) (pp : PortPage) : List Byte :=
  match s.view.entry t pp with
  | none => [byteOf t.val, byteOf pp.val, 0, 0, 0]
  | some e =>
    let r := s.map.page e.page
    [byteOf t.val, byteOf pp.val,
      byteOf (1 + 2 * e.read.toNat + 4 * e.stage.toNat + 8 * r.defined.toNat +
        16 * (e.read && r.defined && r.admits t .read).toNat +
        32 * (e.stage && r.defined && r.admits t .stageOpen).toNat)] ++ bytesOf16 e.page.val

/-- The body of FAULT_TAKE: all six fields (R110, R112). -/
def FaultRecord.bytes (r : FaultRecord) : List Byte :=
  [r.cause.code, r.request.code, byteOf r.portPage.val, byteOf r.offset.val, r.cycle.setWidth 8, yesNo r.repeated]

/-- FAULT_TAKE: an occupied record is reported and emptied in the same claim, with a report of the occupancy (R112,
R113). -/
def State.takeFault (s : State) (p : Port) : State :=
  match s.view.faults[p] with
  | none => s.answer p .nothingThere []
  | some r => ((s.setView (s.view.emptyFault p)).takeNotices [.faultReport p false]).answer p .ok r.bytes

/-- VIEW_SET (R101). -/
def execViewSet (p : Port) (target portPage presence : Byte) (page : Word16) (rights : Byte) (s : State) :
    Host.Outcome State Fault Refusal :=
  .next (s.serve p (Instr.viewSet p target portPage presence page rights).record (some .map)
    (viewParams target portPage presence page rights) fun x s =>
      (s.setView (s.view.setEntry x.target x.portPage x.entry)).answer p .ok
        (ViewEntry.bytes (s.view.entry x.target x.portPage)))

/-- VIEW_GET (R103). -/
def execViewGet (p : Port) (target portPage : Byte) (s : State) : Host.Outcome State Fault Refusal :=
  .next (s.serve p (Instr.viewGet p target portPage).record none (viewGetParams target portPage) fun x s =>
    s.answer p .ok (s.viewGetBody x.1 x.2))

/-- FAULT_TAKE (R112). -/
def execFaultTake (p : Port) (s : State) : Host.Outcome State Fault Refusal :=
  .next (s.serve p (Instr.faultTake p).record none (some ()) fun _ s => s.takeFault p)

end Sys2Proof.Machine
end

