-- ==== Sys2Proof/Machine/Dispatch.lean ====
section
/-! DEFINITION. One arm per command: the command's meaning. -/

namespace Sys2Proof.Machine

def exec (i : Instr) (s : State) : Host.Outcome State Fault Refusal :=
  match i with
  | .partStatus p => Sys2Proof.Machine.execPartStatus p s
  | .start p => Sys2Proof.Machine.execStart p s
  | .halt p => Sys2Proof.Machine.execHalt p s
  | .portReset p => Sys2Proof.Machine.execPortReset p s
  | .portRightsSet p target rights => Sys2Proof.Machine.execPortRightsSet p target rights s
  | .definePage p page group readers writers => Sys2Proof.Machine.execDefinePage p page group readers writers s
  | .pageSet p page group readers writers => Sys2Proof.Machine.execPageSet p page group readers writers s
  | .retirePage p page => Sys2Proof.Machine.execRetirePage p page s
  | .pageStatus p page => Sys2Proof.Machine.execPageStatus p page s
  | .stageLimit p limit => Sys2Proof.Machine.execStageLimit p limit s
  | .read p portPage offset length => Sys2Proof.Machine.execRead p portPage offset length s
  | .stageOpen p portPage copy => Sys2Proof.Machine.execStageOpen p portPage copy s
  | .stageWrite p portPage offset length => Sys2Proof.Machine.execStageWrite p portPage offset length s
  | .stageRead p portPage offset length => Sys2Proof.Machine.execStageRead p portPage offset length s
  | .stageReady p portPage => Sys2Proof.Machine.execStageReady p portPage s
  | .stageDrop p portPage => Sys2Proof.Machine.execStageDrop p portPage s
  | .slotSet p plan slot duration group notify value mask => Sys2Proof.Machine.execSlotSet p plan slot duration group notify value mask s
  | .planLength p plan count => Sys2Proof.Machine.execPlanLength p plan count s
  | .planRead p plan first number => Sys2Proof.Machine.execPlanRead p plan first number s
  | .planSwitch p => Sys2Proof.Machine.execPlanSwitch p s
  | .syncSet p mode gap => Sys2Proof.Machine.execSyncSet p mode gap s
  | .groupStatus p group => Sys2Proof.Machine.execGroupStatus p group s
  | .watchSet p counter group event mode => Sys2Proof.Machine.execWatchSet p counter group event mode s
  | .watchRead p => Sys2Proof.Machine.execWatchRead p s
  | .hold p groups => Sys2Proof.Machine.execHold p groups s
  | .release p => Sys2Proof.Machine.execRelease p s
  | .holdLimit p limit => Sys2Proof.Machine.execHoldLimit p limit s
  | .holdRead p => Sys2Proof.Machine.execHoldRead p s
  | .viewSet p target portPage presence page rights => Sys2Proof.Machine.execViewSet p target portPage presence page rights s
  | .viewGet p target portPage => Sys2Proof.Machine.execViewGet p target portPage s
  | .faultTake p => Sys2Proof.Machine.execFaultTake p s
  | .stopSet p line filterTime freeze mode => Sys2Proof.Machine.execStopSet p line filterTime freeze mode s
  | .stopClear p line => Sys2Proof.Machine.execStopClear p line s
  | .stopRead p => Sys2Proof.Machine.execStopRead p s
  | .trimSet p trim => Sys2Proof.Machine.execTrimSet p trim s
  | .timeSet p year month day hour minute second weekday => Sys2Proof.Machine.execTimeSet p year month day hour minute second weekday s
  | .alarmSet p enabled weekdays hour minute action => Sys2Proof.Machine.execAlarmSet p enabled weekdays hour minute action s
  | .timeRead p => Sys2Proof.Machine.execTimeRead p s
  | .noticePeek p => Sys2Proof.Machine.execNoticePeek p s
  | .noticePop p => Sys2Proof.Machine.execNoticePop p s
  | .portSelf p groups kinds attention => Sys2Proof.Machine.execPortSelf p groups kinds attention s
  | .badRequest p identifier length => Sys2Proof.Machine.execBadRequest p identifier length s
  | .readCompletion p => Sys2Proof.Machine.execReadCompletion p s
  | .stageReadCompletion p => Sys2Proof.Machine.execStageReadCompletion p s
  | .stageWriteCompletion p data => Sys2Proof.Machine.execStageWriteCompletion p data s
  | .selectRelease p => Sys2Proof.Machine.execSelectRelease p s
  | .partReset => Sys2Proof.Machine.execPartReset s
  | .resetRelease => Sys2Proof.Machine.execResetRelease s
  | .endOfSlot => Sys2Proof.Machine.execEndOfSlot s
  | .syncEdge => Sys2Proof.Machine.execSyncEdge s
  | .gapExpiry => Sys2Proof.Machine.execGapExpiry s
  | .cyclePulseEnd => Sys2Proof.Machine.execCyclePulseEnd s
  | .stopInputChange line level => Sys2Proof.Machine.execStopInputChange line level s
  | .filterTimerExpiry line => Sys2Proof.Machine.execFilterTimerExpiry line s
  | .secondBoundary => Sys2Proof.Machine.execSecondBoundary s
  | .alarmSwitchRequest => Sys2Proof.Machine.execAlarmSwitchRequest s
  | .selectPeriodBegin p => Sys2Proof.Machine.execSelectPeriodBegin p s
  | .lastResponseByte p => Sys2Proof.Machine.execLastResponseByte p s

end Sys2Proof.Machine
end

