-- ==== Sys2Proof/Safety.lean ====
section
/-! DEFINITION. What the claims are stated in: the laws of the part (each is called a law by the spec, or is a bound a
table of it gives), and the words for a request that is taken and answered. -/

namespace Sys2Proof.Machine

/-! ### A request taken and answered -/

/-- Port p waits for a request: RESET is released and the port is in REQUEST (R168, R185). -/
abbrev State.ReadyFor (s : State) (p : Port) : Prop := s.inReset = false ∧ (s.port p).tx = .request

/-- The MAP right is not needed (SETUP) or is held (R170, R176). -/
abbrev State.MapAllowed (s : State) (p : Port) : Prop := s.part = .setup ∨ (s.port p).rights.map = true

/-- The PLAN right is not needed (SETUP) or is held (R170, R176). -/
abbrev State.PlanAllowed (s : State) (p : Port) : Prop := s.part = .setup ∨ (s.port p).rights.plan = true

/-- Port p has taken the bytes of request i and stands in RESPONSE with an answer; nothing else changes. -/
def State.answered (s : State) (p : Port) (i : Instr) (status : Status) (body : List Byte) : State :=
  s.setPort p { s.port p with received := i.record, tx := .response { status := status, body := body } }

/-- Every block but the link is as it was (the queue and the counter of free orders aside). -/
abbrev State.SameBlocks (s t : State) : Prop :=
  t.inReset = s.inReset ∧ t.part = s.part ∧ t.map = s.map ∧ t.sched = s.sched ∧ t.pub = s.pub ∧ t.hold = s.hold ∧
    t.view = s.view ∧ t.stop = s.stop ∧ t.time = s.time ∧ t.notice = s.notice

end Sys2Proof.Machine

namespace Sys2Proof

/-! ### What the rules say of a request before any block sees it -/

/-- Every parameter within the range that its owning rule gives, and the combined conditions (R170). -/
def Instr.inRange : Instr → Bool
  | .portRightsSet _ target rights => decide (target.toNat ≤ 3 ∧ rights.toNat < 4)
  | .definePage _ page group readers writers =>
      decide (page.toNat ≤ 319 ∧ group.toNat ≤ 15 ∧ readers.toNat < 16 ∧ writers.toNat < 16)
  | .pageSet _ page group readers writers =>
      decide (page.toNat ≤ 319 ∧ group.toNat ≤ 15 ∧ readers.toNat < 16 ∧ writers.toNat < 16)
  | .retirePage _ page => decide (page.toNat ≤ 319)
  | .pageStatus _ page => decide (page.toNat ≤ 319)
  | .read _ portPage offset length =>
      decide (portPage.toNat ≤ 127 ∧ 1 ≤ length.toNat ∧ offset.toNat + length.toNat ≤ 64)
  | .stageOpen _ portPage copy => decide (portPage.toNat ≤ 127 ∧ copy.toNat ≤ 1)
  | .stageWrite _ portPage offset length =>
      decide (portPage.toNat ≤ 127 ∧ 1 ≤ length.toNat ∧ offset.toNat + length.toNat ≤ 64)
  | .stageRead _ portPage offset length =>
      decide (portPage.toNat ≤ 127 ∧ 1 ≤ length.toNat ∧ offset.toNat + length.toNat ≤ 64)
  | .stageReady _ portPage => decide (portPage.toNat ≤ 127)
  | .stageDrop _ portPage => decide (portPage.toNat ≤ 127)
  | .slotSet _ plan slot duration group notify value mask =>
      decide (plan.toNat ≤ 1 ∧ slot.toNat ≤ 47 ∧ 20 ≤ duration.toNat ∧ (group.toNat ≤ 15 ∨ group.toNat = 255) ∧
        notify.toNat < 16 ∧ value.toNat ≤ 63 ∧ mask.toNat ≤ 63)
  | .planLength _ plan count => decide (plan.toNat ≤ 1 ∧ 1 ≤ count.toNat ∧ count.toNat ≤ 48)
  | .planRead _ plan first number =>
      decide (plan.toNat ≤ 1 ∧ first.toNat ≤ 47 ∧ 1 ≤ number.toNat ∧ number.toNat ≤ 16 ∧
        first.toNat + number.toNat ≤ 48)
  | .syncSet _ mode gap =>
      decide (mode.toNat ≤ 1 ∧ (gap.toNat = 0 ∨ (100 ≤ gap.toNat ∧ gap.toNat ≤ 1000000)))
  | .groupStatus _ group => decide (group.toNat ≤ 15)
  | .watchSet _ counter group event mode =>
      decide (counter.toNat ≤ 3 ∧ group.toNat ≤ 15 ∧ event.toNat ≤ 3 ∧ mode.toNat ≤ 1)
  | .hold _ groups => decide (groups ≠ 0)
  | .holdLimit _ limit => decide (1 ≤ limit.toNat ∧ limit.toNat ≤ 16)
  | .viewSet _ target portPage presence page rights =>
      decide (target.toNat ≤ 3 ∧ portPage.toNat ≤ 127 ∧
        (presence.toNat = 0 ∨ (presence.toNat = 1 ∧ page.toNat ≤ 319 ∧ rights.toNat < 4)))
  | .viewGet _ target portPage => decide (target.toNat ≤ 3 ∧ portPage.toNat ≤ 127)
  | .stopSet _ line _ _ mode => decide (line.toNat ≤ 1 ∧ mode.toNat ≤ 1)
  | .stopClear _ line => decide (line.toNat ≤ 1)
  | .trimSet _ trim => decide (-2000 ≤ trim.toInt ∧ trim.toInt ≤ 2000)
  | .timeSet _ year month day hour minute second weekday =>
      decide (year.toNat ≤ 99 ∧ 1 ≤ month.toNat ∧ month.toNat ≤ 12 ∧ 1 ≤ day.toNat ∧
        day.toNat ≤ Machine.monthLength year.toNat month.toNat ∧ hour.toNat ≤ 23 ∧ minute.toNat ≤ 59 ∧
        second.toNat ≤ 59 ∧ weekday.toNat ≤ 6)
  | .alarmSet _ enabled weekdays hour minute action =>
      decide (enabled.toNat ≤ 1 ∧ weekdays.toNat < 128 ∧ hour.toNat ≤ 23 ∧ minute.toNat ≤ 59 ∧ action.toNat ≤ 1)
  | .portSelf _ _ kinds attention => decide (kinds.toNat < 16 ∧ attention.toNat < 2048)
  | _ => true

/-- The right that a request needs in RUN (R176). -/
def Instr.rightNeeded : Instr → Option Machine.RightName
  | .definePage .. | .pageSet .. | .retirePage .. | .viewSet .. => some .map
  | .slotSet .. | .planLength .. | .planSwitch .. | .trimSet .. | .timeSet .. | .alarmSet .. | .stopClear ..
  | .halt .. => some .plan
  | _ => none

/-- The body length of a request's OK response (section 9.2). -/
def Instr.okBodyLength : Instr → Nat
  | .partStatus _ => 12
  | .portRightsSet .. => 1
  | .pageStatus .. => 16
  | .read _ _ _ length => 2 + length.toNat
  | .stageOpen .. => 4
  | .stageRead _ _ _ length => 2 + length.toNat
  | .planRead _ _ _ number => 2 + 6 * number.toNat
  | .planSwitch _ => 2
  | .groupStatus .. => 8
  | .watchRead _ => 20
  | .hold .. => 3
  | .release _ => 3
  | .holdRead _ => 17
  | .viewSet .. => 4
  | .viewGet .. => 5
  | .faultTake _ => 6
  | .stopSet .. => 4
  | .stopClear .. => 2
  | .stopRead _ => 22
  | .trimSet .. => 5
  | .timeSet .. => 14
  | .alarmSet .. => 5
  | .timeRead _ => 29
  | .noticePeek _ => 18
  | .noticePop _ => 18
  | .portSelf .. => 5
  | _ => 0

/-- The requests that can have claims outstanding when they are accepted: the port reset (R183) and the data requests
(R104). -/
def Instr.handsOn : Instr → Bool
  | .portReset _ | .read .. | .stageOpen .. | .stageWrite .. | .stageRead .. | .stageReady .. | .stageDrop .. => true
  | _ => false

/-- The events that move a port's transaction on behind its acceptance, which take what is outstanding of its request first
(notes/assumptions/9.md). -/
def Instr.movesOn : Instr → Option Port
  | .readCompletion p | .stageReadCompletion p | .stageWriteCompletion p _ | .lastResponseByte p | .selectRelease p =>
      some p
  | _ => none

end Sys2Proof

namespace Sys2Proof.Machine

/-! ### Data requests -/

/-- A transfer within its range: length 1..64 with offset + length at most 64 (R170). -/
def DataCall.InRange : DataCall → Prop
  | .read t => 1 ≤ t.length ∧ t.offset.val + t.length ≤ 64
  | .stageWrite t => 1 ≤ t.length ∧ t.offset.val + t.length ≤ 64
  | .stageRead t => 1 ≤ t.length ∧ t.offset.val + t.length ≤ 64
  | _ => True

/-- The command that data request x of port p is. -/
def DataCall.command (x : DataCall) (p : Port) : Instr :=
  match x with
  | .read t => .read p (byteOf t.portPage.val) (byteOf t.offset.val) (byteOf t.length)
  | .stageOpen pp copy => .stageOpen p (byteOf pp.val) (yesNo copy)
  | .stageWrite t => .stageWrite p (byteOf t.portPage.val) (byteOf t.offset.val) (byteOf t.length)
  | .stageRead t => .stageRead p (byteOf t.portPage.val) (byteOf t.offset.val) (byteOf t.length)
  | .stageReady pp => .stageReady p (byteOf pp.val)
  | .stageDrop pp => .stageDrop p (byteOf pp.val)

/-- The page part of data request x of port p is outstanding, on exchange page i (R104, R109). -/
abbrev State.Awaits (s : State) (p : Port) (x : DataCall) (i : Page) : Prop :=
  (s.port p).tx = .accepted (.pagePart x i)

/-- Data request x of port p is accepted in state s: its view part passes with exchange page i, and its page part is
outstanding. Nothing else changes but the counter of free choices (R104). -/
def State.accepting (s : State) (p : Port) (x : DataCall) (i : Page) : State :=
  (s.setPort p { s.port p with received := (x.command p).record, tx := .accepted (.pagePart x i) }).setChoices
    (s.choices + 1)

/-- The view part of data request x of port p passes, and fixes exchange page i: the entry is present with the right that
the request needs, and names that page (R104). -/
abbrev State.ViewPasses (s : State) (p : Port) (x : DataCall) (i : Page) : Prop :=
  ∃ e, s.view.views[p][x.portPage] = some e ∧ (if x.request = .read then e.read else e.stage) = true ∧ e.page = i

/-- Data request x of port p, past its view part on exchange page i, comes from a state s with cond s to the result.
Accepted, it has its page part taken at once or outstanding; and an outstanding one, taken later from whatever state the
part is in then, comes to the result of that state (R104, R109). -/
def DataCall.Gives (x : DataCall) (p : Port) (i : Page) (cond : State → Prop) (result : State → State → Prop) : Prop :=
  (∀ s : State, s.ReadyFor p → s.ViewPasses p x i → cond s →
    ∃ t, exec (x.command p) s = .next t ∧ (result (s.accepting p x i) t ∨ t = s.accepting p x i)) ∧
    ∀ s : State, s.Awaits p x i → cond s → result s (s.settle p)

/-- From s to t port p's staging of page i is opened, with the next serial (R8). -/
abbrev State.Opened (s t : State) (p : Port) (i : Page) : Prop :=
  t.map.serial = s.map.serial + 1 ∧ (s.map.page i).staging = none ∧
    ∃ st, (t.map.page i).staging = some st ∧ st.serial = t.map.serial ∧ st.stager = p

/-- The result of a data request that is answered, and changes nothing else. -/
def Replies (p : Port) (status : Status) (body : List Byte) (s t : State) : Prop :=
  t = s.setPort p { s.port p with tx := .response { status := status, body := body } }

/-- The view part's answer to a refused data request, by the table of R106; none where it passes. -/
def State.viewTable (s : State) (p : Port) (x : DataCall) : Option FaultCause :=
  match s.view.views[p][x.portPage] with
  | none => some .notMapped
  | some e => if (if x.request = .read then e.read else e.stage) = false then some .noRight else none

/-- The page part's answer to a refused data request on exchange page i, by the table of R106; none where it passes. -/
def State.pageTable (s : State) (p : Port) (x : DataCall) (i : Page) : Option FaultCause :=
  if (s.map.page i).defined = false then some .pageUnused
  else if ((if x.request = .read then (s.map.page i).readers else (s.map.page i).writers).getLsbD p.val) = false then
    some .noRight
  else none

/-- Page i admits a READ of port p at the page part (R104). -/
abbrev State.MayRead (s : State) (p : Port) (i : Page) : Prop :=
  (s.map.page i).defined = true ∧ (s.map.page i).readers.getLsbD p.val = true

/-- Page i admits a STAGE_ request of port p at the page part (R104). -/
abbrev State.MayStage (s : State) (p : Port) (i : Page) : Prop :=
  (s.map.page i).defined = true ∧ (s.map.page i).writers.getLsbD p.val = true

/-- From s to t a part of the access check has refused data request x of port p with cause c: the answer, or the data
phase with the refusal; the fault record filled or its repeated flag set; the occupancy reported; and nothing else. -/
def State.Refused (s t : State) (p : Port) (x : DataCall) (c : FaultCause) : Prop :=
  t.link =
      (s.setPort p
        (match x with
          | .stageWrite b => { s.port p with tx := .writeData b.length (some c.status), write := none }
          | _ => { s.port p with tx := .response { status := c.status, body := [] } })).link ∧
    t.view =
      { s.view with
        faults := s.view.faults.set p
          (match s.view.faults[p] with
            | some r => some { r with repeated := true }
            | none => some
              { cause := c, request := x.request, portPage := x.portPage, offset := x.offset
                cycle := s.sched.cycleCount, repeated := false }) } ∧
    (∀ r : Port,
      if r = p ∧ s.view.faults[p] = none then
        t.notice.ports[r] = { s.notice.ports[r] with faultOccupied := true, attn := t.notice.ports[r].attn }
      else t.notice.ports[r] = s.notice.ports[r]) ∧
    t.map = s.map ∧ t.sched = s.sched ∧ t.pub = s.pub ∧ t.hold = s.hold ∧ t.stop = s.stop ∧ t.time = s.time ∧
    t.part = s.part ∧ t.inReset = s.inReset ∧ t.pending = s.pending

/-! ### Notices -/

/-- Port state n has taken notice x and become n': it joins at the tail, or is discarded at a full queue, which sets
the lost flag (R154). The attention line has its own law. -/
abbrev NoticePort.Took (n n' : NoticePort) (x : Notice) : Prop :=
  n' = (if n.queue.length < 32 then { n with queue := n.queue ++ [x], attn := n'.attn }
        else { n with lost := true, attn := n'.attn })

/-- Notice x stands in the queue of port q, or it was discarded: the queue is full and the lost flag set (R154). -/
abbrev State.Found (t : State) (q : Port) (x : Notice) : Prop :=
  x ∈ t.notice.ports[q].queue ∨ (t.notice.ports[q].lost = true ∧ 32 ≤ t.notice.ports[q].queue.length)

/-- From s to t the ports that who picks have taken notice x, and the others nothing. -/
abbrev State.Sent (s t : State) (who : Port → Bool) (x : Notice) : Prop :=
  ∀ q : Port, if who q then s.notice.ports[q].Took t.notice.ports[q] x else t.notice.ports[q] = s.notice.ports[q]

/-! ### Schedule events -/

/-- The schedule's event c, in a state s with cond s, comes to the result. A SYNC_EDGE, unless one stands already, may
stand until the next tick instead, which then takes it to the result (R42, R44, notes/assumptions/15.md). -/
def ComesTo (c : Instr) (cond : State → Prop) (result : State → State → Prop) : Prop :=
  (∀ s : State, s.inReset = false → cond s →
    ∃ t, exec c s = .next t ∧
      (result s t ∨
        (c = .syncEdge ∧ s.sched.syncRise = false ∧
          t = (s.setSched { s.sched with syncRise := true }).setChoices (s.choices + 1)))) ∧
    (c = .syncEdge → ∀ s s' : State, s.inReset = false → s' = s.setSched { s.sched with syncRise := false } → cond s' →
      result s' (s.takeEvent .edge))

/-! ### Cycle starts -/

/-- The commands that, in state s, take a cycle start outside START (R36). -/
def State.startsCycle (s : State) : Instr → Bool
  | .endOfSlot =>
      decide (s.sched.engine = .inCycle ∧ s.sched.activePlan.count.val ≤ s.sched.slotIndex.val + 1 ∧
        s.sched.syncMode = .free)
  | .syncEdge => decide (s.sched.engine = .waitingSync)
  | .gapExpiry => decide (s.sched.engine = .waitingSync) && s.sched.gapTimer.isSome
  | _ => false

/-- The pages that group g publishes: defined in g with a READY staging (R63). -/
def ExchangeMap.ready (m : ExchangeMap) (g : Group) (i : Page) : Bool :=
  match (m.page i).staging with
  | some st => (m.page i).defined && decide ((m.page i).group = g) && decide (st.state = .ready)
  | none => false

/-- The late pages of group g: defined in g with an OPEN staging (R64). -/
def ExchangeMap.late (m : ExchangeMap) (g : Group) (i : Page) : Bool :=
  match (m.page i).staging with
  | some st => (m.page i).defined && decide ((m.page i).group = g) && decide (st.state = .opened)
  | none => false

/-- The record of a page after it is published in cycle c (R63). -/
def PageRecord.published (r : PageRecord) (c : CycleCount) : PageRecord :=
  { r with
    live := r.staging.map Staging.frame, staging := none, sequence := r.sequence + 1, readersSince := 0,
    lastPublished := some c }

/-- The frames that the swap of group g appends to the free list: the old live frames without a reference, in page order
(R63). -/
def ExchangeMap.freed (m : ExchangeMap) (g : Group) : List Frame :=
  (List.finRange 320).filterMap fun i =>
    if m.ready g i then (m.page i).live.filter fun f => m.refs[f] = 0 else none

/-- The swap of group g puts frame f into the retiring set: the old live frame of a published page, with a reference
(R6, R63). -/
abbrev ExchangeMap.retired (m : ExchangeMap) (g : Group) (f : Frame) : Prop :=
  ∃ i, m.ready g i = true ∧ (m.page i).live = some f ∧ m.refs[f] ≠ 0

/-- The record of a page once the stagings of port p are removed (R30). -/
def PageRecord.withoutStagingOf (r : PageRecord) (p : Port) : PageRecord :=
  { r with staging := if r.staging.map Staging.stager = some p then none else r.staging }

/-- Two schedules stand in the same slot of the same cycle, with their timers at the same tick (R34). -/
abbrev Schedule.SameCourse (c d : Schedule) : Prop :=
  c.engine = d.engine ∧ c.cycleCount = d.cycleCount ∧ c.slotIndex = d.slotIndex ∧ c.firstCycle = d.firstCycle ∧
    c.slotTimer.map SlotTimer.elapsed = d.slotTimer.map SlotTimer.elapsed ∧ c.gapTimer = d.gapTimer

/-! ### Ticks -/

/-- The state after the counters of a tick, before anything that falls at it: each running counter one further, the
pulse of the last tick ended (R38, R40, R43, R117, R133), and the counter of free choices one further. -/
def State.counted (s : State) : State :=
  { s with
    choices := s.choices + 1
    time := { s.time with tickCount := s.time.tickCount + 1 }
    sched :=
      { s.sched with
        slotTimer := s.sched.slotTimer.map fun x => { x with elapsed := x.elapsed + 1 }
        gapTimer := s.sched.gapTimer.map fun n => n + 1
        cycleOut := false }
    stop :=
      { s.stop with
        lines := s.stop.lines.map fun x =>
          { x with pending := x.pending.map fun c => { c with timer := c.timer + 1 } } } }

/-- What falls at the tick that follows state s: each expiry whose counter reaches its limit with this tick (R38, R43,
R120, R133), the edge of a rise of SYNC_IN that stands (R42), an alarm answer that is pending or that the second boundary may raise (R145), the sample of a stop pin that
has changed (R119), and claims that are outstanding (R109, R183). -/
def State.FallsDue (s : State) : TickEvent → Prop
  | .slot => ∃ x, s.sched.slotTimer = some x ∧ x.duration ≤ x.elapsed + 1
  | .gap => ∃ n, s.sched.gapTimer = some n ∧ s.sched.gapLimit ≤ n + 1
  | .edge => s.sched.syncRise = true
  | .filter l => ∃ c, s.stop.lines[l].pending = some c ∧ s.stop.lines[l].filterTime.toNat ≤ c.timer + 1
  | .second => s.time.secondLength ≤ s.time.tickCount + 1
  | .alarmAnswer => s.time.secondLength ≤ s.time.tickCount + 1 ∨ s.time.pendingAlarm.isSome = true
  | .sample l => s.stop.lines[l].pin ≠ s.stop.lines[l].input
  | .claims p => ∃ o, (s.port p).tx = .accepted o

/-- The one event e falls at the tick that follows state s. -/
abbrev State.OnlyDue (s : State) (e : TickEvent) : Prop := ∀ e', s.FallsDue e' ↔ e' = e

/-! ### Outcomes and watch counters -/

/-- What the outcome that record x reports adds to a watch counter of its group, by the table of R78. -/
def Watch.amountOf (w : Watch) (x : GroupStatus) : Nat :=
  match w.event with
  | .publishedPages => if x.last = .published ∨ x.last = .catchUp then x.published else 0
  | .latePages => if x.last = .published ∨ x.last = .catchUp then x.late else 0
  | .deferredPoints => if x.last = .deferred then 1 else 0
  | .frozenPoints => if x.last = .frozen ∨ x.last = .dropped then 1 else 0

/-- A watch counter after the outcome that record x of group g reports (R77, R78): a CYCLE counter adds to its running
count, an ACCUMULATE counter to its value. -/
def Watch.after (w : Watch) (g : Group) (x : GroupStatus) : Watch :=
  if w.group = g then
    match w.mode with
    | .cycle => { w with running := min 65535 (w.running + w.amountOf x) }
    | .accumulate => { w with value := min 65535 (w.value + w.amountOf x) }
  else w

/-- A watch counter after a cycle start has rolled it (R79). -/
def Watch.rolled (w : Watch) : Watch :=
  match w.mode with
  | .cycle => { w with value := w.running, running := 0 }
  | .accumulate => w

/-- Some hold record covers group g (R86). -/
abbrev State.Held (s : State) (g : Group) : Prop :=
  ∃ (p : Port) (h : Hold), s.hold.records[p] = some h ∧ h.groups.getLsbD g.val = true

/-- Group g is held, and every record that covers it breaks at the next cycle start (R91). -/
abbrev State.Breaks (s : State) (g : Group) : Prop :=
  s.Held g ∧ ∀ (p : Port) (h : Hold), s.hold.records[p] = some h → h.groups.getLsbD g.val = true → h.cyclesLeft ≤ 1

/-- The removal of port p's hold record takes a catch-up of group g: the record covers g, no other record does, and
g's deferral mark is set (R66, R86). -/
abbrev State.EndsDeferral (s : State) (p : Port) (g : Group) : Prop :=
  (∃ h, s.hold.records[p] = some h ∧ h.groups.getLsbD g.val = true) ∧
    (∀ (q : Port) (h : Hold), q ≠ p → s.hold.records[q] = some h → h.groups.getLsbD g.val = false) ∧
      s.pub.groups[g].mark = true

/-- The slot's entry acts in this cycle: the filter matches the cycle count (R32). -/
abbrev SlotEntry.Acts (e : SlotEntry) (c : CycleCount) : Prop := (c ^^^ e.filterValue) &&& e.filterMask = 0

/-- The pages that the first outcome of group g to publish makes live (R63). -/
def ExchangeMap.readyCount (m : ExchangeMap) (g : Group) : Nat := (List.finRange 320).countP fun i => m.ready g i

/-- The late pages of group g (R64). -/
def ExchangeMap.lateCount (m : ExchangeMap) (g : Group) : Nat := (List.finRange 320).countP fun i => m.late g i

/-- A staging after a cycle start's countdown: OPEN with cycles left, it goes down by one and is gone at 0 (R9, R25). -/
def Staging.counted (st : Staging) : Option Staging :=
  if st.state = .ready ∨ st.cyclesLeft = 0 then some st
  else if st.cyclesLeft = 1 then none
  else some { st with cyclesLeft := st.cyclesLeft - 1 }

/-- From s to t the STAGE_READY of staging st of page i, outstanding in s, has marked it READY and is answered OK (R22,
R104, notes/assumptions/9.md). -/
abbrev State.Marks (s t : State) (i : Page) (st : Staging) : Prop :=
  st.state = .opened ∧ s.MayStage st.stager i ∧ (∃ pp, s.Awaits st.stager (.stageReady pp) i) ∧
    (t.port st.stager).tx = .response { status := .ok, body := [] }

/-- What a publication of a cycle start from s to t can find of the staging st that page i has in s: counted down or not
(the Bool), and marked READY or not, before the countdown or behind it (R26, R27). -/
inductive State.StagingThen (s t : State) (i : Page) (st : Staging) : Bool → Option Staging → Prop where
  | uncounted : StagingThen s t i st false (some st)
  | counted : StagingThen s t i st true st.counted
  | marked (b : Bool) : s.Marks t i st → StagingThen s t i st b (some { st with state := .ready })
  | countedThenMarked : s.Marks t i st → st.cyclesLeft ≠ 0 → st.cyclesLeft ≠ 1 →
      StagingThen s t i st true (some { st with state := .ready, cyclesLeft := st.cyclesLeft - 1 })

/-- m shows the pages of group g as a publication of a cycle start from s to t can find them, but for those that an earlier
outcome of it has published: the countdown is one claim over all stagings, and each marking one of its own (R24, R25). -/
def State.Finds (s t : State) (g : Group) (m : ExchangeMap) : Prop :=
  ∃ counted : Bool, ∀ i : Page, m.page i = { s.map.page i with staging := (m.page i).staging } ∧
    ((s.map.page i).group = g →
      match (s.map.page i).staging with
      | none => (m.page i).staging = none
      | some st => s.StagingThen t i st counted (m.page i).staging)

/-- The pages of group g that are READY in m' and were not in m. -/
def ExchangeMap.newlyReadyCount (m m' : ExchangeMap) (g : Group) : Nat :=
  (List.finRange 320).countP fun i => m'.ready g i && !m.ready g i

/-- The outcomes that a cycle start taken in state s can give group g, in order, each with its pages published and its late
pages. The Bool says whether slot 0 carries a point of g in this cycle. The point finds g frozen, held or neither (R59);
the report of a break finds the mark set or clear (R66); where both fall, either may be taken first, and a point behind a
catch-up publishes what has been marked READY in between (R70). m is what the first outcome to publish finds, m' the
second. -/
inductive State.CycleOutcomes (s : State) (g : Group) (m m' : ExchangeMap) :
    Bool → List (GroupOutcome × Nat × Nat) → Prop where
  | nothing : ¬ (s.Breaks g ∧ s.pub.groups[g].mark = true) → CycleOutcomes s g m m' false []
  | catchUp : s.Breaks g → s.pub.groups[g].mark = true → s.stop.frozen.getLsbD g.val = false →
      CycleOutcomes s g m m' false [(.catchUp, m.readyCount g, m.lateCount g)]
  | dropped : s.Breaks g → s.pub.groups[g].mark = true → s.stop.frozen.getLsbD g.val = true →
      CycleOutcomes s g m m' false [(.dropped, 0, 0)]
  | published : (s.Held g → s.Breaks g ∧ s.pub.groups[g].mark = false) → s.stop.frozen.getLsbD g.val = false →
      CycleOutcomes s g m m' true [(.published, m.readyCount g, m.lateCount g)]
  | deferred : s.Held g → ¬ s.Breaks g → s.stop.frozen.getLsbD g.val = false →
      CycleOutcomes s g m m' true [(.deferred, 0, 0)]
  | frozen : ¬ (s.Breaks g ∧ s.pub.groups[g].mark = true) → s.stop.frozen.getLsbD g.val = true →
      CycleOutcomes s g m m' true [(.frozen, 0, 0)]
  | breakThenPoint : s.Breaks g → s.pub.groups[g].mark = true → s.stop.frozen.getLsbD g.val = false →
      CycleOutcomes s g m m' true
        [(.catchUp, m.readyCount g, m.lateCount g), (.published, m.newlyReadyCount m' g, m'.lateCount g)]
  | pointThenBreak : s.Breaks g → s.stop.frozen.getLsbD g.val = false →
      CycleOutcomes s g m m' true [(.deferred, 0, 0), (.catchUp, m.readyCount g, m.lateCount g)]
  | droppedThenFrozen : s.Breaks g → s.pub.groups[g].mark = true → s.stop.frozen.getLsbD g.val = true →
      CycleOutcomes s g m m' true [(.dropped, 0, 0), (.frozen, 0, 0)]
  | frozenThenDropped : s.Breaks g → s.pub.groups[g].mark = true → s.stop.frozen.getLsbD g.val = true →
      CycleOutcomes s g m m' true [(.frozen, 0, 0), (.dropped, 0, 0)]

/-- From s, through the cycle start that leads to t, every page of group g that is READY in m has been published, and the
stager of every page that is late in m finds the LATE notice (R63, R64). -/
def State.PublishedAs (s t : State) (g : Group) (m : ExchangeMap) : Prop :=
  (∀ i : Page, m.ready g i = true → t.map.page i = (s.map.page i).published t.sched.cycleCount) ∧
    ∀ (i : Page) (st : Staging), m.late g i = true → (m.page i).staging = some st →
      t.Found st.stager { stamp := t.stamp, body := .late i g }

/-- Slot 0 of the cycle that state t has begun carries a point of group g: its entry names g and acts (R37). -/
abbrev State.FirstPoint (t : State) (g : Group) : Prop :=
  t.sched.activePlan.entries[(0 : SlotNo)].group = some g ∧
    t.sched.activePlan.entries[(0 : SlotNo)].Acts t.sched.cycleCount

/-- Every port of slot 0's notify set finds the SLOT notice, if the slot acts in this cycle (R37). -/
abbrev State.FirstSlotNotices (t : State) : Prop :=
  t.sched.activePlan.entries[(0 : SlotNo)].Acts t.sched.cycleCount →
    ∀ q : Port, t.sched.activePlan.entries[(0 : SlotNo)].notify.getLsbD q.val = true →
      t.Found q { stamp := t.stamp, body := .slot 0 }

/-! ### Port resets -/

/-- Claims of a port reset that are among others. -/
abbrev ResetClaims.Within (x y : ResetClaims) : Prop :=
  (x.stagings = true → y.stagings = true) ∧ (x.hold = true → y.hold = true) ∧ (x.fault = true → y.fault = true) ∧
    (x.queue = true → y.queue = true)

/-- From s to u the claims now of port p's reset have been taken, and nothing else but p's own transaction has moved (R183,
R184). The exchange map's removes p's stagings (R30), the hold table's p's record with its reports (R98), the view
unit's empties p's fault record (R116), the notice unit's p's queue (R165). Each group whose deferral the hold table's
claim ends is caught up, or DROPPED if frozen, with p's stagings or, where that claim is taken too, without them (R69,
R84), as the status record, the pages, the watch counters and the notices tell; no other group, watch counter or page
changes. An emptied queue holds notices of those outcomes alone. -/
def State.ResetLeaves (s u : State) (p : Port) (now : ResetClaims) : Prop :=
  u.pending = s.pending ∧ u.inReset = s.inReset ∧ u.part = s.part ∧ u.sched = s.sched ∧ u.stop = s.stop ∧
    u.time = s.time ∧ (∀ q : Port, q ≠ p → u.port q = s.port q) ∧
    (∀ i : Page, (u.map.page i).group = (s.map.page i).group ∧ (u.map.page i).defined = (s.map.page i).defined ∧
      (u.map.page i).readers = (s.map.page i).readers ∧ (u.map.page i).writers = (s.map.page i).writers) ∧
    u.map.refs = s.map.refs ∧ u.map.frames = s.map.frames ∧ u.map.serial = s.map.serial ∧
    u.map.stageLimit = s.map.stageLimit ∧
    u.hold = (if now.hold then { s.hold with records := s.hold.records.set p none } else s.hold) ∧
    u.view = (if now.fault then { s.view with faults := s.view.faults.set p none } else s.view) ∧
    (∀ q : Port, u.notice.ports[q].subscription = s.notice.ports[q].subscription ∧
      u.notice.ports[q].kinds = s.notice.ports[q].kinds ∧
      u.notice.ports[q].attention = s.notice.ports[q].attention ∧
      u.notice.ports[q].faultOccupied = (if q = p ∧ now.fault = true then false else s.notice.ports[q].faultOccupied) ∧
      (q ≠ p ∨ now.queue = false → s.notice.ports[q].queue <+: u.notice.ports[q].queue)) ∧
    (now.queue = false → now.hold = false → now.fault = false → u.notice = s.notice) ∧
    (now.stagings = false → now.hold = false → u.map = s.map) ∧
    (now.hold = false ∨ s.hold.records[p] = none →
      u.pub = s.pub ∧
      u.notice.ports[p].queue = (if now.queue then [] else s.notice.ports[p].queue) ∧
      u.notice.ports[p].lost = (if now.queue then false else s.notice.ports[p].lost) ∧
      (∀ q : Port, q ≠ p → u.notice.ports[q] = s.notice.ports[q]) ∧
      (now.stagings = false → u.map = s.map) ∧
      (now.stagings = true →
        (∀ i : Page, u.map.page i = (s.map.page i).withoutStagingOf p) ∧
        u.map.freeList = s.map.freeList ++ (List.finRange 320).filterMap (fun i =>
          match (s.map.page i).staging with
          | none => none
          | some st => if st.stager = p ∧ s.map.refs[st.frame] = 0 then some st.frame else none) ∧
        ∀ f : Frame, f ∈ u.map.retiring ↔ f ∈ s.map.retiring ∨
          ∃ i st, (s.map.page i).staging = some st ∧ st.stager = p ∧ st.frame = f ∧ s.map.refs[f] ≠ 0)) ∧
    (∀ g : Group, ¬ (now.hold = true ∧ s.EndsDeferral p g) →
      u.pub.groups[g] = s.pub.groups[g] ∧
      (∀ i : Page, (s.map.page i).group = g →
        u.map.page i = if now.stagings then (s.map.page i).withoutStagingOf p else s.map.page i) ∧
      ∀ n : WatchNo, s.pub.watches[n].group = g → u.pub.watches[n] = s.pub.watches[n]) ∧
    (∀ g : Group, now.hold = true → s.EndsDeferral p g →
      (∀ n : WatchNo, s.pub.watches[n].group = g →
        u.pub.watches[n] = s.pub.watches[n].after g u.pub.groups[g]) ∧
      (∀ q : Port, q ≠ p ∨ now.queue = false → s.notice.ports[q].subscription.getLsbD g.val = true →
        u.Found q
          { stamp := s.stamp
            body := .groupPoint g u.pub.groups[g].last u.pub.groups[g].published u.pub.groups[g].late }) ∧
      (s.stop.frozen.getLsbD g.val = true →
        u.pub.groups[g] =
          { last := .dropped, cycle := s.sched.cycleCount, published := 0, late := 0, mark := false } ∧
        ∀ i : Page, (s.map.page i).group = g →
          u.map.page i = if now.stagings then (s.map.page i).withoutStagingOf p else s.map.page i) ∧
      (s.stop.frozen.getLsbD g.val = false →
        (∃ m : ExchangeMap,
          ((∀ i : Page, m.page i = s.map.page i) ∨
            (now.stagings = true ∧ ∀ i : Page, m.page i = (s.map.page i).withoutStagingOf p)) ∧
          u.pub.groups[g] =
            { last := .catchUp, cycle := s.sched.cycleCount, published := m.readyCount g, late := m.lateCount g
              mark := false } ∧
          ∀ i : Page, (s.map.page i).group = g →
            u.map.page i =
              if m.ready g i then (m.page i).published s.sched.cycleCount
              else if now.stagings then (s.map.page i).withoutStagingOf p
              else s.map.page i) ∧
        ∀ (i : Page) (st : Staging), s.map.late g i = true → (s.map.page i).staging = some st →
          st.stager ≠ p ∨ (now.queue = false ∧ now.stagings = false) →
          u.Found st.stager { stamp := s.stamp, body := .late i g })) ∧
    (now.queue = true →
      (∀ x ∈ u.notice.ports[p].queue, x.stamp = s.stamp ∧ ∃ g : Group, now.hold = true ∧ s.EndsDeferral p g ∧
        (x.body = .groupPoint g u.pub.groups[g].last u.pub.groups[g].published u.pub.groups[g].late ∨
          ∃ i : Page, s.map.late g i = true ∧ x.body = .late i g)) ∧
      (u.notice.ports[p].lost = true → u.notice.ports[p].queue.length = 32))

/-! ### Laws -/

/-- Frame contents are canonical data within the 32 KiB of exchange memory. -/
abbrev State.MemoryLaw (s : State) : Prop := s.map.frames.wf = true

/-- Every attention line follows its condition (R161). -/
abbrev State.AttentionLaw (s : State) : Prop :=
  ∀ p : Port, s.notice.ports[p].attn = s.notice.ports[p].attentionCondition

/-- The notice unit's last report of each fault record's occupancy is true (R113, R162). -/
abbrev State.FaultReportLaw (s : State) : Prop :=
  ∀ p : Port, s.notice.ports[p].faultOccupied = s.view.faults[p].isSome

/-- Each queue holds at most 32 notices, and while a lost flag is set its queue is not empty (R151). -/
abbrev State.QueueLaw (s : State) : Prop :=
  ∀ p : Port, s.notice.ports[p].queue.length ≤ 32 ∧
    (s.notice.ports[p].lost = true → s.notice.ports[p].queue ≠ [])

/-- One stop line: an ACTIVE filtered level means an ACTIVE stop state; a change is pending exactly while the input
differs from the filtered level, and it is towards the input's level (R117). -/
def StopLine.Law (x : StopLine) : Prop :=
  (x.filtered = .active → x.stop = .active) ∧
    (x.pending = none → x.input = x.filtered) ∧
    (∀ c, x.pending = some c → c.level = x.input ∧ x.input ≠ x.filtered)

/-- Both lines, and the frozen group set is the union of the freeze sets of the ACTIVE lines (R117, R127). -/
def State.StopLaw (s : State) : Prop :=
  (∀ l : Line, (s.stop.line l).Law) ∧ s.stop.frozen = s.stop.frozenUnion

/-- In SETUP no staging and no hold record exist, the engine is OFF and no switch is pending (R48, R178). -/
abbrev State.SetupLaw (s : State) : Prop :=
  s.part = .setup →
    (∀ i : Page, (s.map.page i).staging = none) ∧ (∀ p : Port, s.hold.records[p] = none) ∧
      s.sched.engine = .off ∧ s.sched.pendingSwitch = false

/-- While RESET is held, every block holds its reset values (R185). -/
abbrev State.ResetLaw (s : State) : Prop := s.inReset = true → s = s.holdInReset

/-- A deferral mark is set only while a hold record covers its group (R58). -/
abbrev State.MarkLaw (s : State) : Prop := ∀ g : Group, s.pub.groups[g].mark = true → s.hold.covers g = true

/-- A page that is not defined has the field values of an UNUSED page (R1), and the stager of a staging is in the
page's writer set (R7). -/
def State.PageLaw (s : State) : Prop :=
  ∀ i : Page, ((s.map.page i).defined = false → s.map.page i = PageRecord.unused) ∧
    (∀ st, (s.map.page i).staging = some st → (s.map.page i).writers.getLsbD st.stager.val = true)

/-- No port is the stager of more than 8 pages (R7). -/
abbrev State.StagerLaw (s : State) : Prop := ∀ p : Port, s.map.stagingCount p ≤ 8

/-- A port whose SEL is high is in IDLE; a read in flight stands in RESPONSE; the write buffer is in use exactly in the
WRITE_DATA of an accepted write (R168, R172, R173); a port reset that is under way has a claim outstanding (R183). -/
def State.LinkLaw (s : State) : Prop :=
  ∀ p : Port, ((s.port p).selected = false → (s.port p).tx = .idle) ∧
    ((s.port p).reading.isSome = true → ∃ r, (s.port p).tx = .response r) ∧
    ((s.port p).write.isSome = true ↔ ∃ n, (s.port p).tx = .writeData n none) ∧
    ∀ left, (s.port p).tx = .accepted (.portReset left) → left ≠ ResetClaims.none

/-- The number of places in which a frame stands: free list, retiring set, live frame of a page, staging frame of a
staging (R3). -/
def ExchangeMap.places (m : ExchangeMap) (f : Frame) : Nat :=
  m.freeList.count f + m.retiring.count f +
    (List.finRange 320).countP (fun i => decide ((m.page i).live = some f)) +
    (List.finRange 320).countP (fun i => decide ((m.page i).staging.map Staging.frame = some f))

/-- The number of transactions in flight that hold a read reference on a frame (R5). -/
def State.readersOf (s : State) (f : Frame) : Nat :=
  (List.finRange 4).countP fun p => decide ((s.port p).reading.map ReadInFlight.frame = some f)

/-- Each frame is in exactly one place (R3); a frame's read-reference count is the number of reads in flight on it; a
frame on the free list has count 0 and a retiring frame a count of at least 1 (R5). -/
def State.FrameLaw (s : State) : Prop :=
  ∀ f : Frame, s.map.places f = 1 ∧ s.map.refs[f] = s.readersOf f ∧
    (f ∈ s.map.freeList → s.map.refs[f] = 0) ∧ (f ∈ s.map.retiring → 1 ≤ s.map.refs[f])

/-- A plan has 1 to 48 slots, each of at least 20 ticks (R31). -/
abbrev Plan.Law (x : Plan) : Prop := 1 ≤ x.count.val ∧ ∀ k : SlotNo, 20 ≤ x.entries[k].duration.toNat

/-- The schedule: plans as R31 gives them; while the engine is not OFF the slot index is below the active plan's slot
count (R34); the slot timer runs exactly in IN_CYCLE and the gap timer only in WAITING_SYNC (R38, R43); in SETUP the
engine is OFF and no switch is pending (R48, R178); CYCLE_OUT is low while the engine is OFF (R40). -/
abbrev State.ScheduleLaw (s : State) : Prop :=
  s.sched.planA.Law ∧ s.sched.planB.Law ∧
    (s.sched.engine ≠ .off → s.sched.slotIndex.val < s.sched.activePlan.count.val) ∧
    (s.sched.slotTimer.isSome = true ↔ s.sched.engine = .inCycle) ∧
    (s.sched.gapTimer.isSome = true → s.sched.engine = .waitingSync) ∧
    (s.part = .setup → s.sched.engine = .off ∧ s.sched.pendingSwitch = false) ∧
    (s.sched.engine = .off → s.sched.cycleOut = false)

/-- The calendar and a staged time are valid (R137), the trims are in -2000..+2000, and the tick count is below the
length of the second under way (R132). -/
def State.TimeLaw (s : State) : Prop :=
  s.time.calendar.valid = true ∧ (∀ c, s.time.stagedTime = some c → c.valid = true) ∧
    (-2000 ≤ s.time.trim ∧ s.time.trim ≤ 2000) ∧
    (∀ t, s.time.stagedTrim = some t → -2000 ≤ t ∧ t ≤ 2000) ∧ s.time.tickCount < s.time.secondLength

/-- No watch counter value or running count exceeds 65535 (R77). -/
abbrev State.WatchLaw (s : State) : Prop :=
  ∀ n : WatchNo, s.pub.watches[n].value ≤ 65535 ∧ s.pub.watches[n].running ≤ 65535

/-- The hold limit is 1..16; a hold record's group set is nonempty and its cycles left 1..16 (R85). -/
def State.HoldLaw (s : State) : Prop :=
  (1 ≤ s.hold.limit ∧ s.hold.limit ≤ 16) ∧
    ∀ (p : Port) (h : Hold), s.hold.records[p] = some h → h.groups ≠ 0 ∧ 1 ≤ h.cyclesLeft ∧ h.cyclesLeft ≤ 16

/-- Pages published and pages late of one outcome are at most 32 together (R57). -/
abbrev State.OutcomeLaw (s : State) : Prop := ∀ g : Group, s.pub.groups[g].published + s.pub.groups[g].late ≤ 32

end Sys2Proof.Machine
end

