-- ==== Sys2Proof/Certificates/Slice0/Obligations.lean ====
section
/-! DEFINITION. The statements for the provers. A request's operands are written as the wire bytes of in-range values
(byteOf, BitVec.ofNat, setWidth), so that each statement covers every in-range form. -/

section

open Sys2Proof Sys2Proof.Machine

/-! ### The queue, the tick, reset -/

/-- A step takes the command at the front of the queue and runs it on the rest. -/
def Obligations.StepTakesFrontCommand : Prop :=
  ∀ (c : Instr) (rest : List Instr) (s : State), step (s.setPending (c :: rest)) = exec c (s.setPending rest)

/-- On an empty queue a step is one tick (the model's choice, notes/assumptions/4.md, 19.md). In part reset nothing
changes. Otherwise the counters go on by one and the pulse ends, and then all that falls at this tick, and nothing else,
is taken in some order, each expiry, edge, answer and sample once: the expiries whose counters reach their limits (R38,
R43, R120, R133), the edge of a rise of SYNC_IN that stands (R42, notes/assumptions/15.md), an alarm answer (R145), the
changed stop pins (R119, R130), and outstanding claims (R109, R183, notes/assumptions/9.md), which are taken then or
not. Each expiry, edge, answer and sample has the whole effect of its row, on the state in which it is taken; where it
alone falls at the tick, the step is that row on the counted state. With nothing due, the counters are all that changes.
Stated beside it for any tick: the second, the course of the schedule and each stop line move as the counters and their
rows say. An edge and a gap expiry at one tick, in either order, begin the one cycle that starts with it (R44); an edge
and the end of the last slot, in either order, leave the engine waiting or begin the next cycle (R45). -/
def Obligations.EmptyQueueCountsOneTick : Prop :=
  (∀ s : State, s.pending = [] →
    (s.inReset = true → step s = .next s) ∧
      (s.inReset = false →
        (∃ l : List TickEvent, step s = .next (l.foldl State.takeEvent s.counted) ∧
          (∀ e, e ∈ l ↔ s.FallsDue e) ∧ ∀ e, (∀ p, e ≠ .claims p) → l.count e ≤ 1) ∧
        (s.OnlyDue .slot → step s = exec .endOfSlot s.counted) ∧
        (s.OnlyDue .gap → step s = exec .gapExpiry s.counted) ∧
        (s.OnlyDue .edge → step s = .next (s.counted.takeEvent .edge)) ∧
        (∀ l : Line, s.OnlyDue (.filter l) → step s = exec (.filterTimerExpiry l) s.counted) ∧
        (∀ l : Line, s.OnlyDue (.sample l) → step s = exec (.stopInputChange l s.stop.lines[l].pin) s.counted) ∧
        (s.OnlyDue .alarmAnswer → step s = exec .alarmSwitchRequest s.counted) ∧
        ((∀ e, s.FallsDue e ↔ e = .second ∨ e = .alarmAnswer) →
          ∃ u, (exec .secondBoundary s.counted = .next u ∧ step s = exec .alarmSwitchRequest u) ∨
            (exec .alarmSwitchRequest s.counted = .next u ∧ step s = exec .secondBoundary u))) ∧
      (s.inReset = false → (∀ t, s.sched.slotTimer = some t → t.elapsed + 1 < t.duration) →
        (∀ n, s.sched.gapTimer = some n → n + 1 < s.sched.gapLimit) → s.sched.syncRise = false →
        (∀ (l : Line) (c : PendingChange), s.stop.lines[l].pending = some c →
          c.timer + 1 < s.stop.lines[l].filterTime.toNat) →
        s.time.tickCount + 1 < s.time.secondLength → s.time.pendingAlarm = none →
        (∀ l : Line, s.stop.lines[l].pin = s.stop.lines[l].input) →
        ∃ t, step s = .next t ∧ t.time = { s.time with tickCount := s.time.tickCount + 1 } ∧
          t.sched =
            { s.sched with
              slotTimer := s.sched.slotTimer.map fun x => { x with elapsed := x.elapsed + 1 }
              gapTimer := s.sched.gapTimer.map fun n => n + 1
              cycleOut := false } ∧
          t.stop.frozen = s.stop.frozen ∧
          (∀ l : Line, t.stop.lines[l] =
            { s.stop.lines[l] with
              pending := s.stop.lines[l].pending.map fun c => { c with timer := c.timer + 1 } }) ∧
          t.inReset = s.inReset ∧ t.part = s.part ∧
          ((∀ (p : Port) (o : Outstanding), (s.port p).tx ≠ .accepted o) →
            t.link = s.link ∧ t.map = s.map ∧ t.pub = s.pub ∧ t.hold = s.hold ∧ t.view = s.view ∧
              t.notice = s.notice) ∧
          ∀ (p : Port) (x : DataCall) (i : Page), s.Awaits p x i →
            (∀ (q : Port) (o : Outstanding), q ≠ p → (s.port q).tx ≠ .accepted o) →
            ∃ u, (u = s ∨ u = s.settle p) ∧ t.link = u.link ∧ t.map = u.map ∧ t.pub = u.pub ∧ t.hold = u.hold ∧
              t.view = u.view ∧ t.notice = u.notice) ∧
      (s.inReset = false →
        ∃ t, step s = .next t ∧
          (s.time.tickCount + 1 < s.time.secondLength →
            t.time.tickCount = s.time.tickCount + 1 ∧ t.time.calendar = s.time.calendar ∧ t.time.trim = s.time.trim ∧
              t.time.pendingAlarm = none) ∧
          (s.time.secondLength ≤ s.time.tickCount + 1 → ∀ u, exec .secondBoundary s = .next u →
            t.time.tickCount = 0 ∧ t.time.calendar = u.time.calendar ∧ t.time.trim = u.time.trim ∧
              t.time.stagedTrim = none ∧ t.time.stagedTime = none) ∧
          (s.ScheduleLaw →
            (∀ x, s.sched.slotTimer = some x → x.elapsed + 1 < x.duration →
              t.sched.slotTimer = some { x with elapsed := x.elapsed + 1 } ∧ t.sched.slotIndex = s.sched.slotIndex ∧
                t.sched.cycleCount = s.sched.cycleCount) ∧
              (∀ x u, s.sched.slotTimer = some x → x.duration ≤ x.elapsed + 1 → exec .endOfSlot s = .next u →
                t.sched.SameCourse u.sched ∨
                  (s.sched.syncRise = true ∧ t.sched.SameCourse (u.takeEvent .edge).sched)) ∧
              (s.sched.syncRise = true → t.sched.syncRise = false ∧
                (s.sched.engine = .waitingSync → t.sched.SameCourse (s.takeEvent .edge).sched)) ∧
              (∀ n, s.sched.gapTimer = some n → n + 1 < s.sched.gapLimit → s.sched.syncRise = false →
                t.sched.gapTimer = some (n + 1) ∧ t.sched.engine = .waitingSync ∧
                  t.sched.cycleCount = s.sched.cycleCount) ∧
              ∀ n u, s.sched.gapTimer = some n → s.sched.gapLimit ≤ n + 1 → exec .gapExpiry s = .next u →
                t.sched.SameCourse u.sched) ∧
          ∀ l : Line,
            (s.stop.lines[l].pin = s.stop.lines[l].input →
              (s.stop.lines[l].pending = none → t.stop.lines[l] = s.stop.lines[l]) ∧
                (∀ c, s.stop.lines[l].pending = some c → c.timer + 1 < s.stop.lines[l].filterTime.toNat →
                  t.stop.lines[l] =
                    { s.stop.lines[l] with pending := some { c with timer := c.timer + 1 } }) ∧
                ∀ c u, s.stop.lines[l].pending = some c → s.stop.lines[l].filterTime.toNat ≤ c.timer + 1 →
                  exec (.filterTimerExpiry l) s = .next u → t.stop.lines[l] = u.stop.lines[l]) ∧
              (s.stop.lines[l].pin ≠ s.stop.lines[l].input →
                t.stop.lines[l].input = s.stop.lines[l].pin ∧
                  ((∀ c, s.stop.lines[l].pending = some c → c.timer + 1 < s.stop.lines[l].filterTime.toNat) →
                    ∀ u, exec (.stopInputChange l s.stop.lines[l].pin) s = .next u →
                      t.stop.lines[l] = u.stop.lines[l])))) ∧
    ∀ s : State, s.inReset = false →
      exec .endOfSlot s = .next (s.takeEvent .slot) ∧ exec .gapExpiry s = .next (s.takeEvent .gap) ∧
        (s.sched.syncRise = false →
          exec .syncEdge s = .next (s.takeEvent .edge) ∨
            exec .syncEdge s =
              .next ((s.setSched { s.sched with syncRise := true }).setChoices (s.choices + 1))) ∧
        exec .secondBoundary s = .next (s.takeEvent .second) ∧
        exec .alarmSwitchRequest s = .next (s.takeEvent .alarmAnswer) ∧
        (∀ l : Line, exec (.filterTimerExpiry l) s = .next (s.takeEvent (.filter l)) ∧
          (s.stop.lines[l].pin ≠ s.stop.lines[l].input →
            exec (.stopInputChange l s.stop.lines[l].pin) s = .next (s.takeEvent (.sample l)))) ∧
        ∀ (p : Port) (x : DataCall) (i : Page), s.Awaits p x i →
          s.takeEvent (.claims p) = s.setChoices (s.choices + 1) ∨
            s.takeEvent (.claims p) = (s.settle p).setChoices (s.choices + 1)

/-- PART_RESET brings every block to its reset values and every port to IDLE, and keeps frame contents and pins;
RESET_RELEASE releases the part and changes nothing else. That frame contents and the pins are kept, and that the part
stays held until RESET_RELEASE, are the model's readings (notes/assumptions/1.md, 2.md, 3.md). -/
def Obligations.PartResetRestoresEveryBlock : Prop :=
  (∀ s : State, ∃ t, exec .partReset s = .next t ∧ t.inReset = true ∧ t.part = .setup ∧ t.pending = s.pending ∧
    (∀ p : Port, t.port p =
      { selected := (s.port p).selected, tx := .idle, received := [], write := none, reading := none,
        rights := { map := false, plan := false } }) ∧
    (∀ i : Page, t.map.page i =
      { defined := false, group := 0, readers := 0, writers := 0, live := none, sequence := 0,
        lastPublished := none, readersSince := 0, staging := none }) ∧
    t.map.freeList = List.finRange 512 ∧ t.map.retiring = [] ∧ (∀ f : Frame, t.map.refs[f] = 0) ∧
    t.map.serial = 0 ∧ t.map.stageLimit = 8 ∧ t.map.frames = s.map.frames ∧
    (∀ n : PlanName, (t.sched.plan n).count = 1 ∧ ∀ k : SlotNo, (t.sched.plan n).entries[k] =
      { duration := 1000, group := none, notify := 0, filterValue := 0, filterMask := 0 }) ∧
    t.sched.active = .a ∧ t.sched.pendingSwitch = false ∧ t.sched.engine = .off ∧ t.sched.firstCycle = false ∧
    t.sched.slotTimer = none ∧ t.sched.gapTimer = none ∧ t.sched.cycleCount = 0 ∧ t.sched.slotIndex = 0 ∧
    t.sched.syncMode = .free ∧ t.sched.gapLimit = 0 ∧ t.sched.cycleOut = false ∧ t.sched.syncRise = false ∧
    (∀ g : Group, t.pub.groups[g] = { last := .noOutcome, cycle := 0, published := 0, late := 0, mark := false }) ∧
    (∀ n : WatchNo, t.pub.watches[n] =
      { group := 0, event := .publishedPages, mode := .cycle, value := 0, running := 0 }) ∧
    (∀ p : Port, t.hold.records[p] = none) ∧ t.hold.limit = 2 ∧
    (∀ (p : Port) (pp : PortPage), t.view.views[p][pp] = none) ∧ (∀ p : Port, t.view.faults[p] = none) ∧
    (∀ l : Line, t.stop.lines[l].filterTime = 0 ∧ t.stop.lines[l].freeze = 0 ∧ t.stop.lines[l].mode = .follow ∧
      t.stop.lines[l].filtered = .inactive ∧ t.stop.lines[l].stop = .inactive ∧ t.stop.lines[l].pending = none ∧
      t.stop.lines[l].pin = s.stop.lines[l].pin) ∧
    t.stop.frozen = 0 ∧ t.time.tickCount = 0 ∧ t.time.trim = 0 ∧ t.time.stagedTrim = none ∧
    t.time.calendar = { year := 0, month := 1, day := 1, hour := 0, minute := 0, second := 0, weekday := 6 } ∧
    t.time.stagedTime = none ∧
    t.time.alarm = { enabled := false, weekdays := 0, hour := 0, minute := 0, action := .notice } ∧
    t.time.pendingAlarm = none ∧
    (∀ p : Port, t.notice.ports[p] =
      { queue := [], lost := false, subscription := 0, kinds := 0, attention := 0, faultOccupied := false,
        attn := false })) ∧
    (∀ s : State, exec .resetRelease s = .next (s.setInReset false))

/-- The state after reset satisfies every law that the other statements call a law. The levels of the pins and the
frame contents at reset are the model's choice (notes/assumptions/2.md, 3.md). -/
def Obligations.ResetStateSatisfiesEveryLaw : Prop :=
  State.reset.MemoryLaw ∧ State.reset.AttentionLaw ∧ State.reset.FaultReportLaw ∧ State.reset.QueueLaw ∧
    State.reset.StopLaw ∧ State.reset.SetupLaw ∧ State.reset.ResetLaw ∧ State.reset.MarkLaw ∧ State.reset.PageLaw ∧
    State.reset.StagerLaw ∧ State.reset.LinkLaw ∧ State.reset.FrameLaw ∧ State.reset.ScheduleLaw ∧
    State.reset.TimeLaw ∧ State.reset.WatchLaw ∧ State.reset.HoldLaw ∧ State.reset.OutcomeLaw

/-! ### The link -/

/-- The parameter checks of R170: range first, then rights in RUN; a request that passes both is answered neither
BAD_RANGE nor NO_PERMISSION, at once or when its outstanding claims are taken. That a presence byte other than 0 and 1
is out of range is the model's inference (notes/assumptions/14.md). -/
def Obligations.RangeThenRightsAreChecked : Prop :=
  ∀ (i : Instr) (p : Port) (s : State), i.requestPort? = some p → s.ReadyFor p →
    (i.inRange = false → exec i s = .next (s.answered p i .badRange [])) ∧
      (∀ r, i.inRange = true → i.rightNeeded = some r → s.part = .run → s.holdsRight p r = false →
        exec i s = .next (s.answered p i .noPermission [])) ∧
      (i.inRange = true → (s.part = .setup ∨ ∀ r, i.rightNeeded = some r → s.holdsRight p r = true) →
        ∃ t, exec i s = .next t ∧ ∀ b, ((t.settle p).port p).tx ≠ .response { status := .badRange, body := b } ∧
          ((t.settle p).port p).tx ≠ .response { status := .noPermission, body := b })

/-- A header that the table of section 9.2 does not have is refused with BAD_REQUEST and reaches no block (R169). -/
def Obligations.UnknownHeaderIsRefused : Prop :=
  ∀ (p : Port) (identifier length : Byte) (s : State), (identifier.toNat, length.toNat) ∉ requestTable →
    s.ReadyFor p →
    exec (.badRequest p identifier length) s =
      .next (s.answered p (.badRequest p identifier length) .badRequest [])

/-- SEL falls on an idle port: REQUEST. The last response byte of a transaction other than an OK READ or STAGE_READ
passes: DONE. Bytes of a request on a port outside REQUEST are no request, and change nothing (R168, R185). SDO
carries the response record, status code, body length and body, and 0xFF at every byte with nothing to send; it is not
driven while SEL is high or in part reset (R166, R167, R185); that it is 0xFF in a select period already begun at the
release of the reset is the model's choice (notes/assumptions/21.md). Each byte is sent most significant bit first,
one bit set up at each falling edge of SCK and kept to the next, the first of all when SEL falls (R166). Claims of an
accepted request that are outstanding are taken before the port's next byte or the end of its select period: no
response byte is sent before, and each of the events that move the transaction on finds them taken (R171, R183;
notes/assumptions/9.md). That such bytes change nothing under RESET too is the model's inference
(notes/assumptions/6.md, 17.md). -/
def Obligations.SelectAndResponseMoveTheTransaction : Prop :=
  (∀ (p : Port) (s : State), s.inReset = false → (s.port p).selected = false → (s.port p).tx = .idle →
    exec (.selectPeriodBegin p) s =
      .next (s.setPort p { s.port p with selected := true, tx := .request, received := [] })) ∧
    (∀ (p : Port) (s : State) (r : Response), (s.port p).tx = .response r → (s.port p).reading = none →
      exec (.lastResponseByte p) s = .next (s.setPort p { s.port p with tx := .done })) ∧
    (∀ (i : Instr) (p : Port) (s : State), i.requestPort? = some p → ¬ s.ReadyFor p → exec i s = .next s) ∧
    (∀ (p : Port) (s : State) (o : Outstanding) (data : List Byte), (s.port p).tx = .accepted o →
      (∀ o' : Outstanding, ((s.settle p).port p).tx ≠ .accepted o') ∧
        exec (.lastResponseByte p) s = exec (.lastResponseByte p) (s.settle p) ∧
        exec (.readCompletion p) s = exec (.readCompletion p) (s.settle p) ∧
        exec (.stageReadCompletion p) s = exec (.stageReadCompletion p) (s.settle p) ∧
        exec (.stageWriteCompletion p data) s = exec (.stageWriteCompletion p data) (s.settle p) ∧
        exec (.selectRelease p) s = exec (.selectRelease p) (s.settle p)) ∧
    ∀ (p : Port) (s : State) (n : Nat),
      (s.inReset = true ∨ (s.port p).selected = false → s.sdo p n = none) ∧
        (s.inReset = false → (s.port p).selected = true →
          (∀ r, (s.port p).tx = .response r →
            s.sdo p n = some (([byteOf r.status.code, byteOf r.body.length] ++ r.body).getD n 0xFF)) ∧
            ((∀ r, (s.port p).tx ≠ .response r) → s.sdo p n = some 0xFF)) ∧
        s.sdoBit p n = (s.sdo p (n / 8)).map (fun b => b.getLsbD (7 - n % 8)) ∧
        (∀ (x : OutLine) (e : LineEdge), s.inReset = true ∨ (s.port p).selected = false →
          s.drive p x e = { level := none, setUp := 0 }) ∧
        (∀ (level : Option Bool) (edges : List LineEdge), s.inReset = false → (s.port p).selected = true →
          (∀ e ∈ edges, e = .clockFalls ∨ ∃ sdi, e = .clockRises sdi) →
          s.driveAll p level edges =
              { level :=
                  if edges.count .clockFalls = 0 then level else s.sdoBit p (edges.count .clockFalls - 1)
                setUp := edges.count .clockFalls } ∧
            (s.driveAll p level (edges ++ [.selectRises])).level = none ∧
            s.driveAll p level (.selectFalls :: edges) =
              { level := s.sdoBit p (edges.count .clockFalls), setUp := edges.count .clockFalls + 1 })

/-- SEL rises (R173): the port returns to IDLE with its write buffer empty; a READ or STAGE_READ still in its data
phase is aborted, which releases its reference, and a retiring frame with no reference left goes to the free list
tail. No page record changes. Claims of an accepted request that are outstanding then are taken first
(SelectAndResponseMoveTheTransaction). -/
def Obligations.SelectReleaseEndsTheTransaction : Prop :=
  ∀ (p : Port) (s : State), (s.port p).selected = true → (∀ o : Outstanding, (s.port p).tx ≠ .accepted o) →
    ((s.port p).reading = none →
      exec (.selectRelease p) s =
        .next (s.setPort p { s.port p with selected := false, tx := .idle, received := [], write := none })) ∧
      ∀ r, (s.port p).reading = some r →
        exec (.selectRelease p) s =
          .next ((s.setMap
            { s.map with
              refs := s.map.refs.set r.frame (s.map.refs[r.frame] - 1)
              retiring :=
                if s.map.refs[r.frame] ≤ 1 ∧ r.frame ∈ s.map.retiring then s.map.retiring.erase r.frame
                else s.map.retiring
              freeList :=
                if s.map.refs[r.frame] ≤ 1 ∧ r.frame ∈ s.map.retiring then s.map.freeList ++ [r.frame]
                else s.map.freeList }).setPort p
            { s.port p with selected := false, tx := .idle, received := [], write := none, reading := none })

/-- The last data byte of a READ or STAGE_READ passes (R15, R17): DONE, the reference released with the retiring-set
step; a READ joins readers-since-publication exactly when its frame is still the live frame of its defined page. -/
def Obligations.ReadCompletionReleasesTheReference : Prop :=
  ∀ (p : Port) (s : State) (x : Response) (r : ReadInFlight), (s.port p).tx = .response x →
    (s.port p).reading = some r →
    ∃ t, exec (match r.kind with | .read => .readCompletion p | .stageRead => .stageReadCompletion p) s = .next t ∧
      t = (s.setMap t.map).setPort p { s.port p with tx := .done, reading := none } ∧
      t.map.refs = s.map.refs.set r.frame (s.map.refs[r.frame] - 1) ∧
      t.map.frames = s.map.frames ∧ t.map.serial = s.map.serial ∧ t.map.stageLimit = s.map.stageLimit ∧
      (if s.map.refs[r.frame] ≤ 1 ∧ r.frame ∈ s.map.retiring then
        t.map.retiring = s.map.retiring.erase r.frame ∧ t.map.freeList = s.map.freeList ++ [r.frame]
      else t.map.retiring = s.map.retiring ∧ t.map.freeList = s.map.freeList) ∧
      ∀ i : Page, t.map.page i =
        if r.kind = .read ∧ i = r.page ∧ (s.map.page i).defined = true ∧ (s.map.page i).live = some r.frame then
          { s.map.page i with readersSince := (s.map.page i).readersSince ||| BitVec.twoPow 4 p.val }
        else s.map.page i

/-- The last data byte of a STAGE_WRITE passes (R21, R172): the bytes are written to the staging accepted against, if
it still exists and is OPEN, and every other byte of memory is as it was; otherwise NOT_STAGED and nothing is written.
After a refused acceptance the data are discarded and the refusal is answered. That the command carries the bytes
passed is the model's choice (notes/assumptions/12.md). -/
def Obligations.StageWriteCompletionWritesItsBytes : Prop :=
  (∀ (p : Port) (s : State) (w : WriteBuffer) (data : List Byte), (s.port p).tx = .writeData data.length none →
    (s.port p).write = some w → s.MemoryLaw → w.offset + (w.data ++ data).length ≤ 64 →
    (∀ st, (s.map.page w.page).staging = some st → st.stager = p → st.serial = w.serial → st.state = .opened →
      ∃ t, exec (.stageWriteCompletion p data) s = .next t ∧
        t = (s.setMap { s.map with frames := t.map.frames }).setPort p
          { s.port p with tx := .response { status := .ok, body := [] }, write := none } ∧
        ∀ a, t.map.frames.read a =
          if 64 * st.frame.val + w.offset ≤ a ∧ a < 64 * st.frame.val + w.offset + (w.data ++ data).length then
            (w.data ++ data).getD (a - (64 * st.frame.val + w.offset)) 0
          else s.map.frames.read a) ∧
      ((∀ st, (s.map.page w.page).staging = some st →
          ¬ (st.stager = p ∧ st.serial = w.serial ∧ st.state = .opened)) →
        exec (.stageWriteCompletion p data) s =
          .next (s.setPort p
            { s.port p with tx := .response { status := .notStaged, body := [] }, write := none }))) ∧
    ∀ (p : Port) (s : State) (code : Status) (data : List Byte),
      (s.port p).tx = .writeData data.length (some code) →
      exec (.stageWriteCompletion p data) s =
        .next (s.setPort p { s.port p with tx := .response { status := code, body := [] }, write := none })

/-- Response bodies have the lengths of section 9.2 under OK; under any other code the body is empty, but for PAGE_BUSY,
HELD and STOP_ACTIVE (R175). A request whose claims are outstanding is answered when they are taken. -/
def Obligations.ResponseBodyLengths : Prop :=
  ∀ (i : Instr) (p : Port) (s t : State) (r : Response), i.requestPort? = some p → s.ReadyFor p →
    exec i s = .next t → ((t.settle p).port p).tx = .response r →
    r.body.length =
      if r.status = .ok then i.okBodyLength
      else if r.status = .pageBusy then 1
      else if r.status = .held then 3
      else if r.status = .stopActive then 2
      else 0

/-- Every command completes in every state; and a request on a port in REQUEST is answered, or, a STAGE_WRITE, enters
its data phase of exactly the requested length (R168, R171, R175). PORT_RESET and the data requests do so at once or
when the claims that they hand on are taken (R109, R183), every other request at once. That a command whose event
cannot occur completes with nothing changed is the model's inference (notes/assumptions/6.md). -/
def Obligations.EveryCommandCompletes : Prop :=
  (∀ (c : Instr) (s : State), ∃ t, exec c s = .next t) ∧
    ∀ (i : Instr) (p : Port) (s : State), i.requestPort? = some p → i.wellFormed = true → s.ReadyFor p →
      ∃ t, exec i s = .next t ∧ (i.handsOn = false → ∃ r, (t.port p).tx = .response r) ∧
        ((∃ r, ((t.settle p).port p).tx = .response r) ∨
          ∃ pp offset length code, i = .stageWrite p pp offset length ∧
            ((t.settle p).port p).tx = .writeData length.toNat code)

/-! ### Part control and settings -/

/-- PART_STATUS answers in any state the twelve bytes of R182. -/
def Obligations.PartStatusReportsTheState : Prop :=
  ∀ (p : Port) (s : State), s.ReadyFor p →
    exec (.partStatus p) s = .next (s.answered p (.partStatus p) .ok
      [0xB0, 0x01, 1, (match s.part with | .setup => 0 | .run => 1),
        (match s.sched.engine with | .off => 0 | .inCycle => 1 | .waitingSync => 2),
        (match s.sched.active with | .a => 0 | .b => 1), (if s.sched.pendingSwitch then 1 else 0),
        s.sched.cycleCount.setWidth 8, byteOf s.sched.slotIndex.val, byteOf s.map.freeList.length,
        byteOf (s.map.freeList.length / 256), byteOf s.map.retiring.length])

/-- START in SETUP (R35, R179): RUN; in TRIGGERED mode the engine waits from cycle 0, slot 0; in FREE mode cycle 0
begins at once: the CYCLE-mode watch counters roll (R79), slot 0 sends its SLOT notices, and its point, if it acts in
cycle 0, is FROZEN or PUBLISHED with no page and leaves its GROUP_POINT notice (R37, R59, R75, R78). START in RUN is
answered WRONG_STATE. The counter of free choices is the model's own (notes/assumptions/7.md). -/
def Obligations.StartBeginsTheRun : Prop :=
  ∀ (p : Port) (s : State), s.ReadyFor p →
    (s.part = .run → exec (.start p) s = .next (s.answered p (.start p) .wrongState [])) ∧
      (s.part = .setup → s.sched.syncMode = .triggered →
        exec (.start p) s = .next ((((s.setPart .run).setSched
          { s.sched with
            cycleCount := 0, slotIndex := 0, firstCycle := true, engine := .waitingSync, slotTimer := none
            gapTimer := if s.sched.gapLimit = 0 then none else some 0 }).setChoices
              (s.choices + 1)).answered p (.start p) .ok [])) ∧
      (s.part = .setup → s.sched.syncMode = .free → s.SetupLaw →
        ∃ t, exec (.start p) s = .next t ∧ t.part = .run ∧ t.link = (s.answered p (.start p) .ok []).link ∧
          t.sched =
            { s.sched with
              cycleCount := 0, slotIndex := 0, firstCycle := false, engine := .inCycle, gapTimer := none
              slotTimer := some { elapsed := 0, duration := s.sched.activePlan.entries[(0 : SlotNo)].duration.toNat }
              cycleOut := !decide (s.stop.lines[(0 : Line)].stop = .active) &&
                !decide (s.stop.lines[(1 : Line)].stop = .active) } ∧
          t.hold = s.hold ∧ t.map = s.map ∧ t.view = s.view ∧ t.stop = s.stop ∧ t.time = s.time ∧
          t.inReset = false ∧ t.FirstSlotNotices ∧
          (∀ g : Group, t.FirstPoint g →
            t.pub.groups[g] =
              { last := if s.stop.frozen.getLsbD g.val then .frozen else .published
                cycle := 0, published := 0, late := 0, mark := s.pub.groups[g].mark } ∧
            (∀ n : WatchNo, s.pub.watches[n].group = g →
              t.pub.watches[n] = s.pub.watches[n].rolled.after g t.pub.groups[g]) ∧
            ∀ q : Port, s.notice.ports[q].subscription.getLsbD g.val = true →
              t.Found q { stamp := t.stamp, body := .groupPoint g t.pub.groups[g].last 0 0 }) ∧
          (∀ g : Group, ¬ t.FirstPoint g →
            t.pub.groups[g] = s.pub.groups[g] ∧
            ∀ n : WatchNo, s.pub.watches[n].group = g → t.pub.watches[n] = s.pub.watches[n].rolled) ∧
          ∀ q : Port, s.notice.ports[q].queue <+: t.notice.ports[q].queue)

/-- HALT in RUN (R180, R29, R55, R83, R96): SETUP, the engine OFF and no switch pending, every staging removed with
its frame at the free list tail (or retiring while it is referenced), every hold removed, every mark cleared; nothing
else changes and no notice is sent. HALT in SETUP is answered WRONG_STATE. -/
def Obligations.HaltReturnsToSetup : Prop :=
  ∀ (p : Port) (s : State), s.ReadyFor p →
    (s.part = .setup → exec (.halt p) s = .next (s.answered p (.halt p) .wrongState [])) ∧
      (s.part = .run → s.PlanAllowed p →
        ∃ t, exec (.halt p) s = .next t ∧ t.part = .setup ∧ t.link = (s.answered p (.halt p) .ok []).link ∧
          t.sched =
            { s.sched with
              engine := .off, slotTimer := none, gapTimer := none, pendingSwitch := false, cycleOut := false } ∧
          (∀ i : Page, t.map.page i = { s.map.page i with staging := none }) ∧
          t.map.freeList = s.map.freeList ++ (List.finRange 320).filterMap (fun i =>
            match (s.map.page i).staging with
            | none => none
            | some st => if s.map.refs[st.frame] = 0 then some st.frame else none) ∧
          (∀ f : Frame, f ∈ t.map.retiring ↔ f ∈ s.map.retiring ∨
            ∃ i st, (s.map.page i).staging = some st ∧ st.frame = f ∧ s.map.refs[f] ≠ 0) ∧
          t.map.refs = s.map.refs ∧ t.map.frames = s.map.frames ∧ t.map.serial = s.map.serial ∧
          t.map.stageLimit = s.map.stageLimit ∧
          (∀ q : Port, t.hold.records[q] = none) ∧ t.hold.limit = s.hold.limit ∧
          (∀ g : Group, t.pub.groups[g] = { s.pub.groups[g] with mark := false }) ∧ t.pub.watches = s.pub.watches ∧
          t.view = s.view ∧ t.stop = s.stop ∧ t.time = s.time ∧ t.notice = s.notice ∧ t.inReset = false)

/-- PORT_RESET of p (R183, R184, R30, R98, R116, R165): the exchange map's, the hold table's, the view unit's and the
notice unit's claims fall each in its own time (a free value, notes/assumptions/9.md), at once or while the answer is
outstanding; the response, OK with an empty body, begins when all four are taken. When they are, p's stagings, hold
record and fault record are gone, its queue is emptied, deferrals that its hold alone kept are caught up or dropped, and
all else is kept, as State.ResetLeaves says of any of the claims. Claims that are outstanding in whatever state, after a
HALT or a hold break among others, leave the same of the state in which they are taken: some of them at a tick, all of
them when the transaction moves on. -/
def Obligations.PortResetClearsThePort : Prop :=
  (∀ (p : Port) (s : State), s.ReadyFor p → s.LinkLaw →
    ∃ t, exec (.portReset p) s = .next t ∧
      (∃ left : ResetClaims,
        t.link = (s.setPort p
          { s.port p with
            received := (Instr.portReset p).record
            tx :=
              if left = ResetClaims.none then .response { status := .ok, body := [] }
              else .accepted (.portReset left) }).link ∧
        s.ResetLeaves t p (ResetClaims.all.without left)) ∧
      (t.settle p).link = (s.setPort p
        { s.port p with
          received := (Instr.portReset p).record, tx := .response { status := .ok, body := [] } }).link ∧
      exec (.lastResponseByte p) t =
        .next ((t.settle p).setPort p { s.port p with received := (Instr.portReset p).record, tx := .done }) ∧
      exec (.selectRelease p) t =
        .next ((t.settle p).setPort p { s.port p with selected := false, tx := .idle, received := [] }) ∧
      s.ResetLeaves (t.settle p) p ResetClaims.all) ∧
    ∀ (p : Port) (s : State) (left : ResetClaims), (s.port p).tx = .accepted (.portReset left) →
      (s.settle p).link =
          (s.setPort p { s.port p with tx := .response { status := .ok, body := [] } }).link ∧
        s.ResetLeaves (s.settle p) p left ∧
        ∃ still : ResetClaims, still.Within left ∧
          (s.takeEvent (.claims p)).link =
            (s.setPort p
              { s.port p with
                tx :=
                  if still = ResetClaims.none then .response { status := .ok, body := [] }
                  else .accepted (.portReset still) }).link ∧
          s.ResetLeaves (s.takeEvent (.claims p)) p (left.without still)

/-- The settings that only SETUP may change (R14, R41, R89, R177): taken in SETUP, answered WRONG_STATE in RUN with
nothing changed. -/
def Obligations.SetupSettings : Prop :=
  ∀ (p : Port) (s : State), s.ReadyFor p →
    (∀ (q : Port) (m n : Bool),
      exec (.portRightsSet p (byteOf q.val) (twoFlags m n)) s =
        if s.part = .setup then
          .next ((s.setPort q { s.port q with rights := { map := m, plan := n } }).answered p
            (.portRightsSet p (byteOf q.val) (twoFlags m n)) .ok
            [twoFlags (s.port q).rights.map (s.port q).rights.plan])
        else .next (s.answered p (.portRightsSet p (byteOf q.val) (twoFlags m n)) .wrongState [])) ∧
      (∀ limit : Byte, exec (.stageLimit p limit) s =
        if s.part = .setup then
          .next ((s.setMap { s.map with stageLimit := limit }).answered p (.stageLimit p limit) .ok [])
        else .next (s.answered p (.stageLimit p limit) .wrongState [])) ∧
      (∀ n : Nat, 1 ≤ n → n ≤ 16 → exec (.holdLimit p (byteOf n)) s =
        if s.part = .setup then
          .next ((s.setHold { s.hold with limit := n }).answered p (.holdLimit p (byteOf n)) .ok [])
        else .next (s.answered p (.holdLimit p (byteOf n)) .wrongState [])) ∧
      ∀ (mode : SyncMode) (n : Nat), (n = 0 ∨ (100 ≤ n ∧ n ≤ 1000000)) →
        exec (.syncSet p (match mode with | .free => 0 | .triggered => 1) (BitVec.ofNat 32 n)) s =
          if s.part = .setup then
            .next ((s.setSched { s.sched with syncMode := mode, gapLimit := n }).answered p
              (.syncSet p (match mode with | .free => 0 | .triggered => 1) (BitVec.ofNat 32 n)) .ok [])
          else
            .next (s.answered p (.syncSet p (match mode with | .free => 0 | .triggered => 1) (BitVec.ofNat 32 n))
              .wrongState [])

/-! ### Page requests -/

/-- DEFINE_PAGE, PAGE_SET and RETIRE_PAGE (R10, R11, R12), with each of their answers. -/
def Obligations.PageDefinitionRequests : Prop :=
  ∀ (p : Port) (s : State) (i : Page), s.ReadyFor p → s.MapAllowed p →
    (∀ (g : Group) (r w : PortSet),
      exec (.definePage p (BitVec.ofNat 16 i.val) (byteOf g.val) (r.setWidth 8) (w.setWidth 8)) s =
        if (s.map.page i).defined then
          .next (s.answered p (.definePage p (BitVec.ofNat 16 i.val) (byteOf g.val) (r.setWidth 8) (w.setWidth 8))
            .inUse [])
        else
          .next ((s.setMap
            { s.map with
              pages := s.map.pages.set i
                { defined := true, group := g, readers := r, writers := w, live := none, sequence := 0,
                  lastPublished := none, readersSince := 0, staging := none } }).answered p
            (.definePage p (BitVec.ofNat 16 i.val) (byteOf g.val) (r.setWidth 8) (w.setWidth 8)) .ok [])) ∧
      (∀ (g : Group) (r w : PortSet),
        exec (.pageSet p (BitVec.ofNat 16 i.val) (byteOf g.val) (r.setWidth 8) (w.setWidth 8)) s =
          if (s.map.page i).defined then
            match (s.map.page i).staging with
            | some st =>
              .next (s.answered p (.pageSet p (BitVec.ofNat 16 i.val) (byteOf g.val) (r.setWidth 8) (w.setWidth 8))
                .pageBusy [byteOf st.stager.val])
            | none =>
              .next ((s.setMap
                { s.map with
                  pages := s.map.pages.set i
                    { s.map.page i with group := g, readers := r, writers := w } }).answered p
                (.pageSet p (BitVec.ofNat 16 i.val) (byteOf g.val) (r.setWidth 8) (w.setWidth 8)) .ok [])
          else
            .next (s.answered p (.pageSet p (BitVec.ofNat 16 i.val) (byteOf g.val) (r.setWidth 8) (w.setWidth 8))
              .pageUnused [])) ∧
      ((s.map.page i).defined = false →
        exec (.retirePage p (BitVec.ofNat 16 i.val)) s =
          .next (s.answered p (.retirePage p (BitVec.ofNat 16 i.val)) .pageUnused [])) ∧
      (∀ st, (s.map.page i).defined = true → (s.map.page i).staging = some st →
        exec (.retirePage p (BitVec.ofNat 16 i.val)) s =
          .next (s.answered p (.retirePage p (BitVec.ofNat 16 i.val)) .pageBusy [byteOf st.stager.val])) ∧
      ((s.map.page i).defined = true → (s.map.page i).staging = none →
        ∃ t, exec (.retirePage p (BitVec.ofNat 16 i.val)) s = .next t ∧
          t = (s.setMap t.map).answered p (.retirePage p (BitVec.ofNat 16 i.val)) .ok [] ∧
          t.map.pages = s.map.pages.set i
            { defined := false, group := 0, readers := 0, writers := 0, live := none, sequence := 0,
              lastPublished := none, readersSince := 0, staging := none } ∧
          t.map.refs = s.map.refs ∧ t.map.frames = s.map.frames ∧ t.map.serial = s.map.serial ∧
          t.map.stageLimit = s.map.stageLimit ∧
          match (s.map.page i).live with
          | none => t.map.freeList = s.map.freeList ∧ t.map.retiring = s.map.retiring
          | some f =>
            if s.map.refs[f] = 0 then t.map.freeList = s.map.freeList ++ [f] ∧ t.map.retiring = s.map.retiring
            else t.map.freeList = s.map.freeList ∧ ∀ x, x ∈ t.map.retiring ↔ x ∈ s.map.retiring ∨ x = f)

/-- PAGE_STATUS answers the sixteen bytes of R13, byte for byte. -/
def Obligations.PageStatusRecordLayout : Prop :=
  ∀ (p : Port) (s : State) (i : Page), s.ReadyFor p →
    ∃ b : List Byte, exec (.pageStatus p (BitVec.ofNat 16 i.val)) s =
        .next (s.answered p (.pageStatus p (BitVec.ofNat 16 i.val)) .ok b) ∧
      b.length = 16 ∧ b.take 2 = bytesOf16 i.val ∧
      (∀ k, (b.getD 2 0).getLsbD k =
        match k with
        | 0 => (s.map.page i).defined
        | 1 => (s.map.page i).live.isSome
        | 2 => (s.map.page i).staging.isSome
        | 3 => decide ((s.map.page i).staging.map Staging.state = some .ready)
        | 4 => (s.map.page i).lastPublished.isSome
        | _ => false) ∧
      b.getD 3 0 = byteOf (s.map.page i).group.val ∧
      (∀ k, (b.getD 4 0).getLsbD k =
        if k < 4 then (s.map.page i).readers.getLsbD k else (s.map.page i).writers.getLsbD (k - 4)) ∧
      (∀ k, (b.getD 5 0).getLsbD k =
        if k < 4 then (s.map.page i).readersSince.getLsbD k
        else if k < 6 then
          (BitVec.ofNat 2 (((s.map.page i).staging.map fun x => x.stager.val).getD 0)).getLsbD (k - 4)
        else false) ∧
      (b.drop 6).take 2 = bytes16 (s.map.page i).sequence ∧
      b.getD 8 0 = ((s.map.page i).lastPublished.getD 0).setWidth 8 ∧
      b.getD 9 0 = ((s.map.page i).staging.map Staging.cyclesLeft).getD 0 ∧
      (b.drop 10).take 2 = bytes16 (((s.map.page i).staging.map Staging.serial).getD 0) ∧
      (b.drop 12).take 2 = bytesOf16 (((s.map.page i).live.map Fin.val).getD 0) ∧
      (b.drop 14).take 2 = bytesOf16 (((s.map.page i).staging.map fun x => x.frame.val).getD 0)

/-! ### Data requests -/

/-- A data request that a part of the access check refuses (R104 to R109, R111, R113): the answer by the table of
R106, the fault record filled or its repeated flag set, the occupancy reported, and nothing else changed; a
STAGE_WRITE keeps its data phase. The view part refuses at the acceptance, by the entry. The page part refuses when
the exchange map takes the request, by the page that the view part fixed, as it stands then; requests of other ports
that come between, a VIEW_SET or a page change among them, leave the outstanding request as it was (with the law of
SETUP, by which a START meets no staging). When the page part falls is a free value (notes/assumptions/9.md). -/
def Obligations.AccessCheckRefusalRecordsTheFault : Prop :=
  (∀ (x : DataCall) (p : Port) (s : State) (c : FaultCause), x.InRange → s.ReadyFor p → s.viewTable p x = some c →
    ∃ t, exec (x.command p) s = .next t ∧
      (s.setPort p { s.port p with received := (x.command p).record }).Refused t p x c) ∧
    (∀ (x : DataCall) (p : Port) (i : Page) (c : FaultCause), x.InRange →
      x.Gives p i (fun s => s.pageTable p x i = some c) fun s t => s.Refused t p x c) ∧
    ∀ (c : Instr) (p q : Port) (s t : State), s.SetupLaw → c.requestPort? = some q → q ≠ p → exec c s = .next t →
      t.port p = { s.port p with rights := (t.port p).rights }

/-- READ and STAGE_READ past the check (R15, R17): NO_DATA of an EMPTY page, NOT_STAGED without a staging of the port;
otherwise one more reference on the frame, and the response with the sequence or serial and the bytes of the frame
from offset. Memory is unchanged. That the bytes are recorded at acceptance is the model's inference
(notes/assumptions/11.md); when the page part falls is a free value (notes/assumptions/9.md). -/
def Obligations.ReadsReturnTheFramesBytes : Prop :=
  ∀ (p : Port) (b : Transfer) (i : Page), 1 ≤ b.length → b.offset.val + b.length ≤ 64 →
    (DataCall.read b).Gives p i (fun s => s.MayRead p i ∧ (s.map.page i).live = none) (Replies p .noData []) ∧
      (∀ f : Frame, (DataCall.read b).Gives p i (fun s => s.MayRead p i ∧ (s.map.page i).live = some f) fun s t =>
        t = (s.setMap { s.map with refs := s.map.refs.set f (s.map.refs[f] + 1) }).setPort p
          { s.port p with
            reading := some { kind := .read, page := i, frame := f }
            tx := .response
              { status := .ok
                body := bytes16 (s.map.page i).sequence ++
                  (List.range b.length).map fun k => s.map.frames.read (64 * f.val + (b.offset.val + k)) } }) ∧
      (DataCall.stageRead b).Gives p i
        (fun s => s.MayStage p i ∧ ∀ st, (s.map.page i).staging = some st → st.stager ≠ p)
        (Replies p .notStaged []) ∧
      ∀ st : Staging, st.stager = p →
        (DataCall.stageRead b).Gives p i (fun s => s.MayStage p i ∧ (s.map.page i).staging = some st) fun s t =>
          t = (s.setMap { s.map with refs := s.map.refs.set st.frame (s.map.refs[st.frame] + 1) }).setPort p
            { s.port p with
              reading := some { kind := .stageRead, page := i, frame := st.frame }
              tx := .response
                { status := .ok
                  body := bytes16 st.serial ++
                    (List.range b.length).map fun k => s.map.frames.read (64 * st.frame.val + (b.offset.val + k)) } }

/-- STAGE_OPEN past the check is refused in the order of R18 and then changes nothing but the port. Part state, frozen
group set, staging and free list are those of the moment at which the exchange map takes it, which is a free value
(notes/assumptions/9.md). -/
def Obligations.StageOpenChecksInOrder : Prop :=
  ∀ (p : Port) (pp : PortPage) (copy : Bool) (i : Page),
    (DataCall.stageOpen pp copy).Gives p i (fun s => s.MayStage p i ∧ s.part = .setup) (Replies p .wrongState []) ∧
      (DataCall.stageOpen pp copy).Gives p i
        (fun s => s.MayStage p i ∧ s.part = .run ∧ s.stop.frozen.getLsbD (s.map.page i).group.val = true)
        (Replies p .groupFrozen []) ∧
      (∀ st : Staging, (DataCall.stageOpen pp copy).Gives p i
        (fun s => s.MayStage p i ∧ s.part = .run ∧ s.stop.frozen.getLsbD (s.map.page i).group.val = false ∧
          (s.map.page i).staging = some st)
        (Replies p .pageBusy [byteOf st.stager.val])) ∧
      (DataCall.stageOpen pp copy).Gives p i
        (fun s => s.MayStage p i ∧ s.part = .run ∧ s.stop.frozen.getLsbD (s.map.page i).group.val = false ∧
          (s.map.page i).staging = none ∧ 8 ≤ s.map.stagingCount p)
        (Replies p .tooMany []) ∧
      (DataCall.stageOpen pp copy).Gives p i
        (fun s => s.MayStage p i ∧ s.part = .run ∧ s.stop.frozen.getLsbD (s.map.page i).group.val = false ∧
          (s.map.page i).staging = none ∧ s.map.stagingCount p < 8 ∧ s.map.freeList = [])
        (Replies p .noFrame [])

/-- STAGE_OPEN with every check passed (R8, R9, R18): the head of the free list becomes the staging frame, which takes
the bytes of the live frame (copy on a LIVE page) or zeros; every byte outside that frame is as it was. When the page
part falls is a free value (notes/assumptions/9.md). -/
def Obligations.StageOpenTakesTheFreeListHead : Prop :=
  ∀ (p : Port) (pp : PortPage) (copy : Bool) (i : Page) (f : Frame) (rest : List Frame),
    (DataCall.stageOpen pp copy).Gives p i
      (fun s => s.MayStage p i ∧ s.part = .run ∧ s.MemoryLaw ∧
        s.stop.frozen.getLsbD (s.map.page i).group.val = false ∧ (s.map.page i).staging = none ∧
        s.map.stagingCount p < 8 ∧ s.map.freeList = f :: rest)
      fun s t =>
        Replies p .ok (bytesOf16 i.val ++ bytes16 (s.map.serial + 1))
          (s.setMap
            { s.map with
              pages := s.map.pages.set i
                { s.map.page i with
                  staging := some
                    { frame := f, stager := p, state := .opened, cyclesLeft := s.map.stageLimit
                      serial := s.map.serial + 1 } }
              frames := t.map.frames, freeList := rest, serial := s.map.serial + 1 }) t ∧
        ∀ a, t.map.frames.read a =
          if 64 * f.val ≤ a ∧ a < 64 * f.val + 64 then
            match copy, (s.map.page i).live with
            | true, some l => s.map.frames.read (64 * l.val + (a - 64 * f.val))
            | _, _ => 0
          else s.map.frames.read a

/-- STAGE_WRITE at its acceptance past the check (R20): the data phase of exactly length bytes, with the identity of the
staging, or with the refusal NOT_STAGED or ALREADY_READY. Memory is unchanged. When the page part falls is a free value
(notes/assumptions/9.md). -/
def Obligations.StageWriteAcceptance : Prop :=
  ∀ (p : Port) (b : Transfer) (i : Page), 1 ≤ b.length → b.offset.val + b.length ≤ 64 →
    (DataCall.stageWrite b).Gives p i
        (fun s => s.MayStage p i ∧ ∀ st, (s.map.page i).staging = some st → st.stager ≠ p)
        (fun s t => t = s.setPort p
          { s.port p with tx := .writeData b.length (some .notStaged), write := none }) ∧
      ∀ st : Staging, st.stager = p →
        (DataCall.stageWrite b).Gives p i (fun s => s.MayStage p i ∧ (s.map.page i).staging = some st)
          fun s t => t = s.setPort p
            { s.port p with
              tx := .writeData b.length (if st.state = .ready then some .alreadyReady else none)
              write :=
                if st.state = .ready then none
                else some { page := i, serial := st.serial, offset := b.offset.val, data := [] } }

/-- STAGE_READY and STAGE_DROP past the check (R22, R23). When the page part falls is a free value
(notes/assumptions/9.md). -/
def Obligations.StageReadyAndDrop : Prop :=
  ∀ (p : Port) (pp : PortPage) (i : Page),
    ((DataCall.stageReady pp).Gives p i
        (fun s => s.MayStage p i ∧ ∀ st, (s.map.page i).staging = some st → st.stager ≠ p)
        (Replies p .notStaged []) ∧
      (DataCall.stageDrop pp).Gives p i
        (fun s => s.MayStage p i ∧ ∀ st, (s.map.page i).staging = some st → st.stager ≠ p)
        (Replies p .notStaged [])) ∧
      ∀ st : Staging, st.stager = p →
        (DataCall.stageReady pp).Gives p i (fun s => s.MayStage p i ∧ (s.map.page i).staging = some st)
            (fun s t =>
              if st.state = .ready then Replies p .alreadyReady [] s t
              else
                Replies p .ok []
                  (s.setMap
                    { s.map with
                      pages := s.map.pages.set i
                        { s.map.page i with staging := some { st with state := .ready } } }) t) ∧
          (DataCall.stageDrop pp).Gives p i
            (fun s => s.MayStage p i ∧ (s.map.page i).staging = some st ∧ s.map.refs[st.frame] = 0)
            fun s t =>
              Replies p .ok []
                (s.setMap
                  { s.map with
                    pages := s.map.pages.set i { s.map.page i with staging := none }
                    freeList := s.map.freeList ++ [st.frame] }) t

/-! ### Schedule -/

/-- SLOT_SET and PLAN_LENGTH (R46, R47) under the lock of R48; PLAN_SWITCH (R50): swapped at once in SETUP with a
PLAN_SWITCHED notice, made pending in RUN, or SWITCH_PENDING. -/
def Obligations.PlanEditsAndSwitch : Prop :=
  ∀ (p : Port) (s : State), s.ReadyFor p → s.PlanAllowed p →
    (∀ (n : PlanName) (k : SlotNo) (x : SlotEntry), 20 ≤ x.duration.toNat →
      exec (.slotSet p n.code (byteOf k.val) x.duration
          (match x.group with | none => 255 | some g => byteOf g.val) (x.notify.setWidth 8) (x.filterValue.setWidth 8)
          (x.filterMask.setWidth 8)) s =
        if s.part = .run ∧ (n = s.sched.active ∨ s.sched.pendingSwitch = true) then
          .next (s.answered p (.slotSet p n.code (byteOf k.val) x.duration
            (match x.group with | none => 255 | some g => byteOf g.val) (x.notify.setWidth 8)
            (x.filterValue.setWidth 8) (x.filterMask.setWidth 8)) .planLocked [])
        else
          .next ((s.setSched (s.sched.setPlan n
            { s.sched.plan n with entries := (s.sched.plan n).entries.set k x })).answered p
              (.slotSet p n.code (byteOf k.val) x.duration
                (match x.group with | none => 255 | some g => byteOf g.val) (x.notify.setWidth 8)
                (x.filterValue.setWidth 8) (x.filterMask.setWidth 8)) .ok [])) ∧
      (∀ (n : PlanName) (c : Fin 49), 1 ≤ c.val →
        exec (.planLength p n.code (byteOf c.val)) s =
          if s.part = .run ∧ (n = s.sched.active ∨ s.sched.pendingSwitch = true) then
            .next (s.answered p (.planLength p n.code (byteOf c.val)) .planLocked [])
          else
            .next ((s.setSched (s.sched.setPlan n { s.sched.plan n with count := c })).answered p
              (.planLength p n.code (byteOf c.val)) .ok [])) ∧
      (s.part = .run →
        exec (.planSwitch p) s =
          if s.sched.pendingSwitch = true then .next (s.answered p (.planSwitch p) .switchPending [])
          else
            .next ((s.setSched { s.sched with pendingSwitch := true }).answered p (.planSwitch p) .ok
              [s.sched.active.code, 1])) ∧
      (s.part = .setup →
        ∃ t, exec (.planSwitch p) s = .next t ∧
          t = ((s.setSched { s.sched with active := s.sched.active.other }).setNotice t.notice).answered p
            (.planSwitch p) .ok [s.sched.active.other.code, (if s.sched.pendingSwitch then 1 else 0)] ∧
          s.Sent t (fun q => s.notice.ports[q].kinds.getLsbD 2)
            { stamp := s.stamp, body := .planSwitched s.sched.active.other })

/-- END_OF_SLOT before the last slot (R37, R38): the next slot begins, its timer running from 0 for the duration its
entry holds now. A slot whose filter matches sends its SLOT notices, to every port of its notify set; without a
publication group it does nothing else, and a slot whose filter does not match does nothing else at all. That the row
is the expiry itself, without the comparison, is the model's choice (notes/assumptions/5.md). -/
def Obligations.EndOfSlotBeginsTheNextSlot : Prop :=
  ∀ (s : State) (k : SlotNo), s.inReset = false → s.sched.engine = .inCycle →
    k.val = s.sched.slotIndex.val + 1 → k.val < s.sched.activePlan.count.val →
    ∃ t, exec .endOfSlot s = .next t ∧
      t.sched =
        { s.sched with
          slotIndex := k
          slotTimer := some { elapsed := 0, duration := s.sched.activePlan.entries[k].duration.toNat } } ∧
      t.part = s.part ∧ t.link = s.link ∧ t.hold = s.hold ∧ t.view = s.view ∧ t.stop = s.stop ∧ t.time = s.time ∧
      ((∀ b : Fin 6, s.sched.activePlan.entries[k].filterMask.getLsbD b.val = true →
          s.sched.cycleCount.getLsbD b.val = s.sched.activePlan.entries[k].filterValue.getLsbD b.val) →
        ∀ q : Port, s.sched.activePlan.entries[k].notify.getLsbD q.val = true →
          t.Found q
            { stamp := { cycle := s.sched.cycleCount, slot := k, second := s.time.calendar.secondOfDay }
              body := .slot k }) ∧
      ((∀ b : Fin 6, s.sched.activePlan.entries[k].filterMask.getLsbD b.val = true →
          s.sched.cycleCount.getLsbD b.val = s.sched.activePlan.entries[k].filterValue.getLsbD b.val) →
        s.sched.activePlan.entries[k].group = none →
        t.map = s.map ∧ t.pub = s.pub ∧
        ∀ q : Port,
          if s.sched.activePlan.entries[k].notify.getLsbD q.val then
            s.notice.ports[q].Took t.notice.ports[q]
              { stamp := { cycle := s.sched.cycleCount, slot := k, second := s.time.calendar.secondOfDay }
                body := .slot k }
          else t.notice.ports[q] = s.notice.ports[q]) ∧
      ((∃ b : Fin 6, s.sched.activePlan.entries[k].filterMask.getLsbD b.val = true ∧
          s.sched.cycleCount.getLsbD b.val ≠ s.sched.activePlan.entries[k].filterValue.getLsbD b.val) →
        t.map = s.map ∧ t.pub = s.pub ∧ t.notice = s.notice)

/-- A publication point at a slot start that is no cycle start (R59 to R64, R78): FROZEN, else DEFERRED while held, else
PUBLISHED, with the group status record, the mark, the pages, the frames and every watch counter as those rules give; a
subscriber finds the GROUP_POINT notice in its queue, and the stager of a late page the LATE notice, unless the queue
is full (R75). The point of slot 0 at a cycle start has its own statements (StartBeginsTheRun,
CycleStartMovesTheSchedule, CycleStartCountsHoldsAndRollsWatches). That the row is the expiry itself, without the
comparison, is the model's choice (notes/assumptions/5.md). -/
def Obligations.PublicationPointOutcomes : Prop :=
  ∀ (s : State) (k : SlotNo) (g : Group), s.inReset = false → s.sched.engine = .inCycle →
    k.val = s.sched.slotIndex.val + 1 → k.val < s.sched.activePlan.count.val →
    s.sched.activePlan.entries[k].Acts s.sched.cycleCount → s.sched.activePlan.entries[k].group = some g →
    ∃ t, exec .endOfSlot s = .next t ∧ (∀ h : Group, h ≠ g → t.pub.groups[h] = s.pub.groups[h]) ∧
      (∀ n : WatchNo, t.pub.watches[n] = s.pub.watches[n].after g t.pub.groups[g]) ∧
      (∀ q : Port, s.notice.ports[q].subscription.getLsbD g.val = true →
        t.Found q
          { stamp := { cycle := s.sched.cycleCount, slot := k, second := s.time.calendar.secondOfDay }
            body := .groupPoint g t.pub.groups[g].last t.pub.groups[g].published t.pub.groups[g].late }) ∧
      (s.stop.frozen.getLsbD g.val = true →
        t.map = s.map ∧
        t.pub.groups[g] =
          { last := .frozen, cycle := s.sched.cycleCount, published := 0, late := 0
            mark := s.pub.groups[g].mark }) ∧
      (s.stop.frozen.getLsbD g.val = false → s.Held g →
        t.map = s.map ∧
        t.pub.groups[g] =
          { last := .deferred, cycle := s.sched.cycleCount, published := 0, late := 0, mark := true }) ∧
      (s.stop.frozen.getLsbD g.val = false → ¬ s.Held g →
        t.pub.groups[g] =
          { last := .published, cycle := s.sched.cycleCount, published := s.map.readyCount g
            late := s.map.lateCount g, mark := s.pub.groups[g].mark } ∧
        (∀ i : Page, t.map.page i =
          if s.map.ready g i then (s.map.page i).published s.sched.cycleCount else s.map.page i) ∧
        t.map.freeList = s.map.freeList ++ s.map.freed g ∧
        (∀ f : Frame, f ∈ t.map.retiring ↔ f ∈ s.map.retiring ∨ s.map.retired g f) ∧
        t.map.refs = s.map.refs ∧ t.map.frames = s.map.frames ∧ t.map.serial = s.map.serial ∧
        t.map.stageLimit = s.map.stageLimit ∧
        ∀ (i : Page) (st : Staging), s.map.late g i = true → (s.map.page i).staging = some st →
          t.Found st.stager
            { stamp := { cycle := s.sched.cycleCount, slot := k, second := s.time.calendar.secondOfDay }
              body := .late i g })

/-- END_OF_SLOT on the last slot in TRIGGERED mode (R38): WAITING_SYNC. A sync edge in OFF, or IN_CYCLE in FREE mode,
has no effect; IN_CYCLE in TRIGGERED mode it sends SYNC EARLY (R42). CYCLE_PULSE_END drives CYCLE_OUT low (R40). That
the row is the expiry itself, without the comparison, is the model's choice (notes/assumptions/5.md). The counter of
free choices is the model's own (notes/assumptions/7.md). An edge is sampled at its command or, where it stands, at
the next tick (notes/assumptions/15.md). -/
def Obligations.ScheduleEventsWithoutACycleStart : Prop :=
  ComesTo .endOfSlot
      (fun s => s.sched.engine = .inCycle ∧ s.sched.activePlan.count.val ≤ s.sched.slotIndex.val + 1 ∧
        s.sched.syncMode = .triggered)
      (fun s t => t = (s.setSched
        { s.sched with
          engine := .waitingSync, slotTimer := none
          gapTimer := if s.sched.gapLimit = 0 then none else some 0 }).setChoices (s.choices + 1)) ∧
    ComesTo .syncEdge
      (fun s => s.sched.engine = .off ∨ (s.sched.engine = .inCycle ∧ s.sched.syncMode = .free))
      (fun s t => t = s.setChoices (s.choices + 1)) ∧
    ComesTo .syncEdge (fun s => s.sched.engine = .inCycle ∧ s.sched.syncMode = .triggered)
      (fun s t => t = (s.setNotice t.notice).setChoices (s.choices + 1) ∧
        s.Sent t (fun q => s.notice.ports[q].kinds.getLsbD 3) { stamp := s.stamp, body := .sync .early }) ∧
    ∀ s : State, s.inReset = false → exec .cyclePulseEnd s = .next (s.setSched { s.sched with cycleOut := false })

/-- A cycle start outside START (R36, R40, R52): a pending switch adopted, the cycle count risen by one (or 0 under
the first-cycle mark), slot 0 begun, the gap timer stopped, and the pulse given unless a stop line is ACTIVE. The view
unit, the stop unit and the timebase are as they were, and every port but one whose outstanding STAGE_READY marks its
staging among the claims of the cycle start, and is answered (R70, notes/assumptions/9.md). A gap expiry sends SYNC
MISSED (R43), an adopted switch PLAN_SWITCHED, slot 0 its SLOT notices (R37): an accepting or named port finds each in
its queue, unless the queue is full. The point of slot 0, if it acts in this cycle, finds its group g frozen, held or
neither (R37, R59 to R64), with the status record, the pages, the watch counters after the roll (R78, R79) and the
notices (R75); where the hold of g breaks at this cycle start, CycleStartCountsHoldsAndRollsWatches says so instead. A
staging that expires at this cycle start may be late at the point or gone (R27), and one that is marked READY may be
late or published (R24). That the row is the expiry itself, without the comparison, is the model's choice
(notes/assumptions/5.md). A SYNC_EDGE begins the cycle at its command or, where it stands, at the next tick (R44,
notes/assumptions/15.md). -/
def Obligations.CycleStartMovesTheSchedule : Prop :=
  ∀ c : Instr,
    ComesTo c (fun s => s.startsCycle c = true) fun s t =>
      t.sched.active = (if s.sched.pendingSwitch then s.sched.active.other else s.sched.active) ∧
      t.sched.planA = s.sched.planA ∧ t.sched.planB = s.sched.planB ∧ t.sched.pendingSwitch = false ∧
      t.sched.engine = .inCycle ∧ t.sched.firstCycle = false ∧
      t.sched.cycleCount = (if s.sched.firstCycle then 0 else s.sched.cycleCount + 1) ∧
      t.sched.slotIndex = 0 ∧
      t.sched.slotTimer =
        some { elapsed := 0, duration := (t.sched.plan t.sched.active).entries[(0 : SlotNo)].duration.toNat } ∧
      t.sched.syncMode = s.sched.syncMode ∧ t.sched.gapLimit = s.sched.gapLimit ∧ t.sched.gapTimer = none ∧
      t.sched.syncRise = s.sched.syncRise ∧
      (t.sched.cycleOut = true ↔
        s.stop.lines[(0 : Line)].stop = .inactive ∧ s.stop.lines[(1 : Line)].stop = .inactive) ∧
      t.part = s.part ∧ t.inReset = s.inReset ∧ t.view = s.view ∧ t.stop = s.stop ∧ t.time = s.time ∧
      (∀ q : Port, t.port q = s.port q ∨
        ∃ i st, (s.map.page i).staging = some st ∧ st.stager = q ∧ s.Marks t i st ∧
          t.port q = { s.port q with tx := .response { status := .ok, body := [] } }) ∧
      (c = .gapExpiry → ∀ q : Port, s.notice.ports[q].kinds.getLsbD 3 = true →
        t.Found q { stamp := s.stamp, body := .sync .missed }) ∧
      (s.sched.pendingSwitch = true → ∀ q : Port, s.notice.ports[q].kinds.getLsbD 2 = true →
        t.Found q { stamp := t.stamp, body := .planSwitched t.sched.active }) ∧
      t.FirstSlotNotices ∧
      ∀ g : Group, t.FirstPoint g → ¬ s.Breaks g →
        (∀ n : WatchNo, s.pub.watches[n].group = g →
          t.pub.watches[n] = s.pub.watches[n].rolled.after g t.pub.groups[g]) ∧
        (∀ q : Port, s.notice.ports[q].subscription.getLsbD g.val = true →
          t.Found q
            { stamp := t.stamp
              body := .groupPoint g t.pub.groups[g].last t.pub.groups[g].published t.pub.groups[g].late }) ∧
        (s.stop.frozen.getLsbD g.val = true →
          t.pub.groups[g] =
            { last := .frozen, cycle := t.sched.cycleCount, published := 0, late := 0
              mark := s.pub.groups[g].mark }) ∧
        (s.stop.frozen.getLsbD g.val = false → s.Held g →
          t.pub.groups[g] =
            { last := .deferred, cycle := t.sched.cycleCount, published := 0, late := 0, mark := true }) ∧
        (s.stop.frozen.getLsbD g.val = true ∨ s.Held g →
          ∀ i : Page, (s.map.page i).group = g →
            (t.map.page i).live = (s.map.page i).live ∧ (t.map.page i).sequence = (s.map.page i).sequence) ∧
        (s.stop.frozen.getLsbD g.val = false → ¬ s.Held g →
          ∃ m : ExchangeMap, s.Finds t g m ∧ s.PublishedAs t g m ∧
            t.pub.groups[g] =
              { last := .published, cycle := t.sched.cycleCount, published := m.readyCount g, late := m.lateCount g
                mark := s.pub.groups[g].mark })

/-- The countdown of stagings at a cycle start (R9, R25): an OPEN staging with cycles left goes down by one and
expires at 0, whatever else the cycle start does; one opened without limit is kept; the page's live version is
untouched; the stager finds STAGE_EXPIRED in its queue, unless the queue is full, and the expired frame goes to the
free list, or retires while it is referenced. A READY staging is never lost: it stays, or it is published. So does one
whose outstanding STAGE_READY marks it among the claims of the cycle start, before the countdown or behind it (R26,
R70, notes/assumptions/9.md). That the row is the expiry itself, without the comparison, is the model's choice
(notes/assumptions/5.md). A SYNC_EDGE may begin the cycle at the next tick (notes/assumptions/15.md). -/
def Obligations.CycleStartCountsStagings : Prop :=
  ∀ (c : Instr) (i : Page) (st : Staging),
    ComesTo c (fun s => s.startsCycle c = true ∧ (s.map.page i).staging = some st) fun s t =>
      (st.state = .opened → ¬ s.Marks t i st →
        t.map.page i =
          { s.map.page i with
            staging :=
              if st.cyclesLeft = 0 then some st
              else if st.cyclesLeft = 1 then none
              else some { st with cyclesLeft := st.cyclesLeft - 1 } } ∧
        (st.cyclesLeft = 1 →
          t.Found st.stager { stamp := t.stamp, body := .stageExpired i st.serial } ∧
            if s.map.refs[st.frame] = 0 then st.frame ∈ t.map.freeList else st.frame ∈ t.map.retiring)) ∧
      (s.Marks t i st →
        t.map.page i = { s.map.page i with staging := some { st with state := .ready } } ∨
          (st.cyclesLeft ≠ 0 ∧ st.cyclesLeft ≠ 1 ∧
            t.map.page i =
              { s.map.page i with
                staging := some { st with state := .ready, cyclesLeft := st.cyclesLeft - 1 } }) ∨
          t.map.page i = (s.map.page i).published t.sched.cycleCount) ∧
      s.map.freeList <+: t.map.freeList ∧ t.map.refs = s.map.refs ∧ t.map.frames = s.map.frames ∧
      t.map.serial = s.map.serial ∧
      (st.state = .ready →
        t.map.page i = s.map.page i ∨ t.map.page i = (s.map.page i).published t.sched.cycleCount)

/-- The countdown of holds at a cycle start (R91): every record's cycles left goes down by one and a record that
reaches 0 is removed, its holder finding HOLD_BROKEN in its queue unless the queue is full. The outcomes that each
group takes then (R59, R66, R70): the point of slot 0 and the catch-up, or DROPPED, of a broken hold, in either order
where both fall; each leaves its GROUP_POINT notice, the last stands in the group status record, the mark is set or
cleared as R58 gives, and the READY pages are published if one of them publishes (R63, R67, R68). A staging whose
outstanding STAGE_READY marks it in between is published by the next of them that publishes, be it the point behind a
catch-up (R70, notes/assumptions/9.md). The CYCLE-mode watch counters roll, the value taking the running count and the
running count 0, before the point is counted, and before or after the catch-up (R78, R79). That the row is the expiry
itself, without the comparison, is the model's choice (notes/assumptions/5.md). A SYNC_EDGE may begin the cycle at the
next tick (notes/assumptions/15.md). -/
def Obligations.CycleStartCountsHoldsAndRollsWatches : Prop :=
  ∀ c : Instr,
    ComesTo c (fun s => s.startsCycle c = true) fun s t =>
      t.hold.limit = s.hold.limit ∧
      (∀ p : Port, t.hold.records[p] =
        match s.hold.records[p] with
        | none => none
        | some h => if h.cyclesLeft ≤ 1 then none else some { h with cyclesLeft := h.cyclesLeft - 1 }) ∧
      (∀ (p : Port) (h : Hold), s.hold.records[p] = some h → h.cyclesLeft ≤ 1 →
        t.Found p { stamp := t.stamp, body := .holdBroken h.groups }) ∧
      ∀ g : Group, ∃ (point : Bool) (early late : List GroupStatus) (m m' : ExchangeMap),
        (point = true ↔ t.FirstPoint g) ∧ s.Finds t g m ∧ s.Finds t g m' ∧
        (∀ i : Page, m.ready g i = true → m'.ready g i = true) ∧
        s.CycleOutcomes g m m' point ((early ++ late).map fun x => (x.last, x.published, x.late)) ∧
        (∀ x ∈ early, x.last = .catchUp ∨ x.last = .dropped) ∧
        (∀ x ∈ early ++ late, x.cycle = t.sched.cycleCount ∧
          (∀ q : Port, s.notice.ports[q].subscription.getLsbD g.val = true →
            t.Found q { stamp := t.stamp, body := .groupPoint g x.last x.published x.late }) ∧
          (x.last = .published ∨ x.last = .catchUp → s.PublishedAs t g m ∧ s.PublishedAs t g m')) ∧
        ((∀ x ∈ early ++ late, x.last ≠ .published ∧ x.last ≠ .catchUp) →
          ∀ i : Page, (s.map.page i).group = g →
            (t.map.page i).live = (s.map.page i).live ∧ (t.map.page i).sequence = (s.map.page i).sequence) ∧
        t.pub.groups[g] =
          { (early ++ late).getLastD s.pub.groups[g] with
            mark := t.pub.groups[g].mark } ∧
        (t.pub.groups[g].mark = true ↔ ¬ s.Breaks g ∧
          (s.pub.groups[g].mark = true ∨ (point = true ∧ s.stop.frozen.getLsbD g.val = false ∧ s.Held g))) ∧
        ∀ n : WatchNo, s.pub.watches[n].group = g →
          t.pub.watches[n] =
            late.foldl (fun w x => w.after g x) (early.foldl (fun w x => w.after g x) s.pub.watches[n]).rolled

/-! ### Publication unit and holds -/

/-- HOLD (R87): WRONG_STATE in SETUP, HELD with the existing record, else a record with the hold limit. -/
def Obligations.HoldCreatesARecord : Prop :=
  ∀ (p : Port) (s : State) (groups : GroupSet), s.ReadyFor p → groups ≠ 0 →
    exec (.hold p groups) s =
      if s.part = .setup then .next (s.answered p (.hold p groups) .wrongState [])
      else
        match s.hold.records[p] with
        | some h => .next (s.answered p (.hold p groups) .held (bytes16 h.groups ++ [byteOf h.cyclesLeft]))
        | none =>
          .next ((s.setHold
            { s.hold with
              records := s.hold.records.set p
                (some { groups := groups, cyclesLeft := s.hold.limit }) }).answered p (.hold p groups) .ok
            (bytes16 groups ++ [byteOf s.hold.limit]))

/-- RELEASE (R66 to R68, R75, R78, R88): NOT_HELD without a record; else the record is removed, and each group that it
alone covered and whose mark is set is DROPPED if frozen and caught up otherwise, its mark cleared, with the watch
counters, the GROUP_POINT notice of each subscriber and the LATE notice of each late page, unless the queue is full;
the replaced live frames go to the free list tail, group by group, or retire while they are referenced. Every other
group's record and pages are as they were. -/
def Obligations.ReleaseCatchesUpDeferredGroups : Prop :=
  ∀ (p : Port) (s : State), s.ReadyFor p →
    (s.hold.records[p] = none → exec (.release p) s = .next (s.answered p (.release p) .notHeld [])) ∧
      ∀ h, s.hold.records[p] = some h →
        ∃ t, exec (.release p) s = .next t ∧
          t.link = (s.answered p (.release p) .ok (bytes16 h.groups ++ [byteOf h.cyclesLeft])).link ∧
          t.hold = { s.hold with records := s.hold.records.set p none } ∧ t.part = s.part ∧ t.sched = s.sched ∧
          t.view = s.view ∧ t.stop = s.stop ∧ t.time = s.time ∧ t.inReset = s.inReset ∧
          t.map.refs = s.map.refs ∧ t.map.frames = s.map.frames ∧ t.map.serial = s.map.serial ∧
          t.map.stageLimit = s.map.stageLimit ∧
          (∀ ended : List Group, ended.Pairwise (fun a b => a.val < b.val) →
            (∀ g, g ∈ ended ↔ s.EndsDeferral p g ∧ s.stop.frozen.getLsbD g.val = false) →
            t.map.freeList = s.map.freeList ++ ended.flatMap s.map.freed) ∧
          (∀ f : Frame, f ∈ t.map.retiring ↔ f ∈ s.map.retiring ∨
            ∃ g, s.EndsDeferral p g ∧ s.stop.frozen.getLsbD g.val = false ∧ s.map.retired g f) ∧
          ∀ g : Group,
            (s.EndsDeferral p g →
              (∀ n : WatchNo, s.pub.watches[n].group = g →
                t.pub.watches[n] = s.pub.watches[n].after g t.pub.groups[g]) ∧
              (∀ q : Port, s.notice.ports[q].subscription.getLsbD g.val = true →
                t.Found q
                  { stamp := s.stamp
                    body := .groupPoint g t.pub.groups[g].last t.pub.groups[g].published t.pub.groups[g].late }) ∧
              (s.stop.frozen.getLsbD g.val = true →
                t.pub.groups[g] =
                    { last := .dropped, cycle := s.sched.cycleCount, published := 0, late := 0, mark := false } ∧
                  ∀ i : Page, (s.map.page i).group = g → t.map.page i = s.map.page i) ∧
                (s.stop.frozen.getLsbD g.val = false →
                  t.pub.groups[g] =
                      { last := .catchUp, cycle := s.sched.cycleCount, published := s.map.readyCount g
                        late := s.map.lateCount g, mark := false } ∧
                    (∀ i : Page, (s.map.page i).group = g →
                      t.map.page i =
                        if s.map.ready g i then (s.map.page i).published s.sched.cycleCount else s.map.page i) ∧
                    ∀ (i : Page) (st : Staging), s.map.late g i = true → (s.map.page i).staging = some st →
                      t.Found st.stager { stamp := s.stamp, body := .late i g })) ∧
              (¬ s.EndsDeferral p g →
                t.pub.groups[g] = s.pub.groups[g] ∧
                  (∀ n : WatchNo, s.pub.watches[n].group = g → t.pub.watches[n] = s.pub.watches[n]) ∧
                  ∀ i : Page, (s.map.page i).group = g → t.map.page i = s.map.page i)

/-- WATCH_SET (R80), and the bodies of GROUP_STATUS (R76), WATCH_READ (R81), HOLD_READ (R90), STOP_READ (R129),
TIME_READ (R141) and PLAN_READ (R49), which change nothing but the port. -/
def Obligations.ReadsOfTheBlocksState : Prop :=
  ∀ (p : Port) (s : State), s.ReadyFor p →
    (∀ (n : WatchNo) (g : Group) (e : WatchEvent) (m : WatchMode),
      exec (.watchSet p (byteOf n.val) (byteOf g.val) e.code m.code) s =
        .next ((s.setPub
          { s.pub with
            watches := s.pub.watches.set n { group := g, event := e, mode := m, value := 0, running := 0 } }).answered p
          (.watchSet p (byteOf n.val) (byteOf g.val) e.code m.code) .ok [])) ∧
      (∀ g : Group, ∃ holders : Byte, exec (.groupStatus p (byteOf g.val)) s =
        .next (s.answered p (.groupStatus p (byteOf g.val)) .ok
          [byteOf g.val, s.pub.groups[g].last.code, s.pub.groups[g].cycle.setWidth 8,
            byteOf s.pub.groups[g].published, byteOf s.pub.groups[g].late, (if s.pub.groups[g].mark then 1 else 0),
            holders, (if s.stop.frozen.getLsbD g.val then 1 else 0)]) ∧
        (∀ q : Port, holders.getLsbD q.val = true ↔
          ∃ h, s.hold.records[q] = some h ∧ h.groups.getLsbD g.val = true) ∧
        holders.toNat < 16) ∧
      (exec (.watchRead p) s = .next (s.answered p (.watchRead p) .ok
        ((List.finRange 4).flatMap fun n : WatchNo =>
          [byteOf s.pub.watches[n].group.val, s.pub.watches[n].event.code, s.pub.watches[n].mode.code,
            byteOf s.pub.watches[n].value, byteOf (s.pub.watches[n].value / 256)]))) ∧
      (exec (.holdRead p) s = .next (s.answered p (.holdRead p) .ok
        (byteOf s.hold.limit :: (List.finRange 4).flatMap fun q : Port =>
          match s.hold.records[q] with
          | none => [0, 0, 0, 0]
          | some h => [1, lowByte h.groups, highByte h.groups, byteOf h.cyclesLeft]))) ∧
      (exec (.stopRead p) s = .next (s.answered p (.stopRead p) .ok
        (((List.finRange 2).flatMap fun l : Line =>
          [s.stop.lines[l].filterTime, lowByte s.stop.lines[l].freeze, highByte s.stop.lines[l].freeze,
            s.stop.lines[l].mode.code, levelCode s.stop.lines[l].input, levelCode s.stop.lines[l].filtered,
            levelCode s.stop.lines[l].stop] ++
            match s.stop.lines[l].pending with
            | none => [0, 0, 0]
            | some c => [1, levelCode c.level, byteOf c.timer]) ++
          [lowByte s.stop.frozen, highByte s.stop.frozen]))) ∧
      (exec (.timeRead p) s = .next (s.answered p (.timeRead p) .ok
        (s.time.calendar.bytes ++
          [byteOf s.time.tickCount, byteOf (s.time.tickCount / 256), byteOf (s.time.tickCount / 65536),
            byteOf (s.time.tickCount / 16777216)] ++ bytes16 (BitVec.ofInt 16 s.time.trim) ++
          (match s.time.stagedTrim with | none => [0, 0, 0] | some x => 1 :: bytes16 (BitVec.ofInt 16 x)) ++
          (match s.time.stagedTime with | none => [0, 0, 0, 0, 0, 0, 0, 0] | some c => 1 :: c.bytes) ++
          [(if s.time.alarm.enabled then 1 else 0), s.time.alarm.weekdays.setWidth 8, byteOf s.time.alarm.hour,
            byteOf s.time.alarm.minute, (match s.time.alarm.action with | .notice => 0 | .noticeAndSwitch => 1)]))) ∧
      ∀ (n : PlanName) (first number : Nat), first ≤ 47 → 1 ≤ number → number ≤ 16 → first + number ≤ 48 →
        ∃ b : List Byte, exec (.planRead p n.code (byteOf first) (byteOf number)) s =
            .next (s.answered p (.planRead p n.code (byteOf first) (byteOf number)) .ok b) ∧
          b.length = 2 + 6 * number ∧ b.getD 0 0 = byteOf (s.sched.plan n).count.val ∧
          b.getD 1 0 = twoFlags (decide (n = s.sched.active)) s.sched.pendingSwitch ∧
          ∀ (j : Nat) (k : SlotNo), j < number → k.val = first + j →
            (b.drop (2 + 6 * j)).take 6 =
              [lowByte (s.sched.plan n).entries[k].duration, highByte (s.sched.plan n).entries[k].duration,
                (match (s.sched.plan n).entries[k].group with | none => 255 | some g => byteOf g.val),
                (s.sched.plan n).entries[k].notify.setWidth 8, (s.sched.plan n).entries[k].filterValue.setWidth 8,
                (s.sched.plan n).entries[k].filterMask.setWidth 8]

/-! ### View unit -/

/-- VIEW_SET writes or empties the whole entry and reports the entry as it stood (R101); VIEW_GET reports the entry, the
page and the effective rights (R103). -/
def Obligations.ViewSetAndGet : Prop :=
  ∀ (p t : Port) (pp : PortPage) (s : State), s.ReadyFor p →
    (∀ (e : Option ViewEntry) (presence rights : Byte) (page : Word16), s.MapAllowed p →
      (match e with
        | none => presence = 0
        | some x => presence = 1 ∧ page = BitVec.ofNat 16 x.page.val ∧ rights = twoFlags x.read x.stage) →
      exec (.viewSet p (byteOf t.val) (byteOf pp.val) presence page rights) s =
        .next ((s.setView
          { s.view with views := s.view.views.set t (s.view.views[t].set pp e) }).answered p
          (.viewSet p (byteOf t.val) (byteOf pp.val) presence page rights) .ok
          (match s.view.views[t][pp] with
            | none => [0, 0, 0, 0]
            | some x => [1, byteOf x.page.val, byteOf (x.page.val / 256), twoFlags x.read x.stage]))) ∧
      ∃ flags : Byte, exec (.viewGet p (byteOf t.val) (byteOf pp.val)) s =
          .next (s.answered p (.viewGet p (byteOf t.val) (byteOf pp.val)) .ok
            ([byteOf t.val, byteOf pp.val, flags] ++
              match s.view.views[t][pp] with
              | none => [0, 0]
              | some x => [byteOf x.page.val, byteOf (x.page.val / 256)])) ∧
        ∀ k, flags.getLsbD k =
          match s.view.views[t][pp] with
          | none => false
          | some x =>
            match k with
            | 0 => true
            | 1 => x.read
            | 2 => x.stage
            | 3 => (s.map.page x.page).defined
            | 4 => x.read && (s.map.page x.page).defined && (s.map.page x.page).readers.getLsbD t.val
            | 5 => x.stage && (s.map.page x.page).defined && (s.map.page x.page).writers.getLsbD t.val
            | _ => false

/-- FAULT_TAKE (R112, R113): an occupied record is reported, emptied and its occupancy reported; an empty one is
answered EMPTY. -/
def Obligations.FaultTakeEmptiesTheRecord : Prop :=
  ∀ (p : Port) (s : State), s.ReadyFor p →
    (s.view.faults[p] = none → exec (.faultTake p) s = .next (s.answered p (.faultTake p) .nothingThere [])) ∧
      ∀ r, s.view.faults[p] = some r →
        ∃ t, exec (.faultTake p) s = .next t ∧
          t = ((s.setView { s.view with faults := s.view.faults.set p none }).setNotice t.notice).answered p
            (.faultTake p) .ok
            [r.cause.code, r.request.code, byteOf r.portPage.val, byteOf r.offset.val, r.cycle.setWidth 8,
              (if r.repeated then 1 else 0)] ∧
          ∀ q : Port,
            if q = p then
              t.notice.ports[q] =
                { s.notice.ports[q] with faultOccupied := false, attn := t.notice.ports[q].attn }
            else t.notice.ports[q] = s.notice.ports[q]

/-! ### Stop unit -/

/-- STOP_SET (R118, R127): WRONG_STATE in RUN; in SETUP the three settings are replaced together, and a pending change
whose timer has reached the new filter time expires within the claim, under the new settings, with its STOP notice. -/
def Obligations.StopSetReplacesTheSettings : Prop :=
  ∀ (p : Port) (s : State) (l : Line) (time : Byte) (freeze : GroupSet) (mode : StopMode), s.ReadyFor p →
    (s.part = .run → exec (.stopSet p (byteOf l.val) time freeze mode.code) s =
      .next (s.answered p (.stopSet p (byteOf l.val) time freeze mode.code) .wrongState [])) ∧
      (s.part = .setup →
        ∃ t, exec (.stopSet p (byteOf l.val) time freeze mode.code) s = .next t ∧
          t = ((s.setStop t.stop).setNotice t.notice).answered p (.stopSet p (byteOf l.val) time freeze mode.code) .ok
            [s.stop.lines[l].filterTime, lowByte s.stop.lines[l].freeze, highByte s.stop.lines[l].freeze,
              s.stop.lines[l].mode.code] ∧
          (∀ k, t.stop.frozen.getLsbD k = true ↔
            ∃ m : Line, t.stop.lines[m].stop = .active ∧ t.stop.lines[m].freeze.getLsbD k = true) ∧
          ((∀ c, s.stop.lines[l].pending = some c → c.timer < time.toNat) →
            t.stop.lines = s.stop.lines.set l
              { s.stop.lines[l] with filterTime := time, freeze := freeze, mode := mode } ∧
            t.notice = s.notice) ∧
          ∀ c, s.stop.lines[l].pending = some c → time.toNat ≤ c.timer →
            t.stop.lines = s.stop.lines.set l
              { s.stop.lines[l] with
                filterTime := time, freeze := freeze, mode := mode, pending := none, filtered := c.level
                stop :=
                  match c.level, mode with
                  | .active, _ => .active
                  | .inactive, .follow => .inactive
                  | .inactive, .latch => s.stop.lines[l].stop } ∧
            s.Sent t (fun q => s.notice.ports[q].kinds.getLsbD 1)
              { stamp := s.stamp
                body := .stop l
                  (match c.level, mode with
                    | .active, _ => .active
                    | .inactive, .follow => .inactive
                    | .inactive, .latch => .inputReleased) })

/-- STOP_CLEAR by its table (R125): a latched line becomes INACTIVE with a STOP notice, an ACTIVE input is answered
STOP_ACTIVE, an INACTIVE line is left as it is. -/
def Obligations.StopClearByItsTable : Prop :=
  ∀ (p : Port) (s : State) (l : Line), s.ReadyFor p → s.PlanAllowed p →
    (s.stop.lines[l].stop = .active → s.stop.lines[l].filtered = .inactive →
      ∃ t, exec (.stopClear p (byteOf l.val)) s = .next t ∧
        t = ((s.setStop t.stop).setNotice t.notice).answered p (.stopClear p (byteOf l.val)) .ok [0, 0] ∧
        t.stop.lines = s.stop.lines.set l { s.stop.lines[l] with stop := .inactive } ∧
        (∀ k, t.stop.frozen.getLsbD k = true ↔
          ∃ m : Line, t.stop.lines[m].stop = .active ∧ t.stop.lines[m].freeze.getLsbD k = true) ∧
        s.Sent t (fun q => s.notice.ports[q].kinds.getLsbD 1) { stamp := s.stamp, body := .stop l .inactive }) ∧
      (s.stop.lines[l].stop = .active → s.stop.lines[l].filtered = .active →
        exec (.stopClear p (byteOf l.val)) s =
          .next (s.answered p (.stopClear p (byteOf l.val)) .stopActive [1, 1])) ∧
      (s.stop.lines[l].stop = .inactive → s.stop.lines[l].filtered = .inactive →
        exec (.stopClear p (byteOf l.val)) s = .next (s.answered p (.stopClear p (byteOf l.val)) .ok [0, 0]))

/-- A change of a stop input and the expiry of a filter timer (R119, R120, R122, R123): a pending change created,
discarded or passed, or nothing where the level is the one already sampled; a level that passes sets the stop state by
the table of section 6.3 and sends the STOP notice. That the row is the expiry itself, without the comparison, is the
model's choice (notes/assumptions/5.md). Two clauses are the model's inference: that FILTER_TIMER_EXPIRY without a
pending change is an event that cannot occur and changes nothing (notes/assumptions/6.md), and that the pin is kept
where its level is the one already sampled (notes/assumptions/16.md). -/
def Obligations.StopInputsAreFiltered : Prop :=
  ∀ (s : State) (l : Line), s.inReset = false →
    (∀ level : Level, level ≠ s.stop.lines[l].input → level = s.stop.lines[l].filtered →
      ∃ t, exec (.stopInputChange l level) s = .next t ∧ t = s.setStop t.stop ∧
        t.stop.lines = s.stop.lines.set l
          { s.stop.lines[l] with pin := level, input := level, pending := none } ∧
        (s.StopLaw → t.stop.frozen = s.stop.frozen)) ∧
      (∀ level : Level, level ≠ s.stop.lines[l].input → level ≠ s.stop.lines[l].filtered →
        s.stop.lines[l].filterTime ≠ 0 →
        ∃ t, exec (.stopInputChange l level) s = .next t ∧ t = s.setStop t.stop ∧
          t.stop.lines = s.stop.lines.set l
            { s.stop.lines[l] with pin := level, input := level, pending := some { level := level, timer := 0 } } ∧
          (s.StopLaw → t.stop.frozen = s.stop.frozen)) ∧
      (∀ level : Level, level = s.stop.lines[l].input →
        ∃ t, exec (.stopInputChange l level) s = .next t ∧ t = s.setStop t.stop ∧
          t.stop.lines = s.stop.lines.set l { s.stop.lines[l] with pin := level } ∧
          (s.StopLaw → t.stop.frozen = s.stop.frozen)) ∧
      (∀ level : Level, level ≠ s.stop.lines[l].input → level ≠ s.stop.lines[l].filtered →
        s.stop.lines[l].filterTime = 0 →
        ∃ t, exec (.stopInputChange l level) s = .next t ∧ t = (s.setStop t.stop).setNotice t.notice ∧
          t.stop.lines = s.stop.lines.set l
            { s.stop.lines[l] with
              pin := level, input := level, pending := none, filtered := level
              stop :=
                match level, s.stop.lines[l].mode with
                | .active, _ => .active
                | .inactive, .follow => .inactive
                | .inactive, .latch => s.stop.lines[l].stop } ∧
          (∀ k, t.stop.frozen.getLsbD k = true ↔
            ∃ m : Line, t.stop.lines[m].stop = .active ∧ t.stop.lines[m].freeze.getLsbD k = true) ∧
          s.Sent t (fun q => s.notice.ports[q].kinds.getLsbD 1)
            { stamp := s.stamp
              body := .stop l
                (match level, s.stop.lines[l].mode with
                  | .active, _ => .active
                  | .inactive, .follow => .inactive
                  | .inactive, .latch => .inputReleased) }) ∧
      (s.stop.lines[l].pending = none → exec (.filterTimerExpiry l) s = .next s) ∧
      ∀ c, s.stop.lines[l].pending = some c →
        ∃ t, exec (.filterTimerExpiry l) s = .next t ∧ t = (s.setStop t.stop).setNotice t.notice ∧
          t.stop.lines = s.stop.lines.set l
            { s.stop.lines[l] with
              pending := none, filtered := c.level
              stop :=
                match c.level, s.stop.lines[l].mode with
                | .active, _ => .active
                | .inactive, .follow => .inactive
                | .inactive, .latch => s.stop.lines[l].stop } ∧
          (∀ k, t.stop.frozen.getLsbD k = true ↔
            ∃ m : Line, t.stop.lines[m].stop = .active ∧ t.stop.lines[m].freeze.getLsbD k = true) ∧
          s.Sent t (fun q => s.notice.ports[q].kinds.getLsbD 1)
            { stamp := s.stamp
              body := .stop l
                (match c.level, s.stop.lines[l].mode with
                  | .active, _ => .active
                  | .inactive, .follow => .inactive
                  | .inactive, .latch => .inputReleased) }

/-! ### Timebase -/

/-- TRIM_SET and TIME_SET stage their value and change nothing else (R135, R139); ALARM_SET replaces the alarm record
(R142). -/
def Obligations.TimebaseRequests : Prop :=
  ∀ (p : Port) (s : State), s.ReadyFor p → s.PlanAllowed p →
    (∀ n : Int, -2000 ≤ n → n ≤ 2000 →
      exec (.trimSet p (BitVec.ofInt 16 n)) s =
        .next ((s.setTime { s.time with stagedTrim := some n }).answered p (.trimSet p (BitVec.ofInt 16 n)) .ok
          (bytes16 (BitVec.ofInt 16 s.time.trim) ++ [1] ++ bytes16 (BitVec.ofInt 16 n)))) ∧
      (∀ c : Calendar, c.valid = true →
        exec (.timeSet p (byteOf c.year) (byteOf c.month) (byteOf c.day) (byteOf c.hour) (byteOf c.minute)
            (byteOf c.second) (byteOf c.weekday)) s =
          .next ((s.setTime { s.time with stagedTime := some c }).answered p
            (.timeSet p (byteOf c.year) (byteOf c.month) (byteOf c.day) (byteOf c.hour) (byteOf c.minute)
              (byteOf c.second) (byteOf c.weekday)) .ok (s.time.calendar.bytes ++ c.bytes))) ∧
      ∀ a : Alarm, a.hour ≤ 23 → a.minute ≤ 59 →
        exec (.alarmSet p (yesNo a.enabled) (a.weekdays.setWidth 8) (byteOf a.hour) (byteOf a.minute) a.action.code) s =
          .next ((s.setTime { s.time with alarm := a }).answered p
            (.alarmSet p (yesNo a.enabled) (a.weekdays.setWidth 8) (byteOf a.hour) (byteOf a.minute) a.action.code) .ok
            [yesNo s.time.alarm.enabled, s.time.alarm.weekdays.setWidth 8, byteOf s.time.alarm.hour,
              byteOf s.time.alarm.minute, s.time.alarm.action.code])

/-- A second boundary (R134, R138, R143, R144, R145): the tick count returns to 0 and a staged trim is adopted; a
staged time is taken with no alarm comparison; otherwise the calendar advances by one second, and an alarm that
matches the new calendar sends its notice or records the pending answer. That the row is the expiry itself, without
the comparison, is the model's choice (notes/assumptions/5.md). -/
def Obligations.SecondBoundaryAdvancesTheCalendar : Prop :=
  ∀ s : State, s.inReset = false →
    (∀ c, s.time.stagedTime = some c →
      exec .secondBoundary s = .next (s.setTime
        { s.time with
          tickCount := 0, trim := s.time.stagedTrim.getD s.time.trim, stagedTrim := none, calendar := c
          stagedTime := none })) ∧
      (s.time.stagedTime = none → s.time.calendar.valid = true →
        ∃ t, exec .secondBoundary s = .next t ∧ t = (s.setTime t.time).setNotice t.notice ∧
          t.time.tickCount = 0 ∧ t.time.trim = s.time.stagedTrim.getD s.time.trim ∧ t.time.stagedTrim = none ∧
          t.time.stagedTime = none ∧ t.time.alarm = s.time.alarm ∧
          t.time.calendar =
            (if s.time.calendar.second ≠ 59 then { s.time.calendar with second := s.time.calendar.second + 1 }
            else if s.time.calendar.minute ≠ 59 then
              { s.time.calendar with second := 0, minute := s.time.calendar.minute + 1 }
            else if s.time.calendar.hour ≠ 23 then
              { s.time.calendar with second := 0, minute := 0, hour := s.time.calendar.hour + 1 }
            else if s.time.calendar.day ≠ monthLength s.time.calendar.year s.time.calendar.month then
              { s.time.calendar with
                second := 0, minute := 0, hour := 0, weekday := (s.time.calendar.weekday + 1) % 7
                day := s.time.calendar.day + 1 }
            else if s.time.calendar.month ≠ 12 then
              { s.time.calendar with
                second := 0, minute := 0, hour := 0, weekday := (s.time.calendar.weekday + 1) % 7, day := 1
                month := s.time.calendar.month + 1 }
            else
              { year := (s.time.calendar.year + 1) % 100, month := 1, day := 1, hour := 0, minute := 0, second := 0
                weekday := (s.time.calendar.weekday + 1) % 7 }) ∧
          (s.time.alarm.enabled = true ∧ t.time.calendar.second = 0 ∧ t.time.calendar.hour = s.time.alarm.hour ∧
              t.time.calendar.minute = s.time.alarm.minute ∧
              s.time.alarm.weekdays.getLsbD t.time.calendar.weekday = true →
            match s.time.alarm.action with
            | .notice =>
              t.time.pendingAlarm = s.time.pendingAlarm ∧
                s.Sent t (fun q => s.notice.ports[q].kinds.getLsbD 0)
                  { stamp :=
                      { cycle := s.sched.cycleCount, slot := s.sched.slotIndex
                        second := s.time.alarm.hour * 3600 + s.time.alarm.minute * 60 }
                    body := .alarm false false }
            | .noticeAndSwitch =>
              t.time.pendingAlarm = some (s.time.alarm.hour * 3600 + s.time.alarm.minute * 60) ∧
                t.notice = s.notice) ∧
          (¬ (s.time.alarm.enabled = true ∧ t.time.calendar.second = 0 ∧ t.time.calendar.hour = s.time.alarm.hour ∧
              t.time.calendar.minute = s.time.alarm.minute ∧
              s.time.alarm.weekdays.getLsbD t.time.calendar.weekday = true) →
            t.time.pendingAlarm = s.time.pendingAlarm ∧ t.notice = s.notice))

/-- The schedule takes the alarm's switch request (R51, R145): as PLAN_SWITCH, and the ALARM notice carries the answer
and the second of day of the match; in SETUP the PLAN_SWITCHED notice stands before it. That the row is the expiry
itself, without the comparison, is the model's choice (notes/assumptions/5.md); that ALARM_SWITCH_REQUEST without a
pending answer is an event that cannot occur and changes nothing is its inference (notes/assumptions/6.md). -/
def Obligations.AlarmSwitchRequestIsAnswered : Prop :=
  ∀ s : State, s.inReset = false →
    (s.time.pendingAlarm = none → exec .alarmSwitchRequest s = .next s) ∧
      ∀ second, s.time.pendingAlarm = some second →
        (s.part = .run →
          ∃ t, exec .alarmSwitchRequest s = .next t ∧
            t = ((s.setSched { s.sched with pendingSwitch := true }).setTime
              { s.time with pendingAlarm := none }).setNotice t.notice ∧
            s.Sent t (fun q => s.notice.ports[q].kinds.getLsbD 0)
              { stamp := { cycle := s.sched.cycleCount, slot := s.sched.slotIndex, second := second }
                body := .alarm true (!s.sched.pendingSwitch) }) ∧
          (s.part = .setup →
            ∃ t, exec .alarmSwitchRequest s = .next t ∧
              t = ((s.setSched { s.sched with active := s.sched.active.other }).setTime
                { s.time with pendingAlarm := none }).setNotice t.notice ∧
              ∀ q : Port, ∃ n : NoticePort,
                (if s.notice.ports[q].kinds.getLsbD 2 then
                  s.notice.ports[q].Took n { stamp := s.stamp, body := .planSwitched s.sched.active.other }
                else n = s.notice.ports[q]) ∧
                  if s.notice.ports[q].kinds.getLsbD 0 then
                    n.Took t.notice.ports[q]
                      { stamp := { cycle := s.sched.cycleCount, slot := s.sched.slotIndex, second := second }
                        body := .alarm true true }
                  else t.notice.ports[q] = n)

/-! ### Notice unit -/

/-- NOTICE_PEEK and NOTICE_POP (R155 to R157): EMPTY on an empty queue; otherwise the length, the lost flag and the
sixteen bytes of the head, which NOTICE_POP removes, clearing the lost flag with the last notice and bringing the
attention line up to date. -/
def Obligations.NoticePeekAndPop : Prop :=
  ∀ (p : Port) (s : State), s.ReadyFor p →
    (s.notice.ports[p].queue = [] →
      exec (.noticePeek p) s = .next (s.answered p (.noticePeek p) .nothingThere []) ∧
        exec (.noticePop p) s = .next (s.answered p (.noticePop p) .nothingThere [])) ∧
      ∀ (x : Notice) (rest : List Notice) (b : List Byte), s.notice.ports[p].queue = x :: rest →
        b =
          (match x.body with
            | .groupPoint .. => 1
            | .late .. => 2
            | .stageExpired .. => 3
            | .holdBroken .. => 4
            | .slot .. => 5
            | .alarm .. => 6
            | .stop .. => 7
            | .planSwitched .. => 8
            | .sync .. => 9) ::
          [x.stamp.cycle.setWidth 8, byteOf x.stamp.slot.val, 0, byteOf x.stamp.second, byteOf (x.stamp.second / 256),
            byteOf (x.stamp.second / 65536), byteOf (x.stamp.second / 16777216)] ++
          (match x.body with
            | .groupPoint g o made missed =>
              [byteOf g.val,
                (match o with
                  | .noOutcome => 0 | .published => 1 | .deferred => 2 | .frozen => 3 | .catchUp => 4 | .dropped => 5),
                byteOf made, byteOf missed]
            | .late i g => [byteOf i.val, byteOf (i.val / 256), byteOf g.val, 0]
            | .stageExpired i serial => [byteOf i.val, byteOf (i.val / 256), lowByte serial, highByte serial]
            | .holdBroken groups => [lowByte groups, highByte groups, 0, 0]
            | .slot k => [byteOf k.val, 0, 0, 0]
            | .alarm requested taken => [(if requested then 1 else 0), (if taken then 1 else 0), 0, 0]
            | .stop l e => [byteOf l.val, (match e with | .active => 1 | .inactive => 2 | .inputReleased => 3), 0, 0]
            | .planSwitched n => [(match n with | .a => 0 | .b => 1), 0, 0, 0]
            | .sync d => [(match d with | .early => 1 | .missed => 2), 0, 0, 0]) ++ [0, 0, 0, 0] →
        exec (.noticePeek p) s =
            .next (s.answered p (.noticePeek p) .ok
              ([byteOf (rest.length + 1), (if s.notice.ports[p].lost then 1 else 0)] ++ b)) ∧
          ∃ t, exec (.noticePop p) s = .next t ∧
            t = (s.setNotice t.notice).answered p (.noticePop p) .ok
              ([byteOf rest.length, (if s.notice.ports[p].lost = true ∧ rest ≠ [] then 1 else 0)] ++ b) ∧
            t.notice.ports[p] =
              { s.notice.ports[p] with
                queue := rest, lost := s.notice.ports[p].lost && !rest.isEmpty, attn := t.notice.ports[p].attn } ∧
            t.notice.ports[p].attn = t.notice.ports[p].attentionCondition ∧
            ∀ q : Port, q ≠ p → t.notice.ports[q] = s.notice.ports[q]

/-- PORT_SELF replaces the subscription part and reports the one before (R159); the attention line follows the condition
of R161 in the same claim. -/
def Obligations.PortSelfReplacesTheSubscription : Prop :=
  ∀ (p : Port) (s : State) (groups : GroupSet) (kinds : KindSet) (attention : AttentionSet), s.ReadyFor p →
    ∃ t, exec (.portSelf p groups (kinds.setWidth 8) (attention.setWidth 16)) s = .next t ∧
      t = (s.setNotice t.notice).answered p (.portSelf p groups (kinds.setWidth 8) (attention.setWidth 16)) .ok
        (bytes16 s.notice.ports[p].subscription ++ [s.notice.ports[p].kinds.setWidth 8] ++
          bytes16 (s.notice.ports[p].attention.setWidth 16)) ∧
      t.notice.ports[p] =
        { s.notice.ports[p] with
          subscription := groups, kinds := kinds, attention := attention, attn := t.notice.ports[p].attn } ∧
      (t.notice.ports[p].attn = true ↔
        (∃ x ∈ s.notice.ports[p].queue, attention.getLsbD
          (match x.body with
            | .groupPoint .. => 0
            | .late .. => 1
            | .stageExpired .. => 2
            | .holdBroken .. => 3
            | .slot .. => 4
            | .alarm .. => 5
            | .stop .. => 6
            | .planSwitched .. => 7
            | .sync .. => 8) = true) ∨
          (s.notice.ports[p].faultOccupied = true ∧ attention.getLsbD 9 = true) ∨
          (s.notice.ports[p].lost = true ∧ attention.getLsbD 10 = true)) ∧
      ∀ q : Port, q ≠ p → t.notice.ports[q] = s.notice.ports[q]

/-! ### Laws that every step keeps -/

/-- Every step keeps the attention lines on their condition, the fault occupancy as last reported true, and the queues
within 32 notices with a set lost flag on nonempty queues alone. -/
def Obligations.StepKeepsTheNoticeLaws : Prop :=
  ∀ s t : State, step s = .next t →
    (s.AttentionLaw → t.AttentionLaw) ∧ (s.FaultReportLaw → t.FaultReportLaw) ∧ (s.QueueLaw → t.QueueLaw)

/-- Every step keeps frame contents in their canonical form, both stop lines in a legal state and the frozen group set
the union of R127. The canonical form of memory is the model's own representation (notes/assumptions/2.md). -/
def Obligations.StepKeepsTheMemoryAndStopLaws : Prop :=
  ∀ s t : State, step s = .next t → (s.MemoryLaw → t.MemoryLaw) ∧ (s.StopLaw → t.StopLaw)

/-- Every step keeps the law of SETUP (R178), and the reset values while RESET is held (R185). -/
def Obligations.StepKeepsTheSetupAndResetLaws : Prop :=
  ∀ s t : State, step s = .next t → (s.SetupLaw → t.SetupLaw) ∧ (s.ResetLaw → t.ResetLaw)

/-- Every step keeps deferral marks under a covering hold (R58), and hold records within their ranges (R85). -/
def Obligations.StepKeepsTheMarkAndHoldLaws : Prop :=
  ∀ s t : State, step s = .next t → (s.MarkLaw → t.MarkLaw) ∧ (s.HoldLaw → t.HoldLaw)

/-- Every step keeps UNUSED pages at their values and stagers in the writer set, at most eight stagings of one port
(R1, R7), and the link ports in legal states (R168, R172). -/
def Obligations.StepKeepsThePageAndLinkLaws : Prop :=
  ∀ s t : State, step s = .next t →
    (s.PageLaw → t.PageLaw) ∧ (s.StagerLaw → t.StagerLaw) ∧ (s.LinkLaw → t.LinkLaw)

/-- Every step keeps each frame in exactly one place, and the read-reference counts true (R3, R5). -/
def Obligations.StepKeepsTheFrameLaw : Prop :=
  ∀ s t : State, step s = .next t → s.PageLaw → s.LinkLaw → s.FrameLaw → t.FrameLaw

/-- Every step keeps the schedule's laws (R31, R34, R38, R43, R178). -/
def Obligations.StepKeepsTheScheduleLaw : Prop :=
  ∀ s t : State, step s = .next t → s.ScheduleLaw → t.ScheduleLaw

/-- Every step keeps the calendar valid, the trims in range and the tick count below the second's length (R132,
R137). -/
def Obligations.StepKeepsTheTimeLaw : Prop :=
  ∀ s t : State, step s = .next t → s.TimeLaw → t.TimeLaw

/-- Every step keeps the watch counters at 65535 or below (R77), and, with the stager law, each outcome's pages at 32 or
fewer (R57). -/
def Obligations.StepKeepsTheWatchAndOutcomeLaws : Prop :=
  ∀ s t : State, step s = .next t →
    (s.WatchLaw → t.WatchLaw) ∧ (s.StagerLaw → s.OutcomeLaw → t.OutcomeLaw)

/-! ### What follows from the laws -/

/-- Under the frame and stager laws the retiring set has at most 4 frames and no duplicate, no frame has more than 4
references, and the free list has no duplicate and at least 156 frames (R4, R5, R6, R18). -/
def Obligations.FramePoolBounds : Prop :=
  ∀ s : State, s.FrameLaw → s.StagerLaw →
    s.map.retiring.length ≤ 4 ∧ s.map.retiring.Nodup ∧ (∀ f : Frame, s.map.refs[f] ≤ 4) ∧
      s.map.freeList.Nodup ∧ 156 ≤ s.map.freeList.length

/-- While a page stays defined, a step leaves its sequence or publishes it: its READY staging's frame goes live, the
sequence rises by one, and readers-since-publication is emptied (R2, R63). A tick may publish before it begins the
next cycle, or after (notes/assumptions/19.md), and it may take outstanding data requests (notes/assumptions/9.md): a
STAGE_READY before the publication, as a cycle start may too, and a STAGE_OPEN behind it, which opens the next
staging. -/
def Obligations.SequenceChangesOnlyByPublication : Prop :=
  ∀ (s t : State) (i : Page), s.ScheduleLaw → s.LinkLaw → step s = .next t → (s.map.page i).defined = true →
    (t.map.page i).defined = true →
    ((t.map.page i).sequence = (s.map.page i).sequence ∧ (t.map.page i).live = (s.map.page i).live) ∨
      ∃ (st : Staging) (new : Option Staging), (s.map.page i).staging = some st ∧
        (st.state = .ready ∨ ∃ pp, s.Awaits st.stager (.stageReady pp) i) ∧
        (∀ st', new = some st' → ∃ pp copy, s.Awaits st'.stager (.stageOpen pp copy) i) ∧
        (t.map.page i = { (s.map.page i).published t.sched.cycleCount with staging := new } ∨
          t.map.page i = { (s.map.page i).published s.sched.cycleCount with staging := new })

/-- No command, and no event of a tick, writes a frame that is live or in the retiring set when it is taken (R3). -/
def Obligations.LiveAndRetiringFramesAreNotWritten : Prop :=
  ∀ (s : State) (f : Frame) (o : Nat), s.FrameLaw → s.MemoryLaw →
    ((∃ i, (s.map.page i).live = some f) ∨ f ∈ s.map.retiring) → o < 64 →
    (∀ (c : Instr) (t : State), exec c s = .next t →
      t.map.frames.read (64 * f.val + o) = s.map.frames.read (64 * f.val + o)) ∧
      ∀ e : TickEvent, (s.takeEvent e).map.frames.read (64 * f.val + o) = s.map.frames.read (64 * f.val + o)

/-- No command, and no event of a tick, publishes a page of a group that is frozen when it is taken: while the page
stays defined it keeps its live frame and sequence (R60, R68, R128). -/
def Obligations.FrozenGroupsKeepTheirVersions : Prop :=
  ∀ (s t : State) (i : Page), ((∃ c, exec c s = .next t) ∨ ∃ e, t = s.takeEvent e) →
    s.stop.isFrozen (s.map.page i).group = true → (s.map.page i).defined = true → (t.map.page i).defined = true →
    (t.map.page i).live = (s.map.page i).live ∧ (t.map.page i).sequence = (s.map.page i).sequence

/-- The staging serial counter changes, at a command or an event of a tick, at a successful STAGE_OPEN alone, by one,
and at part reset, to 0; the new staging takes the new value (R8). A STAGE_OPEN succeeds at its own command or, its
page part outstanding (R109), at a tick or at the event that moves its port's transaction on, which is the model's
choice (notes/assumptions/9.md). -/
def Obligations.SerialCountsSuccessfulOpens : Prop :=
  (∀ (c : Instr) (s t : State), exec c s = .next t →
    t.map.serial = s.map.serial ∨ (c = .partReset ∧ t.map.serial = 0) ∨
      ∃ p pp copy i, (c = .stageOpen p (byteOf pp.val) (yesNo copy) ∨
          (c.movesOn = some p ∧ s.Awaits p (.stageOpen pp copy) i)) ∧
        s.Opened t p i) ∧
    ∀ (e : TickEvent) (s : State),
      (s.takeEvent e).map.serial = s.map.serial ∨
        ∃ p pp copy i, e = .claims p ∧ s.Awaits p (.stageOpen pp copy) i ∧ s.Opened (s.takeEvent e) p i

/-! ### Request records -/

/-- For every well-formed request on a port, the bytes of its record spell that request and no other (R167, R174); and
so do their bits on SDI, most significant first, one sampled at each rising edge of SCK, with a byte cut short behind
them discarded (R166). -/
def Obligations.RequestRecordsRoundTrip : Prop :=
  ∀ (i : Instr) (p : Port), i.requestPort? = some p → i.wellFormed = true →
    decodeRecord p i.record = some i ∧
      ∀ (s : State) (cut : List Bool), s.ReadyFor p → (s.port p).selected = true → cut.length < 8 →
        s.heard p ((i.record.flatMap fun b => (List.range 8).map fun k => b.getMsbD k) ++ cut) = some i ∧
          s.heard p (sampledBits (((i.record.flatMap fun b => (List.range 8).map fun k => b.getMsbD k) ++ cut).flatMap
            fun b => [.clockRises b, .clockFalls])) = some i

end
end

