-- ==== Sys2Proof/Laws/Memory.lean ====
section
/-! SUPPORT. Frame contents as a canonical list: reading after writing, and that every write keeps the form. -/

namespace Sys2Proof.Machine

/-- Above every listed address the memory reads as unlisted. -/
theorem Memory.read_below {lo a : Nat} : ∀ {m : Memory}, Memory.wfFrom lo m = true → a < lo → Memory.read m a = 0
  | [], _, _ => rfl
  | (x, v) :: rest, h, ha => by
    simp only [Memory.wfFrom, Bool.and_eq_true, decide_eq_true_eq] at h
    have hne : x ≠ a := by omega
    simp only [Memory.read, if_neg hne]
    exact Memory.read_below h.2 (by omega)

/-- A lower bound may be lowered. -/
theorem Memory.wfFrom_mono {lo lo' : Nat} (h : lo' ≤ lo) :
    ∀ {m : Memory}, Memory.wfFrom lo m = true → Memory.wfFrom lo' m = true
  | [], _ => rfl
  | (x, v) :: rest, hm => by
    simp only [Memory.wfFrom, Bool.and_eq_true, decide_eq_true_eq] at hm ⊢
    exact ⟨⟨⟨by omega, hm.1.1.2⟩, hm.1.2⟩, hm.2⟩

/-- A write keeps the canonical form. -/
theorem Memory.write_wfFrom {lo a : Nat} {b : Byte} (ha : lo ≤ a) (hb : a < 32768) :
    ∀ {m : Memory}, Memory.wfFrom lo m = true → Memory.wfFrom lo (Memory.write m a b) = true
  | [], _ => by
    simp only [Memory.write]
    split
    · rfl
    · rename_i h
      simp only [Memory.wfFrom, Bool.and_eq_true, decide_eq_true_eq]
      exact ⟨⟨⟨ha, hb⟩, h⟩, trivial⟩
  | (x, v) :: rest, hm => by
    simp only [Memory.wfFrom, Bool.and_eq_true, decide_eq_true_eq] at hm
    simp only [Memory.write]
    split
    · split
      · simp only [Memory.wfFrom, Bool.and_eq_true, decide_eq_true_eq]
        exact hm
      · rename_i hlt hne
        simp only [Memory.wfFrom, Bool.and_eq_true, decide_eq_true_eq]
        exact ⟨⟨⟨ha, hb⟩, hne⟩, ⟨⟨by omega, hm.1.1.2⟩, hm.1.2⟩, hm.2⟩
    · split
      · split
        · exact Memory.wfFrom_mono (by omega) hm.2
        · rename_i heq hne
          simp only [Memory.wfFrom, Bool.and_eq_true, decide_eq_true_eq]
          exact ⟨⟨⟨ha, hb⟩, hne⟩, by rw [heq]; exact hm.2⟩
      · simp only [Memory.wfFrom, Bool.and_eq_true, decide_eq_true_eq]
        exact ⟨⟨⟨hm.1.1.1, hm.1.1.2⟩, hm.1.2⟩, Memory.write_wfFrom (by omega) hb hm.2⟩

theorem Memory.write_wf {m : Memory} {a : Nat} (b : Byte) (ha : a < 32768) (h : Memory.wf m = true) :
    Memory.wf (Memory.write m a b) = true :=
  Memory.write_wfFrom (Nat.zero_le a) ha h

/-- Reading after one byte is written. -/
theorem Memory.read_write {lo a c : Nat} {b : Byte} :
    ∀ {m : Memory}, Memory.wfFrom lo m = true →
      Memory.read (Memory.write m a b) c = if c = a then b else Memory.read m c
  | [], _ => by
    simp only [Memory.write]
    split
    · rename_i hb
      simp only [Memory.read, hb, ite_self]
    · by_cases hc : c = a
      · subst hc
        simp only [Memory.read, if_true]
      · have hc' : a ≠ c := fun e => hc e.symm
        simp only [Memory.read, if_neg hc, if_neg hc']
  | (x, v) :: rest, hm => by
    simp only [Memory.wfFrom, Bool.and_eq_true, decide_eq_true_eq] at hm
    simp only [Memory.write]
    split
    · rename_i hlt
      split
      · rename_i hb
        by_cases hc : c = a
        · subst hc
          have hx : x ≠ c := by omega
          simp only [Memory.read, if_neg hx, if_true, hb]
          exact Memory.read_below hm.2 (by omega)
        · simp [hc]
      · by_cases hc : c = a
        · subst hc
          simp [Memory.read]
        · have hc' : a ≠ c := fun e => hc e.symm
          simp [Memory.read, hc, hc']
    · split
      · rename_i heq
        subst heq
        split
        · rename_i hb
          by_cases hc : c = a
          · subst hc
            rw [if_pos rfl, hb]
            exact Memory.read_below hm.2 (by omega)
          · have hc' : a ≠ c := fun e => hc e.symm
            simp [Memory.read, hc, hc']
        · by_cases hc : c = a
          · subst hc
            simp [Memory.read]
          · have hc' : a ≠ c := fun e => hc e.symm
            simp [Memory.read, hc, hc']
      · rename_i hne
        by_cases hx : x = c
        · have hc : c ≠ a := by omega
          simp [Memory.read, hx, hc]
        · simp only [Memory.read, if_neg hx]
          exact Memory.read_write hm.2

theorem Memory.writeBytes_wf {m : Memory} {a : Nat} {bs : List Byte} (ha : a + bs.length ≤ 32768)
    (h : Memory.wf m = true) : Memory.wf (Memory.writeBytes m a bs) = true := by
  induction bs generalizing m a with
  | nil => exact h
  | cons b bs ih =>
    simp only [List.length_cons] at ha
    exact ih (by omega) (Memory.write_wf b (by omega) h)

/-- Reading after several bytes are written: the byte written there, or what stood there. -/
theorem Memory.read_writeBytes {m : Memory} {a c : Nat} {bs : List Byte} (ha : a + bs.length ≤ 32768)
    (h : Memory.wf m = true) :
    Memory.read (Memory.writeBytes m a bs) c =
      if a ≤ c ∧ c < a + bs.length then bs.getD (c - a) 0 else Memory.read m c := by
  induction bs generalizing m a with
  | nil =>
    have hc : ¬ (a ≤ c ∧ c < a + 0) := by omega
    simp only [Memory.writeBytes, List.length_nil, if_neg hc]
  | cons b bs ih =>
    simp only [List.length_cons] at ha
    simp only [Memory.writeBytes]
    rw [ih (by omega) (Memory.write_wf b (by omega) h), Memory.read_write (lo := 0) h]
    by_cases h1 : a + 1 ≤ c ∧ c < a + 1 + bs.length
    · have h2 : a ≤ c ∧ c < a + (b :: bs).length := by
        simp only [List.length_cons]
        omega
      have h3 : c - a = (c - (a + 1)) + 1 := by omega
      rw [if_pos h1, if_pos h2, h3, List.getD_cons_succ]
    · rw [if_neg h1]
      by_cases h4 : c = a
      · subst h4
        simp
      · have h2 : ¬ (a ≤ c ∧ c < a + (b :: bs).length) := by
          simp only [List.length_cons]
          omega
        rw [if_neg h4, if_neg h2]

theorem frameAddress_eq (f : Frame) (o : Nat) : frameAddress f o = 64 * f.val + o := rfl

theorem Memory.writeFrame_wf {m : Memory} (f : Frame) (offset : Nat) (data : List Byte) (h : Memory.wf m = true) :
    Memory.wf (Memory.writeFrame m f offset data) = true := by
  unfold Memory.writeFrame
  by_cases ho : offset ≤ 64
  · apply Memory.writeBytes_wf _ h
    have hf := f.isLt
    simp only [frameAddress, Config.frameBytes, List.length_take]
    omega
  · have hz : Config.frameBytes - offset = 0 := by
      simp only [Config.frameBytes]
      omega
    simpa [hz, Memory.writeBytes] using h

/-- Reading after a write within one frame (R21). -/
theorem Memory.read_writeFrame {m : Memory} (f : Frame) {offset : Nat} {data : List Byte} (a : Nat)
    (hd : offset + data.length ≤ 64) (h : Memory.wf m = true) :
    Memory.read (Memory.writeFrame m f offset data) a =
      if 64 * f.val + offset ≤ a ∧ a < 64 * f.val + offset + data.length then
        data.getD (a - (64 * f.val + offset)) 0
      else Memory.read m a := by
  have hf := f.isLt
  have ht : data.take (Config.frameBytes - offset) = data := by
    apply List.take_of_length_le
    simp only [Config.frameBytes]
    omega
  unfold Memory.writeFrame
  rw [ht, Memory.read_writeBytes (by rw [frameAddress_eq]; omega) h, frameAddress_eq]

/-- A write within one frame leaves every other frame as it is. -/
theorem Memory.read_writeFrame_other {m : Memory} {f g : Frame} {offset o : Nat} {data : List Byte} (hfg : f ≠ g)
    (ho : o < 64) (h : Memory.wf m = true) :
    Memory.read (Memory.writeFrame m f offset data) (64 * g.val + o) = Memory.read m (64 * g.val + o) := by
  have hf := f.isLt
  have hv : f.val ≠ g.val := fun e => hfg (Fin.ext e)
  unfold Memory.writeFrame
  by_cases hoff : offset ≤ 64
  · have hlen : (data.take (Config.frameBytes - offset)).length ≤ 64 - offset := by
      simp only [Config.frameBytes, List.length_take]
      omega
    rw [Memory.read_writeBytes (by rw [frameAddress_eq]; omega) h, frameAddress_eq]
    rw [if_neg]
    omega
  · have hz : Config.frameBytes - offset = 0 := by
      simp only [Config.frameBytes]
      omega
    simp [hz, Memory.writeBytes]

theorem Memory.readFrame_length (m : Memory) (f : Frame) (offset length : Nat) :
    (Memory.readFrame m f offset length).length = length := by
  simp [Memory.readFrame]

end Sys2Proof.Machine
end

