-- ==== Sys2Proof/Laws/Map.lean ====
section
/-! SUPPORT. What the exchange map's operations do to the page records, the free list and the rest. The operations that
visit the pages in ascending order are folds, and three lemmas about folds say what becomes of one page, of the free
list, and of what no visit touches. -/

namespace Sys2Proof.Machine

/-! ### One page -/

theorem ExchangeMap.page_setPage (m : ExchangeMap) (i j : Page) (r : PageRecord) :
    (m.setPage i r).page j = if j = i then r else m.page j := by
  by_cases h : j = i
  · subst h
    simp [ExchangeMap.page, ExchangeMap.setPage]
  · have h' : i.val ≠ j.val := fun e => h (Fin.ext e.symm)
    simp [ExchangeMap.page, ExchangeMap.setPage, h, h']

/-- What an operation on the map leaves alone when it only moves frames and rewrites page records. -/
abbrev ExchangeMap.SameStore (m m' : ExchangeMap) : Prop :=
  m'.frames = m.frames ∧ m'.refs = m.refs ∧ m'.serial = m.serial ∧ m'.stageLimit = m.stageLimit

theorem ExchangeMap.SameStore.trans {m m' m'' : ExchangeMap} (h : m.SameStore m') (h' : m'.SameStore m'') :
    m.SameStore m'' :=
  ⟨h'.1.trans h.1, h'.2.1.trans h.2.1, h'.2.2.1.trans h.2.2.1, h'.2.2.2.trans h.2.2.2⟩

theorem ExchangeMap.setPage_store (m : ExchangeMap) (i : Page) (r : PageRecord) : m.SameStore (m.setPage i r) :=
  ⟨rfl, rfl, rfl, rfl⟩

/-! ### Frames leaving their roles -/

theorem ExchangeMap.release_pages (m : ExchangeMap) (f : Frame) : (m.release f).pages = m.pages := by
  unfold ExchangeMap.release
  split <;> rfl

theorem ExchangeMap.release_store (m : ExchangeMap) (f : Frame) : m.SameStore (m.release f) := by
  unfold ExchangeMap.release
  split <;> exact ⟨rfl, rfl, rfl, rfl⟩

theorem ExchangeMap.release_freeList (m : ExchangeMap) (f : Frame) :
    (m.release f).freeList = m.freeList ++ (if m.refs[f] = 0 then [f] else []) := by
  unfold ExchangeMap.release
  split <;> simp

theorem mem_insertFrame (f g : Frame) (l : List Frame) : g ∈ insertFrame f l ↔ g = f ∨ g ∈ l := by
  induction l with
  | nil => simp [insertFrame]
  | cons x xs ih =>
    unfold insertFrame
    split
    · simp
    · simp only [List.mem_cons, ih]
      constructor
      · rintro (h | h | h)
        · exact Or.inr (Or.inl h)
        · exact Or.inl h
        · exact Or.inr (Or.inr h)
      · rintro (h | h | h)
        · exact Or.inr (Or.inl h)
        · exact Or.inl h
        · exact Or.inr (Or.inr h)

theorem count_insertFrame (f g : Frame) (l : List Frame) : (insertFrame f l).count g = (f :: l).count g := by
  induction l with
  | nil => rfl
  | cons x xs ih =>
    unfold insertFrame
    split
    · rfl
    · rw [List.count_cons, ih, List.count_cons, List.count_cons, List.count_cons]
      omega

theorem ExchangeMap.mem_release_retiring (m : ExchangeMap) (f g : Frame) :
    g ∈ (m.release f).retiring ↔ g ∈ m.retiring ∨ (g = f ∧ m.refs[f] ≠ 0) := by
  unfold ExchangeMap.release
  split
  · rename_i h
    simp [h]
  · rename_i h
    simp only [mem_insertFrame]
    constructor
    · rintro (h' | h')
      · exact Or.inr ⟨h', h⟩
      · exact Or.inl h'
    · rintro (h' | h')
      · exact Or.inr h'
      · exact Or.inl h'.1

theorem ExchangeMap.releaseLive_pages (m : ExchangeMap) (o : Option Frame) : (m.releaseLive o).pages = m.pages := by
  cases o with
  | none => rfl
  | some f => exact ExchangeMap.release_pages m f

theorem ExchangeMap.releaseLive_store (m : ExchangeMap) (o : Option Frame) : m.SameStore (m.releaseLive o) := by
  cases o with
  | none => exact ⟨rfl, rfl, rfl, rfl⟩
  | some f => exact ExchangeMap.release_store m f

theorem ExchangeMap.releaseLive_freeList (m : ExchangeMap) (o : Option Frame) :
    (m.releaseLive o).freeList = m.freeList ++ (o.filter fun f => m.refs[f] = 0).toList := by
  cases o with
  | none => simp [ExchangeMap.releaseLive]
  | some f =>
    rw [ExchangeMap.releaseLive, ExchangeMap.release_freeList]
    by_cases h : m.refs[f] = 0
    · rw [if_pos h, Option.filter_some, if_pos (decide_eq_true h)]
      rfl
    · rw [if_neg h, Option.filter_some, if_neg (by simpa using h)]
      rfl

/-! ### References -/

theorem ExchangeMap.dropRef_pages (m : ExchangeMap) (f : Frame) : (m.dropRef f).pages = m.pages := by
  unfold ExchangeMap.dropRef
  dsimp only
  split <;> rfl

/-- One reference released, with the retiring-set step (R5, R6, R15). -/
theorem ExchangeMap.dropRef_eq (m : ExchangeMap) (f : Frame) :
    m.dropRef f =
      { m with
        refs := m.refs.set f (m.refs[f] - 1)
        retiring := if m.refs[f] ≤ 1 ∧ f ∈ m.retiring then m.retiring.erase f else m.retiring
        freeList := if m.refs[f] ≤ 1 ∧ f ∈ m.retiring then m.freeList ++ [f] else m.freeList } := by
  unfold ExchangeMap.dropRef
  dsimp only
  by_cases h : m.refs[f] - 1 = 0 ∧ f ∈ m.retiring
  · have h' : m.refs[f] ≤ 1 ∧ f ∈ m.retiring := ⟨by omega, h.2⟩
    rw [if_pos h, if_pos h', if_pos h']
  · have h' : ¬ (m.refs[f] ≤ 1 ∧ f ∈ m.retiring) := fun x => h ⟨by omega, x.2⟩
    rw [if_neg h, if_neg h', if_neg h']

/-! ### Visits of all pages -/

/-- A visit that rewrites page i alone, and by that page's record alone, rewrites every page it visits once. -/
theorem foldl_page {α : Type} (map : α → ExchangeMap) (visit : α → Page → α) (g : Page → PageRecord → PageRecord)
    (hv : ∀ a i j, (map (visit a i)).page j = if j = i then g i ((map a).page i) else (map a).page j)
    (l : List Page) (hl : l.Nodup) (a : α) (j : Page) :
    (map (l.foldl visit a)).page j = if j ∈ l then g j ((map a).page j) else (map a).page j := by
  induction l generalizing a with
  | nil => simp
  | cons i l ih =>
    rw [List.nodup_cons] at hl
    rw [List.foldl_cons, ih hl.2, hv]
    by_cases hj : j = i
    · subst hj
      simp [hl.1]
    · simp [hj]

/-- What no visit changes, the fold does not change. -/
theorem foldl_same {α β : Type} (part : α → β) (visit : α → Page → α) (hv : ∀ a i, part (visit a i) = part a)
    (l : List Page) (a : α) : part (l.foldl visit a) = part a := by
  induction l generalizing a with
  | nil => rfl
  | cons i l ih => rw [List.foldl_cons, ih, hv]

/-- What visits append, each by the record that its page had at first, in the order of the visits. P is what every visit
keeps. -/
theorem foldl_collect {α β : Type} (P : α → Prop) (map : α → ExchangeMap) (visit : α → Page → α)
    (g : Page → PageRecord → PageRecord) (out : α → List β) (e : Page → PageRecord → List β)
    (hv : ∀ a i j, (map (visit a i)).page j = if j = i then g i ((map a).page i) else (map a).page j)
    (hP : ∀ a i, P a → P (visit a i)) (ho : ∀ a i, P a → out (visit a i) = out a ++ e i ((map a).page i))
    (l : List Page) (hl : l.Nodup) (a : α) (ha : P a) :
    out (l.foldl visit a) = out a ++ l.flatMap fun i => e i ((map a).page i) := by
  induction l generalizing a with
  | nil => simp
  | cons i l ih =>
    rw [List.nodup_cons] at hl
    rw [List.foldl_cons, ih hl.2 _ (hP a i ha), ho a i ha, List.flatMap_cons, List.append_assoc]
    have hc : (l.flatMap fun j => e j ((map (visit a i)).page j)) = l.flatMap fun j => e j ((map a).page j) := by
      rw [List.flatMap_def, List.flatMap_def]
      refine congrArg List.flatten (List.map_congr_left fun j hj => ?_)
      rw [hv, if_neg fun h : j = i => hl.1 (h ▸ hj)]
    rw [hc]

/-- Frames that visits append to the free list, in the order of the visits (R4). -/
theorem foldl_freeList {α : Type} (map : α → ExchangeMap) (visit : α → Page → α)
    (g : Page → PageRecord → PageRecord) (e : Vector Nat 512 → Page → PageRecord → List Frame)
    (hv : ∀ a i j, (map (visit a i)).page j = if j = i then g i ((map a).page i) else (map a).page j)
    (hr : ∀ a i, (map (visit a i)).refs = (map a).refs)
    (hf : ∀ a i, (map (visit a i)).freeList = (map a).freeList ++ e (map a).refs i ((map a).page i))
    (l : List Page) (hl : l.Nodup) (a : α) :
    (map (l.foldl visit a)).freeList =
      (map a).freeList ++ l.flatMap fun i => e (map a).refs i ((map a).page i) :=
  foldl_collect (fun b => (map b).refs = (map a).refs) map visit g (fun b => (map b).freeList) (e (map a).refs) hv
    (fun b i hb => (hr b i).trans hb) (fun b i hb => by rw [hf, hb]) l hl a rfl

theorem nodup_pages : (List.finRange 320).Nodup := List.nodup_finRange 320

/-! ### Removal of stagings -/

theorem ExchangeMap.page_congr {m m' : ExchangeMap} (h : m'.pages = m.pages) (j : Page) : m'.page j = m.page j := by
  simp [ExchangeMap.page, h]

theorem PageRecord.staging_none_eq {r : PageRecord} (h : r.staging = none) : { r with staging := none } = r := by
  cases r
  cases h
  rfl

theorem ExchangeMap.removeStaging_page (m : ExchangeMap) (i j : Page) :
    (m.removeStaging i).page j = if j = i then { m.page i with staging := none } else m.page j := by
  unfold ExchangeMap.removeStaging
  split
  · rename_i h
    by_cases hj : j = i
    · subst hj
      rw [if_pos rfl, PageRecord.staging_none_eq h]
    · rw [if_neg hj]
  · rename_i st h
    rw [ExchangeMap.page_congr (ExchangeMap.release_pages _ _), ExchangeMap.page_setPage]

theorem ExchangeMap.removeStaging_store (m : ExchangeMap) (i : Page) : m.SameStore (m.removeStaging i) := by
  unfold ExchangeMap.removeStaging
  split
  · exact ⟨rfl, rfl, rfl, rfl⟩
  · exact (ExchangeMap.setPage_store m i _).trans (ExchangeMap.release_store _ _)

/-- The frame that the removal of a staging appends to the free list (R4, R6). -/
def PageRecord.stagingReleased (refs : Vector Nat 512) (r : PageRecord) : List Frame :=
  match r.staging with
  | none => []
  | some st => if refs[st.frame] = 0 then [st.frame] else []

theorem ExchangeMap.removeStaging_freeList (m : ExchangeMap) (i : Page) :
    (m.removeStaging i).freeList = m.freeList ++ (m.page i).stagingReleased m.refs := by
  unfold ExchangeMap.removeStaging PageRecord.stagingReleased
  cases h : (m.page i).staging with
  | none => simp
  | some st =>
    dsimp only
    rw [ExchangeMap.release_freeList]
    rfl

theorem ExchangeMap.removeAllStagings_page (m : ExchangeMap) (j : Page) :
    m.removeAllStagings.page j = { m.page j with staging := none } := by
  have h := foldl_page (fun m => m) ExchangeMap.removeStaging (fun _ r => { r with staging := none })
    (fun a i j => ExchangeMap.removeStaging_page a i j) (List.finRange 320) nodup_pages m j
  rw [if_pos (List.mem_finRange j)] at h
  unfold ExchangeMap.removeAllStagings
  exact h

theorem foldl_store {α : Type} (map : α → ExchangeMap) (visit : α → Page → α)
    (hv : ∀ a i, (map a).SameStore (map (visit a i))) (l : List Page) (a : α) :
    (map a).SameStore (map (l.foldl visit a)) := by
  induction l generalizing a with
  | nil => exact ⟨rfl, rfl, rfl, rfl⟩
  | cons i l ih => exact (hv a i).trans (ih (visit a i))

theorem ExchangeMap.removeAllStagings_store (m : ExchangeMap) : m.SameStore m.removeAllStagings := by
  unfold ExchangeMap.removeAllStagings
  exact foldl_store (fun m => m) ExchangeMap.removeStaging (fun a i => ExchangeMap.removeStaging_store a i) (List.finRange 320) m

theorem ExchangeMap.removeAllStagings_freeList (m : ExchangeMap) :
    m.removeAllStagings.freeList =
      m.freeList ++ (List.finRange 320).flatMap fun i => (m.page i).stagingReleased m.refs := by
  unfold ExchangeMap.removeAllStagings
  exact foldl_freeList (fun m => m) ExchangeMap.removeStaging (fun _ r => { r with staging := none })
    (fun refs _ r => r.stagingReleased refs) (fun a i j => ExchangeMap.removeStaging_page a i j)
    (fun a i => (ExchangeMap.removeStaging_store a i).2.1) (fun a i => ExchangeMap.removeStaging_freeList a i)
    (List.finRange 320) nodup_pages m

theorem PageRecord.withoutStagingOf_eq (r : PageRecord) (p : Port) :
    r.withoutStagingOf p = if (r.stagedBy p).isSome then { r with staging := none } else r := by
  unfold PageRecord.withoutStagingOf PageRecord.stagedBy
  cases hs : r.staging with
  | none => simp [← hs]
  | some st =>
    by_cases hp : st.stager = p
    · simp [hp]
    · rw [if_neg (by simpa using hp), if_neg (by simp [hp]), ← hs]

theorem ExchangeMap.removeStagingsOf_page (m : ExchangeMap) (p : Port) (j : Page) :
    (m.removeStagingsOf p).page j = (m.page j).withoutStagingOf p := by
  have h := foldl_page (fun m => m)
    (fun m i => if ((m.page i).stagedBy p).isSome then m.removeStaging i else m) (fun _ r => r.withoutStagingOf p)
    (fun a i j => by
      split
      · rename_i hs
        rw [ExchangeMap.removeStaging_page]
        simp only [PageRecord.withoutStagingOf_eq, hs, if_true]
      · rename_i hs
        by_cases hj : j = i
        · subst hj
          rw [if_pos rfl]
          simp only [PageRecord.withoutStagingOf_eq, hs]
          rfl
        · rw [if_neg hj])
    (List.finRange 320) nodup_pages m j
  rw [if_pos (List.mem_finRange j)] at h
  unfold ExchangeMap.removeStagingsOf
  exact h

theorem ExchangeMap.removeStagingsOf_store (m : ExchangeMap) (p : Port) : m.SameStore (m.removeStagingsOf p) := by
  unfold ExchangeMap.removeStagingsOf
  exact foldl_store (fun m => m) (fun m i => if ((m.page i).stagedBy p).isSome then m.removeStaging i else m)
    (fun a i => by
      split
      · exact ExchangeMap.removeStaging_store a i
      · exact ⟨rfl, rfl, rfl, rfl⟩) (List.finRange 320) m

/-! ### The countdown at a cycle start -/

/-- One page after the countdown (R25). -/
def PageRecord.counted (r : PageRecord) : PageRecord :=
  match r.staging with
  | none => r
  | some st =>
    if st.state = .opened ∧ st.cyclesLeft ≠ 0 then
      if st.cyclesLeft = 1 then { r with staging := none }
      else { r with staging := some { st with cyclesLeft := st.cyclesLeft - 1 } }
    else r

theorem ExchangeMap.countPage_page (r : ExchangeMap × List Expired) (i j : Page) :
    (ExchangeMap.countPage r i).1.page j = if j = i then (r.1.page i).counted else r.1.page j := by
  unfold ExchangeMap.countPage PageRecord.counted
  cases h : (r.1.page i).staging with
  | none =>
    by_cases hj : j = i
    · subst hj
      rw [if_pos rfl]
    · rw [if_neg hj]
  | some st =>
    dsimp only
    split
    · split
      · rw [ExchangeMap.removeStaging_page]
      · rw [ExchangeMap.page_setPage]
    · by_cases hj : j = i
      · subst hj
        rw [if_pos rfl]
      · rw [if_neg hj]

theorem ExchangeMap.countPage_store (r : ExchangeMap × List Expired) (i : Page) :
    r.1.SameStore (ExchangeMap.countPage r i).1 := by
  unfold ExchangeMap.countPage
  split
  · exact ⟨rfl, rfl, rfl, rfl⟩
  · split
    · split
      · exact ExchangeMap.removeStaging_store _ _
      · exact ExchangeMap.setPage_store _ _ _
    · exact ⟨rfl, rfl, rfl, rfl⟩

theorem ExchangeMap.countStagings_page (m : ExchangeMap) (j : Page) :
    m.countStagings.1.page j = (m.page j).counted := by
  have h := foldl_page Prod.fst ExchangeMap.countPage (fun _ r => r.counted)
    (fun a i j => ExchangeMap.countPage_page a i j) (List.finRange 320) nodup_pages (m, []) j
  rw [if_pos (List.mem_finRange j)] at h
  unfold ExchangeMap.countStagings
  exact h

theorem ExchangeMap.countStagings_store (m : ExchangeMap) : m.SameStore m.countStagings.1 := by
  unfold ExchangeMap.countStagings
  exact foldl_store Prod.fst ExchangeMap.countPage (fun a i => ExchangeMap.countPage_store a i) (List.finRange 320) (m, [])

/-! ### The publication swap -/

/-- One page after the swap of group g in cycle c (R63, R64). -/
def PageRecord.swapped (r : PageRecord) (g : Group) (c : CycleCount) : PageRecord :=
  match r.staging with
  | some st => if r.defined = true ∧ r.group = g ∧ st.state = .ready then r.published c else r
  | none => r

theorem ExchangeMap.publishPage_page (m : ExchangeMap) (i j : Page) (st : Staging) (c : CycleCount)
    (h : (m.page i).staging = some st) :
    (m.publishPage i st c).page j = if j = i then (m.page i).published c else m.page j := by
  unfold ExchangeMap.publishPage
  rw [ExchangeMap.page_congr (ExchangeMap.releaseLive_pages _ _), ExchangeMap.page_setPage]
  by_cases hj : j = i
  · rw [if_pos hj, if_pos hj]
    simp [PageRecord.published, h]
  · rw [if_neg hj, if_neg hj]

theorem ExchangeMap.publishPage_store (m : ExchangeMap) (i : Page) (st : Staging) (c : CycleCount) :
    m.SameStore (m.publishPage i st c) :=
  (ExchangeMap.setPage_store m i _).trans (ExchangeMap.releaseLive_store _ _)

theorem ExchangeMap.swapPage_page (g : Group) (c : CycleCount) (r : SwapResult) (i j : Page) :
    (ExchangeMap.swapPage g c r i).map.page j = if j = i then (r.map.page i).swapped g c else r.map.page j := by
  unfold ExchangeMap.swapPage PageRecord.swapped
  split
  · rename_i hd
    cases hs : (r.map.page i).staging with
    | none =>
      by_cases hj : j = i
      · subst hj
        rw [if_pos rfl]
      · rw [if_neg hj]
    | some st =>
      dsimp only
      split
      · rename_i ho
        by_cases hj : j = i
        · subst hj
          rw [if_pos rfl]
          simp [ho]
        · rw [if_neg hj]
      · rename_i ho
        rw [ExchangeMap.publishPage_page _ _ _ _ _ hs]
        simp [ho, hd]
  · rename_i hd
    by_cases hj : j = i
    · subst hj
      rw [if_pos rfl]
      split
      · rw [if_neg]
        exact fun h => hd ⟨h.1, h.2.1⟩
      · rfl
    · rw [if_neg hj]

theorem ExchangeMap.swapPage_store (g : Group) (c : CycleCount) (r : SwapResult) (i : Page) :
    r.map.SameStore (ExchangeMap.swapPage g c r i).map := by
  unfold ExchangeMap.swapPage
  split
  · split
    · exact ⟨rfl, rfl, rfl, rfl⟩
    · split
      · exact ⟨rfl, rfl, rfl, rfl⟩
      · exact ExchangeMap.publishPage_store _ _ _ _
  · exact ⟨rfl, rfl, rfl, rfl⟩

theorem ExchangeMap.swap_page (m : ExchangeMap) (g : Group) (c : CycleCount) (j : Page) :
    (m.swap g c).map.page j = (m.page j).swapped g c := by
  have h := foldl_page SwapResult.map (ExchangeMap.swapPage g c) (fun _ r => r.swapped g c)
    (fun a i j => ExchangeMap.swapPage_page g c a i j) (List.finRange 320) nodup_pages
    { map := m, published := 0, late := [] } j
  rw [if_pos (List.mem_finRange j)] at h
  unfold ExchangeMap.swap
  exact h

theorem ExchangeMap.swap_store (m : ExchangeMap) (g : Group) (c : CycleCount) : m.SameStore (m.swap g c).map := by
  unfold ExchangeMap.swap
  exact foldl_store SwapResult.map (ExchangeMap.swapPage g c) (fun a i => ExchangeMap.swapPage_store g c a i)
    (List.finRange 320) { map := m, published := 0, late := [] }

/-- A page of another group is not touched by a swap. -/
theorem PageRecord.swapped_other {r : PageRecord} {g : Group} (c : CycleCount) (h : r.group ≠ g) :
    r.swapped g c = r := by
  unfold PageRecord.swapped
  split
  · rw [if_neg]
    exact fun x => h x.2.1
  · rfl

/-! ### What the swap returns and releases -/

theorem ExchangeMap.swapPage_published (g : Group) (c : CycleCount) (r : SwapResult) (i : Page) :
    (ExchangeMap.swapPage g c r i).published = r.published + if r.map.ready g i then 1 else 0 := by
  unfold ExchangeMap.swapPage ExchangeMap.ready
  cases hs : (r.map.page i).staging with
  | none => simp
  | some st =>
    by_cases hd : (r.map.page i).defined = true ∧ (r.map.page i).group = g
    · cases ho : st.state <;> simp [hd, ho]
    · rw [if_neg hd]
      rw [not_and] at hd
      by_cases h : (r.map.page i).defined = true
      · simp [hd h]
      · simp [h]

theorem ExchangeMap.swapPage_late (g : Group) (c : CycleCount) (r : SwapResult) (i : Page) :
    (ExchangeMap.swapPage g c r i).late =
      r.late ++ if r.map.late g i then ((r.map.page i).staging.map fun st => (i, st.stager)).toList else [] := by
  unfold ExchangeMap.swapPage ExchangeMap.late
  cases hs : (r.map.page i).staging with
  | none => simp
  | some st =>
    by_cases hd : (r.map.page i).defined = true ∧ (r.map.page i).group = g
    · cases ho : st.state <;> simp [hd, ho]
    · rw [if_neg hd]
      rw [not_and] at hd
      by_cases h : (r.map.page i).defined = true
      · simp [hd h]
      · simp [h]

theorem ExchangeMap.swapPage_freeList (g : Group) (c : CycleCount) (r : SwapResult) (i : Page) :
    (ExchangeMap.swapPage g c r i).map.freeList =
      r.map.freeList ++
        if r.map.ready g i then ((r.map.page i).live.filter fun f => r.map.refs[f] = 0).toList else [] := by
  unfold ExchangeMap.swapPage ExchangeMap.ready
  cases hs : (r.map.page i).staging with
  | none => simp
  | some st =>
    by_cases hd : (r.map.page i).defined = true ∧ (r.map.page i).group = g
    · cases ho : st.state with
      | opened => simp [hd, ho]
      | ready =>
        rw [if_pos hd]
        simp only [ho]
        rw [ExchangeMap.publishPage, ExchangeMap.releaseLive_freeList]
        simp [ExchangeMap.setPage, hd]
    · rw [if_neg hd]
      rw [not_and] at hd
      by_cases h : (r.map.page i).defined = true
      · simp [hd h]
      · simp [h]

/-- The retiring set takes the old live frame of a published page that is referenced (R6, R63). -/
theorem ExchangeMap.mem_swapPage_retiring (g : Group) (c : CycleCount) (r : SwapResult) (i : Page) (f : Frame) :
    f ∈ (ExchangeMap.swapPage g c r i).map.retiring ↔
      f ∈ r.map.retiring ∨ (r.map.ready g i = true ∧ (r.map.page i).live = some f ∧ r.map.refs[f] ≠ 0) := by
  unfold ExchangeMap.swapPage ExchangeMap.ready
  cases hs : (r.map.page i).staging with
  | none => simp
  | some st =>
    by_cases hd : (r.map.page i).defined = true ∧ (r.map.page i).group = g
    · cases ho : st.state with
      | opened => simp [hd, ho]
      | ready =>
        rw [if_pos hd]
        simp only [ho]
        rw [ExchangeMap.publishPage]
        cases hl : (r.map.page i).live with
        | none => simp [ExchangeMap.releaseLive, ExchangeMap.setPage]
        | some x =>
          rw [ExchangeMap.releaseLive, ExchangeMap.mem_release_retiring]
          simp only [ExchangeMap.setPage, hd, Option.some.injEq]
          constructor
          · rintro (h | ⟨rfl, h⟩)
            · exact Or.inl h
            · exact Or.inr ⟨by simp, rfl, h⟩
          · rintro (h | ⟨_, rfl, h⟩)
            · exact Or.inl h
            · exact Or.inr ⟨rfl, h⟩
    · rw [if_neg hd]
      rw [not_and] at hd
      by_cases h : (r.map.page i).defined = true
      · simp [hd h]
      · simp [h]

/-- The pages made live (R63). -/
theorem ExchangeMap.swap_published (m : ExchangeMap) (g : Group) (c : CycleCount) :
    (m.swap g c).published = m.readyCount g := by
  have h := foldl_collect (β := Unit) (fun _ => True) SwapResult.map (ExchangeMap.swapPage g c)
    (fun _ r => r.swapped g c) (fun r => List.replicate r.published ())
    (fun i r => if (ExchangeMap.setPage m i r).ready g i then [()] else [])
    (fun a i j => ExchangeMap.swapPage_page g c a i j) (fun _ _ _ => trivial)
    (fun r i _ => by
      have e : (ExchangeMap.setPage m i (r.map.page i)).ready g i = r.map.ready g i := by
        simp [ExchangeMap.ready, ExchangeMap.page_setPage]
      rw [ExchangeMap.swapPage_published, e]
      split
      · exact List.replicate_succ'
      · exact (List.append_nil _).symm)
    (List.finRange 320) nodup_pages { map := m, published := 0, late := [] } trivial
  have hl := congrArg List.length h
  have e : ∀ i, (ExchangeMap.setPage m i (m.page i)).ready g i = m.ready g i := fun i => by
    simp [ExchangeMap.ready, ExchangeMap.page_setPage]
  simp only [e, List.length_replicate, List.replicate_zero, List.nil_append] at hl
  unfold ExchangeMap.swap ExchangeMap.readyCount
  rw [hl]
  generalize List.finRange 320 = l
  induction l with
  | nil => rfl
  | cons i l ih =>
    rw [List.flatMap_cons, List.length_append, ih, List.countP_cons]
    split <;> simp [Nat.add_comm]

/-- The late pages with their stagers, in page order (R64). -/
theorem ExchangeMap.swap_late (m : ExchangeMap) (g : Group) (c : CycleCount) :
    (m.swap g c).late = (List.finRange 320).flatMap fun i =>
      if m.late g i then ((m.page i).staging.map fun st => (i, st.stager)).toList else [] := by
  have e : ∀ (m' : ExchangeMap) (i : Page), (ExchangeMap.setPage m i (m'.page i)).late g i = m'.late g i :=
    fun m' i => by simp [ExchangeMap.late, ExchangeMap.page_setPage]
  have h := foldl_collect (fun _ => True) SwapResult.map (ExchangeMap.swapPage g c)
    (fun _ r => r.swapped g c) SwapResult.late
    (fun i r => if (ExchangeMap.setPage m i r).late g i then (r.staging.map fun st => (i, st.stager)).toList else [])
    (fun a i j => ExchangeMap.swapPage_page g c a i j) (fun _ _ _ => trivial)
    (fun r i _ => by rw [ExchangeMap.swapPage_late, e])
    (List.finRange 320) nodup_pages { map := m, published := 0, late := [] } trivial
  simp only [e, List.nil_append] at h
  exact h

/-- A late page stands in the swap's list with its stager (R64). -/
theorem ExchangeMap.mem_swap_late (m : ExchangeMap) (g : Group) (c : CycleCount) (i : Page) (p : Port) :
    (i, p) ∈ (m.swap g c).late ↔ m.late g i = true ∧ ∃ st, (m.page i).staging = some st ∧ st.stager = p := by
  rw [ExchangeMap.swap_late, List.mem_flatMap]
  constructor
  · rintro ⟨j, _, h⟩
    split at h
    · rename_i hl
      cases hs : (m.page j).staging with
      | none => simp [hs] at h
      | some st =>
        simp only [hs, Option.map_some, Option.toList_some, List.mem_singleton, Prod.mk.injEq] at h
        obtain ⟨rfl, rfl⟩ := h
        exact ⟨hl, st, hs, rfl⟩
    · cases h
  · rintro ⟨hl, st, hs, rfl⟩
    exact ⟨i, List.mem_finRange i, by rw [if_pos hl, hs]; simp⟩

theorem ExchangeMap.swap_late_length (m : ExchangeMap) (g : Group) (c : CycleCount) :
    (m.swap g c).late.length = m.lateCount g := by
  rw [ExchangeMap.swap_late, ExchangeMap.lateCount]
  have h : ∀ l : List Page,
      (l.flatMap fun i => if m.late g i then ((m.page i).staging.map fun st => (i, st.stager)).toList else []).length =
        l.countP fun i => m.late g i := by
    intro l
    induction l with
    | nil => rfl
    | cons i l ih =>
      rw [List.flatMap_cons, List.length_append, ih, List.countP_cons]
      cases hl : m.late g i with
      | false => simp
      | true =>
        cases hs : (m.page i).staging with
        | none => simp [ExchangeMap.late, hs] at hl
        | some st => simp [Nat.add_comm]
  exact h _

/-- The frames that a swap appends to the free list, in page order (R4, R63). -/
theorem ExchangeMap.swap_freeList (m : ExchangeMap) (g : Group) (c : CycleCount) :
    (m.swap g c).map.freeList = m.freeList ++ m.freed g := by
  have e : ∀ (m' : ExchangeMap) (i : Page), (ExchangeMap.setPage m i (m'.page i)).ready g i = m'.ready g i :=
    fun m' i => by simp [ExchangeMap.ready, ExchangeMap.page_setPage]
  have h := foldl_freeList SwapResult.map (ExchangeMap.swapPage g c) (fun _ r => r.swapped g c)
    (fun refs i r =>
      if (ExchangeMap.setPage m i r).ready g i then (r.live.filter fun f => refs[f] = 0).toList else [])
    (fun a i j => ExchangeMap.swapPage_page g c a i j) (fun r i => (ExchangeMap.swapPage_store g c r i).2.1)
    (fun r i => by rw [ExchangeMap.swapPage_freeList, e])
    (List.finRange 320) nodup_pages { map := m, published := 0, late := [] }
  simp only [e] at h
  have hf : ∀ l : List Page,
      (l.flatMap fun i => if m.ready g i then ((m.page i).live.filter fun f => m.refs[f] = 0).toList else []) =
        l.filterMap fun i => if m.ready g i then (m.page i).live.filter fun f => m.refs[f] = 0 else none := by
    intro l
    induction l with
    | nil => rfl
    | cons i l ih =>
      rw [List.flatMap_cons, ih, List.filterMap_cons]
      cases m.ready g i with
      | false => rfl
      | true => cases hx : (m.page i).live.filter fun f => m.refs[f] = 0 <;> simp
  rw [ExchangeMap.swap, ExchangeMap.freed, h, hf]

/-- The retiring set after a swap (R6, R63). -/
theorem ExchangeMap.mem_swap_retiring (m : ExchangeMap) (g : Group) (c : CycleCount) (f : Frame) :
    f ∈ (m.swap g c).map.retiring ↔ f ∈ m.retiring ∨ m.retired g f := by
  have hready : ∀ (r : SwapResult) (i j : Page), j ≠ i →
      (ExchangeMap.swapPage g c r i).map.ready g j = r.map.ready g j ∧
        ((ExchangeMap.swapPage g c r i).map.page j).live = (r.map.page j).live := by
    intro r i j hj
    have := ExchangeMap.swapPage_page g c r i j
    rw [if_neg hj] at this
    exact ⟨by simp only [ExchangeMap.ready, this], by rw [this]⟩
  have h : ∀ (l : List Page), l.Nodup → ∀ r : SwapResult,
      (f ∈ (l.foldl (ExchangeMap.swapPage g c) r).map.retiring ↔ f ∈ r.map.retiring ∨
        ∃ i ∈ l, r.map.ready g i = true ∧ (r.map.page i).live = some f ∧ r.map.refs[f] ≠ 0) := by
    intro l
    induction l with
    | nil => simp
    | cons i l ih =>
      intro hl r
      rw [List.nodup_cons] at hl
      rw [List.foldl_cons, ih hl.2, ExchangeMap.mem_swapPage_retiring, (ExchangeMap.swapPage_store g c r i).2.1]
      have hne : ∀ j ∈ l, j ≠ i := fun j hj h => hl.1 (h ▸ hj)
      constructor
      · rintro ((h | h) | ⟨j, hj, h⟩)
        · exact Or.inl h
        · exact Or.inr ⟨i, List.mem_cons_self .., h⟩
        · rw [(hready r i j (hne j hj)).1, (hready r i j (hne j hj)).2] at h
          exact Or.inr ⟨j, List.mem_cons_of_mem _ hj, h⟩
      · rintro (h | ⟨j, hj, h⟩)
        · exact Or.inl (Or.inl h)
        · rcases List.mem_cons.1 hj with rfl | hj
          · exact Or.inl (Or.inr h)
          · refine Or.inr ⟨j, hj, ?_⟩
            rw [(hready r i j (hne j hj)).1, (hready r i j (hne j hj)).2]
            exact h
  have hs := h (List.finRange 320) nodup_pages { map := m, published := 0, late := [] }
  rw [ExchangeMap.swap, hs]
  refine or_congr_right ?_
  constructor
  · rintro ⟨i, _, h⟩
    exact ⟨i, h⟩
  · rintro ⟨i, h⟩
    exact ⟨i, List.mem_finRange i, h⟩

end Sys2Proof.Machine
end

