-- ==== Sys2Proof/Laws/State.lean ====
section
/-! SUPPORT. One lemma for each field of State and each update of a field, so that no proof unfolds a record update;
and an update that overwrites another, or writes back what stands there. -/

namespace Sys2Proof.Machine

@[simp] theorem State.setPending_pending (s : State) (x : List Instr) : (s.setPending x).pending = x := rfl
@[simp] theorem State.setPending_choices (s : State) (x : List Instr) : (s.setPending x).choices = s.choices := rfl
@[simp] theorem State.setPending_inReset (s : State) (x : List Instr) : (s.setPending x).inReset = s.inReset := rfl
@[simp] theorem State.setPending_part (s : State) (x : List Instr) : (s.setPending x).part = s.part := rfl
@[simp] theorem State.setPending_link (s : State) (x : List Instr) : (s.setPending x).link = s.link := rfl
@[simp] theorem State.setPending_map (s : State) (x : List Instr) : (s.setPending x).map = s.map := rfl
@[simp] theorem State.setPending_sched (s : State) (x : List Instr) : (s.setPending x).sched = s.sched := rfl
@[simp] theorem State.setPending_pub (s : State) (x : List Instr) : (s.setPending x).pub = s.pub := rfl
@[simp] theorem State.setPending_hold (s : State) (x : List Instr) : (s.setPending x).hold = s.hold := rfl
@[simp] theorem State.setPending_view (s : State) (x : List Instr) : (s.setPending x).view = s.view := rfl
@[simp] theorem State.setPending_stop (s : State) (x : List Instr) : (s.setPending x).stop = s.stop := rfl
@[simp] theorem State.setPending_time (s : State) (x : List Instr) : (s.setPending x).time = s.time := rfl
@[simp] theorem State.setPending_notice (s : State) (x : List Instr) : (s.setPending x).notice = s.notice := rfl
@[simp] theorem State.setPending_twice (s : State) (x y : List Instr) :
    (s.setPending x).setPending y = s.setPending y := rfl
@[simp] theorem State.setPending_self (s : State) : s.setPending s.pending = s := rfl

@[simp] theorem State.setChoices_pending (s : State) (x : Nat) : (s.setChoices x).pending = s.pending := rfl
@[simp] theorem State.setChoices_choices (s : State) (x : Nat) : (s.setChoices x).choices = x := rfl
@[simp] theorem State.setChoices_inReset (s : State) (x : Nat) : (s.setChoices x).inReset = s.inReset := rfl
@[simp] theorem State.setChoices_part (s : State) (x : Nat) : (s.setChoices x).part = s.part := rfl
@[simp] theorem State.setChoices_link (s : State) (x : Nat) : (s.setChoices x).link = s.link := rfl
@[simp] theorem State.setChoices_map (s : State) (x : Nat) : (s.setChoices x).map = s.map := rfl
@[simp] theorem State.setChoices_sched (s : State) (x : Nat) : (s.setChoices x).sched = s.sched := rfl
@[simp] theorem State.setChoices_pub (s : State) (x : Nat) : (s.setChoices x).pub = s.pub := rfl
@[simp] theorem State.setChoices_hold (s : State) (x : Nat) : (s.setChoices x).hold = s.hold := rfl
@[simp] theorem State.setChoices_view (s : State) (x : Nat) : (s.setChoices x).view = s.view := rfl
@[simp] theorem State.setChoices_stop (s : State) (x : Nat) : (s.setChoices x).stop = s.stop := rfl
@[simp] theorem State.setChoices_time (s : State) (x : Nat) : (s.setChoices x).time = s.time := rfl
@[simp] theorem State.setChoices_notice (s : State) (x : Nat) : (s.setChoices x).notice = s.notice := rfl
@[simp] theorem State.setChoices_twice (s : State) (x y : Nat) :
    (s.setChoices x).setChoices y = s.setChoices y := rfl
@[simp] theorem State.setChoices_self (s : State) : s.setChoices s.choices = s := rfl

@[simp] theorem State.setInReset_pending (s : State) (x : Bool) : (s.setInReset x).pending = s.pending := rfl
@[simp] theorem State.setInReset_choices (s : State) (x : Bool) : (s.setInReset x).choices = s.choices := rfl
@[simp] theorem State.setInReset_inReset (s : State) (x : Bool) : (s.setInReset x).inReset = x := rfl
@[simp] theorem State.setInReset_part (s : State) (x : Bool) : (s.setInReset x).part = s.part := rfl
@[simp] theorem State.setInReset_link (s : State) (x : Bool) : (s.setInReset x).link = s.link := rfl
@[simp] theorem State.setInReset_map (s : State) (x : Bool) : (s.setInReset x).map = s.map := rfl
@[simp] theorem State.setInReset_sched (s : State) (x : Bool) : (s.setInReset x).sched = s.sched := rfl
@[simp] theorem State.setInReset_pub (s : State) (x : Bool) : (s.setInReset x).pub = s.pub := rfl
@[simp] theorem State.setInReset_hold (s : State) (x : Bool) : (s.setInReset x).hold = s.hold := rfl
@[simp] theorem State.setInReset_view (s : State) (x : Bool) : (s.setInReset x).view = s.view := rfl
@[simp] theorem State.setInReset_stop (s : State) (x : Bool) : (s.setInReset x).stop = s.stop := rfl
@[simp] theorem State.setInReset_time (s : State) (x : Bool) : (s.setInReset x).time = s.time := rfl
@[simp] theorem State.setInReset_notice (s : State) (x : Bool) : (s.setInReset x).notice = s.notice := rfl
@[simp] theorem State.setInReset_twice (s : State) (x y : Bool) :
    (s.setInReset x).setInReset y = s.setInReset y := rfl
@[simp] theorem State.setInReset_self (s : State) : s.setInReset s.inReset = s := rfl

@[simp] theorem State.setPart_pending (s : State) (x : PartState) : (s.setPart x).pending = s.pending := rfl
@[simp] theorem State.setPart_choices (s : State) (x : PartState) : (s.setPart x).choices = s.choices := rfl
@[simp] theorem State.setPart_inReset (s : State) (x : PartState) : (s.setPart x).inReset = s.inReset := rfl
@[simp] theorem State.setPart_part (s : State) (x : PartState) : (s.setPart x).part = x := rfl
@[simp] theorem State.setPart_link (s : State) (x : PartState) : (s.setPart x).link = s.link := rfl
@[simp] theorem State.setPart_map (s : State) (x : PartState) : (s.setPart x).map = s.map := rfl
@[simp] theorem State.setPart_sched (s : State) (x : PartState) : (s.setPart x).sched = s.sched := rfl
@[simp] theorem State.setPart_pub (s : State) (x : PartState) : (s.setPart x).pub = s.pub := rfl
@[simp] theorem State.setPart_hold (s : State) (x : PartState) : (s.setPart x).hold = s.hold := rfl
@[simp] theorem State.setPart_view (s : State) (x : PartState) : (s.setPart x).view = s.view := rfl
@[simp] theorem State.setPart_stop (s : State) (x : PartState) : (s.setPart x).stop = s.stop := rfl
@[simp] theorem State.setPart_time (s : State) (x : PartState) : (s.setPart x).time = s.time := rfl
@[simp] theorem State.setPart_notice (s : State) (x : PartState) : (s.setPart x).notice = s.notice := rfl
@[simp] theorem State.setPart_twice (s : State) (x y : PartState) :
    (s.setPart x).setPart y = s.setPart y := rfl
@[simp] theorem State.setPart_self (s : State) : s.setPart s.part = s := rfl

@[simp] theorem State.setLink_pending (s : State) (x : Vector LinkPort 4) : (s.setLink x).pending = s.pending := rfl
@[simp] theorem State.setLink_choices (s : State) (x : Vector LinkPort 4) : (s.setLink x).choices = s.choices := rfl
@[simp] theorem State.setLink_inReset (s : State) (x : Vector LinkPort 4) : (s.setLink x).inReset = s.inReset := rfl
@[simp] theorem State.setLink_part (s : State) (x : Vector LinkPort 4) : (s.setLink x).part = s.part := rfl
@[simp] theorem State.setLink_link (s : State) (x : Vector LinkPort 4) : (s.setLink x).link = x := rfl
@[simp] theorem State.setLink_map (s : State) (x : Vector LinkPort 4) : (s.setLink x).map = s.map := rfl
@[simp] theorem State.setLink_sched (s : State) (x : Vector LinkPort 4) : (s.setLink x).sched = s.sched := rfl
@[simp] theorem State.setLink_pub (s : State) (x : Vector LinkPort 4) : (s.setLink x).pub = s.pub := rfl
@[simp] theorem State.setLink_hold (s : State) (x : Vector LinkPort 4) : (s.setLink x).hold = s.hold := rfl
@[simp] theorem State.setLink_view (s : State) (x : Vector LinkPort 4) : (s.setLink x).view = s.view := rfl
@[simp] theorem State.setLink_stop (s : State) (x : Vector LinkPort 4) : (s.setLink x).stop = s.stop := rfl
@[simp] theorem State.setLink_time (s : State) (x : Vector LinkPort 4) : (s.setLink x).time = s.time := rfl
@[simp] theorem State.setLink_notice (s : State) (x : Vector LinkPort 4) : (s.setLink x).notice = s.notice := rfl
@[simp] theorem State.setLink_twice (s : State) (x y : Vector LinkPort 4) :
    (s.setLink x).setLink y = s.setLink y := rfl
@[simp] theorem State.setLink_self (s : State) : s.setLink s.link = s := rfl

@[simp] theorem State.setMap_pending (s : State) (x : ExchangeMap) : (s.setMap x).pending = s.pending := rfl
@[simp] theorem State.setMap_choices (s : State) (x : ExchangeMap) : (s.setMap x).choices = s.choices := rfl
@[simp] theorem State.setMap_inReset (s : State) (x : ExchangeMap) : (s.setMap x).inReset = s.inReset := rfl
@[simp] theorem State.setMap_part (s : State) (x : ExchangeMap) : (s.setMap x).part = s.part := rfl
@[simp] theorem State.setMap_link (s : State) (x : ExchangeMap) : (s.setMap x).link = s.link := rfl
@[simp] theorem State.setMap_map (s : State) (x : ExchangeMap) : (s.setMap x).map = x := rfl
@[simp] theorem State.setMap_sched (s : State) (x : ExchangeMap) : (s.setMap x).sched = s.sched := rfl
@[simp] theorem State.setMap_pub (s : State) (x : ExchangeMap) : (s.setMap x).pub = s.pub := rfl
@[simp] theorem State.setMap_hold (s : State) (x : ExchangeMap) : (s.setMap x).hold = s.hold := rfl
@[simp] theorem State.setMap_view (s : State) (x : ExchangeMap) : (s.setMap x).view = s.view := rfl
@[simp] theorem State.setMap_stop (s : State) (x : ExchangeMap) : (s.setMap x).stop = s.stop := rfl
@[simp] theorem State.setMap_time (s : State) (x : ExchangeMap) : (s.setMap x).time = s.time := rfl
@[simp] theorem State.setMap_notice (s : State) (x : ExchangeMap) : (s.setMap x).notice = s.notice := rfl
@[simp] theorem State.setMap_twice (s : State) (x y : ExchangeMap) :
    (s.setMap x).setMap y = s.setMap y := rfl
@[simp] theorem State.setMap_self (s : State) : s.setMap s.map = s := rfl

@[simp] theorem State.setSched_pending (s : State) (x : Schedule) : (s.setSched x).pending = s.pending := rfl
@[simp] theorem State.setSched_choices (s : State) (x : Schedule) : (s.setSched x).choices = s.choices := rfl
@[simp] theorem State.setSched_inReset (s : State) (x : Schedule) : (s.setSched x).inReset = s.inReset := rfl
@[simp] theorem State.setSched_part (s : State) (x : Schedule) : (s.setSched x).part = s.part := rfl
@[simp] theorem State.setSched_link (s : State) (x : Schedule) : (s.setSched x).link = s.link := rfl
@[simp] theorem State.setSched_map (s : State) (x : Schedule) : (s.setSched x).map = s.map := rfl
@[simp] theorem State.setSched_sched (s : State) (x : Schedule) : (s.setSched x).sched = x := rfl
@[simp] theorem State.setSched_pub (s : State) (x : Schedule) : (s.setSched x).pub = s.pub := rfl
@[simp] theorem State.setSched_hold (s : State) (x : Schedule) : (s.setSched x).hold = s.hold := rfl
@[simp] theorem State.setSched_view (s : State) (x : Schedule) : (s.setSched x).view = s.view := rfl
@[simp] theorem State.setSched_stop (s : State) (x : Schedule) : (s.setSched x).stop = s.stop := rfl
@[simp] theorem State.setSched_time (s : State) (x : Schedule) : (s.setSched x).time = s.time := rfl
@[simp] theorem State.setSched_notice (s : State) (x : Schedule) : (s.setSched x).notice = s.notice := rfl
@[simp] theorem State.setSched_twice (s : State) (x y : Schedule) :
    (s.setSched x).setSched y = s.setSched y := rfl
@[simp] theorem State.setSched_self (s : State) : s.setSched s.sched = s := rfl

@[simp] theorem State.setPub_pending (s : State) (x : PublicationUnit) : (s.setPub x).pending = s.pending := rfl
@[simp] theorem State.setPub_choices (s : State) (x : PublicationUnit) : (s.setPub x).choices = s.choices := rfl
@[simp] theorem State.setPub_inReset (s : State) (x : PublicationUnit) : (s.setPub x).inReset = s.inReset := rfl
@[simp] theorem State.setPub_part (s : State) (x : PublicationUnit) : (s.setPub x).part = s.part := rfl
@[simp] theorem State.setPub_link (s : State) (x : PublicationUnit) : (s.setPub x).link = s.link := rfl
@[simp] theorem State.setPub_map (s : State) (x : PublicationUnit) : (s.setPub x).map = s.map := rfl
@[simp] theorem State.setPub_sched (s : State) (x : PublicationUnit) : (s.setPub x).sched = s.sched := rfl
@[simp] theorem State.setPub_pub (s : State) (x : PublicationUnit) : (s.setPub x).pub = x := rfl
@[simp] theorem State.setPub_hold (s : State) (x : PublicationUnit) : (s.setPub x).hold = s.hold := rfl
@[simp] theorem State.setPub_view (s : State) (x : PublicationUnit) : (s.setPub x).view = s.view := rfl
@[simp] theorem State.setPub_stop (s : State) (x : PublicationUnit) : (s.setPub x).stop = s.stop := rfl
@[simp] theorem State.setPub_time (s : State) (x : PublicationUnit) : (s.setPub x).time = s.time := rfl
@[simp] theorem State.setPub_notice (s : State) (x : PublicationUnit) : (s.setPub x).notice = s.notice := rfl
@[simp] theorem State.setPub_twice (s : State) (x y : PublicationUnit) :
    (s.setPub x).setPub y = s.setPub y := rfl
@[simp] theorem State.setPub_self (s : State) : s.setPub s.pub = s := rfl

@[simp] theorem State.setHold_pending (s : State) (x : HoldTable) : (s.setHold x).pending = s.pending := rfl
@[simp] theorem State.setHold_choices (s : State) (x : HoldTable) : (s.setHold x).choices = s.choices := rfl
@[simp] theorem State.setHold_inReset (s : State) (x : HoldTable) : (s.setHold x).inReset = s.inReset := rfl
@[simp] theorem State.setHold_part (s : State) (x : HoldTable) : (s.setHold x).part = s.part := rfl
@[simp] theorem State.setHold_link (s : State) (x : HoldTable) : (s.setHold x).link = s.link := rfl
@[simp] theorem State.setHold_map (s : State) (x : HoldTable) : (s.setHold x).map = s.map := rfl
@[simp] theorem State.setHold_sched (s : State) (x : HoldTable) : (s.setHold x).sched = s.sched := rfl
@[simp] theorem State.setHold_pub (s : State) (x : HoldTable) : (s.setHold x).pub = s.pub := rfl
@[simp] theorem State.setHold_hold (s : State) (x : HoldTable) : (s.setHold x).hold = x := rfl
@[simp] theorem State.setHold_view (s : State) (x : HoldTable) : (s.setHold x).view = s.view := rfl
@[simp] theorem State.setHold_stop (s : State) (x : HoldTable) : (s.setHold x).stop = s.stop := rfl
@[simp] theorem State.setHold_time (s : State) (x : HoldTable) : (s.setHold x).time = s.time := rfl
@[simp] theorem State.setHold_notice (s : State) (x : HoldTable) : (s.setHold x).notice = s.notice := rfl
@[simp] theorem State.setHold_twice (s : State) (x y : HoldTable) :
    (s.setHold x).setHold y = s.setHold y := rfl
@[simp] theorem State.setHold_self (s : State) : s.setHold s.hold = s := rfl

@[simp] theorem State.setView_pending (s : State) (x : ViewUnit) : (s.setView x).pending = s.pending := rfl
@[simp] theorem State.setView_choices (s : State) (x : ViewUnit) : (s.setView x).choices = s.choices := rfl
@[simp] theorem State.setView_inReset (s : State) (x : ViewUnit) : (s.setView x).inReset = s.inReset := rfl
@[simp] theorem State.setView_part (s : State) (x : ViewUnit) : (s.setView x).part = s.part := rfl
@[simp] theorem State.setView_link (s : State) (x : ViewUnit) : (s.setView x).link = s.link := rfl
@[simp] theorem State.setView_map (s : State) (x : ViewUnit) : (s.setView x).map = s.map := rfl
@[simp] theorem State.setView_sched (s : State) (x : ViewUnit) : (s.setView x).sched = s.sched := rfl
@[simp] theorem State.setView_pub (s : State) (x : ViewUnit) : (s.setView x).pub = s.pub := rfl
@[simp] theorem State.setView_hold (s : State) (x : ViewUnit) : (s.setView x).hold = s.hold := rfl
@[simp] theorem State.setView_view (s : State) (x : ViewUnit) : (s.setView x).view = x := rfl
@[simp] theorem State.setView_stop (s : State) (x : ViewUnit) : (s.setView x).stop = s.stop := rfl
@[simp] theorem State.setView_time (s : State) (x : ViewUnit) : (s.setView x).time = s.time := rfl
@[simp] theorem State.setView_notice (s : State) (x : ViewUnit) : (s.setView x).notice = s.notice := rfl
@[simp] theorem State.setView_twice (s : State) (x y : ViewUnit) :
    (s.setView x).setView y = s.setView y := rfl
@[simp] theorem State.setView_self (s : State) : s.setView s.view = s := rfl

@[simp] theorem State.setStop_pending (s : State) (x : StopUnit) : (s.setStop x).pending = s.pending := rfl
@[simp] theorem State.setStop_choices (s : State) (x : StopUnit) : (s.setStop x).choices = s.choices := rfl
@[simp] theorem State.setStop_inReset (s : State) (x : StopUnit) : (s.setStop x).inReset = s.inReset := rfl
@[simp] theorem State.setStop_part (s : State) (x : StopUnit) : (s.setStop x).part = s.part := rfl
@[simp] theorem State.setStop_link (s : State) (x : StopUnit) : (s.setStop x).link = s.link := rfl
@[simp] theorem State.setStop_map (s : State) (x : StopUnit) : (s.setStop x).map = s.map := rfl
@[simp] theorem State.setStop_sched (s : State) (x : StopUnit) : (s.setStop x).sched = s.sched := rfl
@[simp] theorem State.setStop_pub (s : State) (x : StopUnit) : (s.setStop x).pub = s.pub := rfl
@[simp] theorem State.setStop_hold (s : State) (x : StopUnit) : (s.setStop x).hold = s.hold := rfl
@[simp] theorem State.setStop_view (s : State) (x : StopUnit) : (s.setStop x).view = s.view := rfl
@[simp] theorem State.setStop_stop (s : State) (x : StopUnit) : (s.setStop x).stop = x := rfl
@[simp] theorem State.setStop_time (s : State) (x : StopUnit) : (s.setStop x).time = s.time := rfl
@[simp] theorem State.setStop_notice (s : State) (x : StopUnit) : (s.setStop x).notice = s.notice := rfl
@[simp] theorem State.setStop_twice (s : State) (x y : StopUnit) :
    (s.setStop x).setStop y = s.setStop y := rfl
@[simp] theorem State.setStop_self (s : State) : s.setStop s.stop = s := rfl

@[simp] theorem State.setTime_pending (s : State) (x : Timebase) : (s.setTime x).pending = s.pending := rfl
@[simp] theorem State.setTime_choices (s : State) (x : Timebase) : (s.setTime x).choices = s.choices := rfl
@[simp] theorem State.setTime_inReset (s : State) (x : Timebase) : (s.setTime x).inReset = s.inReset := rfl
@[simp] theorem State.setTime_part (s : State) (x : Timebase) : (s.setTime x).part = s.part := rfl
@[simp] theorem State.setTime_link (s : State) (x : Timebase) : (s.setTime x).link = s.link := rfl
@[simp] theorem State.setTime_map (s : State) (x : Timebase) : (s.setTime x).map = s.map := rfl
@[simp] theorem State.setTime_sched (s : State) (x : Timebase) : (s.setTime x).sched = s.sched := rfl
@[simp] theorem State.setTime_pub (s : State) (x : Timebase) : (s.setTime x).pub = s.pub := rfl
@[simp] theorem State.setTime_hold (s : State) (x : Timebase) : (s.setTime x).hold = s.hold := rfl
@[simp] theorem State.setTime_view (s : State) (x : Timebase) : (s.setTime x).view = s.view := rfl
@[simp] theorem State.setTime_stop (s : State) (x : Timebase) : (s.setTime x).stop = s.stop := rfl
@[simp] theorem State.setTime_time (s : State) (x : Timebase) : (s.setTime x).time = x := rfl
@[simp] theorem State.setTime_notice (s : State) (x : Timebase) : (s.setTime x).notice = s.notice := rfl
@[simp] theorem State.setTime_twice (s : State) (x y : Timebase) :
    (s.setTime x).setTime y = s.setTime y := rfl
@[simp] theorem State.setTime_self (s : State) : s.setTime s.time = s := rfl

@[simp] theorem State.setNotice_pending (s : State) (x : NoticeUnit) : (s.setNotice x).pending = s.pending := rfl
@[simp] theorem State.setNotice_choices (s : State) (x : NoticeUnit) : (s.setNotice x).choices = s.choices := rfl
@[simp] theorem State.setNotice_inReset (s : State) (x : NoticeUnit) : (s.setNotice x).inReset = s.inReset := rfl
@[simp] theorem State.setNotice_part (s : State) (x : NoticeUnit) : (s.setNotice x).part = s.part := rfl
@[simp] theorem State.setNotice_link (s : State) (x : NoticeUnit) : (s.setNotice x).link = s.link := rfl
@[simp] theorem State.setNotice_map (s : State) (x : NoticeUnit) : (s.setNotice x).map = s.map := rfl
@[simp] theorem State.setNotice_sched (s : State) (x : NoticeUnit) : (s.setNotice x).sched = s.sched := rfl
@[simp] theorem State.setNotice_pub (s : State) (x : NoticeUnit) : (s.setNotice x).pub = s.pub := rfl
@[simp] theorem State.setNotice_hold (s : State) (x : NoticeUnit) : (s.setNotice x).hold = s.hold := rfl
@[simp] theorem State.setNotice_view (s : State) (x : NoticeUnit) : (s.setNotice x).view = s.view := rfl
@[simp] theorem State.setNotice_stop (s : State) (x : NoticeUnit) : (s.setNotice x).stop = s.stop := rfl
@[simp] theorem State.setNotice_time (s : State) (x : NoticeUnit) : (s.setNotice x).time = s.time := rfl
@[simp] theorem State.setNotice_notice (s : State) (x : NoticeUnit) : (s.setNotice x).notice = x := rfl
@[simp] theorem State.setNotice_twice (s : State) (x y : NoticeUnit) :
    (s.setNotice x).setNotice y = s.setNotice y := rfl
@[simp] theorem State.setNotice_self (s : State) : s.setNotice s.notice = s := rfl

/-- Two states with equal fields are equal. -/
theorem State.eq_of_fields {s t : State} (h1 : s.pending = t.pending) (h2 : s.choices = t.choices)
    (h3 : s.inReset = t.inReset) (h4 : s.part = t.part) (h5 : s.link = t.link) (h6 : s.map = t.map)
    (h7 : s.sched = t.sched) (h8 : s.pub = t.pub) (h9 : s.hold = t.hold) (h10 : s.view = t.view)
    (h11 : s.stop = t.stop) (h12 : s.time = t.time) (h13 : s.notice = t.notice) : s = t := by
  cases s
  cases t
  simp_all

end Sys2Proof.Machine
end

