-- ==== Sys2Proof/Laws/Ports.lean ====
section
/-! SUPPORT. What the operations on a link port do: reading and replacing a port, receiving, answering, and the four
ways in which a request is served. -/

namespace Sys2Proof.Machine

/-! ### Reading and replacing a port -/

@[simp] theorem State.port_setPort_same (s : State) (p : Port) (l : LinkPort) : (s.setPort p l).port p = l := by
  simp [State.port, State.setPort]

theorem State.port_setPort_ne (s : State) {p q : Port} (l : LinkPort) (h : q ≠ p) :
    (s.setPort p l).port q = s.port q := by
  have h' : p.val ≠ q.val := fun e => h (Fin.ext e.symm)
  simp [State.port, State.setPort, h']

theorem State.port_setPort (s : State) (p q : Port) (l : LinkPort) :
    (s.setPort p l).port q = if q = p then l else s.port q := by
  by_cases h : q = p
  · subst h
    simp
  · simp [h, State.port_setPort_ne s l h]

@[simp] theorem State.setPort_twice (s : State) (p : Port) (l l' : LinkPort) :
    (s.setPort p l).setPort p l' = s.setPort p l' := by
  simp [State.setPort]

@[simp] theorem State.setPort_pending (s : State) (p : Port) (l : LinkPort) : (s.setPort p l).pending = s.pending := rfl
@[simp] theorem State.setPort_choices (s : State) (p : Port) (l : LinkPort) : (s.setPort p l).choices = s.choices := rfl
@[simp] theorem State.setPort_inReset (s : State) (p : Port) (l : LinkPort) : (s.setPort p l).inReset = s.inReset := rfl
@[simp] theorem State.setPort_part (s : State) (p : Port) (l : LinkPort) : (s.setPort p l).part = s.part := rfl
@[simp] theorem State.setPort_map (s : State) (p : Port) (l : LinkPort) : (s.setPort p l).map = s.map := rfl
@[simp] theorem State.setPort_sched (s : State) (p : Port) (l : LinkPort) : (s.setPort p l).sched = s.sched := rfl
@[simp] theorem State.setPort_pub (s : State) (p : Port) (l : LinkPort) : (s.setPort p l).pub = s.pub := rfl
@[simp] theorem State.setPort_hold (s : State) (p : Port) (l : LinkPort) : (s.setPort p l).hold = s.hold := rfl
@[simp] theorem State.setPort_view (s : State) (p : Port) (l : LinkPort) : (s.setPort p l).view = s.view := rfl
@[simp] theorem State.setPort_stop (s : State) (p : Port) (l : LinkPort) : (s.setPort p l).stop = s.stop := rfl
@[simp] theorem State.setPort_time (s : State) (p : Port) (l : LinkPort) : (s.setPort p l).time = s.time := rfl
@[simp] theorem State.setPort_notice (s : State) (p : Port) (l : LinkPort) : (s.setPort p l).notice = s.notice := rfl

/-- A port depends on the link alone. -/
theorem State.port_congr {s t : State} (h : s.link = t.link) (p : Port) : s.port p = t.port p := by
  simp [State.port, h]

/-- Answering touches the port alone. -/
theorem State.answer_eq (s : State) (p : Port) (c : Status) (b : List Byte) :
    s.answer p c b = s.setPort p { s.port p with tx := .response { status := c, body := b } } := rfl

/-- Receiving touches the port alone. -/
theorem State.receive_eq (s : State) (p : Port) (bytes : List Byte) :
    s.receive p bytes = s.setPort p { s.port p with received := bytes } := rfl

/-- Receiving a request and answering it leaves the answered port. -/
theorem State.answer_receive (s : State) (p : Port) (i : Instr) (c : Status) (b : List Byte) :
    (s.receive p i.record).answer p c b = s.answered p i c b := by
  simp [State.answer_eq, State.receive_eq, State.answered]

/-! ### Ports and the other blocks pass each other by -/

@[simp] theorem State.port_setPending (s : State) (x : List Instr) (p : Port) : (s.setPending x).port p = s.port p := rfl
@[simp] theorem State.port_setChoices (s : State) (x : Nat) (p : Port) : (s.setChoices x).port p = s.port p := rfl
@[simp] theorem State.port_setInReset (s : State) (x : Bool) (p : Port) : (s.setInReset x).port p = s.port p := rfl
@[simp] theorem State.port_setPart (s : State) (x : PartState) (p : Port) : (s.setPart x).port p = s.port p := rfl
@[simp] theorem State.port_setMap (s : State) (x : ExchangeMap) (p : Port) : (s.setMap x).port p = s.port p := rfl
@[simp] theorem State.port_setSched (s : State) (x : Schedule) (p : Port) : (s.setSched x).port p = s.port p := rfl
@[simp] theorem State.port_setPub (s : State) (x : PublicationUnit) (p : Port) : (s.setPub x).port p = s.port p := rfl
@[simp] theorem State.port_setHold (s : State) (x : HoldTable) (p : Port) : (s.setHold x).port p = s.port p := rfl
@[simp] theorem State.port_setView (s : State) (x : ViewUnit) (p : Port) : (s.setView x).port p = s.port p := rfl
@[simp] theorem State.port_setStop (s : State) (x : StopUnit) (p : Port) : (s.setStop x).port p = s.port p := rfl
@[simp] theorem State.port_setTime (s : State) (x : Timebase) (p : Port) : (s.setTime x).port p = s.port p := rfl
@[simp] theorem State.port_setNotice (s : State) (x : NoticeUnit) (p : Port) : (s.setNotice x).port p = s.port p := rfl

@[simp] theorem State.setPort_setPending (s : State) (x : List Instr) (p : Port) (l : LinkPort) :
    (s.setPort p l).setPending x = (s.setPending x).setPort p l := rfl
@[simp] theorem State.setPort_setChoices (s : State) (x : Nat) (p : Port) (l : LinkPort) :
    (s.setPort p l).setChoices x = (s.setChoices x).setPort p l := rfl
@[simp] theorem State.setPort_setInReset (s : State) (x : Bool) (p : Port) (l : LinkPort) :
    (s.setPort p l).setInReset x = (s.setInReset x).setPort p l := rfl
@[simp] theorem State.setPort_setPart (s : State) (x : PartState) (p : Port) (l : LinkPort) :
    (s.setPort p l).setPart x = (s.setPart x).setPort p l := rfl
@[simp] theorem State.setPort_setMap (s : State) (x : ExchangeMap) (p : Port) (l : LinkPort) :
    (s.setPort p l).setMap x = (s.setMap x).setPort p l := rfl
@[simp] theorem State.setPort_setSched (s : State) (x : Schedule) (p : Port) (l : LinkPort) :
    (s.setPort p l).setSched x = (s.setSched x).setPort p l := rfl
@[simp] theorem State.setPort_setPub (s : State) (x : PublicationUnit) (p : Port) (l : LinkPort) :
    (s.setPort p l).setPub x = (s.setPub x).setPort p l := rfl
@[simp] theorem State.setPort_setHold (s : State) (x : HoldTable) (p : Port) (l : LinkPort) :
    (s.setPort p l).setHold x = (s.setHold x).setPort p l := rfl
@[simp] theorem State.setPort_setView (s : State) (x : ViewUnit) (p : Port) (l : LinkPort) :
    (s.setPort p l).setView x = (s.setView x).setPort p l := rfl
@[simp] theorem State.setPort_setStop (s : State) (x : StopUnit) (p : Port) (l : LinkPort) :
    (s.setPort p l).setStop x = (s.setStop x).setPort p l := rfl
@[simp] theorem State.setPort_setTime (s : State) (x : Timebase) (p : Port) (l : LinkPort) :
    (s.setPort p l).setTime x = (s.setTime x).setPort p l := rfl
@[simp] theorem State.setPort_setNotice (s : State) (x : NoticeUnit) (p : Port) (l : LinkPort) :
    (s.setPort p l).setNotice x = (s.setNotice x).setPort p l := rfl

@[simp] theorem State.receive_pending (s : State) (p : Port) (b : List Byte) : (s.receive p b).pending = s.pending := rfl
@[simp] theorem State.receive_choices (s : State) (p : Port) (b : List Byte) : (s.receive p b).choices = s.choices := rfl
@[simp] theorem State.receive_inReset (s : State) (p : Port) (b : List Byte) : (s.receive p b).inReset = s.inReset := rfl
@[simp] theorem State.receive_part (s : State) (p : Port) (b : List Byte) : (s.receive p b).part = s.part := rfl
@[simp] theorem State.receive_map (s : State) (p : Port) (b : List Byte) : (s.receive p b).map = s.map := rfl
@[simp] theorem State.receive_sched (s : State) (p : Port) (b : List Byte) : (s.receive p b).sched = s.sched := rfl
@[simp] theorem State.receive_pub (s : State) (p : Port) (b : List Byte) : (s.receive p b).pub = s.pub := rfl
@[simp] theorem State.receive_hold (s : State) (p : Port) (b : List Byte) : (s.receive p b).hold = s.hold := rfl
@[simp] theorem State.receive_view (s : State) (p : Port) (b : List Byte) : (s.receive p b).view = s.view := rfl
@[simp] theorem State.receive_stop (s : State) (p : Port) (b : List Byte) : (s.receive p b).stop = s.stop := rfl
@[simp] theorem State.receive_time (s : State) (p : Port) (b : List Byte) : (s.receive p b).time = s.time := rfl
@[simp] theorem State.receive_notice (s : State) (p : Port) (b : List Byte) : (s.receive p b).notice = s.notice := rfl

@[simp] theorem State.answer_pending (s : State) (p : Port) (c : Status) (b : List Byte) :
    (s.answer p c b).pending = s.pending := rfl
@[simp] theorem State.answer_choices (s : State) (p : Port) (c : Status) (b : List Byte) :
    (s.answer p c b).choices = s.choices := rfl
@[simp] theorem State.answer_inReset (s : State) (p : Port) (c : Status) (b : List Byte) :
    (s.answer p c b).inReset = s.inReset := rfl
@[simp] theorem State.answer_part (s : State) (p : Port) (c : Status) (b : List Byte) :
    (s.answer p c b).part = s.part := rfl
@[simp] theorem State.answer_map (s : State) (p : Port) (c : Status) (b : List Byte) :
    (s.answer p c b).map = s.map := rfl
@[simp] theorem State.answer_sched (s : State) (p : Port) (c : Status) (b : List Byte) :
    (s.answer p c b).sched = s.sched := rfl
@[simp] theorem State.answer_pub (s : State) (p : Port) (c : Status) (b : List Byte) :
    (s.answer p c b).pub = s.pub := rfl
@[simp] theorem State.answer_hold (s : State) (p : Port) (c : Status) (b : List Byte) :
    (s.answer p c b).hold = s.hold := rfl
@[simp] theorem State.answer_view (s : State) (p : Port) (c : Status) (b : List Byte) :
    (s.answer p c b).view = s.view := rfl
@[simp] theorem State.answer_stop (s : State) (p : Port) (c : Status) (b : List Byte) :
    (s.answer p c b).stop = s.stop := rfl
@[simp] theorem State.answer_time (s : State) (p : Port) (c : Status) (b : List Byte) :
    (s.answer p c b).time = s.time := rfl
@[simp] theorem State.answer_notice (s : State) (p : Port) (c : Status) (b : List Byte) :
    (s.answer p c b).notice = s.notice := rfl

@[simp] theorem State.answered_pending (s : State) (p : Port) (i : Instr) (c : Status) (b : List Byte) :
    (s.answered p i c b).pending = s.pending := rfl
@[simp] theorem State.answered_choices (s : State) (p : Port) (i : Instr) (c : Status) (b : List Byte) :
    (s.answered p i c b).choices = s.choices := rfl
@[simp] theorem State.answered_inReset (s : State) (p : Port) (i : Instr) (c : Status) (b : List Byte) :
    (s.answered p i c b).inReset = s.inReset := rfl
@[simp] theorem State.answered_part (s : State) (p : Port) (i : Instr) (c : Status) (b : List Byte) :
    (s.answered p i c b).part = s.part := rfl
@[simp] theorem State.answered_map (s : State) (p : Port) (i : Instr) (c : Status) (b : List Byte) :
    (s.answered p i c b).map = s.map := rfl
@[simp] theorem State.answered_sched (s : State) (p : Port) (i : Instr) (c : Status) (b : List Byte) :
    (s.answered p i c b).sched = s.sched := rfl
@[simp] theorem State.answered_pub (s : State) (p : Port) (i : Instr) (c : Status) (b : List Byte) :
    (s.answered p i c b).pub = s.pub := rfl
@[simp] theorem State.answered_hold (s : State) (p : Port) (i : Instr) (c : Status) (b : List Byte) :
    (s.answered p i c b).hold = s.hold := rfl
@[simp] theorem State.answered_view (s : State) (p : Port) (i : Instr) (c : Status) (b : List Byte) :
    (s.answered p i c b).view = s.view := rfl
@[simp] theorem State.answered_stop (s : State) (p : Port) (i : Instr) (c : Status) (b : List Byte) :
    (s.answered p i c b).stop = s.stop := rfl
@[simp] theorem State.answered_time (s : State) (p : Port) (i : Instr) (c : Status) (b : List Byte) :
    (s.answered p i c b).time = s.time := rfl
@[simp] theorem State.answered_notice (s : State) (p : Port) (i : Instr) (c : Status) (b : List Byte) :
    (s.answered p i c b).notice = s.notice := rfl

/-! ### Serving a request -/

theorem State.ReadyFor.awaits {s : State} {p : Port} (h : s.ReadyFor p) : s.awaitsRequest p = true := by
  simp [State.awaitsRequest, h.1, h.2]

theorem State.readyFor_iff (s : State) (p : Port) : s.ReadyFor p ↔ s.awaitsRequest p = true := by
  simp [State.awaitsRequest, State.ReadyFor]

/-- A port that is not in REQUEST takes no request. -/
theorem State.serve_ignored {α : Type} {s : State} {p : Port} {r : Option RightName} {params : Option α}
    {act : α → State → State} (record : List Byte) (h : ¬ s.ReadyFor p) : s.serve p record r params act = s := by
  have h' : s.awaitsRequest p = false := by
    cases hb : s.awaitsRequest p with
    | false => rfl
    | true => exact absurd ((State.readyFor_iff s p).2 hb) h
  simp [State.serve, h']

/-- Parameters out of range: BAD_RANGE, and no block is reached. -/
theorem State.serve_badRange {α : Type} {s : State} {p : Port} {r : Option RightName} {params : Option α}
    {act : α → State → State} (i : Instr) (h : s.ReadyFor p) (hp : params = none) :
    s.serve p i.record r params act = s.answered p i .badRange [] := by
  subst hp
  simp [State.serve, h.awaits, State.answer_receive]

/-- A missing right: NO_PERMISSION, and no block is reached. -/
theorem State.serve_noPermission {α : Type} {s : State} {p : Port} {r : Option RightName} {params : Option α}
    {act : α → State → State} {a : α} (i : Instr) (h : s.ReadyFor p) (hp : params = some a)
    (hr : s.lacksRight p r = true) : s.serve p i.record r params act = s.answered p i .noPermission [] := by
  subst hp
  simp [State.serve, h.awaits, hr, State.answer_receive]

/-- Acceptance: the request is handed to its block. -/
theorem State.serve_accepted {α : Type} {s : State} {p : Port} {r : Option RightName} {params : Option α}
    {act : α → State → State} {a : α} (record : List Byte) (h : s.ReadyFor p) (hp : params = some a)
    (hr : s.lacksRight p r = false) : s.serve p record r params act = act a (s.receive p record) := by
  subst hp
  simp [State.serve, h.awaits, hr]

/-- What serving a request can do, said once: nothing, a refusal at the port, or the block's own effect. -/
theorem State.serve_cases {α : Type} (s : State) (p : Port) (record : List Byte) (r : Option RightName)
    (params : Option α) (act : α → State → State) :
    s.serve p record r params act = s ∨
      (∃ c, s.serve p record r params act = (s.receive p record).answer p c []) ∨
        ∃ a, params = some a ∧ s.serve p record r params act = act a (s.receive p record) := by
  unfold State.serve
  split
  · cases params with
    | none => exact Or.inr (Or.inl ⟨_, rfl⟩)
    | some a =>
      dsimp only
      split
      · exact Or.inr (Or.inl ⟨_, rfl⟩)
      · exact Or.inr (Or.inr ⟨a, rfl, rfl⟩)
  · exact Or.inl rfl

@[simp] theorem State.lacksRight_none (s : State) (p : Port) : s.lacksRight p none = false := rfl

theorem State.MapAllowed.lacks {s : State} {p : Port} (h : s.MapAllowed p) : s.lacksRight p (some .map) = false := by
  rcases h with h | h
  · simp [State.lacksRight, h]
  · simp [State.lacksRight, State.holdsRight, h]

theorem State.PlanAllowed.lacks {s : State} {p : Port} (h : s.PlanAllowed p) :
    s.lacksRight p (some .plan) = false := by
  rcases h with h | h
  · simp [State.lacksRight, h]
  · simp [State.lacksRight, State.holdsRight, h]

theorem State.inSetup_setup {s : State} {p : Port} {act : State → State} (h : s.part = .setup) :
    s.inSetup p act = act s := by
  simp [State.inSetup, h]

theorem State.inSetup_run {s : State} {p : Port} {act : State → State} (h : s.part = .run) :
    s.inSetup p act = s.answer p .wrongState [] := by
  simp [State.inSetup, h]

theorem State.unlessReset_released {s : State} {act : State → State} (h : s.inReset = false) :
    s.unlessReset act = act s := by
  simp [State.unlessReset, h]

theorem State.unlessReset_held {s : State} {act : State → State} (h : s.inReset = true) : s.unlessReset act = s := by
  simp [State.unlessReset, h]

end Sys2Proof.Machine
end

