-- ==== Sys2Proof/Laws/Notices.lean ====
section
/-! SUPPORT. What the notice unit's claims do: which state they touch, the laws they keep, and that a notice taken is
found in the queue unless the queue was full. -/

namespace Sys2Proof.Machine

theorem getElem_forPorts {α : Type} (f : Port → α) (p : Port) : (forPorts f)[p] = f p := by
  match p with
  | 0 => rfl
  | 1 => rfl
  | 2 => rfl
  | 3 => rfl

/-- The same with the index as a number, which is how simp writes it. -/
@[simp] theorem getElem_forPorts_val {α : Type} (f : Port → α) (p : Port) : (forPorts f)[p.val] = f p :=
  getElem_forPorts f p

theorem forPorts_eq {α : Type} (v : Vector α 4) : (forPorts fun p => v[p]) = v := by
  apply Vector.ext
  intro i hi
  exact getElem_forPorts (fun p => v[p]) ⟨i, hi⟩

theorem NoticeUnit.take_ports (u : NoticeUnit) (c : NoticeClaim) (p : Port) :
    (u.take c).ports[p] = NoticePort.take u.ports[p] p c :=
  getElem_forPorts _ p

theorem NoticeUnit.setPort_same (u : NoticeUnit) (p : Port) (n : NoticePort) : (u.setPort p n).ports[p] = n := by
  simp [NoticeUnit.setPort]

theorem NoticeUnit.setPort_ne (u : NoticeUnit) {p q : Port} (n : NoticePort) (h : q ≠ p) :
    (u.setPort p n).ports[q] = u.ports[q] := by
  have h' : p.val ≠ q.val := fun e => h (Fin.ext e.symm)
  simp [NoticeUnit.setPort, h']

/-! ### Frames -/

@[simp] theorem State.takeNotices_pending (s : State) (cs : List NoticeClaim) : (s.takeNotices cs).pending = s.pending := rfl
@[simp] theorem State.takeNotices_choices (s : State) (cs : List NoticeClaim) : (s.takeNotices cs).choices = s.choices := rfl
@[simp] theorem State.takeNotices_inReset (s : State) (cs : List NoticeClaim) : (s.takeNotices cs).inReset = s.inReset := rfl
@[simp] theorem State.takeNotices_part (s : State) (cs : List NoticeClaim) : (s.takeNotices cs).part = s.part := rfl
@[simp] theorem State.takeNotices_link (s : State) (cs : List NoticeClaim) : (s.takeNotices cs).link = s.link := rfl
@[simp] theorem State.takeNotices_map (s : State) (cs : List NoticeClaim) : (s.takeNotices cs).map = s.map := rfl
@[simp] theorem State.takeNotices_sched (s : State) (cs : List NoticeClaim) : (s.takeNotices cs).sched = s.sched := rfl
@[simp] theorem State.takeNotices_pub (s : State) (cs : List NoticeClaim) : (s.takeNotices cs).pub = s.pub := rfl
@[simp] theorem State.takeNotices_hold (s : State) (cs : List NoticeClaim) : (s.takeNotices cs).hold = s.hold := rfl
@[simp] theorem State.takeNotices_view (s : State) (cs : List NoticeClaim) : (s.takeNotices cs).view = s.view := rfl
@[simp] theorem State.takeNotices_stop (s : State) (cs : List NoticeClaim) : (s.takeNotices cs).stop = s.stop := rfl
@[simp] theorem State.takeNotices_time (s : State) (cs : List NoticeClaim) : (s.takeNotices cs).time = s.time := rfl
@[simp] theorem State.takeNotices_nil (s : State) : s.takeNotices [] = s := rfl

@[simp] theorem State.notify_pending (s : State) (ms : List Message) : (s.notify ms).pending = s.pending := rfl
@[simp] theorem State.notify_choices (s : State) (ms : List Message) : (s.notify ms).choices = s.choices := rfl
@[simp] theorem State.notify_inReset (s : State) (ms : List Message) : (s.notify ms).inReset = s.inReset := rfl
@[simp] theorem State.notify_part (s : State) (ms : List Message) : (s.notify ms).part = s.part := rfl
@[simp] theorem State.notify_link (s : State) (ms : List Message) : (s.notify ms).link = s.link := rfl
@[simp] theorem State.notify_map (s : State) (ms : List Message) : (s.notify ms).map = s.map := rfl
@[simp] theorem State.notify_sched (s : State) (ms : List Message) : (s.notify ms).sched = s.sched := rfl
@[simp] theorem State.notify_pub (s : State) (ms : List Message) : (s.notify ms).pub = s.pub := rfl
@[simp] theorem State.notify_hold (s : State) (ms : List Message) : (s.notify ms).hold = s.hold := rfl
@[simp] theorem State.notify_view (s : State) (ms : List Message) : (s.notify ms).view = s.view := rfl
@[simp] theorem State.notify_stop (s : State) (ms : List Message) : (s.notify ms).stop = s.stop := rfl
@[simp] theorem State.notify_time (s : State) (ms : List Message) : (s.notify ms).time = s.time := rfl
@[simp] theorem State.notify_nil (s : State) : s.notify [] = s := rfl

/-- A property of one port's notice state that every claim keeps is kept by a run of claims. -/
theorem State.takeNotices_keeps (P : Port → NoticePort → Prop)
    (step : ∀ p n c, P p n → P p (NoticePort.take n p c)) (s : State) (cs : List NoticeClaim)
    (h : ∀ p : Port, P p s.notice.ports[p]) : ∀ p : Port, P p (s.takeNotices cs).notice.ports[p] := by
  have key : ∀ (cs : List NoticeClaim) (u : NoticeUnit), (∀ p : Port, P p u.ports[p]) →
      ∀ p : Port, P p (cs.foldl NoticeUnit.take u).ports[p] := by
    intro cs
    induction cs with
    | nil => exact fun u hu => hu
    | cons c cs ih =>
      intro u hu
      apply ih
      intro p
      rw [NoticeUnit.take_ports]
      exact step p _ c (hu p)
  exact key cs s.notice h

/-- What several notices in order do, notice by notice. -/
theorem State.notify_cons (s : State) (m : Message) (ms : List Message) :
    s.notify (m :: ms) = (s.notify [m]).notify ms := rfl

/-! ### The laws of one port -/

/-- The attention line follows its condition. -/
abbrev NoticePort.Attentive (n : NoticePort) : Prop := n.attn = n.attentionCondition

/-- The queue's bound and the lost flag's law (R151). -/
abbrev NoticePort.Bounded (n : NoticePort) : Prop := n.queue.length ≤ 32 ∧ (n.lost = true → n.queue ≠ [])

theorem NoticePort.refresh_attentive (n : NoticePort) : n.refresh.Attentive := rfl

theorem NoticePort.append_attentive (n : NoticePort) (x : Notice) : (n.append x).Attentive := by
  unfold NoticePort.append
  split <;> exact NoticePort.refresh_attentive _

theorem NoticePort.take_attentive (p : Port) (n : NoticePort) (c : NoticeClaim) (h : n.Attentive) :
    (n.take p c).Attentive := by
  cases c with
  | message m =>
    simp only [NoticePort.take]
    split
    · exact NoticePort.append_attentive _ _
    · exact h
  | emptyQueue q =>
    simp only [NoticePort.take]
    split
    · exact NoticePort.refresh_attentive _
    · exact h
  | faultReport q b =>
    simp only [NoticePort.take]
    split
    · exact NoticePort.refresh_attentive _
    · exact h

theorem NoticePort.append_bounded (n : NoticePort) (x : Notice) (h : n.Bounded) : (n.append x).Bounded := by
  unfold NoticePort.append
  split
  · rename_i hl
    have hl' : n.queue.length < 32 := hl
    refine ⟨?_, ?_⟩
    · show (n.queue ++ [x]).length ≤ 32
      simp
      omega
    · intro _
      show n.queue ++ [x] ≠ []
      simp
  · rename_i hl
    refine ⟨h.1, ?_⟩
    intro _ he
    have he' : n.queue = [] := he
    exact hl (by simp [he', Config.queueLimit])

theorem NoticePort.take_bounded (p : Port) (n : NoticePort) (c : NoticeClaim) (h : n.Bounded) :
    (n.take p c).Bounded := by
  cases c with
  | message m =>
    simp only [NoticePort.take]
    split
    · exact NoticePort.append_bounded _ _ h
    · exact h
  | emptyQueue q =>
    simp only [NoticePort.take]
    split
    · exact ⟨by simp [NoticePort.clear, NoticePort.refresh], by simp [NoticePort.clear, NoticePort.refresh]⟩
    · exact h
  | faultReport q b =>
    simp only [NoticePort.take]
    split
    · exact h
    · exact h

theorem NoticePort.pop_bounded (n : NoticePort) (h : n.Bounded) : n.pop.Bounded := by
  refine ⟨?_, ?_⟩
  · show n.queue.tail.length ≤ 32
    have := h.1
    simp
    omega
  · intro hl
    have hl' : (n.lost && !n.queue.tail.isEmpty) = true := hl
    show n.queue.tail ≠ []
    intro he
    simp [he] at hl'

/-! ### What stays -/

/-- Notices leave the subscription part and the reported occupancy as they are. -/
theorem NoticePort.append_keeps (n : NoticePort) (x : Notice) :
    (n.append x).subscription = n.subscription ∧ (n.append x).kinds = n.kinds ∧
      (n.append x).attention = n.attention ∧ (n.append x).faultOccupied = n.faultOccupied := by
  unfold NoticePort.append
  split <;> exact ⟨rfl, rfl, rfl, rfl⟩

/-- A notice appended: the tail of the queue, or the lost flag (R154). -/
theorem NoticePort.append_took (n : NoticePort) (x : Notice) : n.Took (n.append x) x := by
  unfold NoticePort.Took NoticePort.append
  by_cases h : n.queue.length < 32
  · have h' : n.queue.length < Config.queueLimit := h
    rw [if_pos h', if_pos h]
    rfl
  · have h' : ¬ n.queue.length < Config.queueLimit := h
    rw [if_neg h', if_neg h]
    rfl

/-- What a port has, or has lost at a full queue, stays so through a message. -/
theorem NoticePort.take_message_keeps (n : NoticePort) (p : Port) (m : Message) (x : Notice)
    (h : x ∈ n.queue ∨ (n.lost = true ∧ 32 ≤ n.queue.length)) :
    x ∈ (n.take p (.message m)).queue ∨
      ((n.take p (.message m)).lost = true ∧ 32 ≤ (n.take p (.message m)).queue.length) := by
  simp only [NoticePort.take]
  split
  · unfold NoticePort.append
    split
    · rename_i hl
      have hl' : n.queue.length < 32 := hl
      rcases h with h | h
      · exact Or.inl (List.mem_append.2 (Or.inl h))
      · omega
    · rename_i hl
      have hl' : ¬ n.queue.length < 32 := hl
      exact Or.inr ⟨rfl, by show 32 ≤ n.queue.length; omega⟩
  · exact h

theorem NoticePort.append_delivers (n : NoticePort) (x : Notice) :
    x ∈ (n.append x).queue ∨ ((n.append x).lost = true ∧ 32 ≤ (n.append x).queue.length) := by
  unfold NoticePort.append
  split
  · exact Or.inl (List.mem_append.2 (Or.inr (List.mem_singleton.2 rfl)))
  · rename_i hl
    have hl' : ¬ n.queue.length < 32 := hl
    exact Or.inr ⟨rfl, by show 32 ≤ n.queue.length; omega⟩

/-- A port's queue only grows at its tail while messages come. -/
theorem NoticePort.take_message_prefix (n : NoticePort) (p : Port) (m : Message) :
    n.queue <+: (n.take p (.message m)).queue := by
  simp only [NoticePort.take]
  split
  · unfold NoticePort.append
    split
    · exact List.prefix_append _ _
    · exact List.prefix_rfl
  · exact List.prefix_rfl

/-- Messages keep the subscription part and the reported occupancy. -/
theorem State.notify_keeps_part (s : State) (ms : List Message) (p : Port) :
    (s.notify ms).notice.ports[p].subscription = s.notice.ports[p].subscription ∧
      (s.notify ms).notice.ports[p].kinds = s.notice.ports[p].kinds ∧
      (s.notify ms).notice.ports[p].attention = s.notice.ports[p].attention ∧
      (s.notify ms).notice.ports[p].faultOccupied = s.notice.ports[p].faultOccupied := by
  have key : ∀ (ms : List Message) (u : NoticeUnit),
      ((ms.map NoticeClaim.message).foldl NoticeUnit.take u).ports[p].subscription = u.ports[p].subscription ∧
      ((ms.map NoticeClaim.message).foldl NoticeUnit.take u).ports[p].kinds = u.ports[p].kinds ∧
      ((ms.map NoticeClaim.message).foldl NoticeUnit.take u).ports[p].attention = u.ports[p].attention ∧
      ((ms.map NoticeClaim.message).foldl NoticeUnit.take u).ports[p].faultOccupied = u.ports[p].faultOccupied := by
    intro ms
    induction ms with
    | nil => exact fun u => ⟨rfl, rfl, rfl, rfl⟩
    | cons m ms ih =>
      intro u
      have hm : ∀ n : NoticePort, (n.take p (.message m)).subscription = n.subscription ∧
          (n.take p (.message m)).kinds = n.kinds ∧ (n.take p (.message m)).attention = n.attention ∧
          (n.take p (.message m)).faultOccupied = n.faultOccupied := by
        intro n
        simp only [NoticePort.take]
        split
        · exact NoticePort.append_keeps _ _
        · exact ⟨rfl, rfl, rfl, rfl⟩
      have h1 := ih (u.take (.message m))
      have h2 := hm u.ports[p]
      rw [NoticeUnit.take_ports] at h1
      exact ⟨h1.1.trans h2.1, h1.2.1.trans h2.2.1, h1.2.2.1.trans h2.2.2.1, h1.2.2.2.trans h2.2.2.2⟩
  exact key ms s.notice

/-- What a port has found stays found while messages come. -/
theorem State.Found.notify {s : State} {p : Port} {x : Notice} (h : s.Found p x) (ms : List Message) :
    (s.notify ms).Found p x := by
  induction ms generalizing s with
  | nil => exact h
  | cons m ms ih =>
    rw [State.notify_cons]
    refine ih ?_
    have hm : (s.notify [m]).notice.ports[p] = NoticePort.take s.notice.ports[p] p (.message m) :=
      NoticeUnit.take_ports _ _ _
    show _ ∨ _
    rw [hm]
    exact NoticePort.take_message_keeps _ _ _ _ h

/-- A message among those sent reaches each of its recipients, unless the recipient's queue was full (R154). -/
theorem State.notify_delivers (s : State) (ms : List Message) (m : Message) (hm : m ∈ ms) (p : Port)
    (hr : m.recipients.reach p s.notice.ports[p] = true) : (s.notify ms).Found p m.notice := by
  induction ms generalizing s with
  | nil => cases hm
  | cons x xs ih =>
    rw [State.notify_cons]
    rcases List.mem_cons.1 hm with h | h
    · subst h
      refine State.Found.notify ?_ xs
      have hone : (s.notify [m]).notice.ports[p] = NoticePort.take s.notice.ports[p] p (.message m) :=
        NoticeUnit.take_ports _ _ _
      show _ ∨ _
      rw [hone]
      simp only [NoticePort.take, hr, if_true]
      exact NoticePort.append_delivers _ _
    · apply ih _ h
      have hk := State.notify_keeps_part s [x] p
      cases hrec : m.recipients with
      | port q => rw [hrec] at hr; exact hr
      | subscribers g => rw [hrec] at hr; simp only [Recipients.reach] at hr ⊢; rw [hk.1]; exact hr
      | accepting k => rw [hrec] at hr; simp only [Recipients.reach] at hr ⊢; rw [hk.2.1]; exact hr

/-- While messages come, each queue only grows at its tail. -/
theorem State.notify_prefix (s : State) (ms : List Message) (p : Port) :
    s.notice.ports[p].queue <+: (s.notify ms).notice.ports[p].queue := by
  induction ms generalizing s with
  | nil => exact List.prefix_rfl
  | cons m ms ih =>
    rw [State.notify_cons]
    refine List.IsPrefix.trans ?_ (ih _)
    have hm : (s.notify [m]).notice.ports[p] = NoticePort.take s.notice.ports[p] p (.message m) :=
      NoticeUnit.take_ports _ _ _
    rw [hm]
    exact NoticePort.take_message_prefix _ _ _

/-- One notice sent: its recipients have taken it, and the other ports nothing. -/
theorem State.notify_one (s : State) (m : Message) :
    s.Sent (s.notify [m]) (fun q => m.recipients.reach q s.notice.ports[q]) m.notice := by
  intro q
  have h : (s.notify [m]).notice.ports[q] = NoticePort.take s.notice.ports[q] q (.message m) :=
    NoticeUnit.take_ports _ _ _
  rw [h]
  simp only [NoticePort.take]
  split
  · exact NoticePort.append_took _ _
  · rfl

end Sys2Proof.Machine
end

