-- ==== Sys2Proof/Laws/Publication.lean ====
section
/-! SUPPORT. What claims of the exchange map, the hold table and the publication unit do: they touch those three blocks
alone, a group's record is replaced by its own outcomes alone, and the page records change by swaps and the countdown. -/

namespace Sys2Proof.Machine

/-! ### What claims leave alone -/

/-- From s to t only the exchange map, the publication unit and the hold table may have changed. -/
abbrev State.OnlyClaims (s t : State) : Prop := t = ((s.setMap t.map).setPub t.pub).setHold t.hold

theorem State.OnlyClaims.refl (s : State) : s.OnlyClaims s := rfl

theorem State.OnlyClaims.trans {s t u : State} (h : s.OnlyClaims t) (h' : t.OnlyClaims u) : s.OnlyClaims u := by
  unfold State.OnlyClaims at *
  rw [h']
  rw [h]
  rfl

theorem State.OnlyClaims.sched {s t : State} (h : s.OnlyClaims t) : t.sched = s.sched := by rw [h]; rfl
theorem State.OnlyClaims.stop {s t : State} (h : s.OnlyClaims t) : t.stop = s.stop := by rw [h]; rfl
theorem State.OnlyClaims.time {s t : State} (h : s.OnlyClaims t) : t.time = s.time := by rw [h]; rfl
theorem State.OnlyClaims.view {s t : State} (h : s.OnlyClaims t) : t.view = s.view := by rw [h]; rfl
theorem State.OnlyClaims.link {s t : State} (h : s.OnlyClaims t) : t.link = s.link := by rw [h]; rfl
theorem State.OnlyClaims.part {s t : State} (h : s.OnlyClaims t) : t.part = s.part := by rw [h]; rfl
theorem State.OnlyClaims.inReset {s t : State} (h : s.OnlyClaims t) : t.inReset = s.inReset := by rw [h]; rfl
theorem State.OnlyClaims.notice {s t : State} (h : s.OnlyClaims t) : t.notice = s.notice := by rw [h]; rfl
theorem State.OnlyClaims.pending {s t : State} (h : s.OnlyClaims t) : t.pending = s.pending := by rw [h]; rfl
theorem State.OnlyClaims.choices {s t : State} (h : s.OnlyClaims t) : t.choices = s.choices := by rw [h]; rfl

/-- A stamp depends on the schedule and the timebase alone. -/
theorem State.OnlyClaims.stamp {s t : State} (h : s.OnlyClaims t) : t.stamp = s.stamp := by
  simp [State.stamp, h.sched, h.time]

theorem State.setMap_only (s : State) (m : ExchangeMap) : s.OnlyClaims (s.setMap m) := rfl

theorem State.setPub_only (s : State) (u : PublicationUnit) : s.OnlyClaims (s.setPub u) := rfl

theorem State.setHold_only (s : State) (h : HoldTable) : s.OnlyClaims (s.setHold h) := rfl

theorem State.recordQuiet_only (s : State) (g : Group) (o : GroupOutcome) : s.OnlyClaims (s.recordQuiet g o).1 :=
  s.setPub_only _

theorem State.publish_only (s : State) (g : Group) (o : GroupOutcome) : s.OnlyClaims (s.publish g o).1 :=
  (s.setMap_only _).trans (State.setPub_only _ _)

theorem State.takePoint_only (s : State) (g : Group) : s.OnlyClaims (s.takePoint g).1 := by
  unfold State.takePoint
  split
  · exact s.recordQuiet_only g _
  · split
    · exact (s.setPub_only _).trans (State.recordQuiet_only _ g _)
    · exact s.publish_only g _

theorem State.takeReport_only (s : State) (g : Group) : s.OnlyClaims (s.takeReport g).1 := by
  unfold State.takeReport
  split
  · split
    · exact (s.setPub_only _).trans (State.recordQuiet_only _ g _)
    · exact (s.setPub_only _).trans (State.publish_only _ g _)
  · exact State.OnlyClaims.refl s

theorem State.takeClaim_only (s : State) (c : Claim) : s.OnlyClaims (s.takeClaim c).1 := by
  cases c with
  | countHolds => exact s.setHold_only _
  | rollWatches => exact s.setPub_only _
  | point g => exact s.takePoint_only g
  | report g => exact s.takeReport_only g
  | removeHold p => exact s.setHold_only _

theorem State.takeClaims_only (s : State) (cs : List Claim) : s.OnlyClaims (s.takeClaims cs).1 := by
  induction cs generalizing s with
  | nil => rfl
  | cons c cs ih => exact (s.takeClaim_only c).trans (ih _)

theorem ExchangeMap.marks_iff (m : ExchangeMap) (p : Port) (i : Page) :
    m.marks p i = true ↔
      m.pagePart p i .stageReady = .ok i ∧ ∃ st, (m.page i).stagedBy p = some st ∧ st.state = .opened := by
  have h : ∀ j, m.pagePart p i .stageReady = .ok j → j = i := by
    unfold ExchangeMap.pagePart
    intro j hj
    split at hj
    · split at hj <;> cases hj
      rfl
    · cases hj
  unfold ExchangeMap.marks
  cases hq : m.pagePart p i .stageReady with
  | error c => simp
  | ok j =>
    cases h j hq
    cases (m.page i).stagedBy p <;> simp

/-- The staging of a page that is p's. -/
theorem PageRecord.stagedBy_some {r : PageRecord} {p : Port} {st : Staging} (h : r.stagedBy p = some st) :
    r.staging = some st ∧ st.stager = p := by
  unfold PageRecord.stagedBy at h
  split at h
  · cases h
  · split at h
    · cases h
      exact ⟨by assumption, by assumption⟩
    · cases h

/-- A page that passes the page part of a STAGE_READY admits it (R104). -/
theorem ExchangeMap.pagePart_stage {s : State} {p : Port} {i : Page} (h : s.map.pagePart p i .stageReady = .ok i) :
    s.MayStage p i := by
  unfold ExchangeMap.pagePart at h
  split at h
  · split at h
    · exact ⟨by assumption, by assumption⟩
    · cases h
  · cases h

/-- The marking of a staging whose STAGE_READY falls within a cycle start does nothing, or does what that STAGE_READY does
on the port's own OPEN staging of a page that admits it (R22, R104). -/
theorem State.markReady_eq (s : State) (p : Port) :
    s.markReady p = s ∨
      ∃ pp i st, s.Awaits p (.stageReady pp) i ∧ s.MayStage p i ∧ (s.map.page i).staging = some st ∧ st.stager = p ∧
        st.state = .opened ∧
        s.markReady p =
          (s.setMap (s.map.setPage i { s.map.page i with staging := some { st with state := .ready } })).answer p .ok
            [] := by
  unfold State.markReady
  split
  · rename_i pp i h
    split
    · rename_i hm
      obtain ⟨hok, st, hst, ho⟩ := (ExchangeMap.marks_iff _ _ _).1 hm
      obtain ⟨hs, hp⟩ := PageRecord.stagedBy_some hst
      refine Or.inr ⟨pp, i, st, h, ExchangeMap.pagePart_stage hok, hs, hp, ho, ?_⟩
      unfold State.takePagePart State.acceptData State.acceptStageReady
      rw [show DataCall.request (.stageReady pp) = .stageReady from rfl, hok]
      simp only [hst, ho]
    · exact Or.inl rfl
  · exact Or.inl rfl

/-- From s to t only the exchange map, the publication unit, the hold table and the link may have changed. -/
abbrev State.OnlyCycle (s t : State) : Prop := t = (((s.setMap t.map).setPub t.pub).setHold t.hold).setLink t.link

theorem State.OnlyCycle.trans {s t u : State} (h : s.OnlyCycle t) (h' : t.OnlyCycle u) : s.OnlyCycle u := by
  unfold State.OnlyCycle at *
  rw [h']
  rw [h]
  rfl

theorem State.OnlyClaims.cycle {s t : State} (h : s.OnlyClaims t) : s.OnlyCycle t := by
  unfold State.OnlyCycle State.OnlyClaims at *
  rw [h]
  rfl

theorem State.markReady_only (s : State) (p : Port) : s.OnlyCycle (s.markReady p) := by
  rcases s.markReady_eq p with h | ⟨_, _, _, _, _, _, _, _, h⟩ <;> rw [h] <;> rfl

theorem State.takeCycleClaim_only (s : State) (c : CycleClaim) : s.OnlyCycle (s.takeCycleClaim c).1 := by
  cases c with
  | block c => exact (s.takeClaim_only c).cycle
  | countStagings => exact (s.setMap_only _).cycle
  | markReady p => exact s.markReady_only p

theorem State.takeCycleClaims_only (s : State) (cs : List CycleClaim) : s.OnlyCycle (s.takeCycleClaims cs).1 := by
  induction cs generalizing s with
  | nil => rfl
  | cons c cs ih => exact (s.takeCycleClaim_only c).trans (ih _)

theorem State.handOutCycleStart_only (s : State) (pick : Nat → Nat) (point : Option Group) :
    s.OnlyCycle (s.handOutCycleStart pick point).1 := s.takeCycleClaims_only _

/-- What every claim of a cycle start keeps, its claims keep. -/
theorem State.takeCycleClaims_keeps (P : State → Prop) (h : ∀ s c, P s → P (State.takeCycleClaim s c).1) (s : State)
    (cs : List CycleClaim) (hs : P s) : P (s.takeCycleClaims cs).1 := by
  induction cs generalizing s with
  | nil => exact hs
  | cons c cs ih => exact ih _ (h s c hs)

/-- Claims taken one list after another. -/
theorem State.takeClaims_append (s : State) (cs ds : List Claim) :
    s.takeClaims (cs ++ ds) =
      (((s.takeClaims cs).1.takeClaims ds).1, (s.takeClaims cs).2 ++ ((s.takeClaims cs).1.takeClaims ds).2) := by
  induction cs generalizing s with
  | nil => rfl
  | cons c cs ih =>
    rw [List.cons_append, State.takeClaims, ih]
    simp [State.takeClaims]

/-- What every claim keeps, claims keep. -/
theorem State.takeClaims_keeps (P : State → Prop) (h : ∀ s c, P s → P (State.takeClaim s c).1) (s : State)
    (cs : List Claim) (hs : P s) : P (s.takeClaims cs).1 := by
  induction cs generalizing s with
  | nil => exact hs
  | cons c cs ih => exact ih _ (h s c hs)

/-! ### Group status records and deferral marks -/

theorem PublicationUnit.record_same (u : PublicationUnit) (g : Group) (o : GroupOutcome) (c : CycleCount) (m n : Nat) :
    (u.record g o c m n).groups[g] =
      { last := o, cycle := c, published := m, late := n, mark := u.groups[g].mark } := by
  simp [PublicationUnit.record]

theorem PublicationUnit.record_other (u : PublicationUnit) {g h : Group} (o : GroupOutcome) (c : CycleCount)
    (m n : Nat) (hh : h ≠ g) : (u.record g o c m n).groups[h] = u.groups[h] := by
  have h' : g.val ≠ h.val := fun e => hh (Fin.ext e.symm)
  simp [PublicationUnit.record, h']

theorem PublicationUnit.record_watch (u : PublicationUnit) (g : Group) (o : GroupOutcome) (c : CycleCount)
    (m n : Nat) (w : WatchNo) : (u.record g o c m n).watches[w] = Watch.take u.watches[w] g o m n :=
  getElem_forPorts (fun w => Watch.take u.watches[w] g o m n) w

theorem PublicationUnit.roll_watch (u : PublicationUnit) (w : WatchNo) : u.roll.watches[w] = Watch.roll u.watches[w] :=
  getElem_forPorts (fun w => Watch.roll u.watches[w]) w

theorem PublicationUnit.setMark_same (u : PublicationUnit) (g : Group) (b : Bool) :
    (u.setMark g b).groups[g] = { u.groups[g] with mark := b } := by
  simp [PublicationUnit.setMark]

theorem PublicationUnit.setMark_other (u : PublicationUnit) {g h : Group} (b : Bool) (hh : h ≠ g) :
    (u.setMark g b).groups[h] = u.groups[h] := by
  have h' : g.val ≠ h.val := fun e => hh (Fin.ext e.symm)
  simp [PublicationUnit.setMark, h']

theorem PublicationUnit.clearMarks_watches (u : PublicationUnit) : u.clearMarks.watches = u.watches := by
  unfold PublicationUnit.clearMarks
  have h : ∀ (l : List Group) (v : PublicationUnit),
      (l.foldl (fun v g => v.setMark g false) v).watches = v.watches := by
    intro l
    induction l with
    | nil => exact fun _ => rfl
    | cons g l ih => exact fun v => (ih _).trans rfl
  exact h _ u

theorem PublicationUnit.clearMarks_group (u : PublicationUnit) (g : Group) :
    u.clearMarks.groups[g] = { u.groups[g] with mark := false } := by
  unfold PublicationUnit.clearMarks
  have h : ∀ (l : List Group) (v : PublicationUnit),
      (l.foldl (fun v g => v.setMark g false) v).groups[g] =
        if g ∈ l then { v.groups[g] with mark := false } else v.groups[g] := by
    intro l
    induction l with
    | nil => exact fun v => (if_neg (List.not_mem_nil)).symm
    | cons k l ih =>
      intro v
      rw [List.foldl_cons, ih]
      by_cases hk : g = k
      · subst hk
        rw [PublicationUnit.setMark_same, if_pos (List.mem_cons_self ..), ite_self]
      · rw [PublicationUnit.setMark_other v false hk]
        simp [hk]
  rw [h, if_pos (List.mem_finRange g)]

/-- A watch counter stays at 65535 or below (R77). -/
theorem saturate_le (v a : Nat) : saturate v a ≤ 65535 := by
  unfold saturate
  show (if v + a ≤ 65535 then v + a else 65535) ≤ 65535
  split <;> omega

theorem saturate_eq (v a : Nat) : saturate v a = min 65535 (v + a) := by
  unfold saturate
  show (if v + a ≤ 65535 then v + a else 65535) = min 65535 (v + a)
  split <;> omega

/-- A counter takes an outcome as the table of R78 says of the record of that outcome. -/
theorem Watch.take_eq_after (w : Watch) (g : Group) (x : GroupStatus) :
    Watch.take w g x.last x.published x.late = w.after g x := by
  have h : w.event.amount x.last x.published x.late = w.amountOf x := by
    unfold WatchEvent.amount Watch.amountOf
    cases w.event <;> cases x.last <;> rfl
  unfold Watch.take Watch.after
  rw [h]
  simp only [saturate_eq]
  split
  · cases w.mode <;> rfl
  · rfl

theorem Watch.roll_eq_rolled (w : Watch) : Watch.roll w = w.rolled := rfl

/-! ### Holds -/

theorem HoldTable.count_record (h : HoldTable) (p : Port) : h.count.records[p] = Hold.count h.records[p] :=
  getElem_forPorts (fun p => Hold.count h.records[p]) p

theorem HoldTable.remove_same (h : HoldTable) (p : Port) : (h.remove p).records[p] = none := by
  simp [HoldTable.remove]

theorem HoldTable.remove_other (h : HoldTable) {p q : Port} (hq : q ≠ p) :
    (h.remove p).records[q] = h.records[q] := by
  have h' : p.val ≠ q.val := fun e => hq (Fin.ext e.symm)
  simp [HoldTable.remove, h']

/-- A group is covered when some port's record names it (R86). -/
theorem HoldTable.covers_iff (h : HoldTable) (g : Group) :
    h.covers g = true ↔ ∃ (p : Port) (x : Hold), h.records[p] = some x ∧ x.groups.getLsbD g.val = true := by
  have key : ∀ o : Option Hold,
      (Hold.groupsOf? o).getLsbD g.val = true ↔ ∃ x, o = some x ∧ x.groups.getLsbD g.val = true := by
    intro o
    cases o with
    | none => simp [Hold.groupsOf?]
    | some x => simp [Hold.groupsOf?]
  unfold HoldTable.covers HoldTable.covered
  simp only [BitVec.getLsbD_or, Bool.or_eq_true]
  constructor
  · rintro (((h0 | h1) | h2) | h3)
    · obtain ⟨x, hx⟩ := (key _).1 h0
      exact ⟨0, x, hx⟩
    · obtain ⟨x, hx⟩ := (key _).1 h1
      exact ⟨1, x, hx⟩
    · obtain ⟨x, hx⟩ := (key _).1 h2
      exact ⟨2, x, hx⟩
    · obtain ⟨x, hx⟩ := (key _).1 h3
      exact ⟨3, x, hx⟩
  · rintro ⟨p, x, hx⟩
    have hb := (key _).2 ⟨x, hx⟩
    match p with
    | 0 => exact Or.inl (Or.inl (Or.inl hb))
    | 1 => exact Or.inl (Or.inl (Or.inr hb))
    | 2 => exact Or.inl (Or.inr hb)
    | 3 => exact Or.inr hb

theorem mem_groupsOf (set : GroupSet) (g : Group) : g ∈ groupsOf set ↔ set.getLsbD g.val = true := by
  simp [groupsOf, List.mem_filter, List.mem_finRange]

/-- The groups that a change of the records uncovers (R86). -/
theorem HoldTable.mem_uncovered (h h' : HoldTable) (g : Group) :
    g ∈ h.uncovered h' ↔ h.covers g = true ∧ h'.covers g = false := by
  unfold HoldTable.uncovered HoldTable.covers
  rw [mem_groupsOf]
  simp [g.isLt]

theorem nodup_uncovered (h h' : HoldTable) : (h.uncovered h').Nodup :=
  List.Pairwise.filter _ (List.nodup_finRange 16)

/-! ### Pages under claims -/

/-- What a swap of group g does to the page records: exactly its READY pages are published (R63). -/
theorem ExchangeMap.swap_page_ready (m : ExchangeMap) (g : Group) (c : CycleCount) (i : Page) :
    (m.swap g c).map.page i = if m.ready g i then (m.page i).published c else m.page i := by
  rw [ExchangeMap.swap_page]
  unfold PageRecord.swapped ExchangeMap.ready
  cases (m.page i).staging with
  | none => rfl
  | some st => simp [and_assoc]

/-- An outcome that publishes hands the swap to the exchange map, and no other claim touches the exchange map. -/
theorem State.publish_map (s : State) (g : Group) (o : GroupOutcome) :
    (s.publish g o).1.map = (s.map.swap g s.sched.cycleCount).map := by
  unfold State.publish
  dsimp only
  rw [State.setPub_map, State.setMap_map]

/-- What an outcome that publishes leaves and sends, said once (R62, R64, R65, R67). -/
theorem State.publish_spec (s : State) (g : Group) (o : GroupOutcome) :
    (s.publish g o).1 = (s.setMap (s.map.swap g s.sched.cycleCount).map).setPub
        (s.pub.record g o s.sched.cycleCount (s.map.readyCount g) (s.map.lateCount g)) ∧
      (s.publish g o).2 = (s.map.swap g s.sched.cycleCount).late.map (fun x => s.address x.2 (.late x.1 g)) ++
        [s.groupPoint g o (s.map.readyCount g) (s.map.lateCount g)] := by
  unfold State.publish
  dsimp only
  rw [ExchangeMap.swap_published, ExchangeMap.swap_late_length]
  exact ⟨rfl, rfl⟩

theorem State.recordQuiet_map (s : State) (g : Group) (o : GroupOutcome) : (s.recordQuiet g o).1.map = s.map :=
  State.setPub_map s _

theorem State.takeClaim_map (s : State) (c : Claim) :
    (s.takeClaim c).1.map = s.map ∨
      ∃ g, (c = .point g ∨ c = .report g) ∧ s.stop.isFrozen g = false ∧
        (s.takeClaim c).1.map = (s.map.swap g s.sched.cycleCount).map := by
  cases c with
  | countHolds => exact Or.inl (State.setHold_map s _)
  | rollWatches => exact Or.inl (State.setPub_map s _)
  | removeHold p => exact Or.inl (State.setHold_map s _)
  | point g =>
    rw [State.takeClaim]
    unfold State.takePoint
    split
    · exact Or.inl (s.recordQuiet_map g _)
    · rename_i hf
      split
      · exact Or.inl (State.recordQuiet_map _ g _)
      · exact Or.inr ⟨g, Or.inl rfl, by simpa using hf, s.publish_map g _⟩
  | report g =>
    rw [State.takeClaim]
    unfold State.takeReport
    split
    · split
      · exact Or.inl (State.recordQuiet_map _ g _)
      · rename_i hf
        exact Or.inr ⟨g, Or.inr rfl, by simpa using hf, State.publish_map _ g _⟩
    · exact Or.inl rfl

end Sys2Proof.Machine
end

