-- ==== Sys2Proof/Laws/Schedule.lean ====
section
/-! SUPPORT. What slot starts and cycle starts do: the schedule moves as its own operation says, the claims touch the
exchange map, the publication unit and the hold table, the notices the notice unit, and nothing else changes. -/

namespace Sys2Proof.Machine

/-! ### Orders: an arrangement and a shuffle keep their members -/

theorem insertAt_perm {α : Type} (k : Nat) (x : α) (l : List α) : (insertAt k x l).Perm (x :: l) := by
  unfold insertAt
  split
  · exact .refl _
  · split
    · exact .refl _
    · exact (List.perm_middle).trans (.cons _ (.of_eq (List.take_append_drop _ _)))

/-- A shuffle takes each element as often as it stands in the list. -/
theorem shuffle_perm {α : Type} (pick : Nat → Nat) (l : List α) (i : Nat) : (shuffle pick i l).Perm l := by
  induction l generalizing i with
  | nil => exact .refl _
  | cons x l ih => exact (insertAt_perm _ _ _).trans (.cons _ (ih _))

theorem mem_insertAt {α : Type} (k : Nat) (x y : α) (l : List α) : y ∈ insertAt k x l ↔ y = x ∨ y ∈ l := by
  cases l with
  | nil => simp [insertAt]
  | cons z zs =>
    simp only [insertAt]
    split
    · simp
    · rename_i n _
      have h : y ∈ (z :: zs).take (n + 1) ∨ y ∈ (z :: zs).drop (n + 1) ↔ y ∈ z :: zs := by
        rw [← List.mem_append, List.take_append_drop]
      rw [List.mem_append, List.mem_cons, ← h]
      constructor
      · rintro (h | h | h)
        · exact Or.inr (Or.inl h)
        · exact Or.inl h
        · exact Or.inr (Or.inr h)
      · rintro (h | h | h)
        · exact Or.inr (Or.inl h)
        · exact Or.inl h
        · exact Or.inr (Or.inr h)

theorem mem_shuffle {α : Type} (pick : Nat → Nat) (y : α) (l : List α) (i : Nat) :
    y ∈ shuffle pick i l ↔ y ∈ l := by
  induction l generalizing i with
  | nil => rfl
  | cons x l ih => rw [shuffle, mem_insertAt, ih, List.mem_cons]

theorem mem_place {α : Type} (before : α → α → Bool) (k : Nat) (x y : α) (l : List α) :
    y ∈ place before k x l ↔ y = x ∨ y ∈ l := by
  have h : y ∈ l ↔ y ∈ l.take (ahead before x l) ∨ y ∈ l.drop (ahead before x l) := by
    rw [← List.mem_append, List.take_append_drop]
  rw [place, List.mem_append, mem_insertAt, h]
  exact or_left_comm

/-- An arrangement has exactly the elements given. -/
theorem mem_arrange {α : Type} (before : α → α → Bool) (pick : Nat → Nat) (y : α) (i : Nat) (placed xs : List α) :
    y ∈ arrange before pick i placed xs ↔ y ∈ placed ∨ y ∈ xs := by
  induction xs generalizing i placed with
  | nil => simp [arrange]
  | cons x xs ih =>
    rw [arrange, ih, mem_place, List.mem_cons, or_assoc]
    exact or_left_comm

/-- Behind elements that must all stay ahead of it, an element stands last. -/
theorem ahead_of_all {α : Type} (before : α → α → Bool) (x : α) (l : List α) (h : ∀ y ∈ l, before y x = true) :
    ahead before x l = l.length := by
  induction l with
  | nil => rfl
  | cons y l ih =>
    rw [ahead, ih fun z hz => h z (List.mem_cons_of_mem _ hz)]
    cases l with
    | nil => simp [h y (List.mem_cons_self ..)]
    | cons z l => rfl

/-- Elements that must all keep their order keep it, whatever the draws. -/
theorem arrange_chain {α : Type} (before : α → α → Bool) (pick : Nat → Nat) (i : Nat) (placed xs : List α)
    (h : (placed ++ xs).Pairwise fun x y => before x y = true) : arrange before pick i placed xs = placed ++ xs := by
  induction xs generalizing i placed with
  | nil => exact (List.append_nil _).symm
  | cons x xs ih =>
    have hx : place before (pick i) x placed = placed ++ [x] := by
      have ha := ahead_of_all before x placed fun y hy =>
        (List.pairwise_append.1 h).2.2 y hy x (List.mem_cons_self ..)
      rw [place, ha, List.take_length, List.drop_length, insertAt]
    rw [arrange, hx, ih]
    · rw [List.append_assoc, List.singleton_append]
    · rw [List.append_assoc, List.singleton_append]
      exact h

/-! ### Slot starts and cycle starts -/

/-- From s to t only the exchange map, the publication unit, the hold table and the notice unit may have changed. -/
abbrev State.OnlyOutcomes (s t : State) : Prop :=
  t = (((s.setMap t.map).setPub t.pub).setHold t.hold).setNotice t.notice

theorem State.OnlyClaims.outcomes {s t : State} (h : s.OnlyClaims t) (ms : List Message) :
    s.OnlyOutcomes (t.notify ms) := by
  show t.setNotice _ = _
  rw [State.OnlyClaims] at h
  rw [h]
  rfl

/-- A slot start that is no cycle start leaves the schedule where it was put. -/
theorem State.startSlot_only (s : State) (pick : Nat → Nat) : s.OnlyOutcomes (s.startSlot pick) := by
  unfold State.startSlot State.notifyFrom
  exact (s.takeClaims_only _).outcomes _

/-- The claims of a cycle start are those of its blocks, the countdown, and markings, in the order in which they stand. -/
theorem mem_insertMarks (pick : Nat → Nat) (claims : List CycleClaim) (c : CycleClaim)
    (h : ∀ p, c ≠ .markReady p) : c ∈ insertMarks pick claims ↔ c ∈ claims := by
  unfold insertMarks
  generalize List.finRange 4 = ps
  induction ps generalizing claims with
  | nil => exact Iff.rfl
  | cons p ps ih =>
    rw [List.foldl_cons, ih]
    split
    · rw [(insertAt_perm _ _ _).mem_iff, List.mem_cons]
      simp [h p]
    · exact Iff.rfl

/-- A cycle start moves the schedule by its own operation and changes only what its claims and notices change: beside the
blocks of an outcome, the link, where a STAGE_READY is answered within it. -/
theorem State.startCycle_only (s : State) (pick : Nat → Nat) (earlier : List Message) :
    s.startCycle pick earlier =
      ((((((s.setSched (s.sched.beginCycle s.stop.anyActive)).setMap (s.startCycle pick earlier).map).setPub
        (s.startCycle pick earlier).pub).setHold (s.startCycle pick earlier).hold).setLink
          (s.startCycle pick earlier).link).setNotice (s.startCycle pick earlier).notice) := by
  have h := State.handOutCycleStart_only (s.setSched (s.sched.beginCycle s.stop.anyActive)) pick
    (s.sched.beginCycle s.stop.anyActive).slotPoint
  unfold State.startCycle State.notifyFrom
  show State.setNotice _ _ = _
  rw [State.OnlyCycle] at h
  simp only [State.setSched_sched]
  rw [h]
  rfl

theorem State.startCycle_sched (s : State) (pick : Nat → Nat) (earlier : List Message) :
    (s.startCycle pick earlier).sched = s.sched.beginCycle s.stop.anyActive := by
  rw [s.startCycle_only pick earlier]
  rfl

/-- A notice of one event reaches each of its recipients, unless the recipient's queue was full (R154). -/
theorem State.notifyFrom_delivers (s : State) (pick : Nat → Nat) (xs : List Outgoing) (x : Outgoing) (hx : x ∈ xs) (p : Port)
    (hr : x.message.recipients.reach p s.notice.ports[p] = true) :
    (s.notifyFrom pick xs).Found p x.message.notice := by
  refine s.notify_delivers _ x.message ?_ p hr
  exact List.mem_map_of_mem ((mem_arrange Outgoing.before pick x 0 [] xs).2 (Or.inr hx))

/-- Notices of one sender reach the notice unit in the order in which they are sent (R154). -/
theorem State.notifyFrom_one_sender (s : State) (pick : Nat → Nat) (k : Sender) (ms : List Message) :
    s.notifyFrom pick (ms.map (Outgoing.mk k)) = s.notify ms := by
  rw [State.notifyFrom, arrange_chain]
  · rw [List.nil_append, List.map_map]
    exact congrArg s.notify (List.map_id ms)
  · rw [List.nil_append, List.pairwise_map]
    exact List.pairwise_of_forall fun a b => by simp [Outgoing.before]

/-- Slot 0 begun, and the rest of the schedule's own part of a cycle start (R36). -/
theorem Schedule.beginCycle_eq (c : Schedule) (stopped : Bool) :
    c.beginCycle stopped =
      { c with
        active := if c.pendingSwitch then c.active.other else c.active
        pendingSwitch := false
        cycleCount := if c.firstCycle then 0 else c.cycleCount + 1
        firstCycle := false
        engine := .inCycle
        gapTimer := none
        cycleOut := !stopped
        slotIndex := 0
        slotTimer := some
          { elapsed := 0
            duration := (c.plan (if c.pendingSwitch then c.active.other else c.active)).entries[(0 : SlotNo)].duration.toNat } } := by
  unfold Schedule.beginCycle Schedule.beginSlot
  cases hp : c.pendingSwitch <;> cases ha : c.active <;>
    simp [Schedule.activePlan, Schedule.plan, PlanName.other]

theorem Schedule.beginCycle_slotIndex (c : Schedule) (stopped : Bool) : (c.beginCycle stopped).slotIndex = 0 := rfl

/-- The schedule's plans are touched by edits alone. -/
theorem Schedule.plan_setPlan (c : Schedule) (n k : PlanName) (x : Plan) :
    (c.setPlan n x).plan k = if k = n then x else c.plan k := by
  cases n <;> cases k <;> rfl

/-- The filter of an entry, position by position (R32). -/
theorem filterMatches_iff (count value mask : CycleCount) :
    filterMatches count value mask = true ↔
      ∀ b : Fin 6, mask.getLsbD b.val = true → count.getLsbD b.val = value.getLsbD b.val := by
  unfold filterMatches
  rw [beq_iff_eq]
  constructor
  · intro h b hb
    have hx := congrArg (fun w => w.getLsbD b.val) h
    simp only [BitVec.getLsbD_and, BitVec.getLsbD_xor, hb, Bool.and_true] at hx
    cases h1 : count.getLsbD b.val <;> cases h2 : value.getLsbD b.val <;> simp_all
  · intro h
    apply BitVec.eq_of_getLsbD_eq
    intro i hi
    have := h ⟨i, hi⟩
    simp only [BitVec.getLsbD_and, BitVec.getLsbD_xor]
    cases hm : mask.getLsbD i with
    | false => simp
    | true => simp [this hm]

/-- A switch claim changes the schedule and the notice unit alone (R50). -/
theorem State.takeSwitch_only (s : State) :
    s.takeSwitch.1 = (s.setSched s.takeSwitch.1.sched).setNotice s.takeSwitch.1.notice := by
  unfold State.takeSwitch
  split
  · rfl
  · split <;> rfl

end Sys2Proof.Machine
end

