-- ==== Sys2Proof/Laws/Reset.lean ====
section
/-! SUPPORT. What the claims of a port reset do: which blocks they touch, and how its port moves on. -/

namespace Sys2Proof.Machine

/-! ### Sets of claims -/

@[simp] theorem ResetClaims.without_none (x : ResetClaims) : x.without ResetClaims.none = x := by
  simp [ResetClaims.without, ResetClaims.none]

@[simp] theorem ResetClaims.without_self (x : ResetClaims) : x.without x = ResetClaims.none := by
  simp [ResetClaims.without, ResetClaims.none]

@[simp] theorem ResetClaims.chosen_none (k : Nat) : ResetClaims.none.chosen k = ResetClaims.none := by
  simp [ResetClaims.chosen, ResetClaims.none]

/-! ### Frames -/

/-- From s to t only the exchange map, the publication unit, the hold table, the view unit and the notice unit may have
changed. -/
abbrev State.OnlyPortReset (s t : State) : Prop :=
  t = ((((s.setMap t.map).setPub t.pub).setHold t.hold).setView t.view).setNotice t.notice

/-- The exchange map's and the hold table's claims touch, with the reports, those blocks and the publication unit. -/
theorem State.resetBlocks_only (s : State) (k : Nat) (p : Port) (which : ResetClaims) :
    s.OnlyClaims (s.resetBlocks k p which).1 := by
  unfold State.resetBlocks
  dsimp only
  cases which.stagings with
  | true => exact ((s.takeClaims_only _).trans (State.setMap_only _ _)).trans (State.takeClaims_only _ _)
  | false => exact (s.takeClaims_only _).trans (State.takeClaims_only _ _)

/-- Claims of a port reset touch the four blocks of R183 and, through the reports, the publication unit. -/
theorem State.resetPort_only (s : State) (pick : Nat → Nat) (p : Port) (which : ResetClaims) :
    s.OnlyPortReset (s.resetPort pick p which) := by
  have h := s.resetBlocks_only (pick 1) p which
  unfold State.resetPort
  dsimp only
  generalize (s.resetBlocks (pick 1) p which) = r at h
  rw [State.OnlyClaims] at h
  split <;> · rw [State.OnlyPortReset, h]; rfl

/-- p's fault record is emptied exactly when the view unit's claim is among those taken (R116). -/
theorem State.resetPort_view (s : State) (pick : Nat → Nat) (p : Port) (which : ResetClaims) :
    (s.resetPort pick p which).view = if which.fault then s.view.emptyFault p else s.view := by
  have h := (s.resetBlocks_only (pick 1) p which).view
  unfold State.resetPort
  dsimp only
  split
  · rw [State.takeNotices_view, State.setView_view, h]
  · rw [State.takeNotices_view, h]

/-- Taking claims of a port reset moves its port alone: to the response with the last of them (R183). -/
theorem State.takeResetClaims_link (s : State) (p : Port) (left now : ResetClaims) :
    (s.takeResetClaims p left now).link =
      s.link.set p
        { s.port p with
          tx :=
            if left.without now = ResetClaims.none then .response { status := .ok, body := [] }
            else .accepted (.portReset (left.without now)) } := by
  have hl : ((s.resetPort s.draw p now).bump).link = s.link := by
    rw [State.bump, State.setChoices_link, State.resetPort_only]
    rfl
  unfold State.takeResetClaims State.answer State.setPort State.port
  dsimp only
  split <;> rw [State.setLink_link, hl]

/-- The blocks are those that the claims leave. -/
theorem State.takeResetClaims_eq (s : State) (p : Port) (left now : ResetClaims) :
    s.takeResetClaims p left now =
      ((s.resetPort s.draw p now).bump).setLink (s.takeResetClaims p left now).link := by
  unfold State.takeResetClaims State.answer State.setPort
  dsimp only
  split <;> rfl

end Sys2Proof.Machine
end

