-- ==== Sys2Proof/Laws/View.lean ====
section
/-! SUPPORT. The access check and the fault record: what the check answers, and what its refusal touches. -/

namespace Sys2Proof.Machine

/-- A data request's right is the read right for READ and the stage right otherwise (R104). -/
theorem ViewEntry.allows_eq (e : ViewEntry) (q : DataRequest) : e.allows q = if q = .read then e.read else e.stage := by
  cases q <;> rfl

theorem PageRecord.admits_eq (r : PageRecord) (p : Port) (q : DataRequest) :
    r.admits p q = (if q = .read then r.readers else r.writers).getLsbD p.val := by
  cases q <;> rfl

/-- The view part refuses by its table (R105, R106). -/
theorem State.viewPart_error (s : State) (p : Port) (x : DataCall) (c : FaultCause) :
    s.view.viewPart p x.portPage x.request = .error c ↔ s.viewTable p x = some c := by
  unfold State.viewTable ViewUnit.viewPart ViewUnit.entry
  cases s.view.views[p][x.portPage] with
  | none => simp
  | some e =>
    dsimp only
    rw [← ViewEntry.allows_eq]
    cases e.allows x.request <;> simp

/-- The view part passes with the exchange page of the entry (R104). -/
theorem State.viewPart_ok {s : State} {p : Port} {x : DataCall} {e : ViewEntry}
    (he : s.view.views[p][x.portPage] = some e) (ha : (if x.request = .read then e.read else e.stage) = true) :
    s.view.viewPart p x.portPage x.request = .ok e.page := by
  rw [← ViewEntry.allows_eq] at ha
  unfold ViewUnit.viewPart ViewUnit.entry
  rw [he]
  exact if_pos ha

/-- The page part refuses by its table (R106, R107). -/
theorem State.pagePart_error (s : State) (p : Port) (x : DataCall) (i : Page) (c : FaultCause) :
    s.map.pagePart p i x.request = .error c ↔ s.pageTable p x i = some c := by
  unfold State.pageTable ExchangeMap.pagePart
  rw [← PageRecord.admits_eq]
  cases (s.map.page i).defined <;> cases (s.map.page i).admits p x.request <;> simp

/-- The page part passes READ for a reader of the page, and a STAGE_ request for a writer (R104). -/
theorem State.pagePart_read {s : State} {p : Port} {i : Page} (h : s.MayRead p i) :
    s.map.pagePart p i .read = .ok i := by
  simp [ExchangeMap.pagePart, PageRecord.admits, h.1, h.2]

theorem State.pagePart_stage {s : State} {p : Port} {i : Page} {q : DataRequest} (hq : q ≠ .read)
    (h : s.MayStage p i) : s.map.pagePart p i q = .ok i := by
  have hb : (s.map.page i).admits p q = true := by rw [PageRecord.admits_eq, if_neg hq, h.2]
  simp [ExchangeMap.pagePart, h.1, hb]

/-- A refusal touches the view unit and the notice unit alone (R111, R113). -/
theorem State.recordFault_only (s : State) (p : Port) (c : FaultCause) (x : DataCall) :
    s.recordFault p c x =
      (s.setView (s.recordFault p c x).view).setNotice (s.recordFault p c x).notice := by
  unfold State.recordFault
  split <;> rfl

/-- A refused data request touches its port, the view unit and the notice unit alone (R108). -/
theorem State.refuseData_only (s : State) (p : Port) (x : DataCall) (c : FaultCause) :
    s.refuseData p x c =
      ((s.setView (s.refuseData p x c).view).setNotice (s.refuseData p x c).notice).setPort p
        ((s.refuseData p x c).port p) := by
  have h := s.recordFault_only p c x
  unfold State.refuseData State.refuseWrite State.answer
  split <;> rw [h] <;> simp

/-- A data request that the view part refuses is refused at its acceptance (R105, R106). -/
theorem State.acceptCall_error {s : State} {p : Port} {x : DataCall} {c : FaultCause}
    (h : s.view.viewPart p x.portPage x.request = .error c) : s.acceptCall p x = s.refuseData p x c := by
  simp [State.acceptCall, h]

/-- The exchange map's claim where the page part passes: the request's own rule. -/
theorem State.takePagePart_ok {s : State} {p : Port} {x : DataCall} {i j : Page}
    (h : s.map.pagePart p i x.request = .ok j) : s.takePagePart p x i = s.acceptData p x j := by
  simp [State.takePagePart, h]

theorem State.takePagePart_error {s : State} {p : Port} {x : DataCall} {i : Page} {c : FaultCause}
    (h : s.map.pagePart p i x.request = .error c) : s.takePagePart p x i = s.refuseData p x c := by
  simp [State.takePagePart, h]

end Sys2Proof.Machine
end

