-- ==== Sys2Proof/Laws/Claims.lean ====
section
/-! SUPPORT. What is outstanding of an accepted request: when nothing is, what taking it does, and how a property passes
through it. -/

namespace Sys2Proof.Machine

/-! ### Taking it -/

theorem State.settle_portReset {s : State} {p : Port} {left : ResetClaims}
    (h : (s.port p).tx = .accepted (.portReset left)) : s.settle p = s.takeResetClaims p left left := by
  simp [State.settle, h]

theorem State.settle_pagePart {s : State} {p : Port} {x : DataCall} {i : Page} (h : s.Awaits p x i) :
    s.settle p = s.takePagePart p x i := by
  simp [State.settle, show (s.port p).tx = .accepted (.pagePart x i) from h]

/-- Where nothing is outstanding, the transaction goes on at once. -/
theorem State.settle_none {s : State} {p : Port} (h : (s.port p).claimsOutstanding = false) : s.settle p = s := by
  unfold LinkPort.claimsOutstanding at h
  unfold State.settle
  split at h <;> simp_all

/-- After the last claim of a port reset the answer is OK (R183). -/
theorem State.settle_portReset_tx {s : State} {p : Port} {left : ResetClaims}
    (h : (s.port p).tx = .accepted (.portReset left)) :
    ((s.settle p).port p).tx = .response { status := .ok, body := [] } := by
  rw [State.settle_portReset h]
  unfold State.takeResetClaims
  simp [State.answer]

/-- A data request past its view part has its exchange map's claim taken at once, or outstanding (R104, R109). -/
theorem State.acceptCall_ok {s : State} {p : Port} {x : DataCall} {i : Page}
    (h : s.view.viewPart p x.portPage x.request = .ok i) :
    (s.receive p (x.command p).record).acceptCall p x = (s.accepting p x i).settle p ∨
      (s.receive p (x.command p).record).acceptCall p x = s.accepting p x i := by
  have ha : (((s.receive p (x.command p).record).setPort p
      { (s.receive p (x.command p).record).port p with tx := .accepted (.pagePart x i) }).bump) =
        s.accepting p x i := by
    simp [State.receive, State.accepting, State.bump]
  unfold State.acceptCall
  rw [State.receive_view, h]
  dsimp only
  rw [ha]
  split
  · left
    rw [State.settle_pagePart]
    simp [State.Awaits, State.accepting]
  · exact Or.inr rfl

/-! ### Passing through it -/

/-- A property passes through the taking of outstanding claims if the four blocks' claims and the exchange map's claim
of a data request keep it. -/
theorem State.settle_keeps (P : State → Prop) {s : State} (p : Port)
    (hreset : ∀ left now, P s → P (s.takeResetClaims p left now)) (hpage : ∀ x i, P s → P (s.takePagePart p x i))
    (hs : P s) : P (s.settle p) := by
  unfold State.settle
  split
  · exact hreset _ _ hs
  · exact hpage _ _ hs
  · exact hs

/-- The same at a tick, where the draws choose what is taken. -/
theorem State.settleSome_keeps (P : State → Prop) {s : State} (p : Port) (hbump : ∀ s : State, P s → P s.bump)
    (hreset : ∀ left now, P s → P (s.takeResetClaims p left now)) (hpage : ∀ x i, P s → P (s.takePagePart p x i))
    (hs : P s) : P (s.settleSome p) := by
  unfold State.settleSome
  split
  · exact hreset _ _ hs
  · refine hbump _ ?_
    split
    · exact hpage _ _ hs
    · exact hs
  · exact hs

end Sys2Proof.Machine
end

