-- ==== Sys2Proof/Laws/Operands.lean ====
section
/-! SUPPORT. The range checks on in-range values: each gives back the value that the wire field spells. -/

namespace Sys2Proof.Machine

theorem byteOf_toNat {n : Nat} (h : n < 256) : (byteOf n).toNat = n := by
  simp [byteOf, Nat.mod_eq_of_lt h]

theorem finOf?_val {n : Nat} (i : Fin n) : finOf? n i.val = some i := by
  simp [finOf?]

theorem finOf?_eq_some {n x : Nat} {i : Fin n} (h : finOf? n x = some i) : x = i.val := by
  unfold finOf? at h
  split at h
  · cases h
    rfl
  · cases h

theorem finOf?_eq_none {n x : Nat} (h : ¬ x < n) : finOf? n x = none := by
  simp [finOf?, h]

@[simp] theorem portOf?_byteOf (p : Port) : portOf? (byteOf p.val) = some p := by
  rw [portOf?, byteOf_toNat (by omega), finOf?_val]

@[simp] theorem groupOf?_byteOf (g : Group) : groupOf? (byteOf g.val) = some g := by
  rw [groupOf?, byteOf_toNat (by omega), finOf?_val]

@[simp] theorem pageOf?_ofNat (i : Page) : pageOf? (BitVec.ofNat 16 i.val) = some i := by
  have h : (BitVec.ofNat 16 i.val).toNat = i.val := by
    simp
    omega
  rw [pageOf?, h, finOf?_val]

@[simp] theorem portPageOf?_byteOf (i : PortPage) : portPageOf? (byteOf i.val) = some i := by
  rw [portPageOf?, byteOf_toNat (by omega), finOf?_val]

@[simp] theorem slotOf?_byteOf (k : SlotNo) : slotOf? (byteOf k.val) = some k := by
  rw [slotOf?, byteOf_toNat (by omega), finOf?_val]

@[simp] theorem lineOf?_byteOf (l : Line) : lineOf? (byteOf l.val) = some l := by
  rw [lineOf?, byteOf_toNat (by omega), finOf?_val]

@[simp] theorem watchOf?_byteOf (n : WatchNo) : watchOf? (byteOf n.val) = some n := by
  rw [watchOf?, byteOf_toNat (by omega), finOf?_val]

theorem rangeOf?_in {lo hi x : Nat} (h : lo ≤ x) (h' : x ≤ hi) : rangeOf? lo hi x = some x := by
  simp [rangeOf?, h, h']

theorem rangeOf?_eq_some {lo hi x y : Nat} (h : rangeOf? lo hi x = some y) : y = x ∧ lo ≤ x ∧ x ≤ hi := by
  unfold rangeOf? at h
  split at h
  · rename_i hx
    cases h
    exact ⟨rfl, hx⟩
  · cases h

theorem maskOf?_setWidth {w : Nat} (h : w ≤ 8) (b : BitVec w) : maskOf? w (b.setWidth 8) = some b := by
  have hb : b.toNat < 2 ^ w := b.isLt
  have h8 : 2 ^ w ≤ 2 ^ 8 := Nat.pow_le_pow_right (by decide) h
  have h' : (b.setWidth 8).toNat = b.toNat := by
    rw [BitVec.toNat_setWidth]
    exact Nat.mod_eq_of_lt (by omega)
  have h'' : (b.setWidth 8).setWidth w = b := by
    apply BitVec.eq_of_toNat_eq
    rw [BitVec.toNat_setWidth, h']
    exact Nat.mod_eq_of_lt hb
  simp [maskOf?, h', h'', hb]

@[simp] theorem maskOf?_ports (b : PortSet) : maskOf? 4 (b.setWidth 8) = some b := maskOf?_setWidth (by decide) b
@[simp] theorem maskOf?_count (b : CycleCount) : maskOf? 6 (b.setWidth 8) = some b := maskOf?_setWidth (by decide) b
@[simp] theorem maskOf?_weekdays (b : WeekdaySet) : maskOf? 7 (b.setWidth 8) = some b := maskOf?_setWidth (by decide) b

@[simp] theorem boolOf?_yesNo (b : Bool) : boolOf? (yesNo b) = some b := by
  cases b <;> rfl

@[simp] theorem twoFlagsOf?_twoFlags (a b : Bool) : twoFlagsOf? (twoFlags a b) = some (a, b) := by
  cases a <;> cases b <;> rfl

@[simp] theorem pageParams_of (i : Page) (g : Group) (r w : PortSet) :
    pageParams (BitVec.ofNat 16 i.val) (byteOf g.val) (r.setWidth 8) (w.setWidth 8) =
      some { page := i, group := g, readers := r, writers := w } := by
  simp [pageParams]

/-- A transfer in range (R170). -/
theorem transferParams_of (pp : PortPage) (o : Fin 64) {n : Nat} (h : 1 ≤ n) (h' : o.val + n ≤ 64) :
    transferParams (byteOf pp.val) (byteOf o.val) (byteOf n) = some { portPage := pp, offset := o, length := n } := by
  have ho : finOf? 64 (byteOf o.val).toNat = some o := by
    rw [byteOf_toNat (by omega), finOf?_val]
  have hn : rangeOf? 1 (64 - o.val) (byteOf n).toNat = some n := by
    rw [byteOf_toNat (by omega)]
    exact rangeOf?_in h (by omega)
  simp [transferParams, ho, hn]

/-- A transfer that passes the checks stays within one frame. -/
theorem transferParams_range {portPage offset length : Byte} {t : Transfer}
    (h : transferParams portPage offset length = some t) : 1 ≤ t.length ∧ t.offset.val + t.length ≤ 64 := by
  simp only [transferParams, Option.bind_eq_bind, Option.bind_eq_some_iff] at h
  obtain ⟨pp, _, o, _, n, hn, h⟩ := h
  cases h
  obtain ⟨rfl, h1, h2⟩ := rangeOf?_eq_some hn
  dsimp only
  omega

end Sys2Proof.Machine
end

