-- ==== Sys2Proof/Laws/Stop.lean ====
section
/-! SUPPORT. What the stop unit's operations do to its lines and to the frozen group set, and that each keeps a lawful
stop unit lawful. -/

namespace Sys2Proof.Machine

theorem StopUnit.line_setLine (u : StopUnit) (l m : Line) (x : StopLine) :
    (u.setLine l x).line m = if m = l then x else u.line m := by
  by_cases h : m = l
  · subst h
    simp [StopUnit.line, StopUnit.setLine]
  · have h' : l.val ≠ m.val := fun e => h (Fin.ext e.symm)
    simp [StopUnit.line, StopUnit.setLine, h, h']

theorem StopUnit.line_setLine_same (u : StopUnit) (l : Line) (x : StopLine) : (u.setLine l x).line l = x := by
  rw [StopUnit.line_setLine, if_pos rfl]

theorem StopUnit.lines_setLine (u : StopUnit) (l : Line) (x : StopLine) :
    (u.setLine l x).lines = u.lines.set l x := rfl

theorem StopUnit.setLine_twice (u : StopUnit) (l : Line) (x y : StopLine) :
    (u.setLine l x).setLine l y = u.setLine l y := by
  simp [StopUnit.setLine, StopUnit.frozenUnion]

/-- The frozen group set follows each line in the same claim (R127). -/
theorem StopUnit.frozen_setLine (u : StopUnit) (l : Line) (x : StopLine) :
    (u.setLine l x).frozen = (u.setLine l x).frozenUnion := rfl

/-- Which groups the union of R127 has. -/
theorem StopUnit.frozenUnion_bit (u : StopUnit) (k : Nat) :
    u.frozenUnion.getLsbD k = true ↔
      ∃ m : Line, u.lines[m].stop = .active ∧ u.lines[m].freeze.getLsbD k = true := by
  have key : ∀ x : StopLine, x.frozenPart.getLsbD k = true ↔ x.stop = .active ∧ x.freeze.getLsbD k = true := by
    intro x
    unfold StopLine.frozenPart
    cases x.stop <;> simp
  unfold StopUnit.frozenUnion
  simp only [BitVec.getLsbD_or, Bool.or_eq_true, key]
  constructor
  · rintro (h | h)
    · exact ⟨0, h⟩
    · exact ⟨1, h⟩
  · rintro ⟨m, hm⟩
    match m with
    | 0 => exact Or.inl hm
    | 1 => exact Or.inr hm

/-- A lawful stop unit: both lines in a legal state, and the frozen group set their union. -/
def StopUnit.Law (u : StopUnit) : Prop := (∀ l : Line, (u.line l).Law) ∧ u.frozen = u.frozenUnion

theorem StopUnit.setLine_law {u : StopUnit} (l : Line) {x : StopLine} (hu : u.Law) (hx : x.Law) :
    (u.setLine l x).Law := by
  refine ⟨fun m => ?_, rfl⟩
  rw [StopUnit.line_setLine]
  split
  · exact hx
  · exact hu.1 m

/-- A level that passes the filter leaves no change pending, and an ACTIVE filtered level an ACTIVE stop state. -/
theorem StopLine.pass_law {x : StopLine} (level : Level) (h : x.input = level) : (x.pass level).Law := by
  refine ⟨?_, fun _ => h, fun c hc => ?_⟩
  · intro hf
    have hl : level = .active := hf
    subst hl
    rfl
  · cases hc

/-- A passed filter touches the stop unit and the notice unit alone. -/
theorem State.passFilter_only (s : State) (l : Line) (level : Level) :
    s.passFilter l level = (s.setStop (s.stop.setLine l ((s.stop.line l).pass level))).setNotice
      (s.passFilter l level).notice := rfl

theorem State.passFilter_stop (s : State) (l : Line) (level : Level) :
    (s.passFilter l level).stop = s.stop.setLine l ((s.stop.line l).pass level) := rfl

/-- A sample touches the stop unit and the notice unit alone. -/
theorem State.sampleStop_only (s : State) (l : Line) (level : Level) :
    s.sampleStop l level = (s.setStop (s.sampleStop l level).stop).setNotice (s.sampleStop l level).notice := by
  unfold State.sampleStop
  split
  · rfl
  · split
    · rfl
    · dsimp only
      split <;> rfl

theorem State.expireFilter_only (s : State) (l : Line) :
    s.expireFilter l = (s.setStop (s.expireFilter l).stop).setNotice (s.expireFilter l).notice := by
  unfold State.expireFilter
  split <;> rfl

theorem State.sampleStop_law {s : State} (l : Line) (level : Level) (h : s.stop.Law) :
    (s.sampleStop l level).stop.Law := by
  unfold State.sampleStop
  split
  · exact h
  · split
    · rename_i hf
      refine StopUnit.setLine_law l h ⟨(h.1 l).1, fun _ => hf, fun c hc => ?_⟩
      cases hc
    · rename_i hf
      have hx : StopLine.Law { s.stop.line l with input := level, pending := some { level := level, timer := 0 } } := by
        refine ⟨(h.1 l).1, fun hc => ?_, fun c hc => ?_⟩
        · cases hc
        · cases hc
          exact ⟨rfl, hf⟩
      dsimp only
      split
      · rw [State.passFilter_stop]
        refine StopUnit.setLine_law l (StopUnit.setLine_law l h hx) (StopLine.pass_law level ?_)
        show (StopUnit.line (StopUnit.setLine _ l _) l).input = level
        rw [StopUnit.line_setLine, if_pos rfl]
      · exact StopUnit.setLine_law l h hx

theorem State.expireFilter_law {s : State} (l : Line) (h : s.stop.Law) : (s.expireFilter l).stop.Law := by
  unfold State.expireFilter
  split
  · exact h
  · rename_i c hc
    rw [State.passFilter_stop]
    exact StopUnit.setLine_law l h (StopLine.pass_law _ ((h.1 l).2.2 c hc).1.symm)

/-- The pin itself is no part of the law. -/
theorem State.driveStop_law {s : State} (l : Line) (level : Level) (h : s.stop.Law) :
    (s.driveStop l level).stop.Law :=
  StopUnit.setLine_law l h (h.1 l)

/-- A changed pin is sampled as its row drives and samples it. -/
theorem State.sampleStop_driveStop {s : State} {l : Line} (h : s.stop.lines[l].pin ≠ s.stop.lines[l].input) :
    (s.driveStop l s.stop.lines[l].pin).sampleStop l s.stop.lines[l].pin = s.sampleStop l s.stop.lines[l].pin := by
  have h' : ¬ s.stop.lines[l].pin = (s.stop.line l).input := h
  have hl : { s.stop.line l with pin := s.stop.lines[l].pin } = s.stop.line l := rfl
  unfold State.driveStop
  rw [hl]
  unfold State.sampleStop
  simp only [State.setStop_stop, StopUnit.line_setLine_same, StopUnit.setLine_twice, if_neg h']
  split
  · rfl
  · split <;> rfl

end Sys2Proof.Machine
end

