-- ==== Sys2Proof/Laws/Time.lean ====
section
/-! SUPPORT. What the timebase's operations do: the calendar stays valid, and a second boundary and the answer to the
alarm's request touch only the blocks they name. -/

namespace Sys2Proof.Machine

/-- What a valid calendar record says, field by field (R137). -/
theorem Calendar.valid_iff (c : Calendar) :
    c.valid = true ↔ c.year ≤ 99 ∧ 1 ≤ c.month ∧ c.month ≤ 12 ∧ 1 ≤ c.day ∧ c.day ≤ monthLength c.year c.month ∧
      c.hour ≤ 23 ∧ c.minute ≤ 59 ∧ c.second ≤ 59 ∧ c.weekday ≤ 6 := by
  simp [Calendar.valid, and_assoc]

theorem monthLength_bounds (year month : Nat) : 28 ≤ monthLength year month ∧ monthLength year month ≤ 31 := by
  unfold monthLength
  split
  · split <;> decide
  all_goals decide

/-- The advance of a valid calendar, in one table instead of carries (R138). -/
theorem Calendar.advance_eq {c : Calendar} (h : c.valid = true) :
    c.advance =
      if c.second ≠ 59 then { c with second := c.second + 1 }
      else if c.minute ≠ 59 then { c with second := 0, minute := c.minute + 1 }
      else if c.hour ≠ 23 then { c with second := 0, minute := 0, hour := c.hour + 1 }
      else if c.day ≠ monthLength c.year c.month then
        { c with second := 0, minute := 0, hour := 0, weekday := (c.weekday + 1) % 7, day := c.day + 1 }
      else if c.month ≠ 12 then
        { c with second := 0, minute := 0, hour := 0, weekday := (c.weekday + 1) % 7, day := 1, month := c.month + 1 }
      else
        { year := (c.year + 1) % 100, month := 1, day := 1, hour := 0, minute := 0, second := 0
          weekday := (c.weekday + 1) % 7 } := by
  rw [Calendar.valid_iff] at h
  obtain ⟨hy, hm1, hm, hd1, hd, hh, hmi, hs, hw⟩ := h
  have hweek : (if c.weekday ≥ 6 then 0 else c.weekday + 1) = (c.weekday + 1) % 7 := by
    split <;> omega
  unfold Calendar.advance
  by_cases h1 : c.second = 59
  · rw [if_pos (by omega), if_neg (by omega)]
    unfold Calendar.carryMinute
    dsimp only
    by_cases h2 : c.minute = 59
    · rw [if_pos (by omega), if_neg (by omega)]
      unfold Calendar.carryHour
      dsimp only
      by_cases h3 : c.hour = 23
      · rw [if_pos (by omega), if_neg (by omega)]
        unfold Calendar.carryDay
        dsimp only
        rw [hweek]
        by_cases h4 : c.day = monthLength c.year c.month
        · rw [if_pos (by omega), if_neg (by omega)]
          unfold Calendar.carryMonth
          dsimp only
          by_cases h5 : c.month = 12
          · rw [if_pos (by omega), if_neg (by omega)]
            unfold Calendar.carryYear
            dsimp only
            by_cases h6 : c.year = 99
            · rw [if_pos (by omega), h6]
            · rw [if_neg (by omega), Nat.mod_eq_of_lt (a := c.year + 1) (b := 100) (by omega)]
          · rw [if_neg (by omega), if_pos h5]
        · rw [if_neg (by omega), if_pos h4]
      · rw [if_neg (by omega), if_pos h3]
    · rw [if_neg (by omega), if_pos h2]
  · rw [if_neg (by omega), if_pos h1]

/-- A valid calendar advances to a valid calendar. -/
theorem Calendar.advance_valid {c : Calendar} (h : c.valid = true) : c.advance.valid = true := by
  rw [Calendar.advance_eq h]
  rw [Calendar.valid_iff] at h
  obtain ⟨hy, hm1, hm, hd1, hd, hh, hmi, hs, hw⟩ := h
  have h1 := (monthLength_bounds c.year (c.month + 1)).1
  have h2 := (monthLength_bounds ((c.year + 1) % 100) 1).1
  split
  · rw [Calendar.valid_iff]
    dsimp only
    omega
  · split
    · rw [Calendar.valid_iff]
      dsimp only
      omega
    · split
      · rw [Calendar.valid_iff]
        dsimp only
        omega
      · split
        · rw [Calendar.valid_iff]
          dsimp only
          omega
        · split
          · rw [Calendar.valid_iff]
            dsimp only
            omega
          · rw [Calendar.valid_iff]
            dsimp only
            omega

/-- The alarm's action touches the timebase and the notice unit alone. -/
theorem State.fireAlarm_only (s : State) :
    s.fireAlarm = (s.setTime s.fireAlarm.time).setNotice s.fireAlarm.notice := by
  unfold State.fireAlarm
  split <;> rfl

/-- A second boundary touches the timebase and the notice unit alone (R134). -/
theorem State.boundary_only (s : State) : s.boundary = (s.setTime s.boundary.time).setNotice s.boundary.notice := by
  unfold State.boundary
  dsimp only
  split
  · rfl
  · split
    · rw [State.fireAlarm_only]
      rfl
    · rfl

/-- After a second boundary the tick count is 0 (R134). -/
theorem State.boundary_tickCount (s : State) : s.boundary.time.tickCount = 0 := by
  unfold State.boundary
  dsimp only
  split
  · rfl
  · split
    · unfold State.fireAlarm
      split <;> rfl
    · rfl

/-- The schedule's answer to the alarm touches the schedule, the timebase and the notice unit alone (R145). -/
theorem State.answerAlarm_only (s : State) :
    s.answerAlarm =
      ((s.setSched s.answerAlarm.sched).setTime s.answerAlarm.time).setNotice s.answerAlarm.notice := by
  unfold State.answerAlarm
  split
  · rfl
  · dsimp only
    rw [s.takeSwitch_only]
    rfl

/-- What a valid TIME_SET record gives is a valid calendar (R139). -/
theorem timeParams_valid {year month day hour minute second weekday : Byte} {c : Calendar}
    (h : timeParams year month day hour minute second weekday = some c) : c.valid = true := by
  unfold timeParams at h
  dsimp only at h
  split at h
  · cases h
    assumption
  · cases h

end Sys2Proof.Machine
end

