-- ==== Sys2Proof/Laws/Step.lean ====
section
/-! SUPPORT. How a property passes through a step: through the serving of a request, through a tick, and through a step
as a whole, so that a proof of an invariant has only the blocks' own operations left to look at. -/

namespace Sys2Proof.Machine

/-- A property that no change at a link port breaks passes through the serving of a request if the request's own
operation keeps it. -/
theorem State.serve_keeps (P : State → Prop) (hport : ∀ s p l, P s → P (State.setPort s p l)) {α : Type} {s : State}
    (p : Port) (record : List Byte) (right : Option RightName) (params : Option α) (act : α → State → State)
    (hs : P s)
    (hact : ∀ a, params = some a → s.ReadyFor p → P (s.receive p record) → P (act a (s.receive p record))) :
    P (s.serve p record right params act) := by
  unfold State.serve
  split
  · rename_i ha
    have hr : P (s.receive p record) := hport _ _ _ hs
    cases hp : params with
    | none => exact hport _ _ _ hr
    | some a =>
      dsimp only
      split
      · exact hport _ _ _ hr
      · exact hact a hp ((s.readyFor_iff p).2 ha) hr
  · exact hs

theorem State.inSetup_keeps (P : State → Prop) (hport : ∀ s p l, P s → P (State.setPort s p l)) {s : State} (p : Port)
    (act : State → State) (hs : P s) (hact : s.part = .setup → P (act s)) : P (s.inSetup p act) := by
  unfold State.inSetup
  split
  · rename_i h
    exact hact h
  · exact hport _ _ _ hs

theorem State.unlessReset_keeps (P : State → Prop) {s : State} (act : State → State) (hs : P s)
    (hact : s.inReset = false → P (act s)) : P (s.unlessReset act) := by
  unfold State.unlessReset
  cases h : s.inReset with
  | false => exact hact h
  | true => exact hs

/-- The counters of a tick. -/
theorem State.count_bump (s : State) : s.count.bump = s.counted := by
  have h : ∀ v : Vector StopLine 2, #v[v[0].tick, v[1].tick] = v.map StopLine.tick := by
    intro v
    ext i hi
    match i with
    | 0 => simp
    | 1 => simp
  unfold State.count State.bump State.counted
  simp only [State.setChoices, State.setStop, State.setSched, State.setTime]
  congr 2
  exact h _

/-- What falls at a tick is what falls due. -/
theorem State.mem_due (s : State) (e : TickEvent) : e ∈ s.count.due ↔ s.FallsDue e := by
  have hl : ∀ l : Line, s.count.stop.line l = StopLine.tick s.stop.lines[l] := by
    intro l
    match l with
    | 0 => rfl
    | 1 => rfl
  have hx : ∀ l : Line, (s.count.stop.line l).expired = true ↔
      ∃ c, s.stop.lines[l].pending = some c ∧ s.stop.lines[l].filterTime.toNat ≤ c.timer + 1 := by
    intro l
    rw [hl]
    unfold StopLine.expired StopLine.tick
    cases s.stop.lines[l].pending <;> simp
  have hc : ∀ l : Line, (s.count.stop.line l).changed = true ↔ s.stop.lines[l].pin ≠ s.stop.lines[l].input := by
    intro l
    rw [hl]
    unfold StopLine.changed
    rw [decide_eq_true_iff]
    exact Iff.rfl
  have hs : s.count.sched.slotDue = true ↔ ∃ x, s.sched.slotTimer = some x ∧ x.duration ≤ x.elapsed + 1 := by
    have h : s.count.sched.slotTimer = s.sched.slotTimer.map SlotTimer.tick := rfl
    unfold Schedule.slotDue
    rw [h]
    cases s.sched.slotTimer <;> simp [SlotTimer.tick]
  have hg : s.count.sched.gapDue = true ↔ ∃ n, s.sched.gapTimer = some n ∧ s.sched.gapLimit ≤ n + 1 := by
    have h : s.count.sched.gapTimer = s.sched.gapTimer.map (· + 1) := rfl
    have h' : s.count.sched.gapLimit = s.sched.gapLimit := rfl
    unfold Schedule.gapDue
    rw [h, h']
    cases s.sched.gapTimer <;> simp
  have ho : ∀ p : Port, (s.count.port p).claimsOutstanding = true ↔ ∃ o, (s.port p).tx = .accepted o := by
    intro p
    show (s.port p).claimsOutstanding = true ↔ _
    unfold LinkPort.claimsOutstanding
    cases (s.port p).tx <;> simp
  have ht : s.count.time.secondLength ≤ s.count.time.tickCount ↔ s.time.secondLength ≤ s.time.tickCount + 1 := Iff.rfl
  have hp : s.count.time.pendingAlarm = s.time.pendingAlarm := rfl
  have he : s.count.sched.syncRise = s.sched.syncRise := rfl
  unfold State.due
  simp only [List.mem_append, List.mem_map, List.mem_filter, List.mem_finRange, true_and, List.mem_flatMap,
    List.mem_replicate, hx, hc, ho, ht, hp, he]
  by_cases h1 : s.time.secondLength ≤ s.time.tickCount + 1 <;>
    by_cases h2 : s.time.pendingAlarm.isSome = true <;> cases e <;> simp [State.FallsDue, ← hs, ← hg, h1, h2]

/-- A tick takes what falls due, in some order, each as often as it is due. -/
theorem State.tick_eq {s : State} (h : s.inReset = false) :
    ∃ l : List TickEvent, l.Perm s.count.due ∧ s.tick = l.foldl State.takeEvent s.counted := by
  refine ⟨_, shuffle_perm s.draw _ 0, ?_⟩
  unfold State.tick
  rw [State.unlessReset_released h, State.count_bump]

/-- A property that the counters and every event of a tick keep is kept by a tick, in whatever order they fall. -/
theorem State.tick_keeps (P : State → Prop) (hcount : ∀ s, P s → P (State.count s).bump)
    (hevent : ∀ s e, P s → P (State.takeEvent s e)) {s : State} (hs : P s) : P s.tick := by
  have hfold : ∀ (l : List TickEvent) (s : State), P s → P (l.foldl State.takeEvent s) := by
    intro l
    induction l with
    | nil => exact fun _ h => h
    | cons e l ih => exact fun s h => ih _ (hevent s e h)
  unfold State.tick
  exact State.unlessReset_keeps P _ hs fun _ => hfold _ _ (hcount s hs)

/-- The events of a tick are taken each exactly once: a tick with nothing due is the counters' own step. -/
theorem State.tick_nothing_due {s : State} (h : s.inReset = false) (hd : s.count.due = []) :
    s.tick = s.count.bump := by
  unfold State.tick
  rw [State.unlessReset_released h, hd]
  rfl

/-- A step keeps what every command and a tick keep, if the queue plays no part in it. -/
theorem step_keeps (P : State → Prop) (hqueue : ∀ s q, P s → P (State.setPending s q))
    (hexec : ∀ c s t, exec c s = .next t → P s → P t) (htick : ∀ s, P s → P (State.tick s)) {s t : State}
    (h : step s = .next t) (hs : P s) : P t := by
  unfold step at h
  split at h
  · cases h
    exact htick s hs
  · exact hexec _ _ _ h (hqueue _ _ hs)

end Sys2Proof.Machine
end

