-- ==== Sys2Proof/Laws/Wire.lean ====
section
/-! SUPPORT. Numbers on the link: the bytes of a number spell the number (R167), and the bits of bytes the bytes (R166).
-/

namespace Sys2Proof.Machine

@[simp] theorem join16_bytes (w : Word16) : join16 (lowByte w) (highByte w) = w := by
  apply BitVec.eq_of_getLsbD_eq
  intro i hi
  simp only [join16, lowByte, highByte, BitVec.getLsbD_append, BitVec.getLsbD_extractLsb']
  by_cases h : i < 8
  · simp [h]
  · have h1 : i - 8 < 8 := by omega
    have h2 : 8 + (i - 8) = i := by omega
    simp [h, h1, h2]

/-- The four bytes of a 32-bit number. -/
theorem bytes32_eq (w : Word32) :
    bytes32 w =
      [lowByte (w.extractLsb' 0 16), highByte (w.extractLsb' 0 16), lowByte (w.extractLsb' 16 16),
        highByte (w.extractLsb' 16 16)] := rfl

@[simp] theorem join32_bytes (w : Word32) :
    join32 (lowByte (w.extractLsb' 0 16)) (highByte (w.extractLsb' 0 16)) (lowByte (w.extractLsb' 16 16))
      (highByte (w.extractLsb' 16 16)) = w := by
  simp only [join32, join16_bytes]
  apply BitVec.eq_of_getLsbD_eq
  intro i hi
  simp only [BitVec.getLsbD_append, BitVec.getLsbD_extractLsb']
  by_cases h : i < 16
  · simp [h]
  · have h1 : i - 16 < 16 := by omega
    have h2 : 16 + (i - 16) = i := by omega
    simp [h, h1, h2]

@[simp] theorem bytes16_length (w : Word16) : (bytes16 w).length = 2 := rfl
@[simp] theorem bytes32_length (w : Word32) : (bytes32 w).length = 4 := rfl
@[simp] theorem bytesOf16_length (n : Nat) : (bytesOf16 n).length = 2 := rfl
@[simp] theorem bytesOf32_length (n : Nat) : (bytesOf32 n).length = 4 := rfl

/-- A number in two bytes, least significant first. -/
theorem bytesOf16_eq (n : Nat) : bytesOf16 n = [byteOf n, byteOf (n / 256)] := by
  have h1 : lowByte (BitVec.ofNat 16 n) = byteOf n := by
    apply BitVec.eq_of_toNat_eq
    simp only [lowByte, byteOf, BitVec.extractLsb'_toNat, BitVec.toNat_ofNat]
    omega
  have h2 : highByte (BitVec.ofNat 16 n) = byteOf (n / 256) := by
    apply BitVec.eq_of_toNat_eq
    simp only [highByte, byteOf, BitVec.extractLsb'_toNat, BitVec.toNat_ofNat, Nat.shiftRight_eq_div_pow]
    omega
  simp [bytesOf16, bytes16, h1, h2]

/-- A number in four bytes, least significant first. -/
theorem bytesOf32_eq (n : Nat) :
    bytesOf32 n = [byteOf n, byteOf (n / 256), byteOf (n / 65536), byteOf (n / 16777216)] := by
  have h : ∀ k, k = 0 ∨ k = 16 →
      (BitVec.ofNat 32 n).extractLsb' k 16 = BitVec.ofNat 16 (n / 2 ^ k) := by
    intro k hk
    apply BitVec.eq_of_toNat_eq
    simp only [BitVec.extractLsb'_toNat, BitVec.toNat_ofNat, Nat.shiftRight_eq_div_pow]
    rcases hk with rfl | rfl <;> omega
  have h3 : n / 65536 / 256 = n / 16777216 := by omega
  have e0 := bytesOf16_eq n
  have e1 := bytesOf16_eq (n / 65536)
  simp only [bytesOf16] at e0 e1
  rw [bytesOf32, bytes32, h 0 (Or.inl rfl), h 16 (Or.inr rfl)]
  simp only [Nat.pow_zero, Nat.div_one, Nat.reducePow]
  rw [e0, e1, h3]
  rfl

/-! ### Bits -/

/-- The bits of bytes, with fewer than eight bits behind them, spell those bytes (R166). -/
theorem bytesOfBits_flatMap (bytes : List Byte) (cut : List Bool) (h : cut.length < 8) :
    bytesOfBits (bytes.flatMap bitsOf ++ cut) = bytes := by
  induction bytes with
  | nil =>
    rw [List.flatMap_nil, List.nil_append]
    match cut, h with
    | [], _ => rfl
    | [_], _ => rfl
    | [_, _], _ => rfl
    | [_, _, _], _ => rfl
    | [_, _, _, _], _ => rfl
    | [_, _, _, _, _], _ => rfl
    | [_, _, _, _, _, _], _ => rfl
    | [_, _, _, _, _, _, _], _ => rfl
    | _ :: _ :: _ :: _ :: _ :: _ :: _ :: _ :: _, h => simp at h; omega
  | cons b bytes ih =>
    have hb : ∀ k : Fin 256, BitVec.ofBoolListBE
        [(BitVec.ofFin k : Byte).getMsbD 0, (BitVec.ofFin k : Byte).getMsbD 1, (BitVec.ofFin k : Byte).getMsbD 2,
          (BitVec.ofFin k : Byte).getMsbD 3, (BitVec.ofFin k : Byte).getMsbD 4, (BitVec.ofFin k : Byte).getMsbD 5,
          (BitVec.ofFin k : Byte).getMsbD 6, (BitVec.ofFin k : Byte).getMsbD 7] = (BitVec.ofFin k : Byte) := by
      decide +kernel
    rw [List.flatMap_cons]
    exact List.cons_eq_cons.2 ⟨hb b.toFin, ih⟩

end Sys2Proof.Machine
end

