-- ==== Sys2Proof/Tests/Slice0.lean ====
section
/-! SUPPORT. Tests: ill-formed commands are refused by the check, small cases of the spec's own tables come out as the
spec says, and every statement with hypotheses has a state and operands that meet them. -/

namespace Sys2Proof.Tests

open Sys2Proof.Machine

set_option Elab.async false

/-! ### Small states -/

/-- Port p with SEL low in REQUEST, holding both rights. -/
def asking (s : State) (p : Port) : State :=
  s.setPort p { s.port p with selected := true, tx := .request, rights := { map := true, plan := true } }

/-- Page i's record replaced. -/
def withPage (s : State) (i : Page) (r : PageRecord) : State := s.setMap (s.map.setPage i r)

/-- A defined page without a version. -/
def emptyPage (g : Group) (readers writers : PortSet) : PageRecord :=
  { PageRecord.unused with defined := true, group := g, readers := readers, writers := writers }

/-- SETUP, port 0 asking. -/
def setup : State := asking State.reset 0

/-- RUN without anything under way, port 0 asking. -/
def run : State := setup.setPart .run

/-- Page 3 LIVE on frame 0 and READY on frame 1; page 4 OPEN on frame 2 with one cycle left; page 5 OPEN on frame 3
without limit; page 6 EMPTY; frame 4 retiring. -/
def sampleMap : ExchangeMap :=
  { ExchangeMap.reset with
    pages := (((ExchangeMap.reset.pages.set 3
      { emptyPage 2 3 1 with
        live := some 0, sequence := 9, lastPublished := some 5
        staging := some { frame := 1, stager := 0, state := .ready, cyclesLeft := 3, serial := 6 } }).set 4
      { emptyPage 2 0 4 with
        staging := some { frame := 2, stager := 2, state := .opened, cyclesLeft := 1, serial := 7 } }).set 5
      { emptyPage 5 0 8 with
        staging := some { frame := 3, stager := 3, state := .opened, cyclesLeft := 0, serial := 8 } }).set 6
      (emptyPage 2 1 1)
    frames := [(0, 17), (130, 34)]
    freeList := (List.finRange 512).drop 5
    refs := ((ExchangeMap.reset.refs.set 3 1).set 4 1)
    retiring := [4]
    serial := 8 }

/-- Port 0 asking, port 1 reading frame 4, port 2 in the data phase of a write, port 3 reading its staging. -/
def sampleLink : Vector LinkPort 4 :=
  #v[{ LinkPort.reset with selected := true, tx := .request, rights := { map := true, plan := true } },
    { LinkPort.reset with
      selected := true, tx := .response { status := .ok, body := [9, 0, 1] }
      reading := some { kind := .read, page := 3, frame := 4 } },
    { LinkPort.reset with
      selected := true, tx := .writeData 2 none
      write := some { page := 4, serial := 7, offset := 62, data := [] } },
    { LinkPort.reset with
      selected := true, tx := .response { status := .ok, body := [8, 0, 1] }
      reading := some { kind := .stageRead, page := 5, frame := 3 } }]

/-- In cycle 1, slot 0 of two; slot 1 publishes group 2 in cycles 1, 5, 9, ... and tells port 0. -/
def sampleSched : Schedule :=
  { Schedule.reset with
    planA :=
      { entries := Plan.reset.entries.set 1
          { duration := 20, group := some 2, notify := 1, filterValue := 1, filterMask := 3 }
        count := 2 }
    engine := .inCycle, cycleCount := 1, slotTimer := some { elapsed := 998, duration := 1000 } }

/-- Port 1 holds group 2 for one more cycle. -/
def sampleHold : HoldTable := { HoldTable.reset with records := HoldTable.reset.records.set 1 (some ⟨4, 1⟩) }

/-- Group 2 deferred. -/
def samplePub : PublicationUnit := PublicationUnit.reset.setMark 2 true

/-- Views of port 0 onto pages 3, 6, 7 (unused) and 5 (not admitted), of port 2 onto page 4; port 0's fault record
occupied. -/
def sampleView : ViewUnit :=
  { views := (ViewUnit.reset.views.set 0
      ((((Vector.replicate 128 none).set 0 (some ⟨3, true, true⟩)).set 1 (some ⟨6, true, true⟩)).set 2
        (some ⟨7, true, false⟩) |>.set 3 (some ⟨5, true, true⟩))).set 2
      ((Vector.replicate 128 none).set 0 (some ⟨4, false, true⟩))
    faults := ViewUnit.reset.faults.set 0
      (some { cause := .notMapped, request := .read, portPage := 127, offset := 63, cycle := 0, repeated := false }) }

/-- Line 0 latched with group 5 frozen; line 1 with a pending change. -/
def sampleStop : StopUnit :=
  { lines := #v[{ StopLine.reset with freeze := 32, mode := .latch, stop := .active },
      { StopLine.reset with
        pin := .active, filterTime := 2, input := .active, pending := some { level := .active, timer := 0 } }]
    frozen := 32 }

/-- The last second of 31 December of year 99, a Sunday, with an alarm at midnight of every day. -/
def sampleTime : Timebase :=
  { Timebase.reset with
    tickCount := 999998
    calendar := { year := 99, month := 12, day := 31, hour := 23, minute := 59, second := 59, weekday := 6 }
    alarm := { enabled := true, weekdays := 127, hour := 0, minute := 0, action := .noticeAndSwitch } }

def sampleNotice : Notice := { stamp := { cycle := 1, slot := 0, second := 86399 }, body := .slot 0 }

/-- Port 0 has one notice, its line asserted for it; port 2 subscribes group 2; port 3 takes all four kinds. -/
def sampleNotices : NoticeUnit :=
  { ports := #v[{ NoticePort.reset with queue := [sampleNotice], attention := 16, faultOccupied := true, attn := true },
      NoticePort.reset, { NoticePort.reset with subscription := 4 }, { NoticePort.reset with kinds := 15 }] }

/-- All of it, in RUN. -/
def sample : State :=
  { pending := [], choices := 0, inReset := false, part := .run, link := sampleLink, map := sampleMap
    sched := sampleSched, pub := samplePub, hold := sampleHold, view := sampleView, stop := sampleStop
    time := sampleTime, notice := sampleNotices }

/-- sample with the exchange map's claim of port 0's data request x outstanding on page i. -/
def awaiting (x : DataCall) (i : Page) : State :=
  sample.setPort 0 { sample.port 0 with received := (x.command 0).record, tx := .accepted (.pagePart x i) }

/-- sample with its schedule changed. -/
def sampleWith (f : Schedule → Schedule) : State := sample.setSched (f sample.sched)

/-! ### The well-formedness check -/

theorem test_illformed_known_header : (Instr.badRequest 0 1 0).wellFormed = false := by decide
theorem test_illformed_no_data : (Instr.stageWriteCompletion 0 []).wellFormed = false := by decide
theorem test_illformed_too_much_data :
    (Instr.stageWriteCompletion 0 (List.replicate 65 0)).wellFormed = false := by decide
theorem test_wellformed : (Instr.badRequest 0 1 1).wellFormed = true ∧
    (Instr.stageWriteCompletion 0 (List.replicate 64 0)).wellFormed = true := by decide

/-! ### The table spells no command by a word -/

theorem test_no_table_word : decodeTableWord 16 1 = none := rfl
theorem test_withFetchWord : sample.withFetchWord 16 1 = sample := rfl

/-! ### Records, by section 9.2 and R167 -/

theorem test_record_view_set :
    (Instr.viewSet 2 1 127 1 0x013F 3).record = [0x40, 6, 1, 127, 1, 0x3F, 0x01, 3] := by decide
theorem test_record_sync_set :
    (Instr.syncSet 0 1 0x000F4240).record = [0x24, 5, 1, 0x40, 0x42, 0x0F, 0x00] := by decide
theorem test_decode_short : decodeRecord 0 [0x40, 6, 1] = none := by decide
/-- A request's bits, most significant first, with four bits of a byte cut short behind them (R166). -/
theorem test_heard :
    sample.heard 0 (([0x40, 6, 2, 127, 0, 0, 0, 0] : List Byte).flatMap bitsOf ++ [true, true, false, true]) =
      some (.viewSet 0 2 127 0 0 0) := by decide +kernel

/-- Port 1's READ response of sequence 9 and one byte leaves as its record, then 0xFF; SDO of an unselected port is not
driven (R166, R167). -/
theorem test_sdo : (List.range 6).map (sample.sdo 1) = [some 0, some 3, some 9, some 0, some 1, some 0xFF] ∧
    sample.sdo 0 0 = some 0xFF ∧ State.reset.sdo 0 0 = none := by decide +kernel

/-- The first two bytes of the same response as bits: status 0, body length 3. The level at entry stays to the first fall
of SCK; SEL's fall sets up the first bit of a request; SDI is sampled at the rises (R166). -/
theorem test_sdo_bits :
    (List.range 16).map (sample.sdoBit 1) = (bitsOf 0 ++ bitsOf 3).map some ∧
      sample.driveAll 1 (some true) [.clockRises false] = { level := some true, setUp := 0 } ∧
      (sample.driveAll 1 (some true) ((List.replicate 16 [LineEdge.clockFalls, .clockRises true]).flatten)).level =
        some true ∧
      (sample.driveAll 1 (some true) ((List.replicate 14 [LineEdge.clockFalls, .clockRises true]).flatten)).level =
        some false ∧
      sample.driveAll 0 none [.selectFalls] = { level := some true, setUp := 1 } ∧
      State.reset.driveAll 0 none [.clockFalls] = { level := none, setUp := 0 } ∧
      sampledBits [.selectFalls, .clockRises true, .clockFalls, .clockRises false] = [true, false] := by decide +kernel

theorem test_decode_bad : decodeRecord 3 [0x40, 5] = some (.badRequest 3 0x40 5) := by decide

/-! ### Small cases of the spec's tables -/

/-- The calendar of R138: the last second of year 99 is followed by the first of year 0; 29 February in year 96 and not
in year 97. -/
theorem test_calendar_year :
    sampleTime.calendar.advance =
      { year := 0, month := 1, day := 1, hour := 0, minute := 0, second := 0, weekday := 0 } := by decide
theorem test_calendar_leap : monthLength 96 2 = 29 ∧ monthLength 97 2 = 28 ∧ monthLength 0 2 = 29 := by decide

/-- The countdown of R25 at the end of the last slot: page 4 expires, page 5 has no limit, page 3 is READY. -/
theorem test_countdown :
    (sampleMap.countStagings.1.page 4).staging = none ∧
      sampleMap.countStagings.2 = [{ page := 4, stager := 2, serial := 7 }] ∧
      sampleMap.countStagings.1.page 5 = sampleMap.page 5 ∧ sampleMap.countStagings.1.page 3 = sampleMap.page 3 ∧
      sampleMap.countStagings.1.freeList.getLast? = some 2 := by decide +kernel

/-- The swap of R63: page 3 goes live on frame 1, frame 0 goes to the free list tail, page 4 is late. -/
theorem test_swap :
    ((sampleMap.swap 2 1).map.page 3).live = some 1 ∧ ((sampleMap.swap 2 1).map.page 3).sequence = 10 ∧
      (sampleMap.swap 2 1).published = 1 ∧ (sampleMap.swap 2 1).late = [(4, 2)] ∧
      (sampleMap.swap 2 1).map.freeList.getLast? = some 0 := by decide +kernel

/-- A point of group 2 while it is held: DEFERRED (R61). After the hold, CATCH_UP (R67). -/
theorem test_deferred : (sample.takePoint 2).1.pub.groups[(2 : Group)].last = .deferred := by decide +kernel
theorem test_catch_up :
    (sample.endHold 1).pub.groups[(2 : Group)] =
      { last := .catchUp, cycle := 1, published := 1, late := 1, mark := false } := by decide +kernel

/-- A HOLD_BROKEN of group 3 can stand before and among the notices of a point of group 2 taken earlier (R154); one of
group 2 cannot (R92); and neither can a STAGE_EXPIRED before the LATE of its page (R27). -/
theorem test_free_order :
    let late : Outgoing := ⟨.point, sample.address 2 (.late 4 2)⟩
    let point : Outgoing := ⟨.point, sample.groupPoint 2 .published 0 1⟩
    let expired : Outgoing := ⟨.exchangeMap, sample.address 2 (.stageExpired 4 7)⟩
    let broken (groups : GroupSet) : Outgoing := ⟨.holdTable, sample.address 1 (.holdBroken groups)⟩
    arrange Outgoing.before (fun _ => 0) 0 [] [late, point, broken 8] = [broken 8, late, point] ∧
      arrange Outgoing.before (fun _ => 1) 0 [] [late, point, broken 8] = [late, broken 8, point] ∧
      arrange Outgoing.before (fun _ => 0) 0 [] [late, point, broken 4] = [late, point, broken 4] ∧
      arrange Outgoing.before (fun _ => 0) 0 [] [late, point, expired] = [late, expired, point] := by decide +kernel

/-- PART_STATUS of the sample (R182): model 432, revision 1, RUN, IN_CYCLE, plan A, no switch, cycle 1, slot 0, 507 free
frames, one retiring. -/
theorem test_part_status : sample.partStatusBody = [0xB0, 0x01, 1, 1, 1, 0, 0, 1, 0, 0xFB, 0x01, 1] := by
  decide +kernel

/-- A notice record (R155). -/
theorem test_notice_record :
    sampleNotice.bytes = [5, 1, 0, 0, 0x7F, 0x51, 0x01, 0x00, 0, 0, 0, 0, 0, 0, 0, 0] := by decide

/-! ### The laws hold in the sample, and its steps take no step out of them by accident of its emptiness -/

theorem sample_memoryLaw : sample.MemoryLaw := by decide
theorem sample_attentionLaw : sample.AttentionLaw := by decide +kernel
theorem sample_faultReportLaw : sample.FaultReportLaw := by decide +kernel
theorem sample_queueLaw : sample.QueueLaw := by decide +kernel
theorem sample_setupLaw : sample.SetupLaw := fun h => absurd h (by decide)
theorem sample_resetLaw : sample.ResetLaw := fun h => absurd h (by decide)
theorem sample_markLaw : sample.MarkLaw := by decide +kernel
theorem sample_scheduleLaw : sample.ScheduleLaw := by decide +kernel
theorem sample_watchLaw : sample.WatchLaw := by decide +kernel
theorem sample_outcomeLaw : sample.OutcomeLaw := by decide +kernel

theorem sample_stopLaw : sample.StopLaw := by
  refine ⟨fun l => ?_, by decide⟩
  match l with
  | 0 =>
    refine ⟨fun h => absurd h (by decide), fun _ => by decide, fun c hc => ?_⟩
    cases hc
  | 1 =>
    refine ⟨fun h => absurd h (by decide), fun h => absurd h (by decide), fun c hc => ?_⟩
    cases hc
    decide

theorem sample_holdLaw : sample.HoldLaw := by
  refine ⟨by decide, fun p h hp => ?_⟩
  match p with
  | 0 => cases hp
  | 1 =>
    cases hp
    decide
  | 2 => cases hp
  | 3 => cases hp

theorem sample_timeLaw : sample.TimeLaw := by
  refine ⟨by decide, fun c h => ?_, by decide, fun c h => ?_, by decide⟩
  · cases h
  · cases h

theorem sample_linkLaw : sample.LinkLaw := by
  have hnone : ∀ p : Port, (sample.port p).claimsOutstanding = false := by decide +kernel
  have hleft : ∀ (p : Port) left, (sample.port p).tx = .accepted (.portReset left) → left ≠ ResetClaims.none := by
    intro p left h
    have hp := hnone p
    rw [LinkPort.claimsOutstanding, h] at hp
    cases hp
  intro p
  match p with
  | 0 =>
    refine ⟨fun h => absurd h (by decide), fun h => absurd h (by decide), ⟨fun h => absurd h (by decide), ?_⟩,
      hleft 0⟩
    rintro ⟨n, h⟩
    cases h
  | 1 =>
    refine ⟨fun h => absurd h (by decide), fun _ => ⟨_, rfl⟩, ⟨fun h => absurd h (by decide), ?_⟩,
      hleft 1⟩
    rintro ⟨n, h⟩
    cases h
  | 2 =>
    exact ⟨fun h => absurd h (by decide), fun h => absurd h (by decide), ⟨fun _ => ⟨2, rfl⟩, fun _ => rfl⟩,
      hleft 2⟩
  | 3 =>
    refine ⟨fun h => absurd h (by decide), fun _ => ⟨_, rfl⟩, ⟨fun h => absurd h (by decide), ?_⟩,
      hleft 3⟩
    rintro ⟨n, h⟩
    cases h

/-- The sample's pages, one by one. -/
theorem sample_page (i : Page) :
    sample.map.page i =
      if i.val = 6 then emptyPage 2 1 1
      else if i.val = 5 then
        { emptyPage 5 0 8 with
          staging := some { frame := 3, stager := 3, state := .opened, cyclesLeft := 0, serial := 8 } }
      else if i.val = 4 then
        { emptyPage 2 0 4 with
          staging := some { frame := 2, stager := 2, state := .opened, cyclesLeft := 1, serial := 7 } }
      else if i.val = 3 then
        { emptyPage 2 3 1 with
          live := some 0, sequence := 9, lastPublished := some 5
          staging := some { frame := 1, stager := 0, state := .ready, cyclesLeft := 3, serial := 6 } }
      else PageRecord.unused := by
  simp only [sample, sampleMap, ExchangeMap.page, ExchangeMap.reset, Fin.getElem_fin, Vector.getElem_set,
    Vector.getElem_replicate, eq_comm (b := i.val)]

theorem sample_refs (f : Frame) : sample.map.refs[f] = if f.val = 4 then 1 else if f.val = 3 then 1 else 0 := by
  simp only [sample, sampleMap, ExchangeMap.reset, Fin.getElem_fin, Vector.getElem_set, Vector.getElem_replicate,
    eq_comm (b := f.val)]

theorem sample_pageLaw : sample.PageLaw := by
  intro i
  rw [sample_page]
  split_ifs
  · exact ⟨fun h => absurd h (by decide), fun st h => by cases h⟩
  · refine ⟨fun h => absurd h (by decide), fun st h => ?_⟩
    cases h
    decide
  · refine ⟨fun h => absurd h (by decide), fun st h => ?_⟩
    cases h
    decide
  · refine ⟨fun h => absurd h (by decide), fun st h => ?_⟩
    cases h
    decide
  · exact ⟨fun _ => rfl, fun st h => by cases h⟩

theorem sample_stagerLaw : sample.StagerLaw := by
  unfold State.StagerLaw ExchangeMap.stagingCount
  simp only [sample_page]
  decide +kernel

/-- Five frames stand where the sample puts them, and every other frame stands on the free list. -/
theorem sample_frameLaw : sample.FrameLaw := by
  have hlive : ∀ (i : Page) (x : Frame), (sample.map.page i).live = some x → x.val < 5 := by
    intro i x
    rw [sample_page]
    split_ifs <;> rintro ⟨⟩
    decide
  have hstag : ∀ (i : Page) (x : Frame), (sample.map.page i).staging.map Staging.frame = some x → x.val < 5 := by
    intro i x
    rw [sample_page]
    split_ifs <;> rintro ⟨⟩ <;> decide
  have hread : ∀ (p : Port) (x : Frame), (sample.port p).reading.map ReadInFlight.frame = some x → x.val < 5 := by
    intro p x
    match p with
    | 0 => rintro ⟨⟩
    | 1 => rintro ⟨⟩; decide
    | 2 => rintro ⟨⟩
    | 3 => rintro ⟨⟩; decide
  have hfree : sample.map.freeList = (List.finRange 512).drop 5 := by simp only [sample, sampleMap]
  have hretiring : sample.map.retiring = [4] := by simp only [sample, sampleMap]
  have hmem : ∀ f : Frame, f ∈ sample.map.freeList ↔ 5 ≤ f.val := by
    intro f
    rw [hfree, List.mem_drop_iff_getElem]
    constructor
    · rintro ⟨k, hk, e⟩
      rw [← e]
      simp
    · intro h
      refine ⟨f.val - 5, by simp; omega, ?_⟩
      ext
      simp
      omega
  have hnodup : sample.map.freeList.Nodup := by
    rw [hfree]
    exact (List.nodup_finRange 512).sublist (List.drop_sublist 5 _)
  have hcount : ∀ f : Frame, sample.map.freeList.count f = if 5 ≤ f.val then 1 else 0 := by
    intro f
    split
    · exact List.count_eq_one_of_mem hnodup ((hmem f).2 (by assumption))
    · exact List.count_eq_zero.2 fun h => absurd ((hmem f).1 h) (by assumption)
  have hlow : ∀ f : Fin 5,
      (List.finRange 320).countP (fun i => decide ((sample.map.page i).live = some (⟨f.val, by omega⟩ : Frame))) =
          (if f.val = 0 then 1 else 0) ∧
        (List.finRange 320).countP
            (fun i => decide ((sample.map.page i).staging.map Staging.frame = some (⟨f.val, by omega⟩ : Frame))) =
          (if f.val = 1 ∨ f.val = 2 ∨ f.val = 3 then 1 else 0) ∧
        sample.readersOf ⟨f.val, by omega⟩ = if f.val = 3 ∨ f.val = 4 then 1 else 0 := by
    simp only [sample_page]
    decide +kernel
  intro f
  have h4 : f ∈ ([4] : List Frame) ↔ f.val = 4 := by
    rw [List.mem_singleton, Fin.ext_iff]
    rfl
  have hcount4 : ([4] : List Frame).count f = if f.val = 4 then 1 else 0 := by
    split
    · exact List.count_eq_one_of_mem (List.nodup_singleton _) (h4.2 (by assumption))
    · exact List.count_eq_zero.2 fun h => absurd (h4.1 h) (by assumption)
  unfold ExchangeMap.places
  rw [hcount, hmem, sample_refs, hretiring, hcount4, h4]
  by_cases h : f.val < 5
  · obtain ⟨h1, h2, h3⟩ := hlow ⟨f.val, h⟩
    dsimp only at h1 h2 h3
    rw [h1, h2, h3]
    have : f.val = 0 ∨ f.val = 1 ∨ f.val = 2 ∨ f.val = 3 ∨ f.val = 4 := by omega
    rcases this with e | e | e | e | e <;> simp [e]
  · have hnone : ∀ {α : Type} (l : List α) (g : α → Option Frame), (∀ a x, g a = some x → x.val < 5) →
        l.countP (fun a => decide (g a = some f)) = 0 := by
      intro α l g hg
      rw [List.countP_eq_zero]
      intro a _ ha
      exact absurd (hg a f (of_decide_eq_true ha)) h
    have h4' : f.val ≠ 4 := by omega
    have h3' : f.val ≠ 3 := by omega
    unfold State.readersOf
    rw [hnone _ _ hlive, hnone _ _ hstag, hnone _ _ hread, if_neg h4', if_neg h3', if_pos (by omega)]
    simp [h4']

/-! ### Witnesses: states and operands that meet the hypotheses of the statements -/

/-- Nothing falls due at the next tick, though every counter runs and stands two short of its limit. -/
def beforeDue : State :=
  (sample.setSched { sample.sched with gapTimer := some 98, gapLimit := 100 }).setStop
    { sample.stop with
      lines := sample.stop.lines.set 1 { sample.stop.line 1 with filterTime := 3, pending := some ⟨.active, 1⟩ } }

theorem witness_EmptyQueueCountsOneTick :
    (sample.holdInReset.pending = [] ∧ sample.holdInReset.inReset = true) ∧
      beforeDue.pending = [] ∧ beforeDue.inReset = false ∧ beforeDue.sched.slotTimer = some ⟨998, 1000⟩ ∧
      beforeDue.sched.gapTimer = some 98 ∧ beforeDue.sched.gapLimit = 100 ∧
      (beforeDue.stop.line 0).pending = none ∧ (beforeDue.stop.line 1).pending = some ⟨.active, 1⟩ ∧
      (beforeDue.stop.line 1).filterTime = 3 ∧ beforeDue.time.tickCount + 1 < beforeDue.time.secondLength ∧
      beforeDue.time.pendingAlarm = none ∧
      (∀ l : Line, beforeDue.stop.lines[l].pin = beforeDue.stop.lines[l].input) ∧
      ∀ p : Port, (beforeDue.port p).claimsOutstanding = false := by decide +kernel

/-- The same with one data request outstanding. -/
theorem witness_EmptyQueue_outstanding :
    (awaiting (.stageReady 0) 3).Awaits 0 (.stageReady 0) 3 ∧
      ∀ q : Port, q ≠ 0 → ((awaiting (.stageReady 0) 3).port q).claimsOutstanding = false := by decide +kernel

/-- The sample with its stop line 1 changed. -/
def withLine (f : StopLine → StopLine) : State :=
  sample.setStop { sample.stop with lines := sample.stop.lines.set 1 (f (sample.stop.line 1)) }

/-- Each counter one short of its limit and at it: the second, the slot, the filter; a stop pin that has changed with a
filter change pending and without; an alarm answer that is pending. -/
theorem witness_EmptyQueue_expiries :
    (sample.pending = [] ∧ sample.inReset = false ∧ sample.time.tickCount + 1 < sample.time.secondLength) ∧
      { sample.time with tickCount := 999999 }.secondLength ≤ 999999 + 1 ∧
      (sample.ScheduleLaw ∧ sample.sched.slotTimer = some ⟨998, 1000⟩) ∧
      ((sampleWith fun c => { c with slotTimer := some ⟨999, 1000⟩ }).ScheduleLaw ∧ 1000 ≤ 999 + 1) ∧
      (sample.stop.line 0).pending = none ∧
      ((sample.stop.line 1).pending = some ⟨.active, 0⟩ ∧ 0 + 1 < (sample.stop.line 1).filterTime.toNat) ∧
      ((withLine fun x => { x with filterTime := 1 }).stop.line 1).filterTime.toNat ≤ 0 + 1 ∧
      ((withLine fun x => { x with pin := .inactive }).stop.line 1).pin ≠ (sample.stop.line 1).input ∧
      ((sample.driveStop 0 .active).stop.line 0).pin ≠ ((sample.driveStop 0 .active).stop.line 0).input ∧
      ((sample.driveStop 0 .active).stop.line 0).pending = none := by decide +kernel

/-- beforeDue with a counter at its limit, a changed pin or a pending alarm answer: one event falls at the next tick. -/
theorem witness_EmptyQueue_onlyDue :
    let slotEnd := beforeDue.setSched { beforeDue.sched with slotTimer := some ⟨999, 1000⟩ }
    let gapEnd := beforeDue.setSched { beforeDue.sched with gapTimer := some 99 }
    let filterEnd := beforeDue.setStop
      { beforeDue.stop with lines := beforeDue.stop.lines.set 1 { beforeDue.stop.line 1 with filterTime := 2 } }
    let pinChanged := beforeDue.setStop
      { beforeDue.stop with lines := beforeDue.stop.lines.set 0 { beforeDue.stop.line 0 with pin := .active } }
    let answerDue := beforeDue.setTime { beforeDue.time with pendingAlarm := some 0 }
    let secondEnd := beforeDue.setTime { beforeDue.time with tickCount := 999999 }
    let risen := beforeDue.setSched { beforeDue.sched with syncRise := true }
    slotEnd.OnlyDue .slot ∧ gapEnd.OnlyDue .gap ∧ risen.OnlyDue .edge ∧ filterEnd.OnlyDue (.filter 1) ∧ pinChanged.OnlyDue (.sample 0) ∧
      answerDue.OnlyDue .alarmAnswer ∧ (∀ e, secondEnd.FallsDue e ↔ e = .second ∨ e = .alarmAnswer) ∧
      ∀ s ∈ [slotEnd, gapEnd, risen, filterEnd, pinChanged, answerDue, secondEnd], s.pending = [] ∧ s.inReset = false := by
  have one : ∀ (s : State) (e : TickEvent), s.count.due = [e] → s.OnlyDue e := by
    intro s e h e'
    rw [← State.mem_due, h, List.mem_singleton]
  refine ⟨one _ _ (by decide +kernel), one _ _ (by decide +kernel), one _ _ (by decide +kernel),
    one _ _ (by decide +kernel), one _ _ (by decide +kernel), one _ _ (by decide +kernel), fun e => ?_,
    by decide +kernel⟩
  rw [← State.mem_due, show State.due _ = [.second, .alarmAnswer] by decide +kernel]
  simp

/-- The rows whose effect a tick has complete in the sample. -/
theorem witness_EmptyQueue_rows : (∃ u, exec .secondBoundary sample = .next u) ∧
    (∃ u, exec .endOfSlot sample = .next u) ∧ (∃ u, exec .gapExpiry sample = .next u) ∧
      (∃ u, exec (.filterTimerExpiry 1) sample = .next u) ∧ ∃ u, exec (.stopInputChange 1 .inactive) sample = .next u :=
  ⟨⟨_, rfl⟩, ⟨_, rfl⟩, ⟨_, rfl⟩, ⟨_, rfl⟩, _, rfl⟩

theorem sample_ready : sample.ReadyFor 0 := by decide +kernel
theorem setup_ready : setup.ReadyFor 0 := by decide +kernel
theorem run_ready : run.ReadyFor 0 := by decide +kernel

/-- A port in RUN without rights. -/
def unprivileged : State := sample.setPort 0 { sample.port 0 with rights := { map := false, plan := false } }

theorem witness_RangeThenRightsAreChecked :
    (Instr.planLength 0 1 49).requestPort? = some 0 ∧ (Instr.planLength 0 1 49).inRange = false ∧
      (Instr.planLength 0 1 48).inRange = true ∧ (Instr.planLength 0 1 48).rightNeeded = some .plan ∧
      unprivileged.ReadyFor 0 ∧ unprivileged.part = .run ∧ unprivileged.holdsRight 0 .plan = false ∧
      sample.holdsRight 0 .plan = true ∧ setup.part = .setup := by decide +kernel

theorem witness_UnknownHeaderIsRefused : ((0x5B : Byte).toNat, (0 : Byte).toNat) ∉ requestTable ∧
    ((0x01 : Byte).toNat, (1 : Byte).toNat) ∉ requestTable ∧ sample.ReadyFor 0 := by decide +kernel

theorem witness_SelectAndResponseMoveTheTransaction :
    (State.reset.inReset = false ∧ (State.reset.port 3).selected = false ∧ (State.reset.port 3).tx = .idle) ∧
      ((setup.setPort 0 { setup.port 0 with tx := .response ⟨.ok, []⟩ }).port 0).reading = none ∧
      ((awaiting (.stageReady 0) 3).port 0).tx = .accepted (.pagePart (.stageReady 0) 3) ∧
      ((sample.port 1).selected = true ∧ (sample.port 1).tx = .response ⟨.ok, [9, 0, 1]⟩) ∧
      ((sample.port 0).selected = true ∧ (sample.port 0).tx = .request) ∧ State.reset.inReset = false ∧
      (Instr.start 1).requestPort? = some 1 ∧ ¬ sample.ReadyFor 1 := by decide +kernel

theorem witness_SelectReleaseEndsTheTransaction :
    ((sample.port 2).selected = true ∧ (sample.port 2).reading = none ∧
      (sample.port 2).claimsOutstanding = false ∧ (sample.port 1).claimsOutstanding = false) ∧
      (sample.port 1).selected = true ∧ (sample.port 1).reading = some ⟨.read, 3, 4⟩ := by decide +kernel

theorem witness_ReadCompletionReleasesTheReference :
    ((sample.port 1).tx = .response ⟨.ok, [9, 0, 1]⟩ ∧ (sample.port 1).reading = some ⟨.read, 3, 4⟩) ∧
      (sample.port 3).tx = .response ⟨.ok, [8, 0, 1]⟩ ∧ (sample.port 3).reading = some ⟨.stageRead, 5, 3⟩ := by
  decide +kernel

/-- The last two bytes of frame 2 are awaited. -/
theorem witness_StageWriteCompletionWritesItsBytes :
    ((sample.port 2).tx = .writeData [(1 : Byte), 2].length none ∧
      (sample.port 2).write = some { page := 4, serial := 7, offset := 62, data := [] } ∧
      62 + [(1 : Byte), 2].length ≤ 64) ∧
      sample.map.page 4 = sample.map.page 4 ∧
      (sample.map.page 4).staging = some
        { frame := 2, stager := 2, state := .opened, cyclesLeft := 1, serial := 7 } := by decide +kernel

/-- The staging is gone before the last byte, and an acceptance that was refused. -/
theorem witness_StageWriteCompletion_notStaged :
    ((sample.setMap (sample.map.removeStaging 4)).port 2).write =
        some { page := 4, serial := 7, offset := 62, data := [] } ∧
      ((sample.setMap (sample.map.removeStaging 4)).map.page 4).staging = none ∧
      ((sample.setPort 2 { sample.port 2 with tx := .writeData 1 (some .notStaged), write := none }).port 2).tx =
        .writeData [(1 : Byte)].length (some .notStaged) := by decide +kernel

theorem witness_ResponseBodyLengths :
    (∃ t b, exec (.partStatus 0) sample = .next t ∧ (t.port 0).tx = .response ⟨.ok, b⟩) ∧
      (∃ t b, exec (.retirePage 0 4) sample = .next t ∧ (t.port 0).tx = .response ⟨.pageBusy, b⟩) ∧
      (∃ t b, exec (.hold 0 4) (sample.setHold { sample.hold with records := sample.hold.records.set 0 (some ⟨1, 2⟩) }) =
        .next t ∧ (t.port 0).tx = .response ⟨.held, b⟩) ∧
      ∃ t b, exec (.release 0) sample = .next t ∧ ((t.settle 0).port 0).tx = .response ⟨.notHeld, b⟩ :=
  ⟨⟨_, _, rfl, rfl⟩, ⟨_, _, rfl, rfl⟩, ⟨_, _, rfl, rfl⟩, _, _, rfl, rfl⟩

theorem witness_EveryCommandCompletes :
    (Instr.stageWrite 0 0 0 64).requestPort? = some 0 ∧ (Instr.stageWrite 0 0 0 64).wellFormed = true ∧
      (Instr.badRequest 0 0 0).wellFormed = true ∧ sample.ReadyFor 0 := by decide +kernel

theorem setup_setupLaw : setup.SetupLaw := by decide +kernel

theorem witness_StartBeginsTheRun :
    (sample.ReadyFor 0 ∧ sample.part = .run) ∧
      ((setup.setSched { setup.sched with syncMode := .triggered }).ReadyFor 0 ∧ setup.part = .setup) ∧
      setup.ReadyFor 0 ∧ setup.sched.syncMode = .free ∧ setup.SetupLaw :=
  ⟨⟨sample_ready, rfl⟩, ⟨by decide +kernel, rfl⟩, setup_ready, rfl, setup_setupLaw⟩

/-- SETUP in FREE mode with a slot 0 that publishes group 2 in every cycle and tells port 1. -/
def beforeStart : State :=
  setup.setSched
    { setup.sched with
      planA :=
        { Plan.reset with
          entries := Plan.reset.entries.set 0 { SlotEntry.reset with group := some 2, notify := 2 } } }

theorem witness_StartBeginsTheRun_firstPoint :
    beforeStart.ReadyFor 0 ∧ beforeStart.part = .setup ∧ beforeStart.sched.syncMode = .free ∧ beforeStart.SetupLaw ∧
      ((beforeStart.setPart .run).startSchedule fun _ => 0).FirstPoint 2 ∧ ¬ ((beforeStart.setPart .run).startSchedule fun _ => 0).FirstPoint 3 ∧
      ((beforeStart.setPart .run).startSchedule fun _ => 0).sched.activePlan.entries[(0 : SlotNo)].notify.getLsbD 1 = true :=
  ⟨by decide +kernel, rfl, rfl, by decide +kernel, by decide +kernel, by decide +kernel, by decide +kernel⟩

theorem witness_HaltReturnsToSetup :
    (setup.ReadyFor 0 ∧ setup.part = .setup) ∧ sample.ReadyFor 0 ∧ sample.part = .run ∧ sample.PlanAllowed 0 := by
  decide +kernel

/-- Port 0 resets without a hold; holding group 2 alone, whose mark is set, with the group frozen and not; and holding
it beside port 1. -/
theorem witness_PortResetClearsThePort :
    (sample.ReadyFor 0 ∧ sample.hold.records[(0 : Port)] = none) ∧
      ((sample.setHold { HoldTable.reset with records := HoldTable.reset.records.set 0 (some ⟨4, 1⟩) }).hold.records[(0 : Port)] =
          some ⟨4, 1⟩ ∧
        (∀ q : Port, q ≠ 0 →
          (sample.setHold { HoldTable.reset with records := HoldTable.reset.records.set 0 (some ⟨4, 1⟩) }).hold.records[q] =
            none) ∧
        (4 : GroupSet).getLsbD 2 = true ∧ sample.pub.groups[(2 : Group)].mark = true) ∧
      sample.stop.frozen.getLsbD 2 = false ∧
      (sample.setStop { sample.stop with frozen := 4 }).stop.frozen.getLsbD 2 = true ∧
      sample.hold.records[(1 : Port)] = some ⟨4, 1⟩ := by decide +kernel

/-- The sample with the claims left of port 1's reset outstanding. -/
def resetting (left : ResetClaims) : State :=
  sample.setPort 1 { sample.port 1 with tx := .accepted (.portReset left), reading := none }

/-- Port 1's claims outstanding, its hold ending the deferral of group 2; and the same with its hold gone, after a HALT and
after a hold break. -/
theorem witness_PortReset_outstanding :
    ((resetting ResetClaims.all).port 1).tx = .accepted (.portReset ResetClaims.all) ∧
      (resetting ResetClaims.all).EndsDeferral 1 2 ∧
      (((resetting { ResetClaims.all with stagings := false }).haltPart).port 1).tx =
        .accepted (.portReset { ResetClaims.all with stagings := false }) ∧
      (resetting ResetClaims.all).haltPart.hold.records[(1 : Port)] = none := by
  refine ⟨rfl, ⟨⟨⟨4, 1⟩, rfl, by decide⟩, fun q h hq hr => ?_, rfl⟩, rfl, by decide +kernel⟩
  match q with
  | 0 => cases hr
  | 1 => exact absurd rfl hq
  | 2 => cases hr
  | 3 => cases hr

/-- The claims of a port reset of p taken in one order (R30, R98, R116, R165): port 0's queue, staging and fault record
are gone; and a HALT between two of them finds no hold, so that no catch-up is taken (R184). -/
theorem test_port_reset_claims :
    ((sample.resetPort (fun _ => 0) 0 ResetClaims.all).map.page 3).staging = none ∧
      (sample.resetPort (fun _ => 0) 0 ResetClaims.all).view.faults[(0 : Port)] = none ∧
      (sample.resetPort (fun _ => 0) 0 ResetClaims.all).notice.ports[(0 : Port)].queue = [] ∧
      (((sample.resetPort (fun _ => 0) 1 { ResetClaims.none with stagings := true }).haltPart.resetPort (fun _ => 0) 1
        { ResetClaims.none with hold := true }).pub.groups[(2 : Group)]).last = .noOutcome := by decide +kernel

/-- Until the last of the four claims is taken the port has no response; then it is OK (R183). -/
theorem test_port_reset_answer :
    ((sample.takeResetClaims 0 ResetClaims.all { ResetClaims.none with hold := true }).port 0).tx =
        .accepted (.portReset { ResetClaims.all with hold := false }) ∧
      (((sample.takeResetClaims 0 ResetClaims.all { ResetClaims.none with hold := true }).settle 0).port 0).tx =
        .response ⟨.ok, []⟩ := by
  have h : ((sample.takeResetClaims 0 ResetClaims.all { ResetClaims.none with hold := true }).port 0).tx =
      .accepted (.portReset { ResetClaims.all with hold := false }) := by
    unfold State.port
    rw [State.takeResetClaims_link]
    rfl
  exact ⟨h, State.settle_portReset_tx h⟩

theorem witness_SetupSettings : setup.ReadyFor 0 ∧ setup.part = .setup ∧ sample.ReadyFor 0 ∧ sample.part = .run ∧
    (1 ≤ 16 ∧ 16 ≤ 16) ∧ (1000000 = 0 ∨ (100 ≤ 1000000 ∧ 1000000 ≤ 1000000)) ∧
    (100 = 0 ∨ (100 ≤ 100 ∧ 100 ≤ 1000000)) := by decide +kernel

/-- A page that is UNUSED, staged, LIVE on an unreferenced frame, LIVE on a referenced one, EMPTY. -/
theorem witness_PageDefinitionRequests :
    sample.ReadyFor 0 ∧ sample.MapAllowed 0 ∧ (sample.map.page 319).defined = false ∧
      ((sample.map.page 4).defined = true ∧ (sample.map.page 4).staging.isSome = true) ∧
      ((sample.map.page 6).defined = true ∧ (sample.map.page 6).staging = none ∧ (sample.map.page 6).live = none) ∧
      (withPage sample 0 { emptyPage 0 0 0 with live := some 3 }).map.refs[(3 : Frame)] = 1 ∧
      (withPage sample 0 { emptyPage 0 0 0 with live := some 0 }).map.refs[(0 : Frame)] = 0 ∧
      ((withPage sample 0 { emptyPage 0 0 0 with live := some 0 }).map.page 0).staging = none := by decide +kernel

/-- Part by part: a port page without an entry, an entry without the right; an UNUSED page, and a page that does not
admit the port, at the acceptance and later. -/
theorem witness_AccessCheckRefusalRecordsTheFault :
    sample.ReadyFor 0 ∧ (1 ≤ 1 ∧ (63 : Fin 64).val + 1 ≤ 64) ∧
      sample.viewTable 0 (.read ⟨127, 63, 1⟩) = some .notMapped ∧
      sample.viewTable 0 (.stageOpen 2 true) = some .noRight ∧
      (sample.ViewPasses 0 (.read ⟨2, 63, 1⟩) 7 ∧ sample.pageTable 0 (.read ⟨2, 63, 1⟩) 7 = some .pageUnused) ∧
      (sample.ViewPasses 0 (.stageWrite ⟨3, 0, 64⟩) 5 ∧
        sample.pageTable 0 (.stageWrite ⟨3, 0, 64⟩) 5 = some .noRight) ∧
      ((awaiting (.stageDrop 3) 5).Awaits 0 (.stageDrop 3) 5 ∧
        (awaiting (.stageDrop 3) 5).pageTable 0 (.stageDrop 3) 5 = some .noRight) ∧
      sample.view.faults[(0 : Port)].isSome = true ∧
      (asking sample 1).ReadyFor 1 ∧ (asking sample 1).viewTable 1 (.stageRead ⟨0, 0, 64⟩) = some .notMapped ∧
      (asking sample 1).view.faults[(1 : Port)] = none ∧ (Instr.start 1).requestPort? = some 1 ∧
      (sample.SetupLaw ∧ setup.SetupLaw) :=
  ⟨sample_ready, by decide, by decide +kernel, by decide +kernel, ⟨⟨_, rfl, rfl, rfl⟩, by decide +kernel⟩,
    ⟨⟨_, rfl, rfl, rfl⟩, by decide +kernel⟩, ⟨rfl, by decide +kernel⟩, rfl, by decide +kernel, by decide +kernel, rfl,
    rfl, sample_setupLaw, setup_setupLaw⟩

/-- Between the two parts of port 0's READ of page 6, port 1 empties the view entry and port 3 takes the reader set away:
the VIEW_SET does not touch the request, and the new reader set decides (R109). -/
theorem test_between_view_part_and_page_part :
    ∃ t u, exec (.viewSet 1 0 1 0 0 0) (asking (asking (awaiting (.read ⟨1, 0, 1⟩) 6) 1) 3) = .next t ∧
      exec (.pageSet 3 6 2 0 0) t = .next u ∧ t.view.views[(0 : Port)][(1 : PortPage)] = none ∧
      (u.port 0).tx = .accepted (.pagePart (.read ⟨1, 0, 1⟩) 6) ∧
      ((t.settle 0).port 0).tx = .response ⟨.noData, []⟩ ∧ ((u.settle 0).port 0).tx = .response ⟨.noRight, []⟩ ∧
      (u.settle 0).view.faults[(0 : Port)].map FaultRecord.repeated = some true :=
  ⟨_, _, rfl, rfl, by decide +kernel, by decide +kernel, by decide +kernel, by decide +kernel, by decide +kernel⟩

/-- A HALT between the two parts of port 0's STAGE_OPEN: the exchange map takes it in SETUP (R19, R181). -/
theorem test_halt_before_page_part :
    ∃ t, exec (.halt 1) (asking (awaiting (.stageOpen 1 false) 6) 1) = .next t ∧
      ((t.settle 0).port 0).tx = .response ⟨.wrongState, []⟩ ∧
      ∃ b, (((awaiting (.stageOpen 1 false) 6).settle 0).port 0).tx = .response ⟨.ok, b⟩ :=
  ⟨_, rfl, by decide +kernel, [6, 0, 9, 0], by decide +kernel⟩

/-- Port 0 asking, or with a request outstanding, while page 3's staging is its own; page 6 has no version and no
staging. -/
theorem witness_ReadsReturnTheFramesBytes :
    sample.ReadyFor 0 ∧ (1 ≤ 64 ∧ (0 : Fin 64).val + 64 ≤ 64) ∧
      (sample.ViewPasses 0 (.read ⟨0, 0, 64⟩) 3 ∧ sample.ViewPasses 0 (.read ⟨1, 0, 64⟩) 6) ∧
      (sample.ViewPasses 0 (.stageRead ⟨0, 0, 64⟩) 3 ∧ sample.ViewPasses 0 (.stageRead ⟨1, 0, 64⟩) 6) ∧
      ((awaiting (.read ⟨0, 0, 64⟩) 3).Awaits 0 (.read ⟨0, 0, 64⟩) 3 ∧
        (awaiting (.stageRead ⟨0, 0, 64⟩) 3).Awaits 0 (.stageRead ⟨0, 0, 64⟩) 3) ∧
      (sample.MayRead 0 3 ∧ (sample.map.page 3).live = some 0) ∧
      (sample.MayRead 0 6 ∧ (sample.map.page 6).live = none) ∧
      (sample.MayStage 0 6 ∧ (sample.map.page 6).staging = none) ∧
      sample.MayStage 0 3 ∧ (sample.map.page 3).staging =
        some { frame := 1, stager := 0, state := .ready, cyclesLeft := 3, serial := 6 } :=
  ⟨sample_ready, by decide, ⟨⟨_, rfl, rfl, rfl⟩, _, rfl, rfl, rfl⟩, ⟨⟨_, rfl, rfl, rfl⟩, _, rfl, rfl, rfl⟩, ⟨rfl, rfl⟩,
    by decide +kernel, by decide +kernel, by decide +kernel, by decide +kernel⟩

/-- The sample with eight stagings of port 0 on pages 10 to 17. -/
def crowded : State :=
  (List.finRange 8).foldl
    (fun s k => withPage s ⟨10 + k.val, by omega⟩
      { emptyPage 9 0 1 with staging := some ⟨⟨20 + k.val, by omega⟩, 0, .opened, 8, 0⟩ }) sample

theorem witness_StageOpenChecksInOrder :
    ((setup.setView sample.view).ReadyFor 0 ∧ (setup.setView sample.view).ViewPasses 0 (.stageOpen 1 true) 6 ∧
      (awaiting (.stageOpen 1 true) 6).Awaits 0 (.stageOpen 1 true) 6) ∧
      (((setup.setView sample.view).setMap sample.map).MayStage 0 6 ∧ setup.part = .setup) ∧
      (sample.ReadyFor 0 ∧ sample.part = .run ∧ sample.MayStage 0 6) ∧
      (sample.setStop { sample.stop with frozen := 4 }).stop.frozen.getLsbD (sample.map.page 6).group.val = true ∧
      sample.stop.frozen.getLsbD (sample.map.page 6).group.val = false ∧
      (sample.MayStage 0 3 ∧ sample.stop.frozen.getLsbD (sample.map.page 3).group.val = false ∧
        (sample.map.page 3).staging.isSome = true) ∧
      (crowded.ReadyFor 0 ∧ crowded.MayStage 0 6 ∧ (crowded.map.page 6).staging = none) :=
  ⟨⟨by decide +kernel, ⟨_, rfl, rfl, rfl⟩, rfl⟩, by decide +kernel, by decide +kernel, by decide +kernel,
    by decide +kernel, by decide +kernel, by decide +kernel⟩

theorem witness_StageOpen_tooMany : 8 ≤ crowded.map.stagingCount 0 := by decide +kernel

theorem witness_StageOpen_counts : sample.map.stagingCount 0 < 8 ∧
    (sample.setMap { sample.map with freeList := [] }).map.stagingCount 0 < 8 := by
  have h : ∀ (m : ExchangeMap) (l : List Frame) (i : Page), ExchangeMap.page { m with freeList := l } i = m.page i :=
    fun _ _ _ => rfl
  unfold ExchangeMap.stagingCount
  simp only [State.setMap_map, h, sample_page]
  decide +kernel

theorem witness_StageOpenTakesTheFreeListHead :
    sample.ReadyFor 0 ∧ sample.ViewPasses 0 (.stageOpen 1 false) 6 ∧
      (awaiting (.stageOpen 1 false) 6).Awaits 0 (.stageOpen 1 false) 6 ∧ sample.MayStage 0 6 ∧ sample.part = .run ∧
      sample.MemoryLaw ∧ sample.stop.frozen.getLsbD (sample.map.page 6).group.val = false ∧
      (sample.map.page 6).staging = none ∧ ∃ rest, sample.map.freeList = 5 :: rest :=
  ⟨sample_ready, ⟨_, rfl, rfl, rfl⟩, rfl, by decide +kernel, rfl, sample_memoryLaw, by decide +kernel,
    by decide +kernel, List.head?_eq_some_iff.1 (by decide +kernel)⟩

/-- Page 3's staging is port 0's and READY; made OPEN again it takes a write; page 6 has none. -/
theorem witness_StageWriteAcceptance :
    sample.ReadyFor 0 ∧ (1 ≤ 1 ∧ (63 : Fin 64).val + 1 ≤ 64) ∧
      (sample.ViewPasses 0 (.stageWrite ⟨1, 63, 1⟩) 6 ∧ sample.ViewPasses 0 (.stageWrite ⟨0, 63, 1⟩) 3 ∧
        (awaiting (.stageWrite ⟨0, 63, 1⟩) 3).Awaits 0 (.stageWrite ⟨0, 63, 1⟩) 3) ∧
      (sample.MayStage 0 6 ∧ (sample.map.page 6).staging = none) ∧
      sample.MayStage 0 3 ∧ (sample.map.page 3).staging.map Staging.stager = some 0 :=
  ⟨sample_ready, by decide, ⟨⟨_, rfl, rfl, rfl⟩, ⟨_, rfl, rfl, rfl⟩, rfl⟩, by decide +kernel, by decide +kernel,
    by decide +kernel⟩

theorem witness_StageReadyAndDrop :
    ((sample.map.page 3).staging.map Staging.frame = some 1 ∧ sample.map.refs[(1 : Frame)] = 0 ∧
      (sample.map.page 6).staging = none ∧ sample.MayStage 0 6) ∧
      (sample.ViewPasses 0 (.stageReady 0) 3 ∧ sample.ViewPasses 0 (.stageDrop 1) 6 ∧
        (awaiting (.stageReady 0) 3).Awaits 0 (.stageReady 0) 3) ∧
      ((asking sample 2).ReadyFor 2 ∧ (asking sample 2).ViewPasses 2 (.stageReady 0) 4 ∧
        (asking sample 2).MayStage 2 4 ∧
        ((asking sample 2).map.page 4).staging.map Staging.state = some .opened) :=
  ⟨by decide +kernel, ⟨⟨_, rfl, rfl, rfl⟩, ⟨_, rfl, rfl, rfl⟩, rfl⟩, by decide +kernel, ⟨_, rfl, rfl, rfl⟩,
    by decide +kernel, by decide +kernel⟩

theorem witness_PlanEditsAndSwitch :
    (sample.ReadyFor 0 ∧ sample.PlanAllowed 0 ∧ sample.part = .run) ∧
      (setup.ReadyFor 0 ∧ setup.PlanAllowed 0 ∧ setup.part = .setup) ∧
      20 ≤ (SlotEntry.reset).duration.toNat ∧ 1 ≤ (48 : Fin 49).val := by decide +kernel

/-- The sample with entry 1 of plan A changed. -/
def withEntry (e : SlotEntry) : State :=
  sampleWith fun c => { c with planA := { c.planA with entries := c.planA.entries.set 1 e } }

theorem witness_EndOfSlotBeginsTheNextSlot :
    (sample.inReset = false ∧ sample.sched.engine = .inCycle ∧ (1 : SlotNo).val = sample.sched.slotIndex.val + 1 ∧
      (1 : SlotNo).val < sample.sched.activePlan.count.val) ∧
      (sample.sched.activePlan.entries[(1 : SlotNo)].group = some 2 ∧
        sample.sched.activePlan.entries[(1 : SlotNo)].notify.getLsbD 0 = true ∧
        ∀ b : Fin 6, sample.sched.activePlan.entries[(1 : SlotNo)].filterMask.getLsbD b.val = true →
          sample.sched.cycleCount.getLsbD b.val = sample.sched.activePlan.entries[(1 : SlotNo)].filterValue.getLsbD b.val) ∧
      ((∀ b : Fin 6, (withEntry { SlotEntry.reset with notify := 15 }).sched.activePlan.entries[(1 : SlotNo)].filterMask.getLsbD b.val = true →
        (1 : CycleCount).getLsbD b.val = (0 : CycleCount).getLsbD b.val) ∧
        (withEntry { SlotEntry.reset with notify := 15 }).sched.activePlan.entries[(1 : SlotNo)].group = none) ∧
      ∃ b : Fin 6, (sampleWith fun c => { c with cycleCount := 2 }).sched.activePlan.entries[(1 : SlotNo)].filterMask.getLsbD b.val = true ∧
        (2 : CycleCount).getLsbD b.val ≠ sample.sched.activePlan.entries[(1 : SlotNo)].filterValue.getLsbD b.val := by
  decide +kernel

/-- The sample with group 2 frozen, held by port 1 as it stands, and with no hold. -/
theorem witness_PublicationPointOutcomes :
    sample.sched.activePlan.entries[(1 : SlotNo)].group = some 2 ∧
      (sample.sched.cycleCount ^^^ sample.sched.activePlan.entries[(1 : SlotNo)].filterValue) &&&
        sample.sched.activePlan.entries[(1 : SlotNo)].filterMask = 0 ∧
      (sample.setStop { sample.stop with frozen := 4 }).stop.frozen.getLsbD 2 = true ∧
      sample.stop.frozen.getLsbD 2 = false ∧
      (sample.hold.records[(1 : Port)] = some ⟨4, 1⟩ ∧ (4 : GroupSet).getLsbD 2 = true) ∧
      (∀ p : Port, (sample.setHold HoldTable.reset).hold.records[p] = none) ∧
      sample.map.ready 2 3 = true ∧ sample.map.late 2 4 = true := by decide +kernel

/-- The sample in the last slot of a cycle, whose next cycle has a point of group 2 in slot 0 and tells port 0. -/
def beforeFirstPoint : State :=
  sampleWith fun c =>
    { c with
      slotIndex := 1
      planA :=
        { c.planA with entries := c.planA.entries.set 0 { SlotEntry.reset with group := some 2, notify := 1 } } }

/-- In the last slot of a cycle. -/
def lastSlot : State := sampleWith fun c => { c with slotIndex := 1, pendingSwitch := true }

/-- Waiting for a sync edge, the gap timer running. -/
def waiting : State :=
  sampleWith fun c =>
    { c with engine := .waitingSync, slotTimer := none, syncMode := .triggered, gapLimit := 100, gapTimer := some 0
             firstCycle := true }

/-- waiting, the gap timer one short of its limit, with a rise of SYNC_IN that the next tick samples. -/
def edgeAtExpiry : State := waiting.setSched { waiting.sched with gapTimer := some 99, syncRise := true }

/-- A sync edge and a gap expiry at one tick (R44): either order begins cycle 0 at that tick; edge first, no MISSED notice
is sent; expiry first, MISSED and then EARLY. -/
theorem test_edge_against_gap_expiry :
    edgeAtExpiry.count.due = [.gap, .edge] ∧
      (let t := (edgeAtExpiry.count.syncEdge fun _ => 0).expireGap fun _ => 0
       t.sched.slotTimer = some ⟨0, 1000⟩ ∧ t.sched.cycleCount = 0 ∧ t.sched.engine = .inCycle ∧
         t.notice.ports[(3 : Port)].queue = []) ∧
      (let t := (edgeAtExpiry.count.expireGap fun _ => 0).syncEdge fun _ => 0
       t.sched.slotTimer = some ⟨0, 1000⟩ ∧ t.sched.cycleCount = 0 ∧ t.sched.engine = .inCycle ∧
         t.notice.ports[(3 : Port)].queue.map Notice.body = [.sync .missed, .sync .early]) := by decide +kernel

/-- A tick with a rise of SYNC_IN standing: at the end of the last slot (R45), and waiting; and a command that finds one
standing, or none. -/
theorem witness_EmptyQueue_edge :
    (edgeAtExpiry.ScheduleLaw ∧ edgeAtExpiry.sched.syncRise = true ∧ edgeAtExpiry.inReset = false ∧
      edgeAtExpiry.pending = [] ∧ edgeAtExpiry.sched.engine = .waitingSync) ∧
      (let s := sampleWith fun c =>
        { c with slotIndex := 1, slotTimer := some ⟨19, 20⟩, syncMode := .triggered, syncRise := true }
       s.ScheduleLaw ∧ s.sched.syncRise = true ∧ s.sched.slotTimer = some ⟨19, 20⟩) ∧
      waiting.sched.syncRise = false := by decide +kernel

theorem witness_ScheduleEventsWithoutACycleStart :
    (lastSlot.inReset = false ∧ lastSlot.sched.engine = .inCycle ∧
      lastSlot.sched.activePlan.count.val ≤ lastSlot.sched.slotIndex.val + 1 ∧
      (lastSlot.setSched { lastSlot.sched with syncMode := .triggered }).sched.syncMode = .triggered) ∧
      (setup.sched.engine = .off ∧ sample.sched.engine = .inCycle ∧ sample.sched.syncMode = .free) ∧
      (setup.inReset = false ∧ sample.inReset = false ∧ edgeAtExpiry.inReset = false) := by
  decide +kernel

theorem witness_CycleStartMovesTheSchedule :
    (lastSlot.inReset = false ∧ lastSlot.startsCycle .endOfSlot = true ∧ lastSlot.sched.pendingSwitch = true) ∧
      (waiting.inReset = false ∧ waiting.startsCycle .syncEdge = true ∧ waiting.startsCycle .gapExpiry = true ∧
        waiting.sched.pendingSwitch = false ∧ waiting.notice.ports[(3 : Port)].kinds.getLsbD 3 = true) := by
  decide +kernel

/-- The first slot's point: of a group that is frozen, that is held for longer, and that is neither. -/
theorem witness_CycleStart_firstPoint :
    beforeFirstPoint.startsCycle .endOfSlot = true ∧
      (beforeFirstPoint.startCycle (fun _ => 0) []).FirstPoint 2 ∧
      (beforeFirstPoint.setStop { sample.stop with frozen := 4 }).stop.frozen.getLsbD 2 = true ∧
      (beforeFirstPoint.setHold { sample.hold with records := sample.hold.records.set 1 (some ⟨4, 2⟩) }).hold.records[(1 : Port)] =
        some ⟨4, 2⟩ ∧
      (∀ p : Port, (beforeFirstPoint.setHold HoldTable.reset).hold.records[p] = none) ∧
      beforeFirstPoint.stop.frozen.getLsbD 2 = false ∧ beforeFirstPoint.map.late 2 4 = true ∧
      Staging.counted ⟨2, 2, .opened, 1, 7⟩ = none := by decide +kernel

theorem witness_CycleStartCountsStagings :
    lastSlot.startsCycle .endOfSlot = true ∧
      (lastSlot.map.page 4).staging = some ⟨2, 2, .opened, 1, 7⟩ ∧
      (lastSlot.map.page 5).staging = some ⟨3, 3, .opened, 0, 8⟩ ∧
      (lastSlot.map.page 3).staging = some ⟨1, 0, .ready, 3, 6⟩ := by decide +kernel

/-- Port 1's hold of group 2, whose mark is set, breaks where slot 0 has no point of it and where it has one. -/
theorem witness_CycleStartCountsHoldsAndRollsWatches :
    (lastSlot.hold.records[(1 : Port)] = some ⟨4, 1⟩ ∧ lastSlot.pub.groups[(2 : Group)].mark = true ∧
      lastSlot.startsCycle .endOfSlot = true) ∧
      (beforeFirstPoint.hold.records[(1 : Port)] = some ⟨4, 1⟩ ∧ beforeFirstPoint.startsCycle .endOfSlot = true) ∧
      (∀ p : Port, (lastSlot.setHold HoldTable.reset).hold.records[p] = none) ∧
      lastSlot.pub.watches[(3 : WatchNo)].mode = .cycle := by decide +kernel

/-- beforeFirstPoint with port 2's STAGE_READY of page 4 outstanding. -/
def beforeMarking : State :=
  beforeFirstPoint.setPort 2 { LinkPort.reset with selected := true, tx := .accepted (.pagePart (.stageReady 0) 4) }

/-- Draws by which the break of port 1's hold is taken first, then port 2's STAGE_READY, then the point, and last the
countdown. -/
def betweenBreakAndPoint : Nat → Nat := fun i => [0, 4, 4, 0, 0, 2].getD i 0

/-- A staging marked READY between the break's catch-up and the point is published by the point (R70). -/
theorem test_marked_between_break_and_point :
    beforeMarking.cycleStartClaims betweenBreakAndPoint (some 2) =
        [.block .countHolds, .block (.report 2), .markReady 2, .block .rollWatches, .block (.point 2), .countStagings] ∧
      (beforeMarking.startCycle betweenBreakAndPoint []).pub.groups[(2 : Group)] =
        { last := .published, cycle := 2, published := 1, late := 0, mark := false } ∧
      ((beforeMarking.startCycle betweenBreakAndPoint []).map.page 4).live = some 2 := by decide +kernel

/-- The draws can take the marking, and can leave it outstanding. -/
theorem witness_CycleStart_marks :
    beforeMarking.startsCycle .endOfSlot = true ∧ (beforeMarking.map.page 4).staging = some ⟨2, 2, .opened, 1, 7⟩ ∧
      (beforeMarking.MayStage 2 4 ∧ beforeMarking.Awaits 2 (.stageReady 0) 4) ∧
      ((beforeMarking.startCycle betweenBreakAndPoint []).port 2).tx = .response { status := .ok, body := [] } ∧
      ((beforeMarking.startCycle (fun _ => 0) []).port 2).tx = .accepted (.pagePart (.stageReady 0) 4) := by
  decide +kernel

/-- The point taken before the break (R70): DEFERRED first, then CATCH_UP, which publishes page 3 once. -/
theorem test_point_before_break :
    (beforeFirstPoint.takeClaims [.point 2, .countHolds, .report 2]).1.pub.groups[(2 : Group)] =
        { last := .catchUp, cycle := 1, published := 1, late := 1, mark := false } := by decide +kernel

theorem witness_HoldCreatesARecord :
    setup.ReadyFor 0 ∧ sample.ReadyFor 0 ∧ (0x8000 : GroupSet) ≠ 0 ∧ sample.hold.records[(0 : Port)] = none ∧
      (asking sample 1).ReadyFor 1 ∧ (asking sample 1).hold.records[(1 : Port)] = some ⟨4, 1⟩ := by decide +kernel

/-- Port 1 alone covers group 2, whose mark is set; group 3 is not held; a second hold keeps group 2 covered. -/
theorem witness_ReleaseCatchesUpDeferredGroups :
    (sample.ReadyFor 0 ∧ sample.hold.records[(0 : Port)] = none) ∧
      ((asking sample 1).ReadyFor 1 ∧ (asking sample 1).hold.records[(1 : Port)] = some ⟨4, 1⟩ ∧
        (4 : GroupSet).getLsbD 2 = true ∧ (asking sample 1).pub.groups[(2 : Group)].mark = true ∧
        (∀ q : Port, q ≠ 1 → (asking sample 1).hold.records[q] = none) ∧
        (asking sample 1).stop.frozen.getLsbD 2 = false ∧ (4 : GroupSet).getLsbD 3 = false ∧
        ((asking sample 1).setStop { sample.stop with frozen := 4 }).stop.frozen.getLsbD 2 = true) ∧
      (sample.hold.records.set 0 (some ⟨4, 2⟩))[(0 : Port)] = some ⟨4, 2⟩ := by decide +kernel

theorem witness_ReadsOfTheBlocksState :
    sample.ReadyFor 0 ∧ (47 ≤ 47 ∧ 1 ≤ 1 ∧ 1 ≤ 16 ∧ 47 + 1 ≤ 48) ∧ (32 ≤ 47 ∧ 1 ≤ 16 ∧ 16 ≤ 16 ∧ 32 + 16 ≤ 48) ∧
      (15 < 16 ∧ (47 : SlotNo).val = 32 + 15) := by decide +kernel

theorem witness_ViewSetAndGet :
    sample.ReadyFor 0 ∧ sample.MapAllowed 0 ∧ sample.view.views[(0 : Port)][(127 : PortPage)] = none ∧
      sample.view.views[(0 : Port)][(0 : PortPage)] = some ⟨3, true, true⟩ ∧
      ((1 : Byte) = 1 ∧ (319 : Word16) = BitVec.ofNat 16 (319 : Page).val ∧ (3 : Byte) = twoFlags true true) := by
  decide +kernel

theorem witness_FaultTakeEmptiesTheRecord :
    (sample.ReadyFor 0 ∧ sample.view.faults[(0 : Port)].isSome = true) ∧
      setup.ReadyFor 0 ∧ setup.view.faults[(0 : Port)] = none := by decide +kernel

/-- SETUP with a change pending on line 1, at timer 1: a filter time of 1 ends it, one of 2 does not. -/
theorem witness_StopSetReplacesTheSettings :
    (sample.ReadyFor 0 ∧ sample.part = .run) ∧
      ((setup.setStop beforeDue.stop).ReadyFor 0 ∧ setup.part = .setup ∧
        (setup.setStop beforeDue.stop).stop.lines[(1 : Line)].pending = some ⟨.active, 1⟩ ∧
        (1 : Byte).toNat ≤ 1 ∧ 1 < (2 : Byte).toNat) := by decide +kernel

theorem witness_StopClearByItsTable :
    (sample.ReadyFor 0 ∧ sample.PlanAllowed 0 ∧ sample.stop.lines[(0 : Line)].stop = .active ∧
      sample.stop.lines[(0 : Line)].filtered = .inactive) ∧
      ((sample.passFilter 1 .active).ReadyFor 0 ∧ (sample.passFilter 1 .active).stop.lines[(1 : Line)].stop = .active ∧
        (sample.passFilter 1 .active).stop.lines[(1 : Line)].filtered = .active) ∧
      sample.stop.lines[(1 : Line)].stop = .inactive ∧ sample.stop.lines[(1 : Line)].filtered = .inactive := by
  decide +kernel

theorem witness_StopInputsAreFiltered :
    sample.inReset = false ∧
      (Level.inactive ≠ sample.stop.lines[(1 : Line)].input ∧ Level.inactive = sample.stop.lines[(1 : Line)].filtered) ∧
      ((setup.setStop { StopUnit.reset with
          lines := StopUnit.reset.lines.set 0 { StopLine.reset with filterTime := 1 } }).stop.lines[(0 : Line)].filterTime ≠
        0) ∧
      Level.inactive = sample.stop.lines[(0 : Line)].input ∧
      (Level.active ≠ sample.stop.lines[(0 : Line)].input ∧ Level.active ≠ sample.stop.lines[(0 : Line)].filtered ∧
        sample.stop.lines[(0 : Line)].filterTime = 0) ∧
      sample.stop.lines[(0 : Line)].pending = none ∧
      sample.stop.lines[(1 : Line)].pending = some ⟨.active, 0⟩ := by decide +kernel

theorem witness_TimebaseRequests :
    sample.ReadyFor 0 ∧ sample.PlanAllowed 0 ∧ ((-2000 : Int) ≤ -2000 ∧ (-2000 : Int) ≤ 2000) ∧
      ((-2000 : Int) ≤ 2000 ∧ (2000 : Int) ≤ 2000) ∧ sampleTime.calendar.valid = true ∧
      ({ year := 96, month := 2, day := 29, hour := 0, minute := 0, second := 0, weekday := 0 } : Calendar).valid =
        true ∧ (23 ≤ 23 ∧ 59 ≤ 59) := by decide +kernel

/-- A staged time; every carry at once with an alarm at midnight; and a second with no alarm. -/
theorem witness_SecondBoundaryAdvancesTheCalendar :
    (sample.setTime { sample.time with stagedTime := some Timebase.reset.calendar }).time.stagedTime =
        some Timebase.reset.calendar ∧
      (sample.inReset = false ∧ sample.time.stagedTime = none ∧ sample.time.calendar.valid = true ∧
        sample.time.alarm.enabled = true ∧ sample.time.calendar.advance.second = 0 ∧
        sample.time.calendar.advance.hour = sample.time.alarm.hour ∧
        sample.time.calendar.advance.minute = sample.time.alarm.minute ∧
        sample.time.alarm.weekdays.getLsbD sample.time.calendar.advance.weekday = true) ∧
      setup.time.stagedTime = none ∧ setup.time.calendar.valid = true ∧ setup.time.alarm.enabled = false := by
  decide +kernel

theorem witness_AlarmSwitchRequestIsAnswered :
    (sample.inReset = false ∧ sample.time.pendingAlarm = none ∧ sample.part = .run ∧ setup.part = .setup) ∧
      (sample.setTime { sample.time with pendingAlarm := some 0 }).time.pendingAlarm = some 0 ∧
      (setup.setTime { setup.time with pendingAlarm := some 86340 }).time.pendingAlarm = some 86340 := by
  decide +kernel

theorem witness_NoticePeekAndPop :
    (setup.ReadyFor 0 ∧ setup.notice.ports[(0 : Port)].queue = []) ∧
      sample.ReadyFor 0 ∧ sample.notice.ports[(0 : Port)].queue = [sampleNotice] := by decide +kernel

/-- Every law at once, of a state from which a step goes on: its front command is the last data bytes of a write. -/
def stepping : State := sample.setPending [.stageWriteCompletion 2 [1, 2]]

theorem witness_StepKeeps : (∃ t, step stepping = .next t) ∧ stepping.MemoryLaw ∧ stepping.AttentionLaw ∧
    stepping.FaultReportLaw ∧ stepping.QueueLaw ∧ stepping.StopLaw ∧ stepping.SetupLaw ∧ stepping.ResetLaw ∧
    stepping.MarkLaw ∧ stepping.PageLaw ∧ stepping.StagerLaw ∧ stepping.LinkLaw ∧ stepping.FrameLaw ∧
    stepping.ScheduleLaw ∧ stepping.TimeLaw ∧ stepping.WatchLaw ∧ stepping.HoldLaw ∧ stepping.OutcomeLaw :=
  ⟨⟨_, rfl⟩, sample_memoryLaw, sample_attentionLaw, sample_faultReportLaw, sample_queueLaw, sample_stopLaw,
    fun h => absurd h (by decide), fun h => absurd h (by decide), sample_markLaw, sample_pageLaw, sample_stagerLaw,
    sample_linkLaw, sample_frameLaw, sample_scheduleLaw, sample_timeLaw, sample_watchLaw, sample_holdLaw,
    sample_outcomeLaw⟩

/-- The reset law of a part that is held in reset, and the SETUP law in SETUP. -/
theorem witness_StepKeepsTheSetupAndResetLaws :
    (∃ t, step sample.holdInReset = .next t) ∧ sample.holdInReset.inReset = true ∧
      sample.holdInReset.ResetLaw ∧ setup.part = .setup ∧ setup.SetupLaw :=
  ⟨⟨_, rfl⟩, rfl, fun _ => rfl, rfl, setup_setupLaw⟩

theorem witness_FramePoolBounds : sample.FrameLaw ∧ sample.StagerLaw := ⟨sample_frameLaw, sample_stagerLaw⟩

/-- Page 3 before and after the end of slot 0 without the hold, which publishes it; page 6 is left. -/
theorem witness_SequenceChangesOnlyByPublication :
    ((sample.setHold HoldTable.reset).setPending [.endOfSlot]).ScheduleLaw ∧
      ((sample.setHold HoldTable.reset).setPending [.endOfSlot]).LinkLaw ∧
      ∃ t, step ((sample.setHold HoldTable.reset).setPending [.endOfSlot]) = .next t ∧
        (sample.map.page 3).defined = true ∧ (t.map.page 3).defined = true ∧ (t.map.page 3).live = some 1 ∧
        (t.map.page 6).defined = true :=
  ⟨sample_scheduleLaw, sample_linkLaw, _, rfl, by decide +kernel⟩

theorem witness_LiveAndRetiringFramesAreNotWritten :
    stepping.FrameLaw ∧ stepping.MemoryLaw ∧ (∃ t, step stepping = .next t) ∧
      (∃ i, (stepping.map.page i).live = some 0) ∧ (4 : Frame) ∈ stepping.map.retiring ∧ 63 < 64 :=
  ⟨sample_frameLaw, sample_memoryLaw, ⟨_, rfl⟩, ⟨3, by decide +kernel⟩, by decide, by decide⟩

theorem witness_FrozenGroupsKeepTheirVersions :
    (∃ t, exec .endOfSlot (sample.setStop { sample.stop with frozen := 4 }) = .next t ∧
      (sample.setStop { sample.stop with frozen := 4 }).stop.isFrozen (sample.map.page 3).group = true ∧
      (sample.map.page 3).defined = true ∧ (t.map.page 3).defined = true) ∧
      (((sample.setStop { sample.stop with frozen := 4 }).takeEvent .slot).map.page 3).defined = true :=
  ⟨⟨_, rfl, by decide +kernel⟩, by decide +kernel⟩

theorem witness_SerialCountsSuccessfulOpens : (∃ t, exec (.stageOpen 0 1 0) sample = .next t) ∧
    (∃ t, exec .partReset sample = .next t) ∧
    (∃ t, exec (.lastResponseByte 0) (awaiting (.stageOpen 1 false) 6) = .next t ∧ t.map.serial = 9) ∧
    (awaiting (.stageOpen 1 false) 6).Opened ((awaiting (.stageOpen 1 false) 6).settle 0) 0 6 :=
  ⟨⟨_, rfl⟩, ⟨_, rfl⟩, ⟨_, rfl, by decide +kernel⟩, by decide +kernel, by decide +kernel,
    { frame := 5, stager := 0, state := .opened, cyclesLeft := 8, serial := 9 }, by decide +kernel, by decide +kernel,
    rfl⟩

theorem witness_RequestRecordsRoundTrip :
    (Instr.slotSet 3 1 47 65535 255 15 63 63).requestPort? = some 3 ∧
      (Instr.slotSet 3 1 47 65535 255 15 63 63).wellFormed = true ∧
      ((Instr.badRequest 3 255 255).requestPort? = some 3 ∧ (Instr.badRequest 3 255 255).wellFormed = true) ∧
      (asking sample 3).ReadyFor 3 ∧ ((asking sample 3).port 3).selected = true ∧
      [true, false, true, false, true, false, true].length < 8 := by
  decide +kernel

end Sys2Proof.Tests
end

section
/-! SUPPORT. What a step can do to the exchange map and to the link, said once. A move is one thing that a claim does: a
page record rewritten, a staging removed, a page published, a read begun or ended, a port moved on. Every command and
every event of a tick is a run of moves, of the kinds that the command allows; an invariant of the exchange map or the
link is proved of one move at a time. -/

namespace Sys2Proof.Machine

/-! ### The laws of one port and of one page -/

/-- The law of one link port (R168, R172, R173, R183), which State.LinkLaw asks of each. -/
def LinkPort.Law (l : LinkPort) : Prop :=
  (l.selected = false → l.tx = .idle) ∧ (l.reading.isSome = true → ∃ r, l.tx = .response r) ∧
    (l.write.isSome = true ↔ ∃ n, l.tx = .writeData n none) ∧
    ∀ left, l.tx = .accepted (.portReset left) → left ≠ ResetClaims.none

theorem State.linkLaw_iff (s : State) : s.LinkLaw ↔ ∀ p : Port, (s.port p).Law := Iff.rfl

/-- The law of one page record (R1, R7), which State.PageLaw asks of each. -/
def PageRecord.Law (r : PageRecord) : Prop :=
  (r.defined = false → r = PageRecord.unused) ∧
    ∀ st, r.staging = some st → r.writers.getLsbD st.stager.val = true

theorem State.pageLaw_iff (s : State) : s.PageLaw ↔ ∀ i : Page, (s.map.page i).Law := Iff.rfl

/-- A request of the port has been taken and is not answered: it is in REQUEST, or accepted with claims outstanding. -/
def LinkPort.Taken (l : LinkPort) : Prop := l.tx = .request ∨ ∃ o, l.tx = .accepted o

/-- A port whose request is taken is selected and has neither a read in flight nor a write buffer (R168). -/
theorem LinkPort.Law.of_taken {l : LinkPort} (h : l.Law) (ht : l.Taken) :
    l.selected = true ∧ l.reading = none ∧ l.write = none := by
  obtain ⟨hsel, hread, hwrite, -⟩ := h
  rcases ht with ht | ⟨o, ht⟩ <;> rw [ht] at hsel hread hwrite <;> simp_all

theorem LinkPort.Law.response {l : LinkPort} (h : l.Law) (ht : l.Taken) (r : Response) :
    LinkPort.Law { l with tx := .response r } := by
  obtain ⟨hsel, hread, hwrite⟩ := h.of_taken ht
  simp [LinkPort.Law, hsel, hwrite]

theorem LinkPort.Law.reading {l : LinkPort} (h : l.Law) (ht : l.Taken) (x : ReadInFlight) (r : Response) :
    LinkPort.Law { l with reading := some x, tx := .response r } := by
  obtain ⟨hsel, hread, hwrite⟩ := h.of_taken ht
  simp [LinkPort.Law, hsel, hwrite]

theorem LinkPort.Law.awaiting {l : LinkPort} (h : l.Law) (ht : l.Taken) (x : DataCall) (i : Page) :
    LinkPort.Law { l with tx := .accepted (.pagePart x i) } := by
  obtain ⟨hsel, hread, hwrite⟩ := h.of_taken ht
  simp [LinkPort.Law, hsel, hwrite, hread]

theorem LinkPort.Law.resetting {l : LinkPort} (h : l.Law) (ht : l.Taken) {left : ResetClaims}
    (hl : left ≠ ResetClaims.none) : LinkPort.Law { l with tx := .accepted (.portReset left) } := by
  obtain ⟨hsel, hread, hwrite⟩ := h.of_taken ht
  simpa [LinkPort.Law, hsel, hwrite, hread] using hl

theorem LinkPort.Law.refusedWrite {l : LinkPort} (h : l.Law) (ht : l.Taken) (n : Nat) (c : Status) :
    LinkPort.Law { l with tx := .writeData n (some c), write := none } := by
  obtain ⟨hsel, hread, hwrite⟩ := h.of_taken ht
  simp [LinkPort.Law, hsel, hread]

theorem LinkPort.Law.writing {l : LinkPort} (h : l.Law) (ht : l.Taken) (n : Nat) (w : WriteBuffer) :
    LinkPort.Law { l with tx := .writeData n none, write := some w } := by
  obtain ⟨hsel, hread, hwrite⟩ := h.of_taken ht
  simp [LinkPort.Law, hsel, hread]

/-! ### Moves -/

/-- What a move can touch beyond the quiet course of things: a page's live version, a page's definition, the frame
contents and the serial counter, everything at once. -/
inductive MoveKind where
  | quiet
  | publish
  | define
  | store
  | reset
  deriving DecidableEq

/-- The frame and the stager of a staging: what its marking and its countdown leave alone. -/
def Staging.holder (st : Staging) : Frame × Port := (st.frame, st.stager)

/-- One move from s. Each carries what its rule checks first, so far as a law needs it. -/
inductive State.Move (s : State) : MoveKind → State → Prop where
  | others {t : State} (hmap : t.map = s.map) (hlink : t.link = s.link) (hstop : s.stop.Law → t.stop.Law) :
      Move s .quiet t
  | port (p : Port) (l : LinkPort) (hlaw : (s.port p).Law → l.Law) (hreading : l.reading = (s.port p).reading) :
      Move s .quiet (s.setPort p l)
  | beginRead (p : Port) (r : ReadInFlight) (l : LinkPort)
      (hrole : (s.map.page r.page).live = some r.frame ∨
        (s.map.page r.page).staging.map Staging.frame = some r.frame)
      (hlaw : (s.port p).Law → (s.port p).reading = none ∧ l.Law) (hreading : l.reading = some r) :
      Move s .quiet ((s.setMap (s.map.addRef r.frame)).setPort p l)
  | endRead (p : Port) (r : ReadInFlight) (l : LinkPort) (hs : (s.port p).reading = some r)
      (hlaw : (s.port p).Law → l.Law) (hreading : l.reading = none) :
      Move s .quiet ((s.setMap (s.map.dropRef r.frame)).setPort p l)
  | page (i : Page) (r : PageRecord) (hlaw : (s.map.page i).Law → r.Law) (hlive : r.live = (s.map.page i).live)
      (hsequence : r.sequence = (s.map.page i).sequence)
      (hstaging : r.staging.map Staging.holder = (s.map.page i).staging.map Staging.holder) :
      Move s .quiet (s.setMap (s.map.setPage i r))
  | remove (i : Page) : Move s .quiet (s.setMap (s.map.removeStaging i))
  | limit (n : Byte) : Move s .quiet (s.setMap { s.map with stageLimit := n })
  | publish (i : Page) (st : Staging) (c : CycleCount) (hs : (s.map.page i).staging = some st)
      (hdefined : (s.map.page i).defined = true) : Move s .publish (s.setMap (s.map.publishPage i st c))
  | define (x : PageParams) (hdefined : (s.map.page x.page).defined = false) :
      Move s .define (s.setMap (s.map.setPage x.page x.fresh))
  | retire (i : Page) (hs : (s.map.page i).staging = none) : Move s .define (s.setMap (s.map.retire i))
  | openStaging (i : Page) (p : Port) (copy : Bool) (f : Frame) (rest : List Frame) (hmay : s.MayStage p i)
      (hs : (s.map.page i).staging = none) (hcount : s.map.stagingCount p < 8) (hfree : s.map.freeList = f :: rest) :
      Move s .store (s.setMap (s.map.openStaging i p copy f rest))
  | write (f : Frame) (offset : Nat) (data : List Byte) :
      Move s .store (s.setMap { s.map with frames := s.map.frames.writeFrame f offset data })
  | reset : Move s .reset s.holdInReset

/-- From s a run of moves of the kinds in K leads to t. -/
def State.Reaches (K : List MoveKind) : State → State → Prop :=
  Relation.ReflTransGen fun a b => ∃ k ∈ K, a.Move k b

theorem State.Reaches.refl {K : List MoveKind} (s : State) : s.Reaches K s := Relation.ReflTransGen.refl

theorem State.Reaches.trans {K : List MoveKind} {s t u : State} (h : s.Reaches K t) (h' : t.Reaches K u) :
    s.Reaches K u := Relation.ReflTransGen.trans h h'

theorem State.Move.reaches {K : List MoveKind} {k : MoveKind} {s t : State} (h : s.Move k t) (hk : k ∈ K) :
    s.Reaches K t := .single ⟨k, hk, h⟩

/-- What every move of the kinds in K keeps, a run of them keeps. -/
theorem State.Reaches.keeps {K : List MoveKind} (P : State → Prop)
    (hmove : ∀ (s t : State) (k : MoveKind), k ∈ K → s.Move k t → P s → P t) {s t : State} (h : s.Reaches K t)
    (hs : P s) : P t := by
  induction h with
  | refl => exact hs
  | tail _ hbc ih =>
    obtain ⟨k, hk, hm⟩ := hbc
    exact hmove _ _ k hk hm ih

/-- Nothing has moved where the exchange map is put back as it stands. -/
theorem State.Reaches.setMap_same {K : List MoveKind} {s : State} {m : ExchangeMap} (h : s.map = m) :
    s.Reaches K (s.setMap m) := by
  subst h
  exact .refl s

/-- A run of moves goes on in the blocks beside the exchange map and the link. -/
theorem State.Reaches.others {K : List MoveKind} (hq : .quiet ∈ K) {s t u : State} (h : s.Reaches K t)
    (hmap : u.map = t.map) (hlink : u.link = t.link) (hstop : u.stop = t.stop) : s.Reaches K u :=
  h.trans ((State.Move.others hmap hlink fun hl => hstop ▸ hl).reaches hq)

/-- A run of moves goes on at a port whose reads stay as they are. -/
theorem State.Reaches.port {K : List MoveKind} (hq : .quiet ∈ K) {s t : State} (h : s.Reaches K t) (p : Port)
    (l : LinkPort) (hlaw : (t.port p).Law → l.Law) (hreading : l.reading = (t.port p).reading) :
    s.Reaches K (t.setPort p l) :=
  h.trans ((State.Move.port p l hlaw hreading).reaches hq)

/-- The answer to a request that is taken. -/
theorem State.Reaches.answer {K : List MoveKind} (hq : .quiet ∈ K) {s t : State} (h : s.Reaches K t) {p : Port}
    (ht : (t.port p).Taken) (c : Status) (b : List Byte) : s.Reaches K (t.answer p c b) :=
  h.port hq p _ (fun hl => hl.response ht _) rfl

/-! ### Visits of all pages -/

/-- A fold over the pages is a run of moves if every visit is. -/
theorem foldl_reaches {α : Type} {K : List MoveKind} (map : α → ExchangeMap) (visit : α → Page → α)
    (hvisit : ∀ (s : State) (a : α) (i : Page), s.map = map a → s.Reaches K (s.setMap (map (visit a i))))
    (l : List Page) (s : State) (a : α) (hs : s.map = map a) : s.Reaches K (s.setMap (map (l.foldl visit a))) := by
  induction l generalizing s a with
  | nil => rw [List.foldl_nil, ← hs, State.setMap_self]; exact .refl s
  | cons i l ih =>
    have h := ih (s.setMap (map (visit a i))) (visit a i) rfl
    rw [State.setMap_twice] at h
    exact (hvisit s a i hs).trans h

theorem State.removeStagingsOf_reaches {K : List MoveKind} (hq : .quiet ∈ K) (s : State) (p : Port) :
    s.Reaches K (s.setMap (s.map.removeStagingsOf p)) := by
  refine foldl_reaches (fun m => m) _ (fun s m i hm => ?_) _ s s.map rfl
  subst hm
  split
  · exact (State.Move.remove i).reaches hq
  · exact .refl s

theorem State.removeAllStagings_reaches {K : List MoveKind} (hq : .quiet ∈ K) (s : State) :
    s.Reaches K (s.setMap s.map.removeAllStagings) :=
  foldl_reaches (fun m => m) _ (fun _ _ i hm => hm ▸ (State.Move.remove i).reaches hq) _ s s.map rfl

/-- A staging whose state and cycles left change keeps its page lawful. -/
theorem PageRecord.Law.restaged {r : PageRecord} {st st' : Staging} (h : r.Law) (hs : r.staging = some st)
    (hst : st'.stager = st.stager) : PageRecord.Law { r with staging := some st' } := by
  obtain ⟨hunused, hwriter⟩ := h
  refine ⟨fun hd => ?_, fun x hx => ?_⟩
  · have he := hunused hd
    rw [he] at hs
    cases hs
  · cases hx
    rw [hst]
    exact hwriter st hs

/-- A staging rewritten with its frame and its stager kept: its marking, its countdown. -/
theorem State.restage_reaches {K : List MoveKind} (hq : .quiet ∈ K) {s : State} {i : Page} {st : Staging}
    (hs : (s.map.page i).staging = some st) (st' : Staging) (hst : st'.holder = st.holder) :
    s.Reaches K (s.setMap (s.map.setPage i { s.map.page i with staging := some st' })) :=
  (State.Move.page i _ (fun h => h.restaged hs (congrArg Prod.snd hst)) rfl rfl (by simp [hs, hst])).reaches hq

theorem State.countStagings_reaches {K : List MoveKind} (hq : .quiet ∈ K) (s : State) :
    s.Reaches K (s.setMap s.map.countStagings.1) := by
  refine foldl_reaches Prod.fst ExchangeMap.countPage (fun s a i ha => ?_) _ s (s.map, []) rfl
  unfold ExchangeMap.countPage
  rw [← ha]
  split
  · exact .setMap_same ha
  · rename_i st hs
    split
    · split
      · exact (State.Move.remove i).reaches hq
      · exact s.restage_reaches hq hs _ rfl
    · exact .setMap_same ha

theorem State.swap_reaches {K : List MoveKind} (hp : .publish ∈ K) (s : State) (g : Group) (c : CycleCount) :
    s.Reaches K (s.setMap (s.map.swap g c).map) := by
  refine foldl_reaches SwapResult.map (ExchangeMap.swapPage g c) (fun s a i ha => ?_) _ s _ rfl
  unfold ExchangeMap.swapPage
  rw [← ha]
  split
  · rename_i hd
    split
    · exact .setMap_same ha
    · rename_i st hs
      split
      · exact .refl s
      · exact (State.Move.publish i st c hs hd.1).reaches hp
  · exact .setMap_same ha

/-! ### Claims -/

theorem State.takeClaim_reaches {K : List MoveKind} (hq : .quiet ∈ K) (hp : .publish ∈ K) (s : State) (c : Claim) :
    s.Reaches K (s.takeClaim c).1 := by
  have ho := s.takeClaim_only c
  have hm : s.Reaches K (s.setMap (s.takeClaim c).1.map) := by
    rcases s.takeClaim_map c with h | ⟨g, -, -, h⟩ <;> rw [h]
    · exact .refl s
    · exact s.swap_reaches hp g _
  exact hm.others hq rfl ho.link ho.stop

theorem State.takeClaims_reaches {K : List MoveKind} (hq : .quiet ∈ K) (hp : .publish ∈ K) (s : State)
    (cs : List Claim) : s.Reaches K (s.takeClaims cs).1 :=
  s.takeClaims_keeps (s.Reaches K) (fun u c hu => hu.trans (u.takeClaim_reaches hq hp c)) cs (.refl s)

theorem State.markReady_reaches {K : List MoveKind} (hq : .quiet ∈ K) (s : State) (p : Port) :
    s.Reaches K (s.markReady p) := by
  rcases s.markReady_eq p with h | ⟨pp, i, st, hw, -, hs, -, -, h⟩ <;> rw [h]
  · exact .refl s
  · exact (s.restage_reaches hq hs { st with state := .ready } rfl).answer hq (Or.inr ⟨_, hw⟩) _ _

theorem State.takeCycleClaim_reaches {K : List MoveKind} (hq : .quiet ∈ K) (hp : .publish ∈ K) (s : State)
    (c : CycleClaim) : s.Reaches K (s.takeCycleClaim c).1 := by
  cases c with
  | block c => exact s.takeClaim_reaches hq hp c
  | countStagings => exact s.countStagings_reaches hq
  | markReady p => exact s.markReady_reaches hq p

theorem State.takeCycleClaims_reaches {K : List MoveKind} (hq : .quiet ∈ K) (hp : .publish ∈ K) (s : State)
    (cs : List CycleClaim) : s.Reaches K (s.takeCycleClaims cs).1 :=
  s.takeCycleClaims_keeps (s.Reaches K) (fun u c hu => hu.trans (u.takeCycleClaim_reaches hq hp c)) cs (.refl s)

theorem State.startCycle_reaches {K : List MoveKind} (hq : .quiet ∈ K) (hp : .publish ∈ K) (s : State)
    (pick : Nat → Nat) (earlier : List Message) : s.Reaches K (s.startCycle pick earlier) :=
  (((State.Reaches.refl s).others hq (u := s.setSched (s.sched.beginCycle s.stop.anyActive)) rfl rfl rfl).trans
    (State.takeCycleClaims_reaches hq hp _ _)).others hq rfl rfl rfl

theorem State.startSlot_reaches {K : List MoveKind} (hq : .quiet ∈ K) (hp : .publish ∈ K) (s : State)
    (pick : Nat → Nat) : s.Reaches K (s.startSlot pick) :=
  (s.takeClaims_reaches hq hp _).others hq rfl rfl rfl

theorem State.resetBlocks_reaches {K : List MoveKind} (hq : .quiet ∈ K) (hp : .publish ∈ K) (s : State) (k : Nat)
    (p : Port) (which : ResetClaims) : s.Reaches K (s.resetBlocks k p which).1 := by
  unfold State.resetBlocks
  dsimp only
  generalize (if which.hold then s.holdRemovalClaims p else []) = claims
  refine ((s.takeClaims_reaches hq hp (claims.take (k % (claims.length + 1)))).trans ?_).trans
    (State.takeClaims_reaches hq hp _ _)
  split
  · exact State.removeStagingsOf_reaches hq _ p
  · exact .refl _

theorem State.resetPort_reaches {K : List MoveKind} (hq : .quiet ∈ K) (hp : .publish ∈ K) (s : State)
    (pick : Nat → Nat) (p : Port) (which : ResetClaims) : s.Reaches K (s.resetPort pick p which) := by
  have h := s.resetBlocks_reaches hq hp (pick 1) p which
  unfold State.resetPort
  dsimp only
  split <;> exact h.others hq rfl rfl rfl

/-- Claims of a port reset, with the move of its port: to the response, or to what is left of them (R183). -/
theorem State.takeResetClaims_reaches {K : List MoveKind} (hq : .quiet ∈ K) (hp : .publish ∈ K) {s : State} {p : Port}
    (ht : (s.port p).Taken) (left now : ResetClaims) : s.Reaches K (s.takeResetClaims p left now) := by
  have h : s.Reaches K (s.resetPort s.draw p now).bump := (s.resetPort_reaches hq hp s.draw p now).others hq rfl rfl rfl
  have hport : (s.resetPort s.draw p now).bump.port p = s.port p := by
    rw [State.bump, State.port_setChoices, State.resetPort_only]
    rfl
  unfold State.takeResetClaims
  dsimp only
  split
  · exact h.answer hq (hport ▸ ht) _ _
  · rename_i hne
    exact h.port hq p _ (fun hl => hl.resetting (hport ▸ ht) hne) rfl

end Sys2Proof.Machine
end

section
/-! SUPPORT. The page part of a data request, what it can come to said once; and every command and every event of a tick
as a run of moves. -/

namespace Sys2Proof.Machine

/-! ### The page part of a data request -/

/-- What the exchange map's claim of data request x of port p on exchange page i can come to (R15 to R23, R104). -/
inductive State.PagePartTaken (s : State) (p : Port) (x : DataCall) (i : Page) : State → Prop where
  | refused (c : FaultCause) : PagePartTaken s p x i (s.refuseData p x c)
  | answered (c : Status) (b : List Byte) : PagePartTaken s p x i (s.answer p c b)
  | refusedWrite (n : Nat) (c : Status) : PagePartTaken s p x i (s.refuseWrite p n c)
  | reads (r : ReadInFlight) (number : Word16) (t : Transfer)
      (hrole : (s.map.page r.page).live = some r.frame ∨
        (s.map.page r.page).staging.map Staging.frame = some r.frame) :
      PagePartTaken s p x i (s.beginRead p r number t)
  | opens (pp : PortPage) (copy : Bool) (f : Frame) (rest : List Frame) (hx : x = .stageOpen pp copy)
      (hmay : s.MayStage p i) (hs : (s.map.page i).staging = none) (hcount : s.map.stagingCount p < 8)
      (hfree : s.map.freeList = f :: rest) :
      PagePartTaken s p x i
        ((s.setMap (s.map.openStaging i p copy f rest)).answer p .ok (bytesOf16 i.val ++ bytes16 (s.map.serial + 1)))
  | writes (n : Nat) (w : WriteBuffer) :
      PagePartTaken s p x i (s.setPort p { s.port p with tx := .writeData n none, write := some w })
  | marks (pp : PortPage) (st : Staging) (hx : x = .stageReady pp) (hs : (s.map.page i).staging = some st)
      (hp : st.stager = p) (ho : st.state = .opened) :
      PagePartTaken s p x i
        ((s.setMap (s.map.setPage i { s.map.page i with staging := some { st with state := .ready } })).answer p .ok
          [])
  | drops : PagePartTaken s p x i ((s.setMap (s.map.removeStaging i)).answer p .ok [])

/-- The page part passes with the page it was asked of, and a page that admits the request (R104). -/
theorem ExchangeMap.pagePart_ok {m : ExchangeMap} {p : Port} {i j : Page} {q : DataRequest}
    (h : m.pagePart p i q = .ok j) : j = i ∧ (m.page i).defined = true ∧ (m.page i).admits p q = true := by
  unfold ExchangeMap.pagePart at h
  split at h
  · split at h
    · cases h
      exact ⟨rfl, by assumption, by assumption⟩
    · cases h
  · cases h

theorem State.acceptStageOpen_cases (s : State) (p : Port) (pp : PortPage) (copy : Bool) (i : Page)
    (hmay : s.MayStage p i) : s.PagePartTaken p (.stageOpen pp copy) i (s.acceptStageOpen p copy i) := by
  unfold State.acceptStageOpen
  split
  · exact .answered _ _
  split
  · exact .answered _ _
  split
  · exact .answered _ _
  rename_i hs
  split
  · exact .answered _ _
  rename_i hcount
  split
  · exact .answered _ _
  · rename_i f rest hfree
    exact .opens pp copy f rest rfl hmay hs (Nat.lt_of_not_le hcount) hfree

theorem State.acceptData_cases (s : State) (p : Port) (x : DataCall) (i : Page) (hd : (s.map.page i).defined = true)
    (ha : (s.map.page i).admits p x.request = true) : s.PagePartTaken p x i (s.acceptData p x i) := by
  cases x with
  | read t =>
    simp only [State.acceptData, State.acceptRead]
    split
    · exact .answered _ _
    · rename_i f hf
      exact .reads _ _ t (Or.inl hf)
  | stageOpen pp copy => exact s.acceptStageOpen_cases p pp copy i ⟨hd, ha⟩
  | stageWrite t =>
    simp only [State.acceptData, State.acceptStageWrite]
    split
    · exact .refusedWrite _ _
    · split
      · exact .refusedWrite _ _
      · exact .writes _ _
  | stageRead t =>
    simp only [State.acceptData, State.acceptStageRead]
    split
    · exact .answered _ _
    · rename_i st hst
      exact .reads _ _ t (Or.inr (by rw [(PageRecord.stagedBy_some hst).1]; rfl))
  | stageReady pp =>
    simp only [State.acceptData, State.acceptStageReady]
    split
    · exact .answered _ _
    · rename_i st hst
      obtain ⟨hs, hp⟩ := PageRecord.stagedBy_some hst
      split
      · exact .answered _ _
      · rename_i ho
        exact .marks pp st rfl hs hp ho
  | stageDrop pp =>
    simp only [State.acceptData, State.acceptStageDrop]
    split
    · exact .answered _ _
    · exact .drops

theorem State.takePagePart_cases (s : State) (p : Port) (x : DataCall) (i : Page) :
    s.PagePartTaken p x i (s.takePagePart p x i) := by
  unfold State.takePagePart
  split
  · exact .refused _
  · rename_i j hj
    obtain ⟨rfl, hd, ha⟩ := ExchangeMap.pagePart_ok hj
    exact s.acceptData_cases p x j hd ha

/-- A read begun: one reference more, and the port in RESPONSE with the read in flight (R15, R17). -/
theorem State.beginRead_eq (s : State) (p : Port) (r : ReadInFlight) (number : Word16) (t : Transfer) :
    s.beginRead p r number t =
      (s.setMap (s.map.addRef r.frame)).setPort p
        { s.port p with
          reading := some r
          tx := .response
            { status := .ok, body := bytes16 number ++ s.map.frames.readFrame r.frame t.offset.val t.length } } := by
  unfold State.beginRead
  rw [State.answer_eq, State.port_setPort_same, State.setPort_twice]

/-- A refusal of a data request touches, beside its port, the view unit and the notice unit alone. -/
theorem State.refuseData_reaches {K : List MoveKind} (hq : .quiet ∈ K) {s : State} {p : Port}
    (ht : (s.port p).Taken) (x : DataCall) (c : FaultCause) : s.Reaches K (s.refuseData p x c) := by
  have hf := s.recordFault_only p c x
  have hport : (s.recordFault p c x).port p = s.port p := by rw [hf]; rfl
  have h : s.Reaches K (s.recordFault p c x) :=
    (State.Reaches.refl s).others hq (by rw [hf]; rfl) (by rw [hf]; rfl) (by rw [hf]; rfl)
  unfold State.refuseData
  split
  · exact h.port hq p _ (fun hl => hl.refusedWrite (hport ▸ ht) _ _) rfl
  · exact h.answer hq (hport ▸ ht) _ _

/-- The page part is a run of moves; only a STAGE_OPEN stores. -/
theorem State.takePagePart_reaches {K : List MoveKind} (hq : .quiet ∈ K) {s : State} {p : Port} {x : DataCall}
    (hx : ∀ pp copy, x = .stageOpen pp copy → .store ∈ K) (i : Page) (ht : (s.port p).Taken) :
    s.Reaches K (s.takePagePart p x i) := by
  have h := s.takePagePart_cases p x i
  generalize s.takePagePart p x i = t at h
  cases h with
  | refused c => exact s.refuseData_reaches hq ht x c
  | answered c b => exact (State.Reaches.refl s).answer hq ht c b
  | refusedWrite n c => exact (State.Reaches.refl s).port hq p _ (fun hl => hl.refusedWrite ht _ _) rfl
  | reads r number t hrole =>
    rw [State.beginRead_eq]
    exact (State.Move.beginRead p r _ hrole (fun hl => ⟨(hl.of_taken ht).2.1, hl.reading ht r _⟩) rfl).reaches hq
  | opens pp copy f rest hxe hmay hs hcount hfree =>
    exact ((State.Move.openStaging i p copy f rest hmay hs hcount hfree).reaches (hx pp copy hxe)).answer hq ht _ _
  | writes n w => exact (State.Reaches.refl s).port hq p _ (fun hl => hl.writing ht _ _) rfl
  | marks pp st _ hs _ _ => exact (s.restage_reaches hq hs { st with state := .ready } rfl).answer hq ht _ _
  | drops => exact ((State.Move.remove i).reaches hq).answer hq ht _ _

/-! ### Events of a tick -/

theorem State.setSched_reaches {K : List MoveKind} (hq : .quiet ∈ K) (s : State) (c : Schedule) :
    s.Reaches K (s.setSched c) := (State.Reaches.refl s).others hq rfl rfl rfl

theorem State.settle_reaches {K : List MoveKind} (hq : .quiet ∈ K) (hp : .publish ∈ K) (hs : .store ∈ K) (s : State)
    (p : Port) : s.Reaches K (s.settle p) := by
  unfold State.settle
  split
  · rename_i h
    exact State.takeResetClaims_reaches hq hp (Or.inr ⟨_, h⟩) _ _
  · rename_i h
    exact State.takePagePart_reaches hq (fun _ _ _ => hs) _ (Or.inr ⟨_, h⟩)
  · exact .refl s

theorem State.settleSome_reaches {K : List MoveKind} (hq : .quiet ∈ K) (hp : .publish ∈ K) (hs : .store ∈ K)
    (s : State) (p : Port) : s.Reaches K (s.settleSome p) := by
  unfold State.settleSome
  split
  · rename_i h
    exact State.takeResetClaims_reaches hq hp (Or.inr ⟨_, h⟩) _ _
  · rename_i h
    split
    · exact (State.takePagePart_reaches hq (fun _ _ _ => hs) _ (Or.inr ⟨_, h⟩)).others hq rfl rfl rfl
    · exact (State.Reaches.refl s).others hq rfl rfl rfl
  · exact .refl s

theorem State.endSlot_reaches {K : List MoveKind} (hq : .quiet ∈ K) (hp : .publish ∈ K) (s : State)
    (pick : Nat → Nat) : s.Reaches K (s.endSlot pick) := by
  unfold State.endSlot
  split
  · split
    · exact (s.setSched_reaches hq _).trans (State.startSlot_reaches hq hp _ _)
    · split
      · exact s.startCycle_reaches hq hp _ _
      · exact (State.Reaches.refl s).others hq rfl rfl rfl
  · exact .refl s

theorem State.syncEdge_reaches {K : List MoveKind} (hq : .quiet ∈ K) (hp : .publish ∈ K) (s : State)
    (pick : Nat → Nat) : s.Reaches K (s.syncEdge pick) := by
  unfold State.syncEdge
  split
  · exact s.startCycle_reaches hq hp _ _
  · exact (State.Reaches.refl s).others hq rfl rfl rfl
  · exact .refl s

theorem State.expireGap_reaches {K : List MoveKind} (hq : .quiet ∈ K) (hp : .publish ∈ K) (s : State)
    (pick : Nat → Nat) : s.Reaches K (s.expireGap pick) := by
  unfold State.expireGap
  split
  · exact s.startCycle_reaches hq hp _ _
  · exact .refl s

theorem State.takeEdge_reaches {K : List MoveKind} (hq : .quiet ∈ K) (hp : .publish ∈ K) (s : State) :
    s.Reaches K s.takeEdge := (s.syncEdge_reaches hq hp _).others hq rfl rfl rfl

/-- A filter expiry and a sample touch the stop unit, lawfully, and the notice unit. -/
theorem State.expireFilter_reaches {K : List MoveKind} (hq : .quiet ∈ K) (s : State) (l : Line) :
    s.Reaches K (s.expireFilter l) := by
  have h := s.expireFilter_only l
  exact (State.Move.others (by rw [h]; rfl) (by rw [h]; rfl) (State.expireFilter_law l)).reaches hq

theorem State.sampleStop_reaches {K : List MoveKind} (hq : .quiet ∈ K) (s : State) (l : Line) (level : Level) :
    s.Reaches K (s.sampleStop l level) := by
  have h := s.sampleStop_only l level
  exact (State.Move.others (by rw [h]; rfl) (by rw [h]; rfl) (State.sampleStop_law l level)).reaches hq

/-- The timebase's own events touch the schedule, the timebase and the notice unit. -/
theorem State.boundary_reaches {K : List MoveKind} (hq : .quiet ∈ K) (s : State) : s.Reaches K s.boundary := by
  unfold State.boundary State.fireAlarm
  dsimp only
  split
  · exact (State.Reaches.refl s).others hq rfl rfl rfl
  · split
    · split <;> exact (State.Reaches.refl s).others hq rfl rfl rfl
    · exact (State.Reaches.refl s).others hq rfl rfl rfl

theorem State.takeSwitch_reaches {K : List MoveKind} (hq : .quiet ∈ K) (s : State) : s.Reaches K s.takeSwitch.1 := by
  rw [s.takeSwitch_only]
  exact (State.Reaches.refl s).others hq rfl rfl rfl

theorem State.answerAlarm_reaches {K : List MoveKind} (hq : .quiet ∈ K) (s : State) : s.Reaches K s.answerAlarm := by
  unfold State.answerAlarm
  split
  · exact .refl s
  · exact s.takeSwitch_reaches hq |>.others hq rfl rfl rfl

/-- The counters of a tick: a filter timer that goes on keeps its line lawful (R117). -/
theorem State.counted_reaches {K : List MoveKind} (hq : .quiet ∈ K) (s : State) : s.Reaches K s.counted := by
  refine (State.Move.others (s := s) (t := s.counted) rfl rfl fun ⟨hline, hfrozen⟩ => ⟨fun l => ?_, ?_⟩).reaches hq
  · have hl : s.counted.stop.line l = (s.stop.line l).tick := by
      unfold State.counted StopUnit.line
      simp [StopLine.tick]
    obtain ⟨hact, hnone, hsome⟩ := hline l
    rw [hl]
    refine ⟨hact, fun hn => hnone (by simpa [StopLine.tick] using hn), fun c hc => ?_⟩
    obtain ⟨c', hc', rfl⟩ := Option.map_eq_some_iff.1 (show (s.stop.line l).pending.map _ = some c from hc)
    exact hsome c' hc'
  · rw [← s.count_bump]
    exact hfrozen

/-- An event of a tick is a run of moves; only outstanding claims store. -/
theorem State.takeEvent_reaches {K : List MoveKind} (hq : .quiet ∈ K) (hp : .publish ∈ K) (s : State) (e : TickEvent)
    (hs : ∀ p, e = .claims p → .store ∈ K) : s.Reaches K (s.takeEvent e) := by
  cases e with
  | slot => exact (s.endSlot_reaches hq hp _).others hq rfl rfl rfl
  | gap => exact (s.expireGap_reaches hq hp _).others hq rfl rfl rfl
  | edge => exact (s.setSched_reaches hq _).trans (State.takeEdge_reaches hq hp _)
  | filter l => exact s.expireFilter_reaches hq l
  | second => exact s.boundary_reaches hq
  | alarmAnswer => exact s.answerAlarm_reaches hq
  | sample l => exact s.sampleStop_reaches hq l _
  | claims p => exact s.settleSome_reaches hq hp (hs p rfl) p

theorem State.tick_reaches {K : List MoveKind} (hq : .quiet ∈ K) (hp : .publish ∈ K) (hs : .store ∈ K) (s : State) :
    s.Reaches K s.tick :=
  State.tick_keeps (s.Reaches K) (fun u hu => u.count_bump ▸ hu.trans (u.counted_reaches hq))
    (fun u e hu => hu.trans (u.takeEvent_reaches hq hp e fun _ _ => hs)) (.refl s)

/-! ### Requests served -/

/-- A request served is a run of moves if its own operation is, on a port that has taken it. -/
theorem State.serve_reaches {α : Type} {K : List MoveKind} (hq : .quiet ∈ K) (s : State) (p : Port)
    (record : List Byte) (right : Option RightName) (params : Option α) (act : α → State → State)
    (hact : ∀ a (u : State), params = some a → (u.port p).tx = .request → u.Reaches K (act a u)) :
    s.Reaches K (s.serve p record right params act) := by
  have hr : s.Reaches K (s.receive p record) := (State.Reaches.refl s).port hq p _ (fun h => h) rfl
  unfold State.serve
  split
  · rename_i ha
    have ht : ((s.receive p record).port p).tx = .request := by
      rw [State.receive_eq, State.port_setPort_same]
      exact ((s.readyFor_iff p).2 ha).2
    split
    · exact hr.answer hq (Or.inl ht) _ _
    · split
      · exact hr.answer hq (Or.inl ht) _ _
      · exact hr.trans (hact _ _ rfl ht)
  · exact .refl s

theorem State.inSetup_reaches {K : List MoveKind} (hq : .quiet ∈ K) {s : State} {p : Port} (ht : (s.port p).Taken)
    (act : State → State) (hact : s.Reaches K (act s)) : s.Reaches K (s.inSetup p act) := by
  unfold State.inSetup
  split
  · exact hact
  · exact (State.Reaches.refl s).answer hq ht _ _

theorem State.unlessReset_reaches {K : List MoveKind} (s : State) (act : State → State) (hact : s.Reaches K (act s)) :
    s.Reaches K (s.unlessReset act) := by
  unfold State.unlessReset
  split
  · exact .refl s
  · exact hact

end Sys2Proof.Machine

namespace Sys2Proof

/-- The kinds of moves that a command can come to. -/
def Instr.moves : Instr → List Machine.MoveKind
  | .start _ | .release _ | .portReset _ | .endOfSlot | .syncEdge | .gapExpiry => [.quiet, .publish]
  | .definePage .. | .retirePage .. => [.quiet, .define]
  | .stageOpen .. => [.quiet, .store]
  | .readCompletion _ | .stageReadCompletion _ | .stageWriteCompletion .. | .lastResponseByte _ | .selectRelease _ =>
      [.quiet, .publish, .store]
  | .partReset => [.reset]
  | _ => [.quiet]

end Sys2Proof
end

section
/-! SUPPORT. Every command is a run of moves, of the kinds that Instr.moves allows it. -/

namespace Sys2Proof.Machine

/-! ### Requests that answer from the other blocks -/

/-- From u to w a request of p is answered, and beside p's port only blocks other than the exchange map have changed,
the stop unit lawfully. -/
def State.OnlyReplies (u : State) (p : Port) (w : State) : Prop :=
  ∃ v c b, w = State.answer v p c b ∧ v.map = u.map ∧ v.link = u.link ∧ (u.stop.Law → v.stop.Law)

theorem State.OnlyReplies.answer {u v : State} (p : Port) (c : Status) (b : List Byte) (hmap : v.map = u.map)
    (hlink : v.link = u.link) (hstop : u.stop.Law → v.stop.Law) : u.OnlyReplies p (v.answer p c b) :=
  ⟨v, c, b, rfl, hmap, hlink, hstop⟩

theorem State.OnlyReplies.same (u : State) (p : Port) (c : Status) (b : List Byte) : u.OnlyReplies p (u.answer p c b) :=
  .answer p c b rfl rfl id

theorem State.OnlyReplies.inSetup {u : State} {p : Port} {act : State → State} (h : u.OnlyReplies p (act u)) :
    u.OnlyReplies p (u.inSetup p act) := by
  unfold State.inSetup
  split
  · exact h
  · exact .same u p _ _

theorem State.OnlyReplies.reaches {K : List MoveKind} (hq : .quiet ∈ K) {u w : State} {p : Port}
    (h : u.OnlyReplies p w) (ht : (u.port p).Taken) : u.Reaches K w := by
  obtain ⟨v, c, b, rfl, hmap, hlink, hstop⟩ := h
  refine ((State.Move.others hmap hlink hstop).reaches hq).answer hq ?_ c b
  rw [State.port_congr hlink]
  exact ht

theorem State.editPlan_replies (u : State) (p : Port) (n : PlanName) (edit : Plan → Plan) :
    u.OnlyReplies p (u.editPlan p n edit) := by
  unfold State.editPlan
  split
  · exact .same u p _ _
  · exact .answer p _ _ rfl rfl id

theorem State.switchPlan_replies (u : State) (p : Port) : u.OnlyReplies p (u.switchPlan p) := by
  unfold State.switchPlan
  split
  · refine .answer p _ _ ?_ ?_ fun h => ?_ <;> rw [u.takeSwitch_only]
    · rfl
    · rfl
    · exact h
  · exact .same u p _ _

theorem State.takeHold_replies (u : State) (p : Port) (g : GroupSet) : u.OnlyReplies p (u.takeHold p g) := by
  unfold State.takeHold
  split
  · exact .same u p _ _
  · split
    · exact .same u p _ _
    · exact .answer p _ _ rfl rfl id

theorem State.takeFault_replies (u : State) (p : Port) : u.OnlyReplies p (u.takeFault p) := by
  unfold State.takeFault
  split
  · exact .same u p _ _
  · exact .answer p _ _ rfl rfl id

theorem State.peekNotice_replies (u : State) (p : Port) : u.OnlyReplies p (u.peekNotice p) := by
  unfold State.peekNotice
  split <;> exact .same u p _ _

theorem State.popNotice_replies (u : State) (p : Port) : u.OnlyReplies p (u.popNotice p) := by
  unfold State.popNotice
  split
  · exact .same u p _ _
  · exact .answer p _ _ rfl rfl id

/-- STOP_CLEAR finds an INACTIVE filtered level where it clears an ACTIVE stop state (R125). -/
theorem State.clearStop_replies (u : State) (p : Port) (l : Line) : u.OnlyReplies p (u.clearStop p l) := by
  unfold State.clearStop
  split
  · rename_i hf
    refine .answer p _ _ rfl rfl fun h => StopUnit.setLine_law l h ⟨fun hc => ?_, (h.1 l).2⟩
    rw [show (u.stop.line l).filtered = .active from hc] at hf
    cases hf
  · exact .same u p _ _
  · exact .same u p _ _

/-- STOP_SET touches the stop unit, lawfully, and the notice unit (R118). -/
theorem State.setStopLine_replies (u : State) (p : Port) (x : StopParams) (b : List Byte) :
    u.OnlyReplies p ((u.setStopLine x).answer p .ok b) := by
  have hset : u.stop.Law → (u.stop.setLine x.line
      { u.stop.line x.line with filterTime := x.filterTime, freeze := x.freeze, mode := x.mode }).Law :=
    fun h => StopUnit.setLine_law x.line h (h.1 x.line)
  unfold State.setStopLine
  dsimp only
  split
  · refine .answer p _ _ ?_ ?_ fun h => State.expireFilter_law x.line (hset h) <;> rw [State.expireFilter_only] <;> rfl
  · exact .answer p _ _ rfl rfl hset

/-! ### Requests of the exchange map -/

theorem State.definePage_reaches {K : List MoveKind} (hq : .quiet ∈ K) (hd : .define ∈ K) {s : State} {p : Port}
    (ht : (s.port p).Taken) (x : PageParams) : s.Reaches K (s.definePage p x) := by
  unfold State.definePage
  split
  · exact (State.Reaches.refl s).answer hq ht _ _
  · rename_i h
    exact ((State.Move.define x (by simpa using h)).reaches hd).answer hq ht _ _

/-- A request on a defined page without a staging is a run of moves if its effect is one. -/
theorem State.onQuietPage_reaches {K : List MoveKind} (hq : .quiet ∈ K) {s : State} {p : Port} (ht : (s.port p).Taken)
    (i : Page) (m : State → ExchangeMap)
    (hm : (s.map.page i).defined = true → (s.map.page i).staging = none → s.Reaches K (s.setMap (m s))) :
    s.Reaches K (s.onQuietPage p i fun s => s.setMap (m s)) := by
  unfold State.onQuietPage
  split
  · rename_i hd
    split
    · exact (State.Reaches.refl s).answer hq ht _ _
    · rename_i hs
      exact (hm hd hs).answer hq ht _ _
  · exact (State.Reaches.refl s).answer hq ht _ _

theorem State.redefine_reaches {K : List MoveKind} (hq : .quiet ∈ K) {s : State} (x : PageParams)
    (hd : (s.map.page x.page).defined = true) (hs : (s.map.page x.page).staging = none) :
    s.Reaches K (s.setMap (s.map.redefine x)) := by
  refine (State.Move.page (s := s) x.page
    { s.map.page x.page with group := x.group, readers := x.readers, writers := x.writers }
    (fun _ => ⟨fun h => ?_, fun st h => ?_⟩) rfl rfl rfl).reaches hq
  · rw [show (s.map.page x.page).defined = false from h] at hd
    cases hd
  · rw [show (s.map.page x.page).staging = some st from h] at hs
    cases hs

/-- A data request at its acceptance; only a STAGE_OPEN stores (R104). -/
theorem State.acceptCall_reaches {K : List MoveKind} (hq : .quiet ∈ K) {s : State} {p : Port} (ht : (s.port p).Taken)
    (x : DataCall) (hx : ∀ pp copy, x = .stageOpen pp copy → .store ∈ K) : s.Reaches K (s.acceptCall p x) := by
  unfold State.acceptCall
  split
  · exact s.refuseData_reaches hq ht x _
  · rename_i i hi
    have h : s.Reaches K (s.setPort p { s.port p with tx := .accepted (.pagePart x i) }).bump :=
      ((State.Reaches.refl s).port hq p _ (fun hl => hl.awaiting ht x i) rfl).others hq rfl rfl rfl
    dsimp only
    split
    · refine h.trans (State.takePagePart_reaches hq hx i (Or.inr ⟨.pagePart x i, ?_⟩))
      rw [State.bump, State.port_setChoices, State.port_setPort_same]
    · exact h

/-! ### Port p waits while a cycle starts -/

/-- A claim of a cycle start leaves a port alone that has nothing outstanding. -/
theorem State.takeCycleClaim_port {s : State} {p : Port} (h : ∀ o, (s.port p).tx ≠ .accepted o) (c : CycleClaim) :
    (s.takeCycleClaim c).1.port p = s.port p := by
  cases c with
  | block c => exact State.port_congr (s.takeClaim_only c).link p
  | countStagings => exact State.port_setMap s _ p
  | markReady q =>
    rcases s.markReady_eq q with he | ⟨pp, i, st, hw, -, -, -, -, he⟩
    · exact congrArg (State.port · p) he
    · have hne : p ≠ q := by
        rintro rfl
        exact h _ hw
      refine (congrArg (State.port · p) he).trans ?_
      rw [State.answer_eq, State.port_setPort_ne _ _ hne, State.port_setMap]

theorem State.takeCycleClaims_port {s : State} {p : Port} (h : ∀ o, (s.port p).tx ≠ .accepted o)
    (cs : List CycleClaim) : (s.takeCycleClaims cs).1.port p = s.port p :=
  s.takeCycleClaims_keeps (fun u => u.port p = s.port p)
    (fun _ c hu => (State.takeCycleClaim_port (by rwa [hu]) c).trans hu) cs rfl

theorem State.startCycle_request {s : State} {p : Port} (h : (s.port p).tx = .request) (pick : Nat → Nat)
    (earlier : List Message) : ((s.startCycle pick earlier).port p).tx = .request :=
  by
  have hport := State.takeCycleClaims_port (s := s.setSched (s.sched.beginCycle s.stop.anyActive)) (p := p)
    (fun o ho => nomatch h.symm.trans ho)
  exact (congrArg LinkPort.tx (hport _)).trans h

/-- START, on a port in REQUEST (R35, R179). -/
theorem State.startPart_reaches {K : List MoveKind} (hq : .quiet ∈ K) (hp : .publish ∈ K) {s : State} {p : Port}
    (ht : (s.port p).tx = .request) :
    s.Reaches K s.startPart ∧ (s.startPart.port p).tx = .request := by
  have h : ∀ c, s.Reaches K ((s.setPart .run).setSched c) := fun c =>
    (State.Reaches.refl s).others hq rfl rfl rfl
  unfold State.startPart State.startSchedule
  dsimp only
  split
  · exact ⟨((h _).trans (State.startCycle_reaches hq hp _ s.draw [])).others hq rfl rfl rfl,
      State.startCycle_request (s := (s.setPart .run).setSched _) ht s.draw []⟩
  · exact ⟨(State.Reaches.refl s).others hq rfl rfl rfl, ht⟩

/-! ### The link's events -/

theorem State.selectFalls_reaches {K : List MoveKind} (hq : .quiet ∈ K) (s : State) (p : Port) :
    s.Reaches K (s.selectFalls p) := by
  unfold State.selectFalls
  split
  · exact .refl s
  · split
    · rename_i h
      refine (State.Reaches.refl s).port hq p _ (fun ⟨_, hread, hwrite, _⟩ => ?_) rfl
      simp only [Bool.and_eq_true, decide_eq_true_eq] at h
      rw [h.2] at hread hwrite
      simp_all [LinkPort.Law]
    · exact (State.Reaches.refl s).port hq p _ (fun ⟨_, hrest⟩ => ⟨(fun h => nomatch h), hrest⟩) rfl

/-- A port whose transaction has ended. -/
theorem LinkPort.law_idle (l : LinkPort) :
    LinkPort.Law { l with selected := false, tx := .idle, received := [], write := none, reading := none } := by
  simp [LinkPort.Law]

theorem State.selectRises_reaches {K : List MoveKind} (hq : .quiet ∈ K) (s : State) (p : Port) :
    s.Reaches K (s.selectRises p) := by
  unfold State.selectRises
  split
  · unfold State.endTransaction
    split
    · rename_i h
      exact (State.Reaches.refl s).port hq p _ (fun _ => LinkPort.law_idle _) h.symm
    · rename_i r h
      exact (State.Move.endRead p r _ h (fun _ => LinkPort.law_idle _) rfl).reaches hq
  · exact .refl s

theorem State.refuseHeader_reaches {K : List MoveKind} (hq : .quiet ∈ K) (s : State) (p : Port) (a b : Byte) :
    s.Reaches K (s.refuseHeader p a b) := by
  have hr : s.Reaches K (s.receive p [a, b]) := (State.Reaches.refl s).port hq p _ (fun h => h) rfl
  unfold State.refuseHeader
  split
  · rename_i ha
    split
    · exact hr
    · refine hr.answer hq (Or.inl ?_) _ _
      rw [State.receive_eq, State.port_setPort_same]
      exact ((s.readyFor_iff p).2 ha).2
  · exact .refl s

/-- The read in flight of a port in RESPONSE, and the port once its last byte has passed (R168). -/
theorem LinkPort.readInResponse_some {l : LinkPort} {r : ReadInFlight} (h : l.readInResponse = some r) :
    l.reading = some r ∧ (l.Law → l.readDone.Law) := by
  unfold LinkPort.readInResponse at h
  split at h
  · rename_i x hx
    refine ⟨h, fun ⟨hsel, _, hwrite, _⟩ => ?_⟩
    rw [hx] at hsel hwrite
    simp_all [LinkPort.Law, LinkPort.readDone]
  · cases h

/-- A reader joins readers-since-publication: a page rewritten with nothing of its staging and its version touched
(R15). -/
theorem State.joinReaders_reaches {K : List MoveKind} (hq : .quiet ∈ K) (s : State) (p : Port) (r : ReadInFlight) :
    s.Reaches K (s.setMap (s.map.joinReaders p r)) := by
  unfold ExchangeMap.joinReaders
  split
  · rename_i h
    refine (State.Move.page (s := s) r.page
      { s.map.page r.page with readersSince := PortSet.join (s.map.page r.page).readersSince p }
      (fun ⟨_, hw⟩ => ⟨fun hd => ?_, hw⟩) rfl rfl rfl).reaches hq
    rw [show (s.map.page r.page).defined = false from hd] at h
    cases h.1
  · exact .refl s

theorem State.completeRead_reaches {K : List MoveKind} (hq : .quiet ∈ K) (s : State) (p : Port) :
    s.Reaches K (s.completeRead p) := by
  unfold State.completeRead
  split
  · rename_i r hr
    obtain ⟨hreading, hlaw⟩ := LinkPort.readInResponse_some hr
    split
    · have h := ((State.Move.endRead p r _ hreading hlaw rfl).reaches hq).trans
        (State.joinReaders_reaches hq _ p r)
      rw [State.setPort_setMap, State.setMap_twice] at h
      exact h
    · exact .refl s
  · exact .refl s

theorem State.completeStageRead_reaches {K : List MoveKind} (hq : .quiet ∈ K) (s : State) (p : Port) :
    s.Reaches K (s.completeStageRead p) := by
  unfold State.completeStageRead
  split
  · rename_i r hr
    obtain ⟨hreading, hlaw⟩ := LinkPort.readInResponse_some hr
    split
    · exact .refl s
    · exact (State.Move.endRead p r _ hreading hlaw rfl).reaches hq
  · exact .refl s

theorem State.responseSent_reaches {K : List MoveKind} (hq : .quiet ∈ K) (s : State) (p : Port) :
    s.Reaches K (s.responseSent p) := by
  unfold State.responseSent
  split
  · rename_i x hx hr
    refine (State.Reaches.refl s).port hq p _ (fun ⟨hsel, _, hwrite, _⟩ => ?_) rfl
    rw [hx] at hsel hwrite
    simp_all [LinkPort.Law]
  · exact .refl s

/-! ### Data bytes of a STAGE_WRITE (R21, R172) -/

/-- The port once its STAGE_WRITE is answered. -/
def LinkPort.writeAnswered (l : LinkPort) (c : Status) : LinkPort :=
  { l with tx := .response { status := c, body := [] }, write := none }

/-- The write buffer with the bytes that pass now. -/
def WriteBuffer.gather (w : WriteBuffer) (data : List Byte) : WriteBuffer := { w with data := w.data ++ data }

theorem ExchangeMap.writeTarget_some {m : ExchangeMap} {p : Port} {w : WriteBuffer} {st : Staging} :
    m.writeTarget p w = some st ↔ (m.page w.page).staging = some st ∧ st.stager = p ∧ st.serial = w.serial ∧
      st.state = .opened := by
  unfold ExchangeMap.writeTarget PageRecord.stagedBy
  cases (m.page w.page).staging with
  | none => simp
  | some x =>
    by_cases hp : x.stager = p
    · by_cases hx : x.serial = w.serial ∧ x.state = .opened
      · simp only [hp, hx, and_self, if_true, Option.some.injEq]
        constructor
        · rintro rfl
          exact ⟨rfl, hp, hx⟩
        · exact fun h => h.1
      · simp only [hp, hx, if_true, if_false, reduceCtorEq, Option.some.injEq, false_iff]
        rintro ⟨rfl, -, h⟩
        exact hx h
    · simp only [hp, if_false, reduceCtorEq, Option.some.injEq, false_iff]
      rintro ⟨rfl, h, -⟩
      exact hp h

/-- With the last data byte after a refused acceptance, the data are discarded and the refusal is answered. -/
theorem State.dataBytes_refused {s : State} {p : Port} {n : Nat} {c : Status} {data : List Byte}
    (h : (s.port p).tx = .writeData n (some c)) (hn : n ≤ data.length) :
    s.dataBytes p data = s.setPort p ((s.port p).writeAnswered c) := by
  simp [State.dataBytes, h, Nat.min_eq_left hn, State.answer_eq, LinkPort.writeAnswered]

/-- With the last data byte of an accepted write, and without its staging: NOT_STAGED, and nothing is written. -/
theorem State.dataBytes_lost {s : State} {p : Port} {n : Nat} {data : List Byte}
    (h : (s.port p).tx = .writeData n none) (hn : n ≤ data.length)
    (hw : ∀ w, (s.port p).write = some w → s.map.writeTarget p (w.gather (data.take n)) = none) :
    s.dataBytes p data = s.setPort p ((s.port p).writeAnswered .notStaged) := by
  cases hb : (s.port p).write with
  | none => simp [State.dataBytes, h, Nat.min_eq_left hn, State.answer_eq, LinkPort.writeAnswered, hb]
  | some w =>
    have ht := hw w hb
    unfold WriteBuffer.gather at ht
    simp [State.dataBytes, h, Nat.min_eq_left hn, State.answer_eq, LinkPort.writeAnswered, hb, State.applyWrite, ht]

/-- With the last data byte of an accepted write that finds its staging: the bytes are written. -/
theorem State.dataBytes_stored {s : State} {p : Port} {n : Nat} {data : List Byte} {w : WriteBuffer} {st : Staging}
    (h : (s.port p).tx = .writeData n none) (hn : n ≤ data.length) (hw : (s.port p).write = some w)
    (hst : s.map.writeTarget p (w.gather (data.take n)) = some st) :
    s.dataBytes p data =
      (s.setMap
        { s.map with frames := s.map.frames.writeFrame st.frame w.offset (w.data ++ data.take n) }).setPort p
        ((s.port p).writeAnswered .ok) := by
  unfold WriteBuffer.gather at hst
  simp [State.dataBytes, h, Nat.min_eq_left hn, State.answer_eq, LinkPort.writeAnswered, hw, State.applyWrite, hst]

/-- What data bytes can do, said once: nothing, the port alone moved on, or the staging of the write buffer written. -/
theorem State.dataBytes_cases (s : State) (p : Port) (data : List Byte) :
    s.dataBytes p data = s ∨
      (∃ l : LinkPort, s.dataBytes p data = s.setPort p l ∧ l.reading = (s.port p).reading ∧
        (∀ o, l.tx ≠ .accepted o) ∧ ((s.port p).Law → l.Law)) ∨
      ∃ (w : WriteBuffer) (st : Staging) (bytes : List Byte) (n : Nat), (s.port p).tx = .writeData n none ∧
        (s.map.page w.page).staging = some st ∧ st.state = .opened ∧
        s.dataBytes p data =
          (s.setMap { s.map with frames := s.map.frames.writeFrame st.frame w.offset bytes }).setPort p
            ((s.port p).writeAnswered .ok) := by
  have hanswered : ∀ (n : Nat) (o : Option Status) (c : Status), (s.port p).tx = .writeData n o → (s.port p).Law →
      ((s.port p).writeAnswered c).Law := by
    intro n o c h ⟨hsel, hread, _, _⟩
    rw [h] at hsel hread
    simp_all [LinkPort.Law, LinkPort.writeAnswered]
  by_cases hphase : ∃ n o, (s.port p).tx = .writeData n o
  · obtain ⟨n, o, htx⟩ := hphase
    by_cases hn : n ≤ data.length
    · cases o with
      | some c =>
        exact Or.inr (Or.inl ⟨_, State.dataBytes_refused htx hn, rfl, (fun _ h => by cases h), hanswered n _ c htx⟩)
      | none =>
        by_cases ht : ∃ w st, (s.port p).write = some w ∧ s.map.writeTarget p (w.gather (data.take n)) = some st
        · obtain ⟨w, st, hw, hst⟩ := ht
          obtain ⟨hs, -, -, ho⟩ := ExchangeMap.writeTarget_some.1 hst
          exact Or.inr (Or.inr ⟨w, st, _, n, htx, hs, ho, State.dataBytes_stored htx hn hw hst⟩)
        · have hl := State.dataBytes_lost htx hn fun w hw =>
            Option.eq_none_iff_forall_ne_some.2 fun st hst => ht ⟨w, st, hw, hst⟩
          exact Or.inr (Or.inl ⟨_, hl, rfl, (fun _ h => by cases h), hanswered n _ _ htx⟩)
    · refine Or.inr (Or.inl ⟨{ s.port p with
          tx := .writeData (n - (data.take n).length) o
          write := (s.port p).write.map fun w => w.gather (data.take n) }, ?_, rfl, (fun _ h => by cases h), ?_⟩)
      · have hlt : data.length < n := Nat.lt_of_not_le hn
        simp [State.dataBytes, htx, hlt, WriteBuffer.gather]
      · intro ⟨hsel, hread, hwrite, _⟩
        rw [htx] at hsel hread hwrite
        simp_all [LinkPort.Law]
  · left
    unfold State.dataBytes
    split
    · rename_i n o h
      exact absurd ⟨n, o, h⟩ hphase
    · rfl

theorem State.dataBytes_reaches {K : List MoveKind} (hq : .quiet ∈ K) (hs : .store ∈ K) (s : State) (p : Port)
    (data : List Byte) : s.Reaches K (s.dataBytes p data) := by
  rcases s.dataBytes_cases p data with h | ⟨l, h, hread, -, hlaw⟩ | ⟨w, st, bytes, n, htx, -, -, h⟩ <;> rw [h]
  · exact .refl s
  · exact (State.Reaches.refl s).port hq p l hlaw hread
  · refine ((State.Move.write st.frame w.offset bytes).reaches hs).port hq p _ (fun ⟨hsel, hread, _, _⟩ => ?_) rfl
    rw [State.port_setMap, htx] at hsel hread
    simp_all [LinkPort.Law, LinkPort.writeAnswered]

/-! ### Every command -/

theorem State.beginReset_reaches {K : List MoveKind} (hq : .quiet ∈ K) (hp : .publish ∈ K) {s : State} {p : Port}
    (ht : (s.port p).Taken) : s.Reaches K (s.beginReset p) := State.takeResetClaims_reaches hq hp ht _ _

theorem State.releaseHold_reaches {K : List MoveKind} (hq : .quiet ∈ K) (hp : .publish ∈ K) {s : State} {p : Port}
    (ht : (s.port p).Taken) : s.Reaches K (s.releaseHold p) := by
  unfold State.releaseHold State.endHold
  split
  · exact (State.Reaches.refl s).answer hq ht _ _
  · have h := s.takeClaims_reaches hq hp (s.holdRemovalClaims p)
    have hport := State.port_congr (s.takeClaims_only (s.holdRemovalClaims p)).link p
    generalize s.takeClaims (s.holdRemovalClaims p) = r at h hport
    exact (h.others hq (u := r.1.notify _) rfl rfl rfl).answer hq (hport ▸ ht) _ _

theorem State.haltPart_reaches {K : List MoveKind} (hq : .quiet ∈ K) (s : State) : s.Reaches K s.haltPart := by
  refine (s.removeAllStagings_reaches hq).others hq ?_ rfl rfl
  simp only [State.haltPart, State.setPub_map, State.setHold_map, State.setMap_map]

/-- A request that only replies, served. -/
theorem State.serve_replies {α : Type} {K : List MoveKind} (hq : .quiet ∈ K) (s : State) (p : Port)
    (record : List Byte) (right : Option RightName) (params : Option α) (act : α → State → State)
    (hact : ∀ a (u : State), u.OnlyReplies p (act a u)) : s.Reaches K (s.serve p record right params act) :=
  s.serve_reaches hq p record right params act fun a u _ ht => (hact a u).reaches hq (.inl ht)

/-- Every command is a run of moves of the kinds that it is allowed. -/
theorem exec_reaches {c : Instr} {s t : State} (h : exec c s = .next t) : s.Reaches c.moves t := by
  cases c <;> cases h
  case partStatus p => exact s.serve_replies (.head _) p _ _ _ _ fun _ u => .same u p _ _
  case start p =>
    refine s.serve_reaches (.head _) p _ _ _ _ fun _ u _ ht => u.inSetup_reaches (.head _) (.inl ht) _ ?_
    obtain ⟨hstart, hp⟩ := u.startPart_reaches (.head _) (.tail _ (.head _)) ht
    exact hstart.answer (.head _) (.inl hp) _ _
  case halt p =>
    refine s.serve_reaches (.head _) p _ _ _ _ fun _ u _ ht => ?_
    split
    · exact (u.haltPart_reaches (.head _)).answer (.head _) (.inl ht) _ _
    · exact (State.Reaches.refl u).answer (.head _) (.inl ht) _ _
  case portReset p =>
    exact s.serve_reaches (.head _) p _ _ _ _ fun _ u _ ht =>
      u.beginReset_reaches (.head _) (.tail _ (.head _)) (.inl ht)
  case portRightsSet p target rights =>
    refine s.serve_reaches (.head _) p _ _ _ _ fun x u _ ht => u.inSetup_reaches (.head _) (.inl ht) _ ?_
    refine ((State.Reaches.refl u).port (.head _) x.1 { u.port x.1 with rights := x.2 } (fun h => h) rfl).answer
      (.head _) ?_ _ _
    rw [State.port_setPort]
    split
    · rename_i he
      exact he ▸ .inl ht
    · exact .inl ht
  case definePage p page group readers writers =>
    exact s.serve_reaches (.head _) p _ _ _ _ fun x u _ ht =>
      u.definePage_reaches (.head _) (.tail _ (.head _)) (.inl ht) x
  case pageSet p page group readers writers =>
    exact s.serve_reaches (.head _) p _ _ _ _ fun x u _ ht =>
      u.onQuietPage_reaches (.head _) (.inl ht) x.page (fun u => u.map.redefine x) fun hd hs =>
        u.redefine_reaches (.head _) x hd hs
  case retirePage p page =>
    exact s.serve_reaches (.head _) p _ _ _ _ fun i u _ ht =>
      u.onQuietPage_reaches (.head _) (.inl ht) i (fun u => u.map.retire i) fun _ hs =>
        (State.Move.retire i hs).reaches (.tail _ (.head _))
  case pageStatus p page => exact s.serve_replies (.head _) p _ _ _ _ fun _ u => .same u p _ _
  case stageLimit p limit =>
    exact s.serve_reaches (.head _) p _ _ _ _ fun n u _ ht =>
      u.inSetup_reaches (.head _) (.inl ht) _ (((State.Move.limit n).reaches (.head _)).answer (.head _) (.inl ht) _ _)
  case read p pp offset length =>
    exact s.serve_reaches (.head _) p _ _ _ _ fun t u _ ht => u.acceptCall_reaches (.head _) (.inl ht) _ nofun
  case stageOpen p pp copy =>
    exact s.serve_reaches (.head _) p _ _ _ _ fun t u _ ht =>
      u.acceptCall_reaches (.head _) (.inl ht) _ fun _ _ _ => .tail _ (.head _)
  case stageWrite p pp offset length =>
    exact s.serve_reaches (.head _) p _ _ _ _ fun t u _ ht => u.acceptCall_reaches (.head _) (.inl ht) _ nofun
  case stageRead p pp offset length =>
    exact s.serve_reaches (.head _) p _ _ _ _ fun t u _ ht => u.acceptCall_reaches (.head _) (.inl ht) _ nofun
  case stageReady p pp =>
    exact s.serve_reaches (.head _) p _ _ _ _ fun t u _ ht => u.acceptCall_reaches (.head _) (.inl ht) _ nofun
  case stageDrop p pp =>
    exact s.serve_reaches (.head _) p _ _ _ _ fun t u _ ht => u.acceptCall_reaches (.head _) (.inl ht) _ nofun
  case slotSet p plan slot duration group notify value mask =>
    exact s.serve_replies (.head _) p _ _ _ _ fun x u => u.editPlan_replies p _ _
  case planLength p plan count => exact s.serve_replies (.head _) p _ _ _ _ fun x u => u.editPlan_replies p _ _
  case planRead p plan first number => exact s.serve_replies (.head _) p _ _ _ _ fun _ u => .same u p _ _
  case planSwitch p => exact s.serve_replies (.head _) p _ _ _ _ fun _ u => u.switchPlan_replies p
  case syncSet p mode gap =>
    exact s.serve_replies (.head _) p _ _ _ _ fun _ u => .inSetup (.answer p _ _ rfl rfl id)
  case groupStatus p group => exact s.serve_replies (.head _) p _ _ _ _ fun _ u => .same u p _ _
  case watchSet p counter group event mode =>
    exact s.serve_replies (.head _) p _ _ _ _ fun _ u => .answer p _ _ rfl rfl id
  case watchRead p => exact s.serve_replies (.head _) p _ _ _ _ fun _ u => .same u p _ _
  case hold p groups => exact s.serve_replies (.head _) p _ _ _ _ fun g u => u.takeHold_replies p g
  case release p =>
    exact s.serve_reaches (.head _) p _ _ _ _ fun _ u _ ht =>
      u.releaseHold_reaches (.head _) (.tail _ (.head _)) (.inl ht)
  case holdLimit p limit =>
    exact s.serve_replies (.head _) p _ _ _ _ fun _ u => .inSetup (.answer p _ _ rfl rfl id)
  case holdRead p => exact s.serve_replies (.head _) p _ _ _ _ fun _ u => .same u p _ _
  case viewSet p target pp presence page rights =>
    exact s.serve_replies (.head _) p _ _ _ _ fun _ u => .answer p _ _ rfl rfl id
  case viewGet p target pp => exact s.serve_replies (.head _) p _ _ _ _ fun _ u => .same u p _ _
  case faultTake p => exact s.serve_replies (.head _) p _ _ _ _ fun _ u => u.takeFault_replies p
  case stopSet p line filterTime freeze mode =>
    exact s.serve_replies (.head _) p _ _ _ _ fun x u => .inSetup (u.setStopLine_replies p x _)
  case stopClear p line => exact s.serve_replies (.head _) p _ _ _ _ fun l u => u.clearStop_replies p l
  case stopRead p => exact s.serve_replies (.head _) p _ _ _ _ fun _ u => .same u p _ _
  case trimSet p trim => exact s.serve_replies (.head _) p _ _ _ _ fun _ u => .answer p _ _ rfl rfl id
  case timeSet p year month day hour minute second weekday =>
    exact s.serve_replies (.head _) p _ _ _ _ fun _ u => .answer p _ _ rfl rfl id
  case alarmSet p enabled weekdays hour minute action =>
    exact s.serve_replies (.head _) p _ _ _ _ fun _ u => .answer p _ _ rfl rfl id
  case timeRead p => exact s.serve_replies (.head _) p _ _ _ _ fun _ u => .same u p _ _
  case noticePeek p => exact s.serve_replies (.head _) p _ _ _ _ fun _ u => u.peekNotice_replies p
  case noticePop p => exact s.serve_replies (.head _) p _ _ _ _ fun _ u => u.popNotice_replies p
  case portSelf p groups kinds attention =>
    exact s.serve_replies (.head _) p _ _ _ _ fun _ u => .answer p _ _ rfl rfl id
  case badRequest p identifier length => exact s.refuseHeader_reaches (.head _) p _ _
  case readCompletion p =>
    exact (s.settle_reaches (.head _) (.tail _ (.head _)) (.tail _ (.tail _ (.head _))) p).trans
      (State.completeRead_reaches (.head _) _ p)
  case stageReadCompletion p =>
    exact (s.settle_reaches (.head _) (.tail _ (.head _)) (.tail _ (.tail _ (.head _))) p).trans
      (State.completeStageRead_reaches (.head _) _ p)
  case stageWriteCompletion p data =>
    exact (s.settle_reaches (.head _) (.tail _ (.head _)) (.tail _ (.tail _ (.head _))) p).trans
      (State.dataBytes_reaches (.head _) (.tail _ (.tail _ (.head _))) _ p data)
  case selectRelease p =>
    exact (s.settle_reaches (.head _) (.tail _ (.head _)) (.tail _ (.tail _ (.head _))) p).trans
      (State.selectRises_reaches (.head _) _ p)
  case partReset => exact State.Move.reset.reaches (.head _)
  case resetRelease => exact (State.Reaches.refl s).others (.head _) rfl rfl rfl
  case endOfSlot =>
    exact s.unlessReset_reaches _ ((s.endSlot_reaches (.head _) (.tail _ (.head _)) _).others (.head _) rfl rfl rfl)
  case syncEdge =>
    refine s.unlessReset_reaches _ ?_
    split
    · exact (State.Reaches.refl s).others (.head _) rfl rfl rfl
    · exact s.takeEdge_reaches (.head _) (.tail _ (.head _))
  case gapExpiry =>
    exact s.unlessReset_reaches _ ((s.expireGap_reaches (.head _) (.tail _ (.head _)) _).others (.head _) rfl rfl rfl)
  case cyclePulseEnd => exact s.unlessReset_reaches _ ((State.Reaches.refl s).others (.head _) rfl rfl rfl)
  case stopInputChange l level =>
    have hdrive : s.Reaches [.quiet] (s.driveStop l level) :=
      (State.Move.others (s := s) (t := s.driveStop l level) rfl rfl (State.driveStop_law l level)).reaches (.head _)
    exact hdrive.trans (State.unlessReset_reaches _ _ (State.sampleStop_reaches (.head _) _ l level))
  case filterTimerExpiry l => exact s.unlessReset_reaches _ (s.expireFilter_reaches (.head _) l)
  case secondBoundary => exact s.unlessReset_reaches _ (s.boundary_reaches (.head _))
  case alarmSwitchRequest => exact s.unlessReset_reaches _ (s.answerAlarm_reaches (.head _))
  case selectPeriodBegin p => exact s.selectFalls_reaches (.head _) p
  case lastResponseByte p =>
    exact (s.settle_reaches (.head _) (.tail _ (.head _)) (.tail _ (.tail _ (.head _))) p).trans
      (State.responseSent_reaches (.head _) _ p)

/-- Every kind of move. -/
def MoveKind.every : List MoveKind := [.quiet, .publish, .define, .store, .reset]

theorem MoveKind.mem_every (k : MoveKind) : k ∈ MoveKind.every := by
  cases k <;> decide

theorem State.Reaches.mono {K K' : List MoveKind} (hK : ∀ k ∈ K, k ∈ K') {s t : State} (h : s.Reaches K t) :
    s.Reaches K' t :=
  h.keeps (s.Reaches K') (fun _ _ k hk hm hs => hs.trans (hm.reaches (hK k hk))) (.refl s)

/-- A step is a run of moves, so what every move keeps, every step keeps. -/
theorem step_keeps_of_move (P : State → Prop) (hmove : ∀ (s t : State) (k : MoveKind), s.Move k t → P s → P t)
    {s t : State} (h : step s = .next t) (hs : P s) : P t := by
  have hr : s.Reaches MoveKind.every t := by
    refine step_keeps (s.Reaches MoveKind.every) (fun u q hu => hu.others (by decide) rfl rfl rfl)
      (fun c u v hv hu => hu.trans ((exec_reaches hv).mono fun k _ => k.mem_every))
      (fun u hu => hu.trans (u.tick_reaches (by decide) (by decide) (by decide))) h (.refl s)
  exact hr.keeps P (fun u v k _ => hmove u v k) hs

end Sys2Proof.Machine
end

section
/-! SUPPORT. What every move keeps: the laws of pages, stagers, ports, memory and the stop unit. -/

namespace Sys2Proof.Machine

/-! ### Held in reset -/

@[simp] theorem State.holdInReset_port (s : State) (p : Port) :
    s.holdInReset.port p = { LinkPort.reset with selected := (s.port p).selected } :=
  getElem_forPorts (fun q : Port => ({ LinkPort.reset with selected := (s.port q).selected } : LinkPort)) p

@[simp] theorem State.holdInReset_page (s : State) (i : Page) : s.holdInReset.map.page i = PageRecord.unused := by
  show ExchangeMap.reset.pages[i] = _
  simp [ExchangeMap.reset]

theorem State.holdInReset_frames (s : State) : s.holdInReset.map.frames = s.map.frames := rfl

theorem State.holdInReset_stop (s : State) : s.holdInReset.stop.Law := by
  refine ⟨fun l => ?_, by simp [State.holdInReset, StopUnit.frozenUnion, StopLine.frozenPart, StopLine.reset]⟩
  match l with
  | 0 => exact ⟨nofun, fun _ => rfl, nofun⟩
  | 1 => exact ⟨nofun, fun _ => rfl, nofun⟩

theorem PageRecord.law_unused : PageRecord.unused.Law := ⟨fun _ => rfl, nofun⟩

/-! ### Page records -/

/-- The record of page i once p has opened a staging on it with frame f (R18). -/
def ExchangeMap.openedPage (m : ExchangeMap) (i : Page) (p : Port) (f : Frame) : PageRecord :=
  { m.page i with
    staging := some { frame := f, stager := p, state := .opened, cyclesLeft := m.stageLimit, serial := m.serial + 1 } }

theorem ExchangeMap.openStaging_page (m : ExchangeMap) (i j : Page) (p : Port) (copy : Bool) (f : Frame)
    (rest : List Frame) :
    (m.openStaging i p copy f rest).page j = if j = i then m.openedPage i p f else m.page j :=
  ExchangeMap.page_setPage m i j _

theorem ExchangeMap.retire_page (m : ExchangeMap) (i j : Page) :
    (m.retire i).page j = if j = i then PageRecord.unused else m.page j := by
  unfold ExchangeMap.retire
  rw [ExchangeMap.page_congr (ExchangeMap.releaseLive_pages _ _), ExchangeMap.page_setPage]

theorem ExchangeMap.dropRef_page (m : ExchangeMap) (f : Frame) (j : Page) : (m.dropRef f).page j = m.page j :=
  ExchangeMap.page_congr (m.dropRef_pages f) j

theorem ExchangeMap.addRef_page (m : ExchangeMap) (f : Frame) (j : Page) : (m.addRef f).page j = m.page j := rfl

theorem PageRecord.Law.unstaged {r : PageRecord} (h : r.Law) : PageRecord.Law { r with staging := none } := by
  obtain ⟨hunused, -⟩ := h
  refine ⟨fun hd => ?_, nofun⟩
  rw [hunused hd]
  rfl

/-- A move keeps the page records lawful (R1, R7). -/
theorem State.Move.pageLaw {s t : State} {k : MoveKind} (h : s.Move k t) (hs : s.PageLaw) : t.PageLaw := by
  rw [State.pageLaw_iff] at hs ⊢
  intro j
  cases h with
  | others hmap => exact hmap ▸ hs j
  | port | limit | write => exact hs j
  | beginRead p r l => exact hs j
  | endRead p r l =>
    rw [State.setPort_map, State.setMap_map, ExchangeMap.dropRef_page]
    exact hs j
  | page i r hlaw =>
    rw [State.setMap_map, ExchangeMap.page_setPage]
    split
    · exact hlaw (hs i)
    · exact hs j
  | remove i =>
    rw [State.setMap_map, ExchangeMap.removeStaging_page]
    split
    · exact (hs i).unstaged
    · exact hs j
  | publish i st c hst hd =>
    rw [State.setMap_map, ExchangeMap.publishPage_page _ _ _ _ _ hst]
    split
    · exact ⟨fun hu => absurd (hd.symm.trans hu) (by simp), nofun⟩
    · exact hs j
  | define x =>
    rw [State.setMap_map, ExchangeMap.page_setPage]
    split
    · exact ⟨nofun, nofun⟩
    · exact hs j
  | retire i =>
    rw [State.setMap_map, ExchangeMap.retire_page]
    split
    · exact PageRecord.law_unused
    · exact hs j
  | openStaging i p copy f rest hmay =>
    rw [State.setMap_map, ExchangeMap.openStaging_page]
    split
    · refine ⟨fun hu => absurd (hmay.1.symm.trans hu) (by simp), fun st hst => ?_⟩
      cases hst
      exact hmay.2
    · exact hs j
  | reset =>
    rw [State.holdInReset_page]
    exact PageRecord.law_unused

/-! ### Link ports -/

/-- A move keeps the link ports in legal states (R168, R172). -/
theorem State.Move.linkLaw {s t : State} {k : MoveKind} (h : s.Move k t) (hs : s.LinkLaw) : t.LinkLaw := by
  rw [State.linkLaw_iff] at hs ⊢
  intro q
  have hset : ∀ (u : State) (p : Port) (l : LinkPort), u.link = s.link → l.Law → ((u.setPort p l).port q).Law := by
    intro u p l hu hl
    rw [State.port_setPort]
    split
    · exact hl
    · exact State.port_congr hu q ▸ hs q
  cases h with
  | others _ hlink => exact State.port_congr hlink q ▸ hs q
  | port p l hlaw => exact hset s p l rfl (hlaw (hs p))
  | beginRead p r l _ hlaw => exact hset _ p l rfl (hlaw (hs p)).2
  | endRead p r l _ hlaw => exact hset _ p l rfl (hlaw (hs p))
  | page | remove | limit | publish | define | retire | openStaging | write => exact hs q
  | reset =>
    rw [State.holdInReset_port]
    simp [LinkPort.Law, LinkPort.reset]

/-! ### Counting -/

/-- A count after the value at one member has changed. -/
theorem countP_update {α : Type} [DecidableEq α] {l : List α} (hl : l.Nodup) {i : α} (hi : i ∈ l) {a b : α → Bool}
    (h : ∀ j, j ≠ i → b j = a j) : l.countP b + (a i).toNat = l.countP a + (b i).toNat := by
  induction l with
  | nil => cases hi
  | cons x l ih =>
    rw [List.nodup_cons] at hl
    rw [List.countP_cons, List.countP_cons]
    by_cases hx : x = i
    · subst hx
      have hrest : l.countP b = l.countP a :=
        List.countP_congr fun j hj => by rw [h j fun e => hl.1 (e ▸ hj)]
      rw [hrest]
      cases a x <;> cases b x <;> simp
    · have := ih hl.2 ((List.mem_cons.1 hi).resolve_left fun e => hx e.symm)
      rw [h x hx]
      omega

/-! ### Stagers -/

/-- The stagers of a page's staging, as a map of its record. -/
theorem PageRecord.stagedBy_isSome (r : PageRecord) (p : Port) :
    (r.stagedBy p).isSome = decide (r.staging.map Staging.stager = some p) := by
  unfold PageRecord.stagedBy
  cases r.staging with
  | none => simp
  | some st => by_cases h : st.stager = p <;> simp [h]

/-- Where every page's stager is what it was or gone, no port stages more pages. -/
theorem ExchangeMap.stagingCount_le {m m' : ExchangeMap} {p : Port}
    (h : ∀ i : Page, (m'.page i).staging.map Staging.stager = some p →
      (m.page i).staging.map Staging.stager = some p) : m'.stagingCount p ≤ m.stagingCount p := by
  refine List.countP_mono_left fun i _ => ?_
  rw [PageRecord.stagedBy_isSome, PageRecord.stagedBy_isSome, decide_eq_true_eq, decide_eq_true_eq]
  exact h i

/-- A page record replaced changes the number of p's stagings by its own. -/
theorem ExchangeMap.stagingCount_setPage (m : ExchangeMap) (i : Page) (r : PageRecord) (p : Port) :
    (m.setPage i r).stagingCount p + ((m.page i).stagedBy p).isSome.toNat =
      m.stagingCount p + (r.stagedBy p).isSome.toNat := by
  have h := countP_update nodup_pages (List.mem_finRange i) (a := fun j => ((m.page j).stagedBy p).isSome)
    (b := fun j => (((m.setPage i r).page j).stagedBy p).isSome) fun j hj => by
      rw [ExchangeMap.page_setPage, if_neg hj]
  rw [ExchangeMap.page_setPage, if_pos rfl] at h
  exact h

/-- A move keeps every port at eight stagings or fewer (R7, R18). -/
theorem State.Move.stagerLaw {s t : State} {k : MoveKind} (h : s.Move k t) (hs : s.StagerLaw) : t.StagerLaw := by
  intro q
  cases h with
  | others hmap => exact hmap ▸ hs q
  | port | limit | write => exact hs q
  | beginRead p r l => exact hs q
  | endRead p r l =>
    refine (ExchangeMap.stagingCount_le fun j hj => ?_).trans (hs q)
    rw [State.setPort_map, State.setMap_map, ExchangeMap.dropRef_page] at hj
    exact hj
  | page i r _ _ _ hstaging =>
    refine (ExchangeMap.stagingCount_le fun j hj => ?_).trans (hs q)
    have hst := congrArg (Option.map Prod.snd) hstaging
    rw [Option.map_map, Option.map_map] at hst
    rw [State.setMap_map, ExchangeMap.page_setPage] at hj
    split at hj
    · rename_i he
      rw [he]
      exact hst.symm.trans hj
    · exact hj
  | remove i =>
    refine (ExchangeMap.stagingCount_le fun j hj => ?_).trans (hs q)
    rw [State.setMap_map, ExchangeMap.removeStaging_page] at hj
    split at hj
    · cases hj
    · exact hj
  | publish i st c hst =>
    refine (ExchangeMap.stagingCount_le fun j hj => ?_).trans (hs q)
    rw [State.setMap_map, ExchangeMap.publishPage_page _ _ _ _ _ hst] at hj
    split at hj
    · cases hj
    · exact hj
  | define x =>
    refine (ExchangeMap.stagingCount_le fun j hj => ?_).trans (hs q)
    rw [State.setMap_map, ExchangeMap.page_setPage] at hj
    split at hj
    · cases hj
    · exact hj
  | retire i =>
    refine (ExchangeMap.stagingCount_le fun j hj => ?_).trans (hs q)
    rw [State.setMap_map, ExchangeMap.retire_page] at hj
    split at hj
    · cases hj
    · exact hj
  | openStaging i p copy f rest _ _ hcount =>
    have hset := s.map.stagingCount_setPage i (s.map.openedPage i p f) q
    rw [PageRecord.stagedBy_isSome (s.map.openedPage i p f)] at hset
    have hle : (s.map.openStaging i p copy f rest).stagingCount q ≤
        s.map.stagingCount q + (decide (some p = some q)).toNat := Nat.le.intro hset
    by_cases hq : p = q
    · subst hq
      rw [decide_eq_true rfl] at hle
      exact hle.trans hcount
    · rw [decide_eq_false fun h => hq (Option.some.inj h)] at hle
      exact hle.trans (hs q)
  | reset =>
    have hnone : s.holdInReset.map.stagingCount q = 0 := by
      refine List.countP_eq_zero.2 fun i _ => ?_
      rw [State.holdInReset_page]
      simp [PageRecord.stagedBy, PageRecord.unused]
    omega

/-! ### Memory and the stop unit -/

/-- A move keeps frame contents canonical (R3). -/
theorem State.Move.memoryLaw {s t : State} {k : MoveKind} (h : s.Move k t) (hs : s.MemoryLaw) : t.MemoryLaw := by
  have hkept : t.map.frames = s.map.frames → t.MemoryLaw := fun he => by
    show t.map.frames.wf = true
    rw [he]
    exact hs
  cases h with
  | others hmap => exact hkept (congrArg ExchangeMap.frames hmap)
  | port | limit | reset | page | define | beginRead => exact hkept rfl
  | endRead p r l => exact hkept (by rw [State.setPort_map, State.setMap_map, ExchangeMap.dropRef_eq])
  | remove i => exact hkept (s.map.removeStaging_store i).1
  | publish i st c => exact hkept (s.map.publishPage_store i st c).1
  | retire i => exact hkept ((s.map.setPage_store i _).trans (ExchangeMap.releaseLive_store _ _)).1
  | openStaging i p copy f rest => exact Memory.writeFrame_wf f 0 _ hs
  | write f offset data => exact Memory.writeFrame_wf f offset data hs

/-- A move keeps the stop unit lawful (R117, R127). -/
theorem State.Move.stopLaw {s t : State} {k : MoveKind} (h : s.Move k t) (hs : s.StopLaw) : t.StopLaw := by
  cases h with
  | others _ _ hstop => exact hstop hs
  | reset => exact s.holdInReset_stop
  | port | beginRead | endRead | page | remove | limit | publish | define | retire | openStaging | write => exact hs

/-- Settles O50: a step is a run of moves, and every move keeps each of the three laws. -/
theorem stepKeepsThePageAndLinkLaws : Obligations.StepKeepsThePageAndLinkLaws := fun _ _ h =>
  ⟨step_keeps_of_move State.PageLaw (fun _ _ _ hm => hm.pageLaw) h,
    step_keeps_of_move State.StagerLaw (fun _ _ _ hm => hm.stagerLaw) h,
    step_keeps_of_move State.LinkLaw (fun _ _ _ hm => hm.linkLaw) h⟩

/-- Settles O47: a step is a run of moves, and every move keeps both laws. -/
theorem stepKeepsTheMemoryAndStopLaws : Obligations.StepKeepsTheMemoryAndStopLaws := fun _ _ h =>
  ⟨step_keeps_of_move State.MemoryLaw (fun _ _ _ hm => hm.memoryLaw) h,
    step_keeps_of_move State.StopLaw (fun _ _ _ hm => hm.stopLaw) h⟩

end Sys2Proof.Machine
end

section
/-! SUPPORT. Every frame stands in one place with a true reference count: what the exchange map's operations do to the
places of a frame, and that every move keeps the frame law. -/

namespace Sys2Proof.Machine

/-! ### Places -/

/-- How often a frame is held by a page: as its live frame and as its staging frame (R3). -/
def PageRecord.held (r : PageRecord) (f : Frame) : Nat :=
  (decide (r.live = some f)).toNat + (decide (r.staging.map Staging.frame = some f)).toNat

/-- A page record replaced moves frames between the page and nowhere else. -/
theorem ExchangeMap.setPage_places (m : ExchangeMap) (i : Page) (r : PageRecord) (f : Frame) :
    (m.setPage i r).places f + (m.page i).held f = m.places f + r.held f := by
  have hcount : ∀ q : PageRecord → Bool,
      ((List.finRange 320).countP fun j => q ((m.setPage i r).page j)) + (q (m.page i)).toNat =
        ((List.finRange 320).countP fun j => q (m.page j)) + (q r).toNat := by
    intro q
    have h := countP_update nodup_pages (List.mem_finRange i) (a := fun j => q (m.page j))
      (b := fun j => q ((m.setPage i r).page j)) fun j hj => by rw [ExchangeMap.page_setPage, if_neg hj]
    rw [ExchangeMap.page_setPage, if_pos rfl] at h
    exact h
  have hlive := hcount fun x => decide (x.live = some f)
  have hstaging := hcount fun x => decide (x.staging.map Staging.frame = some f)
  have hfree : (m.setPage i r).freeList = m.freeList := rfl
  have hretiring : (m.setPage i r).retiring = m.retiring := rfl
  unfold ExchangeMap.places PageRecord.held
  rw [hfree, hretiring]
  omega

theorem ite_toNat (b : Bool) : (if b = true then 1 else 0) = b.toNat := by
  cases b <;> rfl

/-- A frame released stands in the free list or the retiring set once more (R4, R6). -/
theorem ExchangeMap.release_places (m : ExchangeMap) (f g : Frame) :
    (m.release f).places g = m.places g + (decide (f = g)).toNat := by
  unfold ExchangeMap.release
  split
  · unfold ExchangeMap.places ExchangeMap.page
    dsimp only
    rw [List.count_append, List.count_singleton, beq_eq_decide, ite_toNat]
    omega
  · unfold ExchangeMap.places ExchangeMap.page
    dsimp only
    rw [count_insertFrame, List.count_cons, beq_eq_decide, ite_toNat]
    omega

theorem ExchangeMap.releaseLive_places (m : ExchangeMap) (o : Option Frame) (g : Frame) :
    (m.releaseLive o).places g = m.places g + (decide (o = some g)).toNat := by
  cases o with
  | none => simp [ExchangeMap.releaseLive]
  | some f =>
    rw [ExchangeMap.releaseLive, ExchangeMap.release_places]
    simp

/-! ### The frame law of the exchange map -/

/-- The frame law, with the number of reads in flight on each frame given (R3, R5). -/
def ExchangeMap.FrameLaw (m : ExchangeMap) (readers : Frame → Nat) : Prop :=
  ∀ f : Frame, m.places f = 1 ∧ m.refs[f] = readers f ∧ (f ∈ m.freeList → m.refs[f] = 0) ∧
    (f ∈ m.retiring → 1 ≤ m.refs[f])

theorem State.frameLaw_iff (s : State) : s.FrameLaw ↔ s.map.FrameLaw s.readersOf := Iff.rfl

/-- Where the reference counts stay, the free list grows by frames without a reference, and the retiring set by frames
with one, the frame law needs only the places. -/
theorem ExchangeMap.FrameLaw.of_places {m m' : ExchangeMap} {readers : Frame → Nat} (h : m.FrameLaw readers)
    (hplaces : ∀ f, m'.places f = m.places f) (hrefs : m'.refs = m.refs)
    (hfree : ∀ f, f ∈ m'.freeList → f ∈ m.freeList ∨ m.refs[f] = 0)
    (hretiring : ∀ f, f ∈ m'.retiring → f ∈ m.retiring ∨ m.refs[f] ≠ 0) : m'.FrameLaw readers := by
  intro f
  obtain ⟨hp, hr, hf, ht⟩ := h f
  rw [hplaces, hrefs]
  exact ⟨hp, hr, fun hm => (hfree f hm).elim hf id,
    fun hm => (hretiring f hm).elim ht Nat.one_le_iff_ne_zero.2⟩

theorem ExchangeMap.mem_release_freeList (m : ExchangeMap) (f g : Frame) :
    g ∈ (m.release f).freeList ↔ g ∈ m.freeList ∨ (g = f ∧ m.refs[f] = 0) := by
  rw [ExchangeMap.release_freeList, List.mem_append]
  refine or_congr_right ?_
  split
  · rename_i h
    exact List.mem_singleton.trans (and_iff_left h).symm
  · rename_i h
    exact iff_of_false List.not_mem_nil fun hf => h hf.2

theorem ExchangeMap.mem_releaseLive_freeList (m : ExchangeMap) {o : Option Frame} {g : Frame}
    (h : g ∈ (m.releaseLive o).freeList) : g ∈ m.freeList ∨ m.refs[g] = 0 := by
  cases o with
  | none => exact Or.inl h
  | some f =>
    rcases (m.mem_release_freeList f g).1 h with h | ⟨rfl, h⟩
    · exact Or.inl h
    · exact Or.inr h

theorem ExchangeMap.mem_releaseLive_retiring (m : ExchangeMap) {o : Option Frame} {g : Frame}
    (h : g ∈ (m.releaseLive o).retiring) : g ∈ m.retiring ∨ m.refs[g] ≠ 0 := by
  cases o with
  | none => exact Or.inl h
  | some f =>
    rcases (m.mem_release_retiring f g).1 h with h | ⟨rfl, h⟩
    · exact Or.inl h
    · exact Or.inr h

/-- A page record replaced, and a frame that it held released, keep the frame law if the record, the frame released and
nothing else held what the record held before. -/
theorem ExchangeMap.FrameLaw.setPage_releaseLive {m : ExchangeMap} {readers : Frame → Nat} (h : m.FrameLaw readers)
    (i : Page) (r : PageRecord) (o : Option Frame)
    (hheld : ∀ f, r.held f + (decide (o = some f)).toNat = (m.page i).held f) :
    ((m.setPage i r).releaseLive o).FrameLaw readers := by
  refine h.of_places (fun f => ?_) (ExchangeMap.releaseLive_store (m.setPage i r) o).2.1
    (fun f hf => (m.setPage i r).mem_releaseLive_freeList hf) fun f hf => (m.setPage i r).mem_releaseLive_retiring hf
  have h1 := m.setPage_places i r f
  have h2 := (m.setPage i r).releaseLive_places o f
  have h3 := hheld f
  omega

theorem ExchangeMap.FrameLaw.removeStaging {m : ExchangeMap} {readers : Frame → Nat} (h : m.FrameLaw readers)
    (i : Page) : (m.removeStaging i).FrameLaw readers := by
  unfold ExchangeMap.removeStaging
  split
  · exact h
  · rename_i st hst
    exact h.setPage_releaseLive i { m.page i with staging := none } (some st.frame) fun f => by
      simp [PageRecord.held, hst]

theorem ExchangeMap.FrameLaw.publishPage {m : ExchangeMap} {readers : Frame → Nat} (h : m.FrameLaw readers) {i : Page}
    {st : Staging} (hst : (m.page i).staging = some st) (c : CycleCount) : (m.publishPage i st c).FrameLaw readers :=
  h.setPage_releaseLive i _ _ fun f => by
    simp [PageRecord.held, hst, Nat.add_comm]

theorem ExchangeMap.FrameLaw.retire {m : ExchangeMap} {readers : Frame → Nat} (h : m.FrameLaw readers) {i : Page}
    (hs : (m.page i).staging = none) : (m.retire i).FrameLaw readers :=
  h.setPage_releaseLive i _ _ fun f => by
    simp [PageRecord.held, hs, PageRecord.unused]

/-- A page record replaced by one that holds the same frames. -/
theorem ExchangeMap.FrameLaw.setPage {m : ExchangeMap} {readers : Frame → Nat} (h : m.FrameLaw readers) (i : Page)
    {r : PageRecord} (hheld : ∀ f, r.held f = (m.page i).held f) : (m.setPage i r).FrameLaw readers :=
  h.setPage_releaseLive i r none fun f => by simpa using hheld f

/-- A staging opened takes its frame from the head of the free list (R4, R18). -/
theorem ExchangeMap.openStaging_places (m : ExchangeMap) (i : Page) (p : Port) (copy : Bool) {f : Frame}
    {rest : List Frame} (hfree : m.freeList = f :: rest) (g : Frame) :
    (m.openStaging i p copy f rest).places g + (decide (f = g)).toNat =
      (m.setPage i (m.openedPage i p f)).places g := by
  have hpage : ∀ j, (m.openStaging i p copy f rest).page j = (m.setPage i (m.openedPage i p f)).page j :=
    fun j => ExchangeMap.page_congr rfl j
  have hopen : (m.openStaging i p copy f rest).freeList = rest := rfl
  have hset : (m.setPage i (m.openedPage i p f)).freeList = f :: rest := hfree
  have hretiring : (m.openStaging i p copy f rest).retiring = (m.setPage i (m.openedPage i p f)).retiring := rfl
  unfold ExchangeMap.places
  simp only [hpage]
  rw [hopen, hset, hretiring, List.count_cons, beq_eq_decide, ite_toNat]
  omega

/-- The head of the free list becomes the frame of a staging (R18). -/
theorem ExchangeMap.FrameLaw.openStaging {m : ExchangeMap} {readers : Frame → Nat} (h : m.FrameLaw readers) {i : Page}
    (hs : (m.page i).staging = none) (p : Port) (copy : Bool) {f : Frame} {rest : List Frame}
    (hfree : m.freeList = f :: rest) : (m.openStaging i p copy f rest).FrameLaw readers := by
  refine h.of_places (fun g => ?_) rfl (fun g hg => Or.inl ?_) fun g hg => Or.inl hg
  · have hset := m.setPage_places i (m.openedPage i p f) g
    have hopen := m.openStaging_places i p copy hfree g
    have hheld : (m.openedPage i p f).held g = (m.page i).held g + (decide (f = g)).toNat := by
      rw [PageRecord.held, PageRecord.held, hs]
      show _ + (decide (some f = some g)).toNat = _ + (decide (none = some g)).toNat + _
      simp only [Option.some.injEq, reduceCtorEq, decide_false, Bool.toNat_false, Nat.add_zero]
      rfl
    omega
  · rw [hfree]
    exact List.mem_cons_of_mem _ hg

/-- A frame in a role stands neither in the free list nor in the retiring set (R3). -/
theorem ExchangeMap.FrameLaw.not_free_of_held {m : ExchangeMap} {readers : Frame → Nat} (h : m.FrameLaw readers)
    {i : Page} {f : Frame} (hheld : 0 < (m.page i).held f) : f ∉ m.freeList ∧ f ∉ m.retiring := by
  have h1 := (h f).1
  have hpos : 0 < (List.finRange 320).countP (fun j => decide ((m.page j).live = some f)) +
      (List.finRange 320).countP (fun j => decide ((m.page j).staging.map Staging.frame = some f)) := by
    unfold PageRecord.held at hheld
    by_cases hl : (m.page i).live = some f
    · exact Nat.add_pos_left (List.countP_pos_iff.2 ⟨i, List.mem_finRange i, decide_eq_true hl⟩) _
    · refine Nat.add_pos_right _ (List.countP_pos_iff.2 ⟨i, List.mem_finRange i, ?_⟩)
      by_contra hne
      rw [Bool.not_eq_true] at hne
      rw [hne, decide_eq_false hl] at hheld
      exact absurd hheld (by decide)
  unfold ExchangeMap.places at h1
  exact ⟨fun hm => by have := List.count_pos_iff.2 hm; omega, fun hm => by have := List.count_pos_iff.2 hm; omega⟩

theorem ExchangeMap.addRef_refs (m : ExchangeMap) (f g : Frame) :
    (m.addRef f).refs[g] = m.refs[g] + (decide (f = g)).toNat := by
  by_cases h : f = g
  · subst h
    simp [ExchangeMap.addRef]
  · have h' : f.val ≠ g.val := fun e => h (Fin.ext e)
    simp [ExchangeMap.addRef, h, h']

/-- One more read on a frame in a role (R5). -/
theorem ExchangeMap.FrameLaw.addRef {m : ExchangeMap} {readers readers' : Frame → Nat} (h : m.FrameLaw readers)
    {i : Page} {f : Frame} (hheld : 0 < (m.page i).held f)
    (hreaders : ∀ g, readers' g = readers g + (decide (f = g)).toNat) : (m.addRef f).FrameLaw readers' := by
  obtain ⟨hfree, -⟩ := h.not_free_of_held hheld
  intro g
  obtain ⟨hp, hr, hf, ht⟩ := h g
  rw [ExchangeMap.addRef_refs, hreaders, hr]
  refine ⟨hp, rfl, fun hg => ?_, fun hg => ?_⟩
  · have hne : f ≠ g := fun e => hfree (e ▸ hg)
    rw [← hr, hf hg]
    simp [hne]
  · have := ht hg
    omega

theorem ExchangeMap.dropRef_refs (m : ExchangeMap) (f g : Frame) :
    (m.dropRef f).refs[g] = m.refs[g] - (decide (f = g)).toNat := by
  rw [ExchangeMap.dropRef_eq]
  by_cases h : f = g
  · subst h
    simp
  · have h' : f.val ≠ g.val := fun e => h (Fin.ext e)
    simp [h, h']

/-- A frame in the retiring set that is read once more only leaves it for the free list (R6). -/
theorem ExchangeMap.dropRef_last {m : ExchangeMap} {f : Frame} (h : m.refs[f] ≤ 1 ∧ f ∈ m.retiring) :
    (m.dropRef f).freeList = m.freeList ++ [f] ∧ (m.dropRef f).retiring = m.retiring.erase f := by
  rw [ExchangeMap.dropRef_eq]
  exact ⟨if_pos h, if_pos h⟩

/-- Every other frame stays where it is. -/
theorem ExchangeMap.dropRef_rest {m : ExchangeMap} {f : Frame} (h : ¬ (m.refs[f] ≤ 1 ∧ f ∈ m.retiring)) :
    (m.dropRef f).freeList = m.freeList ∧ (m.dropRef f).retiring = m.retiring := by
  rw [ExchangeMap.dropRef_eq]
  exact ⟨if_neg h, if_neg h⟩

theorem ExchangeMap.dropRef_places (m : ExchangeMap) (f g : Frame) : (m.dropRef f).places g = m.places g := by
  unfold ExchangeMap.places
  simp only [ExchangeMap.dropRef_page]
  by_cases h : m.refs[f] ≤ 1 ∧ f ∈ m.retiring
  · obtain ⟨hfree, hretiring⟩ := ExchangeMap.dropRef_last h
    rw [hfree, hretiring, List.count_append, List.count_singleton]
    by_cases hg : f = g
    · subst hg
      have := List.count_pos_iff.2 h.2
      rw [List.count_erase_self, beq_self_eq_true, if_pos rfl]
      omega
    · rw [List.count_erase_of_ne fun e => hg e.symm]
      simp [hg]
  · obtain ⟨hfree, hretiring⟩ := ExchangeMap.dropRef_rest h
    rw [hfree, hretiring]

/-- One read on a frame less, with the retiring-set step (R5, R6). -/
theorem ExchangeMap.FrameLaw.dropRef {m : ExchangeMap} {readers readers' : Frame → Nat} (h : m.FrameLaw readers)
    {f : Frame} (hreaders : ∀ g, readers' g + (decide (f = g)).toNat = readers g) :
    (m.dropRef f).FrameLaw readers' := by
  intro g
  obtain ⟨hp, hr, hf, ht⟩ := h g
  have hg := hreaders g
  have hrefs := m.dropRef_refs f g
  refine ⟨(m.dropRef_places f g).trans hp, by omega, ?_⟩
  by_cases hgone : m.refs[f] ≤ 1 ∧ f ∈ m.retiring
  · obtain ⟨hfree, hretiring⟩ := ExchangeMap.dropRef_last hgone
    rw [hfree, hretiring, hrefs]
    refine ⟨fun hm => ?_, fun hm => ?_⟩
    · rcases List.mem_append.1 hm with hm | hm
      · rw [hf hm, Nat.zero_sub]
      · have he : f = g := (List.mem_singleton.1 hm).symm
        subst he
        rw [decide_eq_true rfl, Bool.toNat_true]
        omega
    · have hne : f ≠ g := by
        rintro rfl
        have h1 := List.count_pos_iff.2 hm
        rw [List.count_erase_self] at h1
        unfold ExchangeMap.places at hp
        omega
      rw [decide_eq_false hne]
      exact ht (List.mem_of_mem_erase hm)
  · obtain ⟨hfree, hretiring⟩ := ExchangeMap.dropRef_rest hgone
    rw [hfree, hretiring, hrefs]
    refine ⟨fun hm => by rw [hf hm, Nat.zero_sub], fun hm => ?_⟩
    have := ht hm
    by_cases he : f = g
    · subst he
      rw [decide_eq_true rfl, Bool.toNat_true]
      by_contra hlt
      exact hgone ⟨by omega, hm⟩
    · rw [decide_eq_false he]
      exact this

/-! ### Reads in flight -/

/-- A port replaced changes the number of reads in flight by its own. -/
theorem State.readersOf_setPort (s : State) (p : Port) (l : LinkPort) (f : Frame) :
    (s.setPort p l).readersOf f + (decide ((s.port p).reading.map ReadInFlight.frame = some f)).toNat =
      s.readersOf f + (decide (l.reading.map ReadInFlight.frame = some f)).toNat := by
  have h := countP_update (List.nodup_finRange 4) (List.mem_finRange p)
    (a := fun q => decide ((s.port q).reading.map ReadInFlight.frame = some f))
    (b := fun q => decide (((s.setPort p l).port q).reading.map ReadInFlight.frame = some f))
    fun q hq => by rw [State.port_setPort_ne s l hq]
  rw [State.port_setPort_same] at h
  exact h

theorem State.readersOf_congr {s t : State} (h : ∀ p : Port, (t.port p).reading = (s.port p).reading) :
    t.readersOf = s.readersOf := by
  funext f
  unfold State.readersOf
  simp only [h]

theorem State.readersOf_setMap (s : State) (m : ExchangeMap) (f : Frame) :
    (s.setMap m).readersOf f = s.readersOf f := rfl

theorem State.holdInReset_frameLaw (s : State) : s.holdInReset.FrameLaw := by
  intro f
  have hreaders : s.holdInReset.readersOf f = 0 :=
    List.countP_eq_zero.2 fun p _ => by simp [LinkPort.reset]
  have hrefs : s.holdInReset.map.refs[f] = 0 := by
    show (Vector.replicate 512 0)[f] = 0
    simp
  have hfree : s.holdInReset.map.freeList = List.finRange 512 := by simp only [State.holdInReset, ExchangeMap.reset]
  have hretiring : s.holdInReset.map.retiring = [] := rfl
  refine ⟨?_, by rw [hrefs, hreaders], fun _ => hrefs, fun h => by rw [hretiring] at h; cases h⟩
  unfold ExchangeMap.places
  rw [hfree, hretiring, List.count_eq_one_of_mem (List.nodup_finRange 512) (List.mem_finRange f)]
  simp [PageRecord.unused]

/-- A move keeps the frame law (R3, R5); the law of an UNUSED page says that a page newly defined held no frame, and the
law of the link that a port whose read begins had none in flight. -/
theorem State.Move.frameLaw {s t : State} {k : MoveKind} (h : s.Move k t) (hpage : s.PageLaw) (hlink : s.LinkLaw)
    (hs : s.FrameLaw) : t.FrameLaw := by
  rw [State.frameLaw_iff] at hs ⊢
  cases h with
  | others hmap hl =>
    rw [hmap, State.readersOf_congr (s := s) (t := t) fun p => by rw [State.port_congr hl]]
    exact hs
  | port p l _ hreading =>
    rw [State.readersOf_congr (s := s) fun q => ?_]
    · exact hs
    · rw [State.port_setPort]
      split
      · rename_i he
        rw [hreading, he]
      · rfl
  | beginRead p r l hrole hlaw hreading =>
    have hheld : 0 < (s.map.page r.page).held r.frame := by
      unfold PageRecord.held
      rcases hrole with hr | hr <;> simp [hr]
    refine ExchangeMap.FrameLaw.addRef hs hheld fun g => ?_
    have hcount := (s.setMap (s.map.addRef r.frame)).readersOf_setPort p l g
    rw [State.port_setMap, State.readersOf_setMap, (hlaw (hlink p)).1, hreading] at hcount
    simpa using hcount
  | endRead p r l hr _ hreading =>
    refine ExchangeMap.FrameLaw.dropRef hs fun g => ?_
    have hcount := (s.setMap (s.map.dropRef r.frame)).readersOf_setPort p l g
    rw [State.port_setMap, State.readersOf_setMap, hr, hreading] at hcount
    simpa using hcount
  | page i r _ hlive _ hstaging =>
    refine ExchangeMap.FrameLaw.setPage hs i fun f => ?_
    have hframe := congrArg (Option.map Prod.fst) hstaging
    rw [Option.map_map, Option.map_map] at hframe
    have hframe' : r.staging.map Staging.frame = (s.map.page i).staging.map Staging.frame := hframe
    rw [PageRecord.held, PageRecord.held, hlive, hframe']
  | remove i => exact ExchangeMap.FrameLaw.removeStaging hs i
  | limit | write => exact hs
  | publish i st c hst => exact ExchangeMap.FrameLaw.publishPage hs hst c
  | define x hd =>
    refine ExchangeMap.FrameLaw.setPage hs x.page fun f => ?_
    rw [(hpage x.page).1 hd]
    rfl
  | retire i hst => exact ExchangeMap.FrameLaw.retire hs hst
  | openStaging i p copy f rest _ hst _ hfree => exact ExchangeMap.FrameLaw.openStaging hs hst p copy hfree
  | reset => exact s.holdInReset_frameLaw

/-- Settles O51: every move keeps the frame law together with the two laws that it rests on. -/
theorem stepKeepsTheFrameLaw : Obligations.StepKeepsTheFrameLaw := fun _ _ h hpage hlink hframe =>
  (step_keeps_of_move (fun s => s.PageLaw ∧ s.LinkLaw ∧ s.FrameLaw)
    (fun _ _ _ hm ⟨hp, hl, hf⟩ => ⟨hm.pageLaw hp, hm.linkLaw hl, hm.frameLaw hp hl hf⟩) h ⟨hpage, hlink, hframe⟩).2.2

end Sys2Proof.Machine
end

section
/-! SUPPORT. What the frame law and the stager law bound: the pool of frames (R4 to R6, R18). -/

namespace Sys2Proof.Machine

/-- A frame in no role and not retiring is free (R3). -/
theorem ExchangeMap.FrameLaw.mem_place {m : ExchangeMap} {readers : Frame → Nat} (h : m.FrameLaw readers) (f : Frame) :
    f ∈ m.freeList ∨ f ∈ m.retiring ∨ (∃ i : Page, (m.page i).live = some f) ∨
      ∃ i : Page, (m.page i).staging.map Staging.frame = some f := by
  have hp := (h f).1
  unfold ExchangeMap.places at hp
  by_cases h1 : f ∈ m.freeList
  · exact Or.inl h1
  by_cases h2 : f ∈ m.retiring
  · exact Or.inr (Or.inl h2)
  rw [List.count_eq_zero.2 h1, List.count_eq_zero.2 h2] at hp
  by_cases h3 : 0 < (List.finRange 320).countP fun i => decide ((m.page i).live = some f)
  · obtain ⟨i, -, hi⟩ := List.countP_pos_iff.1 h3
    exact Or.inr (Or.inr (Or.inl ⟨i, of_decide_eq_true hi⟩))
  · have h4 : 0 < (List.finRange 320).countP fun i => decide ((m.page i).staging.map Staging.frame = some f) := by
      omega
    obtain ⟨i, -, hi⟩ := List.countP_pos_iff.1 h4
    exact Or.inr (Or.inr (Or.inr ⟨i, of_decide_eq_true hi⟩))

/-- The frames that reads in flight hold (R5). -/
def State.readFrames (s : State) : List Frame :=
  (List.finRange 4).filterMap fun p => (s.port p).reading.map ReadInFlight.frame

/-- A retiring frame is held by a read in flight (R5, R6). -/
theorem State.FrameLaw.retiring_subset {s : State} (h : s.FrameLaw) : s.map.retiring ⊆ s.readFrames := by
  intro f hf
  obtain ⟨-, hrefs, -, hret⟩ := h f
  have hpos : 0 < s.readersOf f := hrefs ▸ hret hf
  obtain ⟨p, hp, hread⟩ := List.countP_pos_iff.1 hpos
  exact List.mem_filterMap.2 ⟨p, hp, of_decide_eq_true hread⟩

/-- No list of the law holds a frame twice (R3). -/
theorem ExchangeMap.FrameLaw.nodup {m : ExchangeMap} {readers : Frame → Nat} (h : m.FrameLaw readers) :
    m.freeList.Nodup ∧ m.retiring.Nodup := by
  constructor <;>
  · refine List.nodup_iff_count_le_one.2 fun f => ?_
    have hp := (h f).1
    unfold ExchangeMap.places at hp
    omega

/-- The frames of stagings, in page order. -/
def ExchangeMap.stagingFrames (m : ExchangeMap) : List Frame :=
  (List.finRange 320).filterMap fun i => (m.page i).staging.map Staging.frame

/-- Every staging is one of some port's (R7). -/
theorem ExchangeMap.stagingFrames_length_le (m : ExchangeMap) :
    m.stagingFrames.length ≤ m.stagingCount 0 + m.stagingCount 1 + m.stagingCount 2 + m.stagingCount 3 := by
  unfold ExchangeMap.stagingFrames ExchangeMap.stagingCount
  generalize List.finRange 320 = l
  induction l with
  | nil => simp
  | cons i l ih =>
    simp only [List.countP_cons, PageRecord.stagedBy_isSome]
    simp only [PageRecord.stagedBy_isSome] at ih
    cases hs : (m.page i).staging with
    | none =>
      rw [List.filterMap_cons_none (by simp [hs])]
      simpa using ih
    | some st =>
      rw [List.filterMap_cons_some (by simp [hs]; rfl), List.length_cons]
      obtain hp | hp | hp | hp : st.stager = 0 ∨ st.stager = 1 ∨ st.stager = 2 ∨ st.stager = 3 := by
        generalize st.stager = p
        decide +revert
      all_goals
        simp only [Option.map_some, hp, Option.some.injEq, Fin.isValue, Fin.reduceEq, decide_true, decide_false,
          Bool.false_eq_true, if_true, if_false]
        omega

/-- Settles O55: retiring frames are among those of the four reads in flight; every other frame of the 512 is free, live
on one of 320 pages, or the frame of one of 32 stagings. -/
theorem framePoolBounds : Obligations.FramePoolBounds := by
  intro s hframe hstager
  obtain ⟨hfree, hretiring⟩ := ExchangeMap.FrameLaw.nodup hframe
  have hret : s.map.retiring.length ≤ 4 :=
    (hretiring.length_le_of_subset hframe.retiring_subset).trans
      ((List.length_filterMap_le _ _).trans_eq (List.length_finRange))
  refine ⟨hret, hretiring, fun f => ?_, hfree, ?_⟩
  · rw [(hframe f).2.1]
    exact List.countP_le_length.trans_eq List.length_finRange
  · have hcover : List.finRange 512 ⊆ s.map.freeList ++ s.map.retiring ++
        (List.finRange 320).filterMap (fun i => (s.map.page i).live) ++ s.map.stagingFrames := by
      intro f _
      simp only [List.mem_append, List.mem_filterMap, List.mem_finRange, true_and, ExchangeMap.stagingFrames, or_assoc]
      exact ExchangeMap.FrameLaw.mem_place hframe f
    have hlen := (List.nodup_finRange 512).length_le_of_subset hcover
    have hlive := List.length_filterMap_le (fun i => (s.map.page i).live) (List.finRange 320)
    have hst := s.map.stagingFrames_length_le
    have h0 := hstager 0
    have h1 := hstager 1
    have h2 := hstager 2
    have h3 := hstager 3
    simp only [List.length_append, List.length_finRange] at hlen hlive
    omega

end Sys2Proof.Machine
end

section
/-! SUPPORT. What stores: which commands and events change frame contents and the serial counter, and how (R8, R18,
R21). -/

namespace Sys2Proof

/-- Beside the events that move a transaction on, STAGE_OPEN alone may store. -/
theorem Instr.stageOpen_of_store_mem {c : Instr} (h : Machine.MoveKind.store ∈ c.moves) (hc : c.movesOn = none) :
    ∃ p portPage copy, c = .stageOpen p portPage copy := by
  have hquiet : Machine.MoveKind.store ∉ [Machine.MoveKind.quiet] := by decide
  have hpublish : Machine.MoveKind.store ∉ [Machine.MoveKind.quiet, .publish] := by decide
  have hdefine : Machine.MoveKind.store ∉ [Machine.MoveKind.quiet, .define] := by decide
  have hreset : Machine.MoveKind.store ∉ [Machine.MoveKind.reset] := by decide
  cases c
  case stageOpen p portPage copy => exact ⟨p, portPage, copy, rfl⟩
  case readCompletion | stageReadCompletion | stageWriteCompletion | lastResponseByte | selectRelease => cases hc
  case start | release | portReset | endOfSlot | syncEdge | gapExpiry => exact absurd h hpublish
  case definePage | retirePage => exact absurd h hdefine
  case partReset => exact absurd h hreset
  all_goals exact absurd h hquiet

theorem Instr.partReset_of_reset_mem {c : Instr} (h : Machine.MoveKind.reset ∈ c.moves) : c = .partReset := by
  have hquiet : Machine.MoveKind.reset ∉ [Machine.MoveKind.quiet] := by decide
  have hpublish : Machine.MoveKind.reset ∉ [Machine.MoveKind.quiet, .publish] := by decide
  have hdefine : Machine.MoveKind.reset ∉ [Machine.MoveKind.quiet, .define] := by decide
  have hstore : Machine.MoveKind.reset ∉ [Machine.MoveKind.quiet, .store] := by decide
  have hlink : Machine.MoveKind.reset ∉ [Machine.MoveKind.quiet, .publish, .store] := by decide
  cases c
  case partReset => rfl
  case stageOpen => exact absurd h hstore
  case readCompletion | stageReadCompletion | stageWriteCompletion | lastResponseByte | selectRelease =>
    exact absurd h hlink
  case start | release | portReset | endOfSlot | syncEdge | gapExpiry => exact absurd h hpublish
  case definePage | retirePage => exact absurd h hdefine
  all_goals exact absurd h hquiet

end Sys2Proof

namespace Sys2Proof.Machine

/-! ### Moves that store nothing -/

/-- From s to t the frame contents and the serial counter stay. -/
abbrev State.SameStored (s t : State) : Prop := t.map.frames = s.map.frames ∧ t.map.serial = s.map.serial

theorem State.SameStored.trans {s t u : State} (h : s.SameStored t) (h' : t.SameStored u) : s.SameStored u :=
  ⟨h'.1.trans h.1, h'.2.trans h.2⟩

theorem ExchangeMap.SameStore.stored {s t : State} (h : s.map.SameStore t.map) : s.SameStored t := ⟨h.1, h.2.2.1⟩

theorem State.Move.sameStored {s t : State} {k : MoveKind} (h : s.Move k t) (hk : k ∈ [.quiet, .publish, .define]) :
    s.SameStored t := by
  cases h with
  | others hmap => exact ⟨by rw [hmap], by rw [hmap]⟩
  | port | limit | page | define | beginRead => exact ⟨rfl, rfl⟩
  | endRead p r l =>
    refine ⟨?_, ?_⟩ <;> rw [State.setPort_map, State.setMap_map, ExchangeMap.dropRef_eq]
  | remove i => exact ExchangeMap.SameStore.stored (s.map.removeStaging_store i)
  | publish i st c => exact ExchangeMap.SameStore.stored (s.map.publishPage_store i st c)
  | retire i =>
    exact ExchangeMap.SameStore.stored ((s.map.setPage_store i _).trans (ExchangeMap.releaseLive_store _ _))
  | openStaging | write | reset => simp at hk

theorem State.Reaches.sameStored {K : List MoveKind} {s t : State} (h : s.Reaches K t)
    (hK : ∀ k ∈ K, k ∈ [MoveKind.quiet, .publish, .define]) : s.SameStored t :=
  h.keeps s.SameStored (fun _ _ k hk hm hs => hs.trans (hm.sameStored (hK k hk))) ⟨rfl, rfl⟩

/-! ### A staging opened -/

/-- From s to t port p has opened a staging of page i: on the frame at the head of the free list, which is filled, and
with the next serial (R8, R18). -/
def State.OpensTo (s t : State) (p : Port) (i : Page) : Prop :=
  (s.map.page i).staging = none ∧ ∃ f rest content, s.map.freeList = f :: rest ∧
    t.map.frames = s.map.frames.writeFrame f 0 content ∧ t.map.serial = s.map.serial + 1 ∧
    (t.map.page i).staging = (s.map.openedPage i p f).staging

theorem State.OpensTo.opened {s t : State} {p : Port} {i : Page} (h : s.OpensTo t p i) : s.Opened t p i := by
  obtain ⟨hnone, f, rest, content, -, -, hserial, hst⟩ := h
  exact ⟨hserial, hnone, _, hst, hserial.symm, rfl⟩

/-- A staging opened stays so while the frame contents, the serial counter and the stagings stay. -/
theorem State.OpensTo.congr {s t s' t' : State} {p : Port} {i : Page} (h : s.OpensTo t p i) (hs : s'.map = s.map)
    (ht : t.SameStored t') (hst : (t'.map.page i).staging = (t.map.page i).staging) : s'.OpensTo t' p i := by
  obtain ⟨hnone, f, rest, content, hfree, hframes, hserial, hopen⟩ := h
  rw [State.OpensTo, hs]
  exact ⟨hnone, f, rest, content, hfree, ht.1.trans hframes, ht.2.trans hserial, hst.trans hopen⟩

/-- The page part of a data request stores nothing, or opens a staging as a STAGE_OPEN, which is then answered. -/
theorem State.takePagePart_stores (s : State) (p : Port) (x : DataCall) (i : Page) (ht : (s.port p).Taken) :
    s.SameStored (s.takePagePart p x i) ∨
      ((∃ pp copy, x = .stageOpen pp copy) ∧ s.OpensTo (s.takePagePart p x i) p i ∧
        ∃ r, ((s.takePagePart p x i).port p).tx = .response r) := by
  by_cases hx : ∃ pp copy, x = .stageOpen pp copy
  · have h := s.takePagePart_cases p x i
    generalize s.takePagePart p x i = t at h
    cases h with
    | opens pp copy f rest _ _ hs _ hfree =>
      refine Or.inr ⟨hx, ⟨hs, f, rest, _, hfree, rfl, rfl, ?_⟩, _, congrArg LinkPort.tx (State.port_setPort_same _ p _)⟩
      rw [State.answer_map, State.setMap_map, ExchangeMap.openStaging_page, if_pos rfl]
    | refused c =>
      exact Or.inl ((s.refuseData_reaches (K := [.quiet]) (.head _) ht x c).sameStored (by simp))
    | drops => exact Or.inl (ExchangeMap.SameStore.stored (s.map.removeStaging_store i))
    | answered | refusedWrite | reads | writes | marks => exact Or.inl ⟨rfl, rfl⟩
  · exact Or.inl ((s.takePagePart_reaches (K := [.quiet]) (.head _) (fun pp copy h => absurd ⟨pp, copy, h⟩ hx) i
      ht).sameStored (by simp))

/-- Taking what is outstanding of p's request stores nothing, or opens a staging whose page part was outstanding. -/
theorem State.settle_stores (s : State) (p : Port) :
    s.SameStored (s.settle p) ∨ ∃ pp copy i, s.Awaits p (.stageOpen pp copy) i ∧ s.OpensTo (s.settle p) p i ∧
      ∃ r, ((s.settle p).port p).tx = .response r := by
  unfold State.settle
  split
  · rename_i left h
    exact Or.inl ((s.takeResetClaims_reaches (K := [.quiet, .publish]) (.head _) (.tail _ (.head _)) (Or.inr ⟨_, h⟩)
      left left).sameStored (by simp))
  · rename_i x i h
    rcases s.takePagePart_stores p x i (Or.inr ⟨_, h⟩) with hs | ⟨⟨pp, copy, rfl⟩, hopen, hr⟩
    · exact Or.inl hs
    · exact Or.inr ⟨pp, copy, i, h, hopen, hr⟩
  · exact Or.inl ⟨rfl, rfl⟩

theorem State.settleSome_stores (s : State) (p : Port) :
    s.SameStored (s.settleSome p) ∨
      ∃ pp copy i, s.Awaits p (.stageOpen pp copy) i ∧ s.OpensTo (s.settleSome p) p i := by
  unfold State.settleSome
  split
  · rename_i left h
    exact Or.inl ((s.takeResetClaims_reaches (K := [.quiet, .publish]) (.head _) (.tail _ (.head _)) (Or.inr ⟨_, h⟩)
      left _).sameStored (by simp))
  · rename_i x i h
    split
    · rcases s.takePagePart_stores p x i (Or.inr ⟨_, h⟩) with hs | ⟨⟨pp, copy, rfl⟩, hopen, -⟩
      · exact Or.inl hs
      · exact Or.inr ⟨pp, copy, i, h, hopen.congr rfl ⟨rfl, rfl⟩ rfl⟩
    · exact Or.inl ⟨rfl, rfl⟩
  · exact Or.inl ⟨rfl, rfl⟩

/-! ### Events that move a transaction on -/

theorem ExchangeMap.joinReaders_staging (m : ExchangeMap) (p : Port) (r : ReadInFlight) (j : Page) :
    ((m.joinReaders p r).page j).staging = (m.page j).staging := by
  unfold ExchangeMap.joinReaders
  split
  · rw [ExchangeMap.page_setPage]
    split
    · rename_i h
      rw [h]
    · rfl
  · rfl

theorem ExchangeMap.dropRef_staging (m : ExchangeMap) (f : Frame) (j : Page) :
    ((m.dropRef f).page j).staging = (m.page j).staging := by rw [ExchangeMap.dropRef_page]

/-- What an event that moves p's transaction on does behind the claims that it settles: it stores nothing and leaves the
stagings, or data bytes are written to the staging of the write buffer (R15, R17, R21, R173). -/
theorem exec_movesOn {c : Instr} {p : Port} (hc : c.movesOn = some p) {s t : State} (h : exec c s = .next t) :
    ((s.settle p).SameStored t ∧ ∀ j : Page, (t.map.page j).staging = ((s.settle p).map.page j).staging) ∨
      ∃ (w : WriteBuffer) (st : Staging) (bytes : List Byte) (n : Nat), ((s.settle p).port p).tx = .writeData n none ∧
        ((s.settle p).map.page w.page).staging = some st ∧ t.map.serial = (s.settle p).map.serial ∧
        t.map.frames = (s.settle p).map.frames.writeFrame st.frame w.offset bytes := by
  cases c <;> cases hc <;> cases h
  case readCompletion =>
    refine Or.inl ⟨(State.completeRead_reaches (K := [.quiet]) (.head _) _ p).sameStored (by simp), fun j => ?_⟩
    unfold State.completeRead
    split
    · split
      · rw [State.setPort_map, State.setMap_map, ExchangeMap.joinReaders_staging, ExchangeMap.dropRef_staging]
      · rfl
    · rfl
  case stageReadCompletion =>
    refine Or.inl ⟨(State.completeStageRead_reaches (K := [.quiet]) (.head _) _ p).sameStored (by simp), fun j => ?_⟩
    unfold State.completeStageRead
    split
    · split
      · rfl
      · rw [State.setPort_map, State.setMap_map, ExchangeMap.dropRef_staging]
    · rfl
  case stageWriteCompletion data =>
    rcases (s.settle p).dataBytes_cases p data with hd | ⟨l, hd, -⟩ | ⟨w, st, bytes, n, htx, hs, -, hd⟩ <;> rw [hd]
    · exact Or.inl ⟨⟨rfl, rfl⟩, fun _ => rfl⟩
    · exact Or.inl ⟨⟨rfl, rfl⟩, fun _ => rfl⟩
    · exact Or.inr ⟨w, st, bytes, n, htx, hs, rfl, rfl⟩
  case selectRelease =>
    refine Or.inl ⟨(State.selectRises_reaches (K := [.quiet]) (.head _) _ p).sameStored (by simp), fun j => ?_⟩
    unfold State.selectRises State.endTransaction
    split
    · split
      · rfl
      · rw [State.setPort_map, State.setMap_map, ExchangeMap.dropRef_staging]
    · rfl
  case lastResponseByte =>
    refine Or.inl ⟨(State.responseSent_reaches (K := [.quiet]) (.head _) _ p).sameStored (by simp), fun j => ?_⟩
    unfold State.responseSent
    split <;> rfl

/-- Where claims taken leave p in WRITE_DATA, they have not touched the exchange map: they were a STAGE_WRITE's, or
none. -/
theorem State.settle_writeData {s : State} {p : Port} {n : Nat} {o : Option Status}
    (h : ((s.settle p).port p).tx = .writeData n o) : (s.settle p).map = s.map := by
  unfold State.settle at h ⊢
  split
  · rename_i left htx
    simp only [htx] at h
    rw [State.port, State.takeResetClaims_link] at h
    simp at h
  · rename_i x i htx
    simp only [htx] at h
    have hx := s.takePagePart_cases p x i
    generalize s.takePagePart p x i = t at h hx
    cases hx with
    | refused c =>
      rw [s.refuseData_only p x c]
      rfl
    | answered | refusedWrite | writes => rfl
    | reads r number b =>
      rw [State.beginRead_eq, State.port_setPort_same] at h
      cases h
    | opens | marks | drops =>
      rw [State.answer_eq, State.port_setPort_same] at h
      cases h
  · rfl

/-- The bytes that STAGE_OPEN's range check passes (R170). -/
theorem stageOpenParams_some {portPage copy : Byte} {x : PortPage × Bool}
    (h : stageOpenParams portPage copy = some x) : portPage = byteOf x.1.val ∧ copy = yesNo x.2 := by
  simp only [stageOpenParams, Option.bind_eq_bind, Option.bind_eq_some_iff] at h
  obtain ⟨pp, hpp, b, hb, hx⟩ := h
  cases hx
  have hval := finOf?_eq_some hpp
  refine ⟨?_, ?_⟩
  · apply BitVec.eq_of_toNat_eq
    rw [hval, byteOf_toNat (by omega)]
  · unfold boolOf? at hb
    split at hb
    · cases hb
      assumption
    · split at hb
      · cases hb
        assumption
      · cases hb

/-- STAGE_OPEN stores nothing at its command, or opens its staging there (R18). -/
theorem execStageOpen_stores {p : Port} {portPage copy : Byte} {s t : State}
    (h : exec (.stageOpen p portPage copy) s = .next t) :
    s.SameStored t ∨ ∃ (pp : PortPage) (copy' : Bool) (i : Page),
      portPage = byteOf pp.val ∧ copy = yesNo copy' ∧ s.OpensTo t p i := by
  cases h
  rcases s.serve_cases p (Instr.stageOpen p portPage copy).record none (stageOpenParams portPage copy)
      (fun x s => s.acceptCall p (.stageOpen x.1 x.2)) with hk | ⟨c, hk⟩ | ⟨⟨pp, b⟩, hparams, hk⟩ <;> rw [hk]
  · exact Or.inl ⟨rfl, rfl⟩
  · exact Or.inl ⟨rfl, rfl⟩
  · obtain ⟨hpp, hb⟩ := stageOpenParams_some hparams
    have hr : (s.receive p (Instr.stageOpen p portPage copy).record).map = s.map := rfl
    generalize s.receive p (Instr.stageOpen p portPage copy).record = u at hr
    unfold State.acceptCall
    split
    · refine Or.inl ?_
      rw [u.refuseData_only]
      exact ⟨by rw [State.setPort_map, State.setNotice_map, State.setView_map, hr],
        by rw [State.setPort_map, State.setNotice_map, State.setView_map, hr]⟩
    · rename_i i _
      dsimp only
      split
      · have ht : ((u.setPort p { u.port p with tx := .accepted (.pagePart (.stageOpen pp b) i) }).bump.port p).Taken :=
          Or.inr ⟨.pagePart (.stageOpen pp b) i, by rw [State.bump, State.port_setChoices, State.port_setPort_same]⟩
        rcases State.takePagePart_stores _ p (.stageOpen pp b) i ht with hs | ⟨-, hopen, -⟩
        · exact Or.inl ⟨hs.1.trans (congrArg ExchangeMap.frames hr), hs.2.trans (congrArg ExchangeMap.serial hr)⟩
        · exact Or.inr ⟨pp, b, i, hpp, hb, hopen.congr hr.symm ⟨rfl, rfl⟩ rfl⟩
      · exact Or.inl ⟨congrArg ExchangeMap.frames hr, congrArg ExchangeMap.serial hr⟩

/-- What a command can store, said once: nothing; part reset alone resets the serial counter; a STAGE_OPEN opens a
staging; the bytes of a STAGE_WRITE go to a staging's frame. -/
theorem exec_stores {c : Instr} {s t : State} (h : exec c s = .next t) :
    s.SameStored t ∨ (c = .partReset ∧ t = s.holdInReset) ∨
      (∃ p pp copy i, (c = .stageOpen p (byteOf pp.val) (yesNo copy) ∨
          (c.movesOn = some p ∧ s.Awaits p (.stageOpen pp copy) i)) ∧ s.OpensTo t p i) ∨
      ∃ (i : Page) (st : Staging) (offset : Nat) (bytes : List Byte), (s.map.page i).staging = some st ∧
        t.map.serial = s.map.serial ∧ t.map.frames = s.map.frames.writeFrame st.frame offset bytes := by
  by_cases hstore : .store ∈ c.moves
  · cases hc : c.movesOn with
    | some p =>
      have hmoved := exec_movesOn hc h
      rcases s.settle_stores p with hsame | ⟨pp, copy, i, haw, hopen, r, hr⟩
      · rcases hmoved with ⟨hkept, -⟩ | ⟨w, st, bytes, n, htx, hst, hserial, hframes⟩
        · exact Or.inl (hsame.trans hkept)
        · rw [State.settle_writeData htx] at hst hserial hframes
          exact Or.inr (Or.inr (Or.inr ⟨w.page, st, w.offset, bytes, hst, hserial, hframes⟩))
      · rcases hmoved with ⟨hkept, hstagings⟩ | ⟨w, st, bytes, n, htx, -⟩
        · exact Or.inr (Or.inr (Or.inl ⟨p, pp, copy, i, Or.inr ⟨rfl, haw⟩,
            hopen.congr rfl hkept (hstagings i)⟩))
        · rw [hr] at htx
          cases htx
    | none =>
      obtain ⟨p, portPage, copy, rfl⟩ := Instr.stageOpen_of_store_mem hstore hc
      rcases execStageOpen_stores h with hsame | ⟨pp, b, i, rfl, rfl, hopen⟩
      · exact Or.inl hsame
      · exact Or.inr (Or.inr (Or.inl ⟨p, pp, b, i, Or.inl rfl, hopen⟩))
  · by_cases hreset : .reset ∈ c.moves
    · obtain rfl := Instr.partReset_of_reset_mem hreset
      cases h
      exact Or.inr (Or.inl ⟨rfl, rfl⟩)
    · refine Or.inl ((exec_reaches h).sameStored fun k hk => ?_)
      cases k
      case store => exact absurd hk hstore
      case reset => exact absurd hk hreset
      all_goals decide

/-- What an event of a tick can store: nothing, or an outstanding STAGE_OPEN opens its staging. -/
theorem State.takeEvent_stores (s : State) (e : TickEvent) :
    s.SameStored (s.takeEvent e) ∨ ∃ p pp copy i, e = .claims p ∧ s.Awaits p (.stageOpen pp copy) i ∧
      s.OpensTo (s.takeEvent e) p i := by
  by_cases he : ∃ p, e = .claims p
  · obtain ⟨p, rfl⟩ := he
    rcases s.settleSome_stores p with hs | ⟨pp, copy, i, haw, hopen⟩
    · exact Or.inl hs
    · exact Or.inr ⟨p, pp, copy, i, rfl, haw, hopen⟩
  · exact Or.inl ((s.takeEvent_reaches (K := [.quiet, .publish]) (.head _) (.tail _ (.head _)) e
      fun p hp => absurd ⟨p, hp⟩ he).sameStored (by simp))

/-- Settles O59: a STAGE_OPEN that succeeds is all that moves the serial counter, but for part reset. -/
theorem serialCountsSuccessfulOpens : Obligations.SerialCountsSuccessfulOpens := by
  refine ⟨fun c s t h => ?_, fun e s => ?_⟩
  · rcases exec_stores h with hsame | ⟨rfl, rfl⟩ | ⟨p, pp, copy, i, hc, hopen⟩ | ⟨i, st, offset, bytes, -, hserial, -⟩
    · exact Or.inl hsame.2
    · exact Or.inr (Or.inl ⟨rfl, rfl⟩)
    · exact Or.inr (Or.inr ⟨p, pp, copy, i, hc, hopen.opened⟩)
    · exact Or.inl hserial
  · rcases s.takeEvent_stores e with hsame | ⟨p, pp, copy, i, he, haw, hopen⟩
    · exact Or.inl hsame.2
    · exact Or.inr ⟨p, pp, copy, i, he, haw, hopen.opened⟩

/-! ### Frames that are not written -/

/-- A live or retiring frame is neither free nor the frame of a staging (R3). -/
theorem State.FrameLaw.not_writable {s : State} (h : s.FrameLaw) {f : Frame}
    (hf : (∃ i, (s.map.page i).live = some f) ∨ f ∈ s.map.retiring) :
    f ∉ s.map.freeList ∧ ∀ (i : Page) (st : Staging), (s.map.page i).staging = some st → st.frame ≠ f := by
  have hp := (h f).1
  unfold ExchangeMap.places at hp
  have hone : 1 ≤ s.map.retiring.count f +
      (List.finRange 320).countP (fun i => decide ((s.map.page i).live = some f)) := by
    rcases hf with ⟨i, hi⟩ | hm
    · have : 0 < (List.finRange 320).countP (fun j => decide ((s.map.page j).live = some f)) :=
        List.countP_pos_iff.2 ⟨i, List.mem_finRange i, decide_eq_true hi⟩
      omega
    · have := List.count_pos_iff.2 hm
      omega
  refine ⟨fun hm => ?_, fun i st hst hfr => ?_⟩
  · have := List.count_pos_iff.2 hm
    omega
  · have : 0 < (List.finRange 320).countP (fun j => decide ((s.map.page j).staging.map Staging.frame = some f)) :=
      List.countP_pos_iff.2 ⟨i, List.mem_finRange i, by simp [hst, hfr]⟩
    omega

/-- Settles O57: what is stored goes to a free frame or to a staging's frame, and a live or retiring frame is neither.
-/
theorem liveAndRetiringFramesAreNotWritten : Obligations.LiveAndRetiringFramesAreNotWritten := by
  intro s f o hframe hmem hf ho
  obtain ⟨hfree, hstaging⟩ := hframe.not_writable hf
  have hopened : ∀ (t : State) (p : Port) (i : Page), s.OpensTo t p i →
      t.map.frames.read (64 * f.val + o) = s.map.frames.read (64 * f.val + o) := by
    rintro t p i ⟨-, g, rest, content, hlist, hframes, -⟩
    have hne : g ≠ f := by
      rintro rfl
      exact hfree (hlist ▸ List.mem_cons_self ..)
    rw [hframes]
    exact Memory.read_writeFrame_other hne ho hmem
  refine ⟨fun c t h => ?_, fun e => ?_⟩
  · rcases exec_stores h with hsame | ⟨rfl, rfl⟩ | ⟨p, pp, copy, i, -, hopen⟩ | ⟨i, st, offset, bytes, hst, -, hframes⟩
    · rw [hsame.1]
    · rw [State.holdInReset_frames]
    · exact hopened t p i hopen
    · rw [hframes]
      exact Memory.read_writeFrame_other (hstaging i st hst) ho hmem
  · rcases s.takeEvent_stores e with hsame | ⟨p, pp, copy, i, -, -, hopen⟩
    · rw [hsame.1]
    · exact hopened _ p i hopen

end Sys2Proof.Machine
end

section
/-! SUPPORT. The course of one page through a step: it keeps its version, or it is published once, with the staging that
it had; beside that only its staging changes (R2, R63). -/

namespace Sys2Proof.Machine

/-! ### Stagings along a step -/

/-- Staging st of page i, found behind a step from s, is the one that the page had in s: READY only if it was, or if its
stager's STAGE_READY was outstanding. -/
def State.HadStaging (s : State) (i : Page) (st : Staging) : Prop :=
  ∃ st₀, (s.map.page i).staging = some st₀ ∧ st.holder = st₀.holder ∧
    (st.state = .ready → st₀.state = .ready ∨ ∃ pp, s.Awaits st₀.stager (.stageReady pp) i)

/-- Staging st of page i in u has been opened since s by a STAGE_OPEN that was outstanding. It cannot be marked: its
stager has nothing outstanding any more. -/
def State.StagedSince (s u : State) (i : Page) (st : Staging) : Prop :=
  st.state = .opened ∧ (∃ pp copy, s.Awaits st.stager (.stageOpen pp copy) i) ∧ ∀ x j, ¬ u.Awaits st.stager x j

/-- No port of v has a page part outstanding that it had not in u. -/
abbrev State.AwaitsNoMore (u v : State) : Prop := ∀ p x j, v.Awaits p x j → u.Awaits p x j

theorem State.StagedSince.congr {s u v : State} {i : Page} {st st' : Staging} (h : s.StagedSince u i st)
    (hv : u.AwaitsNoMore v) (hstate : st'.state = st.state) (hstager : st'.stager = st.stager) :
    s.StagedSince v i st' := by
  obtain ⟨ho, hopen, hno⟩ := h
  rw [State.StagedSince, hstate, hstager]
  exact ⟨ho, hopen, fun x j hw => hno x j (hv _ x j hw)⟩

/-! ### The course of a page -/

/-- What has become of page i between s and u: but for its staging it is as it was, or it has been published with the
staging that it had. -/
inductive State.PageCourse (s : State) (i : Page) (u : State) : Prop where
  | kept (hpage : u.map.page i = { s.map.page i with staging := (u.map.page i).staging })
      (hstaging : ∀ st, (u.map.page i).staging = some st → s.HadStaging i st ∨ s.StagedSince u i st)
  | published (st₀ : Staging) (c : CycleCount) (hc : c = u.sched.cycleCount ∨ c = s.sched.cycleCount)
      (hs : (s.map.page i).staging = some st₀)
      (hready : st₀.state = .ready ∨ ∃ pp, s.Awaits st₀.stager (.stageReady pp) i)
      (hpage : u.map.page i = { (s.map.page i).published c with staging := (u.map.page i).staging })
      (hstaging : ∀ st, (u.map.page i).staging = some st → s.StagedSince u i st)

/-- From s to u page i has gone its course, and no request has had its page part put off anew. -/
def State.Along (s : State) (i : Page) (u : State) : Prop := s.AwaitsNoMore u ∧ s.PageCourse i u

theorem State.Along.refl (s : State) (i : Page) : s.Along i s :=
  ⟨fun _ _ _ h => h, .kept rfl fun st hst => Or.inl ⟨st, hst, rfl, Or.inl⟩⟩

/-- A course goes on where nothing but the page's staging changes, and that as rules allow: kept, and marked READY by an
outstanding STAGE_READY alone, or opened by an outstanding STAGE_OPEN. The cycle count moves on at most once. -/
theorem State.Along.restaged {s u v : State} {i : Page} (h : s.Along i u) (hv : u.AwaitsNoMore v)
    (hc : v.sched.cycleCount = u.sched.cycleCount ∨ u.sched.cycleCount = s.sched.cycleCount)
    (hpage : v.map.page i = { u.map.page i with staging := (v.map.page i).staging })
    (hstaging : ∀ st', (v.map.page i).staging = some st' → u.HadStaging i st' ∨ u.StagedSince v i st') :
    s.Along i v := by
  obtain ⟨hawaits, hcourse⟩ := h
  have hopened : ∀ st', u.StagedSince v i st' → s.StagedSince v i st' := fun st' ⟨ho, ⟨pp, copy, hw⟩, hno⟩ =>
    ⟨ho, ⟨pp, copy, hawaits _ _ _ hw⟩, hno⟩
  have hsince : ∀ st st', st'.holder = st.holder →
      (st'.state = .ready → st.state = .ready ∨ ∃ pp, u.Awaits st.stager (.stageReady pp) i) →
      s.StagedSince u i st → s.StagedSince v i st' := by
    intro st st' hholder hready hst
    obtain ⟨ho, -, hno⟩ := id hst
    refine hst.congr hv ?_ (congrArg Prod.snd hholder)
    rw [ho]
    cases hx : st'.state with
    | opened => rfl
    | ready =>
      rcases hready hx with h | ⟨pp, h⟩
      · exact absurd (ho.symm.trans h) (by simp)
      · exact absurd h (hno _ _)
  refine ⟨fun p x j hw => hawaits p x j (hv p x j hw), ?_⟩
  cases hcourse with
  | kept hkept hold =>
    refine .kept (by rw [hpage, hkept]) fun st' hst' => ?_
    rcases hstaging st' hst' with ⟨st, hst, hholder, hready⟩ | hnew
    · rcases hold st hst with ⟨st₀, hst₀, hholder₀, hready₀⟩ | hst
      · refine Or.inl ⟨st₀, hst₀, hholder.trans hholder₀, fun hr => ?_⟩
        rcases hready hr with hr | ⟨pp, hw⟩
        · exact hready₀ hr
        · have hstager : st.stager = st₀.stager := congrArg Prod.snd hholder₀
          exact Or.inr ⟨pp, hstager ▸ hawaits _ _ _ hw⟩
      · exact Or.inr (hsince st st' hholder hready hst)
    · exact Or.inr (hopened st' hnew)
  | published st₀ c hcount hst₀ hready₀ hpub hnew =>
    refine .published st₀ c ?_ hst₀ hready₀ (by rw [hpage, hpub]) fun st' hst' => ?_
    · rcases hcount with rfl | rfl
      · rcases hc with hc | hc
        · exact Or.inl hc.symm
        · exact Or.inr hc
      · exact Or.inr rfl
    · rcases hstaging st' hst' with ⟨st, hst, hholder, hready⟩ | h
      · exact hsince st st' hholder hready (hnew st hst)
      · exact hopened st' h

/-- A course goes on where the page stays as it is. -/
theorem State.Along.same {s u v : State} {i : Page} (h : s.Along i u) (hv : u.AwaitsNoMore v)
    (hc : v.sched.cycleCount = u.sched.cycleCount ∨ u.sched.cycleCount = s.sched.cycleCount)
    (hpage : v.map.page i = u.map.page i) : s.Along i v :=
  h.restaged hv hc (by rw [hpage]) fun st hst => Or.inl ⟨st, hpage ▸ hst, rfl, Or.inl⟩

/-- A course goes on in the blocks beside the exchange map, the schedule and the link. -/
theorem State.Along.others {s u v : State} {i : Page} (h : s.Along i u) (hmap : v.map = u.map)
    (hsched : v.sched = u.sched) (hlink : v.link = u.link) : s.Along i v :=
  h.same (fun p x j hw => (congrArg LinkPort.tx (State.port_congr hlink p)).symm.trans hw) (Or.inl (by rw [hsched]))
    (by rw [hmap])

/-- A port without a page part put off, whatever else becomes of it. -/
theorem State.awaitsNoMore_setPort (u : State) (p : Port) (l : LinkPort)
    (hl : ∀ x j, l.tx ≠ .accepted (.pagePart x j)) : u.AwaitsNoMore (u.setPort p l) := by
  intro q x j hw
  unfold State.Awaits at hw
  rw [State.port_setPort] at hw
  split at hw
  · exact absurd hw (hl x j)
  · exact hw

theorem State.Along.port {s u : State} {i : Page} (h : s.Along i u) (p : Port) (l : LinkPort)
    (hl : ∀ x j, l.tx ≠ .accepted (.pagePart x j)) : s.Along i (u.setPort p l) :=
  h.same (u.awaitsNoMore_setPort p l hl) (Or.inl rfl) rfl

theorem State.Along.answer {s u : State} {i : Page} (h : s.Along i u) (p : Port) (c : Status) (b : List Byte) :
    s.Along i (u.answer p c b) := h.port p _ nofun

/-- A course goes on where the exchange map keeps the page. -/
theorem State.Along.setMap {s u : State} {i : Page} (h : s.Along i u) {m : ExchangeMap}
    (hm : m.page i = u.map.page i) : s.Along i (u.setMap m) :=
  h.same (fun _ _ _ hw => hw) (Or.inl rfl) hm

theorem State.Along.setSched {s u : State} {i : Page} (h : s.Along i u) (c : Schedule)
    (hc : c.cycleCount = u.sched.cycleCount ∨ u.sched.cycleCount = s.sched.cycleCount) : s.Along i (u.setSched c) :=
  h.same (fun _ _ _ hw => hw) hc rfl

/-- A course goes on where the page's staging is removed. -/
theorem State.Along.unstaged {s u : State} {i : Page} (h : s.Along i u) {m : ExchangeMap}
    (hm : m.page i = { u.map.page i with staging := none }) : s.Along i (u.setMap m) :=
  h.restaged (v := u.setMap m) (fun _ _ _ hw => hw) (Or.inl rfl) (by rw [State.setMap_map, hm]) fun st hst => by
    rw [State.setMap_map, hm] at hst
    cases hst

theorem State.Along.removeStaging {s u : State} {i : Page} (h : s.Along i u) (j : Page) :
    s.Along i (u.setMap (u.map.removeStaging j)) := by
  have hp := u.map.removeStaging_page j i
  split at hp
  · rename_i hij
    subst hij
    exact h.unstaged hp
  · exact h.setMap hp

/-- The swap publishes the page only with a READY staging, which is the one that it had (R63). -/
theorem State.Along.swap {s u : State} {i : Page} (h : s.Along i u) (g : Group) :
    s.Along i (u.setMap (u.map.swap g u.sched.cycleCount).map) := by
  have hp := u.map.swap_page_ready g u.sched.cycleCount i
  generalize (u.map.swap g u.sched.cycleCount).map = m at hp ⊢
  split at hp
  · rename_i hready
    obtain ⟨st, hst, hstate⟩ : ∃ st, (u.map.page i).staging = some st ∧ st.state = .ready := by
      unfold ExchangeMap.ready at hready
      split at hready
      · rename_i st hst
        simp only [Bool.and_eq_true, decide_eq_true_eq] at hready
        exact ⟨st, hst, hready.2⟩
      · cases hready
    obtain ⟨hawaits, hcourse⟩ := h
    have hsince : ¬ s.StagedSince u i st := fun ⟨ho, _⟩ => absurd (ho.symm.trans hstate) (by simp)
    refine ⟨hawaits, ?_⟩
    cases hcourse with
    | kept hkept hold =>
      rcases hold st hst with ⟨st₀, hst₀, hholder, hr⟩ | hnew
      · refine .published st₀ u.sched.cycleCount (Or.inl rfl) hst₀ (hr hstate) ?_ fun st' hst' => ?_
        · have hframe : st.frame = st₀.frame := congrArg Prod.fst hholder
          rw [State.setMap_map, hp, hkept, hst]
          simp [PageRecord.published, hst₀, hframe]
        · rw [State.setMap_map, hp] at hst'
          cases hst'
      · exact absurd hnew hsince
    | published _ _ _ _ _ _ hnew => exact absurd (hnew st hst) hsince
  · exact h.setMap hp

/-! ### Claims -/

theorem State.Along.takeClaim {s u : State} {i : Page} (h : s.Along i u) (c : Claim) : s.Along i (u.takeClaim c).1 := by
  have ho := u.takeClaim_only c
  have hm : s.Along i (u.setMap (u.takeClaim c).1.map) := by
    rcases u.takeClaim_map c with hm | ⟨g, -, -, hm⟩ <;> rw [hm]
    · exact h
    · exact h.swap g
  exact hm.others rfl ho.sched ho.link

theorem State.Along.takeClaims {s u : State} {i : Page} (h : s.Along i u) (cs : List Claim) :
    s.Along i (u.takeClaims cs).1 := u.takeClaims_keeps (s.Along i) (fun _ c hu => hu.takeClaim c) cs h

/-- The countdown keeps the page's staging with fewer cycles left, or lets it expire (R9, R25). -/
theorem State.Along.countStagings {s u : State} {i : Page} (h : s.Along i u) :
    s.Along i (u.setMap u.map.countStagings.1) := by
  have hp := u.map.countStagings_page i
  generalize u.map.countStagings.1 = m at hp ⊢
  unfold PageRecord.counted at hp
  split at hp
  · exact h.setMap hp
  · rename_i st hst
    split at hp
    · split at hp
      · exact h.unstaged hp
      · refine h.restaged (v := u.setMap _) (fun _ _ _ hw => hw) (Or.inl rfl) (by rw [State.setMap_map, hp])
          fun st' hst' => Or.inl ⟨st, hst, ?_⟩
        rw [State.setMap_map, hp] at hst'
        cases hst'
        exact ⟨rfl, Or.inl⟩
    · exact h.setMap hp

/-- A staging marked READY by the outstanding STAGE_READY of its stager, which is answered (R22). -/
theorem State.Along.marked {s u : State} {i j : Page} (h : s.Along i u) {p : Port} {pp : PortPage} {st : Staging}
    (hw : u.Awaits p (.stageReady pp) j) (hst : (u.map.page j).staging = some st) (hp : st.stager = p) :
    s.Along i ((u.setMap (u.map.setPage j { u.map.page j with staging := some { st with state := .ready } })).answer p
      .ok []) := by
  have hset := u.map.page_setPage j i { u.map.page j with staging := some { st with state := .ready } }
  have hmore : u.AwaitsNoMore ((u.setMap (u.map.setPage j
      { u.map.page j with staging := some { st with state := .ready } })).answer p .ok []) :=
    State.awaitsNoMore_setPort (u.setMap _) p _ nofun
  split at hset
  · rename_i hij
    subst hij
    refine h.restaged hmore (Or.inl rfl) ?_ fun st' hst' => Or.inl ⟨st, hst, ?_⟩
    · rw [State.answer_map, State.setMap_map, hset]
    · rw [State.answer_map, State.setMap_map, hset] at hst'
      cases hst'
      exact ⟨rfl, fun _ => Or.inr ⟨pp, hp ▸ hw⟩⟩
  · exact h.same hmore (Or.inl rfl) hset

theorem State.Along.markReady {s u : State} {i : Page} (h : s.Along i u) (p : Port) : s.Along i (u.markReady p) := by
  rcases u.markReady_eq p with he | ⟨pp, j, st, hw, -, hst, hp, -, he⟩ <;> rw [he]
  · exact h
  · exact h.marked hw hst hp

theorem State.Along.takeCycleClaims {s u : State} {i : Page} (h : s.Along i u) (cs : List CycleClaim) :
    s.Along i (u.takeCycleClaims cs).1 := by
  refine u.takeCycleClaims_keeps (s.Along i) (fun v c hv => ?_) cs h
  cases c with
  | block c => exact hv.takeClaim c
  | countStagings => exact hv.countStagings
  | markReady p => exact hv.markReady p

/-- A cycle start moves the cycle count on, so no other may have gone before it. -/
theorem State.Along.startCycle {s u : State} {i : Page} (h : s.Along i u) (pick : Nat → Nat) (earlier : List Message)
    (hc : (u.sched.beginCycle u.stop.anyActive).cycleCount = u.sched.cycleCount ∨
      u.sched.cycleCount = s.sched.cycleCount) : s.Along i (u.startCycle pick earlier) := by
  exact ((h.setSched _ hc).takeCycleClaims _).others rfl rfl rfl

theorem State.Along.removeStagingsOf {s u : State} {i : Page} (h : s.Along i u) (p : Port) :
    s.Along i (u.setMap (u.map.removeStagingsOf p)) := by
  have hp := u.map.removeStagingsOf_page p i
  rw [PageRecord.withoutStagingOf_eq] at hp
  split at hp
  · exact h.unstaged hp
  · exact h.setMap hp

theorem State.Along.resetBlocks {s u : State} {i : Page} (h : s.Along i u) (k : Nat) (p : Port) (which : ResetClaims) :
    s.Along i (u.resetBlocks k p which).1 := by
  unfold State.resetBlocks
  dsimp only
  refine State.Along.takeClaims ?_ _
  split
  · exact (h.takeClaims _).removeStagingsOf p
  · exact h.takeClaims _

/-- Claims of a port reset; its port keeps no page part outstanding (R183). -/
theorem State.Along.takeResetClaims {s u : State} {i : Page} (h : s.Along i u) (p : Port) (left now : ResetClaims) :
    s.Along i (u.takeResetClaims p left now) := by
  have hblocks := h.resetBlocks (u.draw 1) p now
  have hreset : s.Along i (u.resetPort u.draw p now).bump := by
    unfold State.resetPort
    dsimp only
    split <;> exact hblocks.others rfl rfl rfl
  unfold State.takeResetClaims
  dsimp only
  split
  · exact hreset.answer p _ _
  · exact hreset.port p _ nofun

/-- The page part of a data request that was outstanding (R104). -/
theorem State.Along.takePagePart {s u : State} {i : Page} (h : s.Along i u) {p : Port} {x : DataCall} {j : Page}
    (hw : u.Awaits p x j) : s.Along i (u.takePagePart p x j) := by
  have hx := u.takePagePart_cases p x j
  generalize u.takePagePart p x j = t at hx
  cases hx with
  | refused c =>
    have hrecord : s.Along i (u.recordFault p c x) := by
      have hf := u.recordFault_only p c x
      exact h.others (by rw [hf]; rfl) (by rw [hf]; rfl) (by rw [hf]; rfl)
    unfold State.refuseData
    split
    · exact hrecord.port p _ nofun
    · exact hrecord.answer p _ _
  | answered c b => exact h.answer p c b
  | refusedWrite n c => exact h.port p _ nofun
  | reads r number b =>
    rw [State.beginRead_eq]
    refine State.Along.port (u := u.setMap _) (h.setMap (u.map.addRef_page r.frame i)) p _ ?_
    nofun
  | writes n w => exact h.port p _ nofun
  | marks pp st hx hst hp ho =>
    subst hx
    exact h.marked hw hst hp
  | drops => exact (h.removeStaging j).answer p _ _
  | opens pp copy f rest hx hmay hs hcount hfree =>
    subst hx
    have hset := u.map.openStaging_page j i p copy f rest
    have hmore := State.awaitsNoMore_setPort (u.setMap (u.map.openStaging j p copy f rest)) p
      { u.port p with tx := .response { status := .ok, body := bytesOf16 j.val ++ bytes16 (u.map.serial + 1) } } nofun
    split at hset
    · rename_i hij
      subst hij
      refine h.restaged (v := State.setPort _ p _) hmore (Or.inl rfl) ?_ fun st' hst' => Or.inr ?_
      · rw [State.setPort_map, State.setMap_map, hset]
        rfl
      · rw [State.setPort_map, State.setMap_map, hset] at hst'
        cases hst'
        refine ⟨rfl, ⟨pp, copy, hw⟩, fun x j => ?_⟩
        unfold State.Awaits
        rw [State.port_setPort_same]
        nofun
    · exact h.same (v := State.setPort _ p _) hmore (Or.inl rfl) hset

theorem State.Along.settleSome {s u : State} {i : Page} (h : s.Along i u) (p : Port) : s.Along i (u.settleSome p) := by
  unfold State.settleSome
  split
  · exact h.takeResetClaims p _ _
  · rename_i x j hw
    split
    · exact (h.takePagePart hw).others rfl rfl rfl
    · exact h.others rfl rfl rfl
  · exact h

theorem State.Along.startSlot {s u : State} {i : Page} (h : s.Along i u) (pick : Nat → Nat) :
    s.Along i (u.startSlot pick) := (h.takeClaims _).others rfl rfl rfl

/-! ### Events of the schedule -/

/-- What an event does to the course of the schedule: it leaves the cycle count, and the engine unless a slot ends, or
it begins a cycle from IN_CYCLE at the end of a slot or from WAITING_SYNC. -/
def State.Paced (u : State) (slotEnds : Bool) (v : State) : Prop :=
  (v.sched.cycleCount = u.sched.cycleCount ∧ (slotEnds = false → v.sched.engine = u.sched.engine)) ∨
    (v.sched.engine = .inCycle ∧ (slotEnds = false → u.sched.engine = .waitingSync))

theorem State.Paced.same {u v : State} (b : Bool) (h : v.sched = u.sched) : u.Paced b v :=
  Or.inl ⟨by rw [h], fun _ => by rw [h]⟩

theorem State.startCycle_engine (u : State) (pick : Nat → Nat) (earlier : List Message) :
    (u.startCycle pick earlier).sched.engine = .inCycle := by
  rw [u.startCycle_sched pick earlier]
  rfl

/-- A cycle may start within u's course, as none has since s. -/
abbrev State.SameCycle (s u : State) : Prop := u.sched.cycleCount = s.sched.cycleCount

theorem State.endSlot_along {s u : State} {i : Page} (h : s.Along i u) (hc : s.SameCycle u) (pick : Nat → Nat) :
    s.Along i (u.endSlot pick) ∧ u.Paced true (u.endSlot pick) := by
  unfold State.endSlot
  split
  · split
    · refine ⟨(h.setSched (u.sched.beginSlot _) (Or.inl rfl)).startSlot pick, Or.inl ⟨?_, nofun⟩⟩
      have ho := (u.setSched (u.sched.beginSlot ⟨u.sched.slotIndex.val + 1, by omega⟩)).startSlot_only pick
      rw [ho]
      rfl
    · split
      · exact ⟨h.startCycle pick [] (Or.inr hc), Or.inr ⟨u.startCycle_engine pick [], nofun⟩⟩
      · exact ⟨h.setSched _ (Or.inl rfl), Or.inl ⟨rfl, nofun⟩⟩
  · exact ⟨h, .same true rfl⟩

theorem State.syncEdge_along {s u : State} {i : Page} (h : s.Along i u)
    (hc : u.sched.engine ≠ .inCycle → s.SameCycle u) (pick : Nat → Nat) :
    s.Along i (u.syncEdge pick) ∧ u.Paced false (u.syncEdge pick) := by
  unfold State.syncEdge
  split
  · rename_i he
    exact ⟨h.startCycle pick [] (Or.inr (hc (by rw [he]; nofun))),
      Or.inr ⟨u.startCycle_engine pick [], fun _ => he⟩⟩
  · exact ⟨h.others rfl rfl rfl, .same false rfl⟩
  · exact ⟨h, .same false rfl⟩

theorem State.expireGap_along {s u : State} {i : Page} (h : s.Along i u)
    (hc : u.sched.engine ≠ .inCycle → s.SameCycle u) (pick : Nat → Nat) :
    s.Along i (u.expireGap pick) ∧ u.Paced false (u.expireGap pick) := by
  unfold State.expireGap
  split
  · rename_i he _
    exact ⟨h.startCycle pick _ (Or.inr (hc (by rw [he]; nofun))),
      Or.inr ⟨u.startCycle_engine pick _, fun _ => he⟩⟩
  · exact ⟨h, .same false rfl⟩

/-- Claims outstanding leave the schedule. -/
theorem State.settleSome_sched (u : State) (p : Port) : (u.settleSome p).sched = u.sched := by
  unfold State.settleSome
  split
  · rename_i left hw
    rw [State.takeResetClaims_eq, State.setLink_sched, State.bump, State.setChoices_sched, State.resetPort_only]
    rfl
  · rename_i x j hw
    split
    · have hx := u.takePagePart_cases p x j
      generalize u.takePagePart p x j = t at hx
      cases hx with
      | refused c =>
        rw [u.refuseData_only p x c]
        rfl
      | answered | refusedWrite | writes | opens | marks | drops => rfl
      | reads r number b =>
        rw [State.beginRead_eq]
        rfl
    · rfl
  · rfl

theorem State.takeEvent_along {s u : State} {i : Page} {e : TickEvent} (h : s.Along i u)
    (hc : e = .slot ∨ u.sched.engine ≠ .inCycle → s.SameCycle u) :
    s.Along i (u.takeEvent e) ∧ u.Paced (decide (e = .slot)) (u.takeEvent e) := by
  cases e with
  | slot =>
    obtain ⟨ha, hp⟩ := State.endSlot_along h (hc (Or.inl rfl)) u.draw
    exact ⟨ha.others rfl rfl rfl, hp⟩
  | gap =>
    obtain ⟨ha, hp⟩ := State.expireGap_along h (fun he => hc (Or.inr he)) u.draw
    exact ⟨ha.others rfl rfl rfl, hp⟩
  | edge =>
    obtain ⟨ha, hp⟩ := State.syncEdge_along (h.setSched { u.sched with syncRise := false } (Or.inl rfl))
      (fun he => hc (Or.inr he))
      (fun k => (u.setSched { u.sched with syncRise := false }).draw (k + 1))
    exact ⟨ha.others rfl rfl rfl, hp⟩
  | filter l =>
    have ho := u.expireFilter_only l
    have hs : (u.expireFilter l).sched = u.sched := by rw [ho]; rfl
    exact ⟨h.others (by rw [State.takeEvent, ho]; rfl) hs (by rw [State.takeEvent, ho]; rfl), .same _ hs⟩
  | second =>
    have ho := u.boundary_only
    have hs : u.boundary.sched = u.sched := by rw [ho]; rfl
    exact ⟨h.others (by rw [State.takeEvent, ho]; rfl) hs (by rw [State.takeEvent, ho]; rfl), .same _ hs⟩
  | sample l =>
    have ho := u.sampleStop_only l (u.stop.line l).pin
    have hs : (u.sampleStop l (u.stop.line l).pin).sched = u.sched := by rw [ho]; rfl
    exact ⟨h.others (by rw [State.takeEvent, ho]; rfl) hs (by rw [State.takeEvent, ho]; rfl), .same _ hs⟩
  | claims p => exact ⟨h.settleSome p, .same _ (u.settleSome_sched p)⟩
  | alarmAnswer =>
    have hcount : u.answerAlarm.sched.cycleCount = u.sched.cycleCount ∧
        u.answerAlarm.sched.engine = u.sched.engine := by
      unfold State.answerAlarm
      split
      · exact ⟨rfl, rfl⟩
      · unfold State.takeSwitch
        split
        · exact ⟨rfl, rfl⟩
        · split <;> exact ⟨rfl, rfl⟩
    have ho := u.answerAlarm_only
    refine ⟨h.same (v := u.answerAlarm) (fun p x j hw => ?_) (Or.inl hcount.1) (by rw [ho]; rfl),
      Or.inl ⟨hcount.1, fun _ => hcount.2⟩⟩
    rw [ho] at hw
    exact hw

/-! ### A tick -/

/-- While the events in l of a tick remain: no cycle has begun since s and a slot can end only in IN_CYCLE, or a cycle
has begun and no slot can end. So at most one cycle begins at a tick. -/
def State.MayStart (s u : State) (l : List TickEvent) : Prop :=
  (s.SameCycle u ∧ (TickEvent.slot ∈ l → u.sched.engine = .inCycle)) ∨
    (u.sched.engine = .inCycle ∧ TickEvent.slot ∉ l)

theorem State.Along.takeEvents {s : State} {i : Page} (l : List TickEvent) {u : State} (h : s.Along i u)
    (hl : l.count .slot ≤ 1) (hm : s.MayStart u l) : s.Along i (l.foldl State.takeEvent u) := by
  induction l generalizing u with
  | nil => exact h
  | cons e l ih =>
    rw [List.foldl_cons]
    have hmem : ∀ {x}, x ∈ l → x ∈ e :: l := fun hx => List.mem_cons_of_mem e hx
    have hslot : e = .slot → TickEvent.slot ∉ l := by
      rintro rfl
      rw [List.count_cons_self] at hl
      exact fun hin => absurd (List.count_pos_iff.2 hin) (by omega)
    have hcount : l.count .slot ≤ 1 := le_trans (List.count_le_count_cons ..) hl
    have hsame : e = .slot ∨ u.sched.engine ≠ .inCycle → s.SameCycle u := by
      rintro he
      rcases hm with ⟨hc, -⟩ | ⟨hin, hout⟩
      · exact hc
      · rcases he with rfl | hne
        · exact absurd (List.mem_cons_self ..) hout
        · exact absurd hin hne
    obtain ⟨hgoes, hpaced⟩ := State.takeEvent_along h hsame
    refine ih hgoes hcount ?_
    by_cases he : e = .slot
    · have hout := hslot he
      rcases hpaced with ⟨hc, -⟩ | ⟨hin, -⟩
      · exact Or.inl ⟨hc.trans (hsame (Or.inl he)), fun hin => absurd hin hout⟩
      · exact Or.inr ⟨hin, hout⟩
    · simp only [he, decide_false] at hpaced
      rcases hpaced with ⟨hc, heng⟩ | ⟨hin, hwait⟩
      · rcases hm with ⟨hs, hslots⟩ | ⟨hin, hout⟩
        · exact Or.inl ⟨hc.trans hs, fun hx => (heng rfl).trans (hslots (hmem hx))⟩
        · exact Or.inr ⟨(heng rfl).trans hin, fun hx => hout (hmem hx)⟩
      · have hne : u.sched.engine ≠ .inCycle := by rw [hwait rfl]; nofun
        refine Or.inr ⟨hin, fun hx => ?_⟩
        rcases hm with ⟨-, hslots⟩ | ⟨hin', -⟩
        · exact hne (hslots (hmem hx))
        · exact hne hin'

/-- The end of a slot falls at most once at a tick. -/
theorem State.count_slot_due (s : State) : s.due.count .slot ≤ 1 := by
  have hnone : ∀ {l : List TickEvent}, TickEvent.slot ∉ l → l.count .slot = 0 := fun h => List.count_eq_zero.2 h
  unfold State.due
  simp only [List.count_append]
  rw [hnone (l := List.map TickEvent.filter _) (by simp), hnone (l := List.map TickEvent.sample _) (by simp),
    hnone (l := List.flatMap _ _) (by simp), hnone (l := if s.sched.gapDue then _ else _) (by split <;> simp),
    hnone (l := if s.sched.syncRise then _ else _) (by split <;> simp),
    hnone (l := if s.time.secondLength ≤ s.time.tickCount then _ else _) (by split <;> [skip; split] <;> simp)]
  split <;> simp

/-- A tick takes each page its course (notes/assumptions/9.md, 19.md). -/
theorem State.tick_along {s : State} (hs : s.ScheduleLaw) (i : Page) : s.Along i s.tick := by
  cases hr : s.inReset with
  | true =>
    unfold State.tick
    rw [State.unlessReset_held hr]
    exact .refl s i
  | false =>
    obtain ⟨l, hperm, htick⟩ := State.tick_eq hr
    rw [htick]
    refine State.Along.takeEvents l ((State.Along.refl s i).same (v := s.counted) (fun _ _ _ hw => hw) (Or.inl rfl) rfl)
      (hperm.count_eq _ ▸ s.count.count_slot_due) (Or.inl ⟨rfl, fun hin => ?_⟩)
    obtain ⟨x, hx, -⟩ := (s.mem_due .slot).1 (hperm.mem_iff.1 hin)
    obtain ⟨-, -, -, htimer, -⟩ := hs
    exact htimer.1 (by rw [hx]; rfl)

end Sys2Proof.Machine
end

section
/-! SUPPORT. Which commands can publish, and that each takes every page its course. -/

namespace Sys2Proof.Machine

/-! ### Moves that publish nothing -/

/-- From s to t page i keeps its sequence and its live frame. -/
abbrev State.KeepsVersion (s : State) (i : Page) (t : State) : Prop :=
  (t.map.page i).sequence = (s.map.page i).sequence ∧ (t.map.page i).live = (s.map.page i).live

theorem State.Move.keepsVersion {s t : State} {k : MoveKind} (h : s.Move k t) (hk : k ∈ [.quiet, .store]) (i : Page) :
    s.KeepsVersion i t := by
  cases h with
  | others hmap => rw [State.KeepsVersion, hmap]; exact ⟨rfl, rfl⟩
  | port | limit | write | beginRead => exact ⟨rfl, rfl⟩
  | endRead p r l =>
    rw [State.KeepsVersion, State.setPort_map, State.setMap_map, ExchangeMap.dropRef_page]
    exact ⟨rfl, rfl⟩
  | page j r _ hlive hsequence =>
    rw [State.KeepsVersion, State.setMap_map, ExchangeMap.page_setPage]
    split
    · rename_i hij
      subst hij
      exact ⟨hsequence, hlive⟩
    · exact ⟨rfl, rfl⟩
  | remove j =>
    rw [State.KeepsVersion, State.setMap_map, ExchangeMap.removeStaging_page]
    split
    · rename_i hij
      subst hij
      exact ⟨rfl, rfl⟩
    · exact ⟨rfl, rfl⟩
  | openStaging j p copy f rest =>
    rw [State.KeepsVersion, State.setMap_map, ExchangeMap.openStaging_page]
    split
    · rename_i hij
      subst hij
      exact ⟨rfl, rfl⟩
    · exact ⟨rfl, rfl⟩
  | publish | define | retire | reset => simp at hk

theorem State.Reaches.keepsVersion {K : List MoveKind} {s t : State} (h : s.Reaches K t)
    (hK : ∀ k ∈ K, k ∈ [MoveKind.quiet, .store]) (i : Page) : s.KeepsVersion i t :=
  h.keeps (fun u => s.KeepsVersion i u)
    (fun _ _ k hk hm ⟨hsequence, hlive⟩ =>
      have hkept := hm.keepsVersion (hK k hk) i
      ⟨hkept.1.trans hsequence, hkept.2.trans hlive⟩)
    ⟨rfl, rfl⟩

/-! ### Requests served -/

/-- A request served takes a page its course if its own operation does. -/
theorem State.serve_along {α : Type} (s : State) (i : Page) (p : Port) (record : List Byte) (right : Option RightName)
    (params : Option α) (act : α → State → State)
    (hact : ∀ a, s.Along i (s.receive p record) → s.Along i (act a (s.receive p record))) :
    s.Along i (s.serve p record right params act) := by
  have hreceived : s.Along i (s.receive p record) := by
    refine (State.Along.refl s i).same (fun q x j hw => ?_) (Or.inl rfl) rfl
    rw [State.Awaits, State.receive_eq, State.port_setPort] at hw
    split at hw
    · rename_i hq
      exact hq ▸ hw
    · exact hw
  rcases s.serve_cases p record right params act with h | ⟨c, h⟩ | ⟨a, -, h⟩ <;> rw [h]
  · exact .refl s i
  · exact hreceived.answer p c []
  · exact hact a hreceived

/-- START may begin cycle 0 (R35, R179). -/
theorem State.Along.startPart {s u : State} {i : Page} (h : s.Along i u) (hc : s.SameCycle u) :
    s.Along i u.startPart := by
  have hzero : s.Along i
      ((u.setPart .run).setSched { u.sched with cycleCount := 0, slotIndex := 0, firstCycle := true }) :=
    (h.others (v := u.setPart .run) rfl rfl rfl).setSched _ (Or.inr hc)
  unfold State.startPart State.startSchedule
  dsimp only
  split
  · exact (hzero.startCycle _ [] (Or.inl rfl)).others rfl rfl rfl
  · exact (h.others (v := u.setPart .run) rfl rfl rfl).setSched _ (Or.inr hc) |>.others rfl rfl rfl

theorem State.Along.releaseHold {s u : State} {i : Page} (h : s.Along i u) (p : Port) :
    s.Along i (u.releaseHold p) := by
  unfold State.releaseHold
  split
  · exact h.answer p _ _
  · exact ((h.takeClaims (u.holdRemovalClaims p)).others (v := u.endHold p) rfl rfl rfl).answer p _ _

/-- A page that DEFINE_PAGE finds defined keeps its version (R10). -/
theorem State.definePage_keepsVersion (s : State) (p : Port) (x : PageParams) (i : Page)
    (hd : (s.map.page i).defined = true) : s.KeepsVersion i (s.definePage p x) := by
  unfold State.definePage
  split
  · exact ⟨rfl, rfl⟩
  · rename_i hx
    rw [State.KeepsVersion, State.answer_map, State.setMap_map, ExchangeMap.page_setPage]
    split
    · rename_i hi
      subst hi
      exact absurd hd hx
    · exact ⟨rfl, rfl⟩

/-- A page that RETIRE_PAGE leaves defined keeps its version (R12). -/
theorem State.retirePage_keepsVersion (s : State) (p : Port) (j i : Page)
    (hd : ((s.onQuietPage p j fun s => s.setMap (s.map.retire j)).map.page i).defined = true) :
    s.KeepsVersion i (s.onQuietPage p j fun s => s.setMap (s.map.retire j)) := by
  revert hd
  unfold State.onQuietPage
  split
  · split
    · exact fun _ => ⟨rfl, rfl⟩
    · rw [State.KeepsVersion, State.answer_map, State.setMap_map, ExchangeMap.retire_page]
      intro hd
      split at hd
      · cases hd
      · rename_i hi
        rw [if_neg hi]
        exact ⟨rfl, rfl⟩
  · exact fun _ => ⟨rfl, rfl⟩

/-! ### Events that move a transaction on -/

/-- With no port reset outstanding, what is outstanding of p's request publishes nothing. -/
theorem State.settle_reaches_of_ne {s : State} {p : Port} (h : ∀ left, (s.port p).tx ≠ .accepted (.portReset left)) :
    s.Reaches [.quiet, .store] (s.settle p) := by
  unfold State.settle
  split
  · rename_i left htx
    exact absurd htx (h left)
  · rename_i x j htx
    exact State.takePagePart_reaches (.head _) (fun _ _ _ => .tail _ (.head _)) _ (Or.inr ⟨_, htx⟩)
  · exact .refl s

/-- An event that moves p's transaction on publishes nothing beyond what was outstanding. -/
theorem exec_movesOn_reaches {c : Instr} {p : Port} (hc : c.movesOn = some p) {s t : State} (h : exec c s = .next t) :
    (s.settle p).Reaches [.quiet, .store] t := by
  cases c <;> cases hc <;> cases h
  case readCompletion => exact State.completeRead_reaches (.head _) _ p
  case stageReadCompletion => exact State.completeStageRead_reaches (.head _) _ p
  case stageWriteCompletion data => exact State.dataBytes_reaches (.head _) (.tail _ (.head _)) _ p data
  case selectRelease => exact State.selectRises_reaches (.head _) _ p
  case lastResponseByte => exact State.responseSent_reaches (.head _) _ p

/-- In RESPONSE without a read in flight, such an event moves the port alone. -/
theorem exec_movesOn_response {c : Instr} {p : Port} (hc : c.movesOn = some p) {s t : State} (h : exec c s = .next t)
    {r : Response} (htx : ((s.settle p).port p).tx = .response r) (hread : ((s.settle p).port p).reading = none) :
    t = s.settle p ∨ ∃ l : LinkPort, (∀ o, l.tx ≠ .accepted o) ∧ t = (s.settle p).setPort p l := by
  have hnone : ((s.settle p).port p).readInResponse = none := by rw [LinkPort.readInResponse, htx]; exact hread
  cases c <;> cases hc <;> cases h
  case readCompletion =>
    left
    rw [State.completeRead, hnone]
  case stageReadCompletion =>
    left
    rw [State.completeStageRead, hnone]
  case stageWriteCompletion =>
    left
    rw [State.dataBytes, htx]
  case selectRelease =>
    unfold State.selectRises State.endTransaction
    dsimp only
    rw [hread]
    split
    · exact Or.inr ⟨{ (s.settle p).port p with
          selected := false, tx := .idle, received := [], write := none, reading := none }, nofun, rfl⟩
    · exact Or.inl rfl
  case lastResponseByte =>
    right
    rw [State.responseSent, htx, hread]
    exact ⟨{ (s.settle p).port p with tx := .done }, nofun, rfl⟩

/-- An event that moves p's transaction on publishes where it takes claims of a port reset; and then nothing else
touches the page. -/
theorem exec_movesOn_course {c : Instr} {p : Port} (hc : c.movesOn = some p) {s t : State} (h : exec c s = .next t)
    (hlink : s.LinkLaw) (i : Page) : s.KeepsVersion i t ∨ s.Along i t := by
  by_cases hreset : ∃ left, (s.port p).tx = .accepted (.portReset left)
  · obtain ⟨left, htx⟩ := hreset
    have hsettled : s.Along i (s.settle p) := by
      rw [State.settle_portReset htx]
      exact (State.Along.refl s i).takeResetClaims p left left
    have hread : ((s.settle p).port p).reading = none := by
      have hnone := ((s.linkLaw_iff.1 hlink p).of_taken (Or.inr ⟨_, htx⟩)).2.1
      rw [State.settle_portReset htx, State.port, State.takeResetClaims_link]
      simpa using hnone
    rcases exec_movesOn_response hc h (State.settle_portReset_tx htx) hread with rfl | ⟨l, hl, rfl⟩
    · exact Or.inr hsettled
    · exact Or.inr (hsettled.port p l fun x j => hl _)
  · have hne : ∀ left, (s.port p).tx ≠ .accepted (.portReset left) := fun left htx => hreset ⟨left, htx⟩
    exact Or.inl (((State.settle_reaches_of_ne hne).trans (exec_movesOn_reaches hc h)).keepsVersion (fun _ hk => hk) i)

/-! ### Every command, and the step -/

/-- Every command leaves a defined page's version, or takes the page its course. -/
theorem exec_course {c : Instr} {s t : State} (h : exec c s = .next t) (hlink : s.LinkLaw) {i : Page}
    (hd : (s.map.page i).defined = true) (hd' : (t.map.page i).defined = true) :
    s.KeepsVersion i t ∨ s.Along i t := by
  have hrefl := State.Along.refl s i
  have hreset : ∀ act : State → State, s.Along i (act s) → s.Along i (s.unlessReset act) := by
    intro act hact
    unfold State.unlessReset
    split
    · exact hrefl
    · exact hact
  have hquiet : ∀ k ∈ [MoveKind.quiet], k ∈ [MoveKind.quiet, .store] := by decide
  cases c
  case start p =>
    cases h
    refine Or.inr (s.serve_along i p _ _ _ _ fun _ hr => ?_)
    unfold State.inSetup
    split
    · exact (hr.startPart rfl).answer p _ _
    · exact hr.answer p _ _
  case release p =>
    cases h
    exact Or.inr (s.serve_along i p _ _ _ _ fun _ hr => hr.releaseHold p)
  case portReset p =>
    cases h
    exact Or.inr (s.serve_along i p _ _ _ _ fun _ hr => hr.takeResetClaims p _ _)
  case definePage p page group readers writers =>
    cases h
    left
    rcases s.serve_cases p (Instr.definePage p page group readers writers).record (some .map)
      (pageParams page group readers writers) (fun x s => s.definePage p x) with hk | ⟨_, hk⟩ | ⟨x, -, hk⟩ <;> rw [hk]
    · exact ⟨rfl, rfl⟩
    · exact ⟨rfl, rfl⟩
    · exact State.definePage_keepsVersion (s.receive p _) p x i hd
  case retirePage p page =>
    cases h
    left
    rcases s.serve_cases p (Instr.retirePage p page).record (some .map) (pageOf? page)
      (fun i s => s.onQuietPage p i fun s => s.setMap (s.map.retire i)) with hk | ⟨_, hk⟩ | ⟨j, -, hk⟩ <;>
        rw [hk] at hd' ⊢
    · exact ⟨rfl, rfl⟩
    · exact ⟨rfl, rfl⟩
    · exact State.retirePage_keepsVersion (s.receive p _) p j i hd'
  case partReset =>
    cases h
    rw [State.holdInReset_page] at hd'
    cases hd'
  case endOfSlot =>
    cases h
    exact Or.inr (hreset _ ((State.endSlot_along hrefl rfl _).1.others rfl rfl rfl))
  case syncEdge =>
    cases h
    refine Or.inr (hreset _ ?_)
    split
    · exact (hrefl.setSched { s.sched with syncRise := true } (Or.inl rfl)).others rfl rfl rfl
    · exact (State.syncEdge_along hrefl (fun _ => rfl) _).1.others rfl rfl rfl
  case gapExpiry =>
    cases h
    exact Or.inr (hreset _ ((State.expireGap_along hrefl (fun _ => rfl) _).1.others rfl rfl rfl))
  case readCompletion | stageReadCompletion | stageWriteCompletion | lastResponseByte | selectRelease =>
    exact exec_movesOn_course rfl h hlink i
  case stageOpen => exact Or.inl ((exec_reaches h).keepsVersion (fun _ hk => hk) i)
  all_goals exact Or.inl ((exec_reaches h).keepsVersion hquiet i)

/-- A page that has gone its course is as it was but for its staging, or published. -/
theorem State.Along.published_or_kept {s t : State} {i : Page} (h : s.Along i t) :
    s.KeepsVersion i t ∨
      ∃ (st : Staging) (new : Option Staging), (s.map.page i).staging = some st ∧
        (st.state = .ready ∨ ∃ pp, s.Awaits st.stager (.stageReady pp) i) ∧
        (∀ st', new = some st' → ∃ pp copy, s.Awaits st'.stager (.stageOpen pp copy) i) ∧
        (t.map.page i = { (s.map.page i).published t.sched.cycleCount with staging := new } ∨
          t.map.page i = { (s.map.page i).published s.sched.cycleCount with staging := new }) := by
  obtain ⟨-, hcourse⟩ := h
  cases hcourse with
  | kept hpage => rw [State.KeepsVersion, hpage]; exact Or.inl ⟨rfl, rfl⟩
  | published st₀ c hc hst₀ hready hpage hnew =>
    refine Or.inr ⟨st₀, (t.map.page i).staging, hst₀, hready, fun st' hst' => (hnew st' hst').2.1, ?_⟩
    rcases hc with rfl | rfl
    · exact Or.inl hpage
    · exact Or.inr hpage

/-- Settles O56: every command and every tick leaves a page's version, or takes the page its course. -/
theorem sequenceChangesOnlyByPublication : Obligations.SequenceChangesOnlyByPublication := by
  intro s t i hsched hlink hstep hd hd'
  unfold step at hstep
  split at hstep
  · cases hstep
    exact (State.tick_along hsched i).published_or_kept
  · rename_i c rest _
    rcases exec_course (s := s.setPending rest) hstep hlink hd hd' with hkept | halong
    · exact Or.inl hkept
    · exact halong.published_or_kept

end Sys2Proof.Machine
end

section
/-! SUPPORT. Data requests from their command to their answer: the acceptance, the page part, and the passing of the
last data byte (R15, R17, R18, R21). -/

namespace Sys2Proof.Machine

/-! ### Acceptance -/

/-- The command of a data request in range hands it on (R104, R170). -/
theorem exec_command {x : DataCall} (hx : x.InRange) {p : Port} {s : State} (hr : s.ReadyFor p) :
    exec (x.command p) s = .next ((s.receive p (x.command p).record).acceptCall p x) := by
  have hopen : ∀ (pp : PortPage) (copy : Bool), stageOpenParams (byteOf pp.val) (yesNo copy) = some (pp, copy) := by
    simp [stageOpenParams]
  cases x with
  | read b => exact congrArg _ (State.serve_accepted _ hr (transferParams_of b.portPage b.offset hx.1 hx.2) rfl)
  | stageWrite b => exact congrArg _ (State.serve_accepted _ hr (transferParams_of b.portPage b.offset hx.1 hx.2) rfl)
  | stageRead b => exact congrArg _ (State.serve_accepted _ hr (transferParams_of b.portPage b.offset hx.1 hx.2) rfl)
  | stageOpen pp copy => exact congrArg _ (State.serve_accepted _ hr (hopen pp copy) rfl)
  | stageReady pp => exact congrArg _ (State.serve_accepted _ hr (portPageOf?_byteOf pp) rfl)
  | stageDrop pp => exact congrArg _ (State.serve_accepted _ hr (portPageOf?_byteOf pp) rfl)

theorem State.accepting_awaits (s : State) (p : Port) (x : DataCall) (i : Page) : (s.accepting p x i).Awaits p x i := by
  simp [State.Awaits, State.accepting]

/-- A data request comes to the result of its page part, at its command or later, if its acceptance keeps the condition
(R104, R109). -/
theorem DataCall.gives_of_acceptData {x : DataCall} (hx : x.InRange) {p : Port} {i : Page} {cond : State → Prop}
    {result : State → State → Prop} (haccepting : ∀ s, cond s → cond (s.accepting p x i))
    (hpass : ∀ s, cond s → s.map.pagePart p i x.request = .ok i)
    (hresult : ∀ s, cond s → result s (s.acceptData p x i)) : x.Gives p i cond result := by
  have hsettle : ∀ s : State, s.Awaits p x i → cond s → result s (s.settle p) := by
    intro s hw hc
    rw [State.settle_pagePart hw, State.takePagePart_ok (hpass s hc)]
    exact hresult s hc
  refine ⟨fun s hr hview hc => ⟨_, exec_command hx hr, ?_⟩, hsettle⟩
  obtain ⟨e, he, ha, rfl⟩ := hview
  rcases State.acceptCall_ok (State.viewPart_ok he ha) with h | h <;> rw [h]
  · exact Or.inl (hsettle _ (s.accepting_awaits p x e.page) (haccepting s hc))
  · exact Or.inr rfl

/-! ### Reads -/

/-- A read accepted, byte by byte (R15, R17). -/
theorem State.beginRead_bytes (s : State) (p : Port) (r : ReadInFlight) (number : Word16) (b : Transfer) :
    s.beginRead p r number b =
      (s.setMap { s.map with refs := s.map.refs.set r.frame (s.map.refs[r.frame] + 1) }).setPort p
        { s.port p with
          reading := some r
          tx := .response
            { status := .ok
              body := bytes16 number ++
                (List.range b.length).map fun k => s.map.frames.read (64 * r.frame.val + (b.offset.val + k)) } } := by
  rw [State.beginRead_eq]
  rfl

theorem PageRecord.stagedBy_none {r : PageRecord} {p : Port} (h : ∀ st, r.staging = some st → st.stager ≠ p) :
    r.stagedBy p = none := by
  unfold PageRecord.stagedBy
  split
  · rfl
  · rename_i st hst
    exact if_neg (h st hst)

theorem PageRecord.stagedBy_eq {r : PageRecord} {p : Port} {st : Staging} (h : r.staging = some st)
    (hp : st.stager = p) : r.stagedBy p = some st := by
  simp [PageRecord.stagedBy, h, hp]

/-- Settles O21: the page part of READ and of STAGE_READ, case by case. -/
theorem readsReturnTheFramesBytes : Obligations.ReadsReturnTheFramesBytes := by
  intro p b i hlo hhi
  have hstage : ∀ {s : State}, s.MayStage p i → s.map.pagePart p i .stageRead = .ok i :=
    fun h => State.pagePart_stage nofun h
  have hread : (DataCall.read b).InRange := ⟨hlo, hhi⟩
  have hstageRead : (DataCall.stageRead b).InRange := ⟨hlo, hhi⟩
  refine ⟨?_, fun f => ?_, ?_, fun st hst => ?_⟩
  · refine DataCall.gives_of_acceptData hread (fun s h => h) (fun s h => State.pagePart_read h.1) ?_
    rintro s ⟨-, hlive⟩
    simp only [State.acceptData, State.acceptRead, hlive]
    rfl
  · refine DataCall.gives_of_acceptData hread (fun s h => h) (fun s h => State.pagePart_read h.1) ?_
    rintro s ⟨-, hlive⟩
    simp only [State.acceptData, State.acceptRead, hlive]
    exact s.beginRead_bytes p _ _ b
  · refine DataCall.gives_of_acceptData hstageRead (fun s h => h) (fun s h => hstage h.1) ?_
    rintro s ⟨-, hno⟩
    simp only [State.acceptData, State.acceptStageRead, PageRecord.stagedBy_none hno]
    rfl
  · refine DataCall.gives_of_acceptData hstageRead (fun s h => h) (fun s h => hstage h.1) ?_
    rintro s ⟨-, hs⟩
    simp only [State.acceptData, State.acceptStageRead, PageRecord.stagedBy_eq hs hst]
    exact s.beginRead_bytes p _ _ b

/-! ### STAGE_OPEN refused -/

/-- What STAGE_OPEN's acceptance comes to, one equation for the first check that fails (R18). -/
theorem State.acceptStageOpen_setup {s : State} (p : Port) (copy : Bool) (i : Page) (h : s.part = .setup) :
    s.acceptStageOpen p copy i = s.answer p .wrongState [] := by simp [State.acceptStageOpen, h]

theorem State.acceptStageOpen_frozen {s : State} (p : Port) (copy : Bool) {i : Page} (h : s.part = .run)
    (hf : s.stop.isFrozen (s.map.page i).group = true) :
    s.acceptStageOpen p copy i = s.answer p .groupFrozen [] := by simp [State.acceptStageOpen, h, hf]

theorem State.acceptStageOpen_busy {s : State} (p : Port) (copy : Bool) {i : Page} {st : Staging} (h : s.part = .run)
    (hf : s.stop.isFrozen (s.map.page i).group = false) (hs : (s.map.page i).staging = some st) :
    s.acceptStageOpen p copy i = s.answer p .pageBusy [byteOf st.stager.val] := by
  simp [State.acceptStageOpen, h, hf, hs]

theorem State.acceptStageOpen_tooMany {s : State} {p : Port} (copy : Bool) {i : Page} (h : s.part = .run)
    (hf : s.stop.isFrozen (s.map.page i).group = false) (hs : (s.map.page i).staging = none)
    (hn : 8 ≤ s.map.stagingCount p) : s.acceptStageOpen p copy i = s.answer p .tooMany [] := by
  simp [State.acceptStageOpen, h, hf, hs, Config.stagingLimit, hn]

theorem State.acceptStageOpen_noFrame {s : State} {p : Port} (copy : Bool) {i : Page} (h : s.part = .run)
    (hf : s.stop.isFrozen (s.map.page i).group = false) (hs : (s.map.page i).staging = none)
    (hn : s.map.stagingCount p < 8) (hfree : s.map.freeList = []) :
    s.acceptStageOpen p copy i = s.answer p .noFrame [] := by
  simp [State.acceptStageOpen, h, hf, hs, Config.stagingLimit, hn, hfree]

/-- Settles O22: the five checks, one after the other. -/
theorem stageOpenChecksInOrder : Obligations.StageOpenChecksInOrder := by
  intro p pp copy i
  have hpass : ∀ {s : State}, s.MayStage p i → s.map.pagePart p i .stageOpen = .ok i :=
    fun h => State.pagePart_stage nofun h
  have hx : (DataCall.stageOpen pp copy).InRange := trivial
  refine ⟨?_, ?_, fun st => ?_, ?_, ?_⟩
  · exact DataCall.gives_of_acceptData hx (fun s h => h) (fun s h => hpass h.1) fun s ⟨_, hsetup⟩ =>
      State.acceptStageOpen_setup p copy i hsetup
  · exact DataCall.gives_of_acceptData hx (fun s h => h) (fun s h => hpass h.1) fun s ⟨_, hrun, hf⟩ =>
      State.acceptStageOpen_frozen p copy hrun hf
  · exact DataCall.gives_of_acceptData hx (fun s h => h) (fun s h => hpass h.1) fun s ⟨_, hrun, hf, hs⟩ =>
      State.acceptStageOpen_busy p copy hrun hf hs
  · exact DataCall.gives_of_acceptData hx (fun s h => h) (fun s h => hpass h.1) fun s ⟨_, hrun, hf, hs, hn⟩ =>
      State.acceptStageOpen_tooMany copy hrun hf hs hn
  · exact DataCall.gives_of_acceptData hx (fun s h => h) (fun s h => hpass h.1)
      fun s ⟨_, hrun, hf, hs, hn, hfree⟩ => State.acceptStageOpen_noFrame copy hrun hf hs hn hfree

/-! ### The last data byte of a read -/

theorem ExchangeMap.joinReaders_page (m : ExchangeMap) (p : Port) (r : ReadInFlight) (i : Page) :
    (m.joinReaders p r).page i =
      if i = r.page ∧ (m.page i).defined = true ∧ (m.page i).live = some r.frame then
        { m.page i with readersSince := (m.page i).readersSince ||| BitVec.twoPow 4 p.val }
      else m.page i := by
  unfold ExchangeMap.joinReaders
  by_cases hi : i = r.page
  · subst hi
    simp only [true_and]
    split
    · rw [ExchangeMap.page_setPage, if_pos rfl]
      rfl
    · rfl
  · simp only [hi, false_and, if_false]
    split
    · rw [ExchangeMap.page_setPage, if_neg hi]
    · rfl

/-- A reader that joins leaves every frame in its place. -/
theorem ExchangeMap.joinReaders_frames (m : ExchangeMap) (p : Port) (r : ReadInFlight) :
    m.SameStore (m.joinReaders p r) ∧ (m.joinReaders p r).retiring = m.retiring ∧
      (m.joinReaders p r).freeList = m.freeList := by
  unfold ExchangeMap.joinReaders
  split <;> exact ⟨⟨rfl, rfl, rfl, rfl⟩, rfl, rfl⟩

/-- A reference released, with the retiring-set step (R5, R6). -/
theorem ExchangeMap.dropRef_retiring_freeList (m : ExchangeMap) (f : Frame) :
    if m.refs[f] ≤ 1 ∧ f ∈ m.retiring then
      (m.dropRef f).retiring = m.retiring.erase f ∧ (m.dropRef f).freeList = m.freeList ++ [f]
    else (m.dropRef f).retiring = m.retiring ∧ (m.dropRef f).freeList = m.freeList := by
  rw [ExchangeMap.dropRef_eq]
  split <;> exact ⟨rfl, rfl⟩

/-- Settles O9: the port's read in flight decides which completion it is. -/
theorem readCompletionReleasesTheReference : Obligations.ReadCompletionReleasesTheReference := by
  intro p s x r htx hreading
  have hsettle : s.settle p = s := State.settle_none (by rw [LinkPort.claimsOutstanding, htx])
  have hflight : (s.port p).readInResponse = some r := by rw [LinkPort.readInResponse, htx]; exact hreading
  have hdone : (s.port p).readDone = { s.port p with tx := .done, reading := none } := rfl
  have hdrop := s.map.dropRef_eq r.frame
  have hplaces := s.map.dropRef_retiring_freeList r.frame
  cases hkind : r.kind with
  | read =>
    obtain ⟨⟨hframes, hrefs, hserial, hlimit⟩, hretiring, hfree⟩ := (s.map.dropRef r.frame).joinReaders_frames p r
    have hexec : exec (.readCompletion p) s =
        .next ((s.setMap ((s.map.dropRef r.frame).joinReaders p r)).setPort p (s.port p).readDone) := by
      show Host.Outcome.next ((s.settle p).completeRead p) = _
      rw [hsettle, State.completeRead, hflight]
      simp only [hkind]
    refine ⟨_, hexec, by rw [hdone]; rfl, ?_, ?_, ?_, ?_, ?_, fun i => ?_⟩
    · exact hrefs.trans (by rw [hdrop])
    · exact hframes.trans (by rw [hdrop])
    · exact hserial.trans (by rw [hdrop])
    · exact hlimit.trans (by rw [hdrop])
    · rw [State.setPort_map, State.setMap_map, hretiring, hfree]
      exact hplaces
    · rw [State.setPort_map, State.setMap_map, ExchangeMap.joinReaders_page, ExchangeMap.dropRef_page]
      simp only [true_and]
  | stageRead =>
    have hexec : exec (.stageReadCompletion p) s =
        .next ((s.setMap (s.map.dropRef r.frame)).setPort p (s.port p).readDone) := by
      show Host.Outcome.next ((s.settle p).completeStageRead p) = _
      rw [hsettle, State.completeStageRead, hflight]
      simp only [hkind]
    refine ⟨_, hexec, by rw [hdone]; rfl, ?_, ?_, ?_, ?_, hplaces, fun i => ?_⟩
    · rw [State.setPort_map, State.setMap_map, hdrop]
    · rw [State.setPort_map, State.setMap_map, hdrop]
    · rw [State.setPort_map, State.setMap_map, hdrop]
    · rw [State.setPort_map, State.setMap_map, hdrop]
    · rw [State.setPort_map, State.setMap_map, ExchangeMap.dropRef_page, if_neg fun h => nomatch h.1]

/-! ### The last data byte of a STAGE_WRITE -/

/-- Settles O10: the staging accepted against is still there, or it is lost; or the acceptance was refused. -/
theorem stageWriteCompletionWritesItsBytes : Obligations.StageWriteCompletionWritesItsBytes := by
  have hexec : ∀ (p : Port) (s : State) (data : List Byte) (o : Option Status),
      (s.port p).tx = .writeData data.length o →
        exec (.stageWriteCompletion p data) s = .next (s.dataBytes p data) := by
    intro p s data o htx
    show Host.Outcome.next ((s.settle p).dataBytes p data) = _
    rw [State.settle_none (by rw [LinkPort.claimsOutstanding, htx])]
  refine ⟨fun p s w data htx hw hmem hlen => ⟨fun st hst hp hserial ho => ?_, fun hlost => ?_⟩,
    fun p s code data htx => ?_⟩
  · have htarget : s.map.writeTarget p (w.gather (data.take data.length)) = some st :=
      ExchangeMap.writeTarget_some.2 ⟨hst, hp, hserial, ho⟩
    have hstored := State.dataBytes_stored htx (Nat.le_refl _) hw htarget
    rw [List.take_length] at hstored
    refine ⟨_, (hexec p s data _ htx).trans (congrArg _ hstored), rfl, fun a => ?_⟩
    exact Memory.read_writeFrame st.frame a hlen hmem
  · rw [hexec p s data _ htx, State.dataBytes_lost htx (Nat.le_refl _) fun w' hw' => ?_]
    · rfl
    · cases hw.symm.trans hw'
      refine Option.eq_none_iff_forall_ne_some.2 fun st hst => ?_
      obtain ⟨hs, hstaging⟩ := ExchangeMap.writeTarget_some.1 hst
      exact hlost st hs hstaging
  · rw [hexec p s data _ htx, State.dataBytes_refused htx (Nat.le_refl _)]
    rfl

end Sys2Proof.Machine
end

section
/-! SUPPORT. The requests on page definitions, PAGE_STATUS, and part reset (R10 to R13, R185, R186). -/

namespace Sys2Proof.Machine

/-! ### Requests that pass their checks -/

theorem exec_definePage {s : State} {p : Port} (hr : s.ReadyFor p) (ha : s.MapAllowed p) (i : Page) (g : Group)
    (r w : PortSet) {c : Instr}
    (hc : c = .definePage p (BitVec.ofNat 16 i.val) (byteOf g.val) (r.setWidth 8) (w.setWidth 8)) :
    exec c s = .next ((s.receive p c.record).definePage p { page := i, group := g, readers := r, writers := w }) := by
  subst hc
  exact congrArg _ (State.serve_accepted _ hr (pageParams_of i g r w) ha.lacks)

theorem exec_pageSet {s : State} {p : Port} (hr : s.ReadyFor p) (ha : s.MapAllowed p) (i : Page) (g : Group)
    (r w : PortSet) {c : Instr}
    (hc : c = .pageSet p (BitVec.ofNat 16 i.val) (byteOf g.val) (r.setWidth 8) (w.setWidth 8)) :
    exec c s = .next ((s.receive p c.record).onQuietPage p i fun s =>
      s.setMap (s.map.redefine { page := i, group := g, readers := r, writers := w })) := by
  subst hc
  exact congrArg _ (State.serve_accepted _ hr (pageParams_of i g r w) ha.lacks)

theorem exec_retirePage {s : State} {p : Port} (hr : s.ReadyFor p) (ha : s.MapAllowed p) (i : Page) {c : Instr}
    (hc : c = .retirePage p (BitVec.ofNat 16 i.val)) :
    exec c s = .next ((s.receive p c.record).onQuietPage p i fun s => s.setMap (s.map.retire i)) := by
  subst hc
  exact congrArg _ (State.serve_accepted _ hr (pageOf?_ofNat i) ha.lacks)

/-- A request received, done at the exchange map and answered. -/
theorem State.answer_setMap_receive (s : State) (p : Port) (c : Instr) (m : ExchangeMap) (a : Status) (b : List Byte) :
    ((s.receive p c.record).setMap m).answer p a b = (s.setMap m).answered p c a b := by
  simp [State.answer_eq, State.receive_eq, State.answered]

/-! ### Page definitions -/

/-- What a request on a quiet page comes to, one equation per answer (R11, R12). -/
theorem State.onQuietPage_unused {s : State} {p : Port} {i : Page} (c : Instr) (m : State → ExchangeMap)
    (hd : (s.map.page i).defined = false) :
    ((s.receive p c.record).onQuietPage p i fun s => s.setMap (m s)) = s.answered p c .pageUnused [] := by
  simp [State.onQuietPage, hd, State.answer_receive]

theorem State.onQuietPage_busy {s : State} {p : Port} {i : Page} {st : Staging} (c : Instr) (m : State → ExchangeMap)
    (hd : (s.map.page i).defined = true) (hs : (s.map.page i).staging = some st) :
    ((s.receive p c.record).onQuietPage p i fun s => s.setMap (m s)) =
      s.answered p c .pageBusy [byteOf st.stager.val] := by
  simp [State.onQuietPage, hd, hs, State.answer_receive]

theorem State.onQuietPage_done {s : State} {p : Port} {i : Page} (c : Instr) (m : State → ExchangeMap)
    (hd : (s.map.page i).defined = true) (hs : (s.map.page i).staging = none) :
    ((s.receive p c.record).onQuietPage p i fun s => s.setMap (m s)) =
      (s.setMap (m (s.receive p c.record))).answered p c .ok [] := by
  simp only [State.onQuietPage, State.receive_map, hd, hs, if_true, State.answer_setMap_receive]

/-- A live frame that leaves its page: to the free list, or to the retiring set while it is referenced (R4, R6). -/
theorem ExchangeMap.releaseLive_frames (m : ExchangeMap) (o : Option Frame) :
    match o with
    | none => (m.releaseLive o).freeList = m.freeList ∧ (m.releaseLive o).retiring = m.retiring
    | some f =>
      if m.refs[f] = 0 then
        (m.releaseLive o).freeList = m.freeList ++ [f] ∧ (m.releaseLive o).retiring = m.retiring
      else (m.releaseLive o).freeList = m.freeList ∧ ∀ x, x ∈ (m.releaseLive o).retiring ↔ x ∈ m.retiring ∨ x = f := by
  cases o with
  | none => exact ⟨rfl, rfl⟩
  | some f =>
    dsimp only [ExchangeMap.releaseLive, ExchangeMap.release]
    split
    · exact ⟨rfl, rfl⟩
    · exact ⟨rfl, fun x => (mem_insertFrame f x _).trans or_comm⟩

/-- Settles O18: each request past its checks, and the page that it finds. -/
theorem pageDefinitionRequests : Obligations.PageDefinitionRequests := by
  intro p s i hr ha
  refine ⟨fun g r w => ?_, fun g r w => ?_, fun hd => ?_, fun st hd hs => ?_, fun hd hs => ?_⟩
  · rw [exec_definePage hr ha i g r w rfl, State.definePage, State.receive_map]
    split
    · rw [State.answer_receive]
    · rw [State.answer_setMap_receive]
      rfl
  · rw [exec_pageSet hr ha i g r w rfl]
    cases hd : (s.map.page i).defined with
    | false => rw [State.onQuietPage_unused _ _ hd]; rfl
    | true =>
      cases hs : (s.map.page i).staging with
      | some st => rw [State.onQuietPage_busy _ _ hd hs]; rfl
      | none => rw [State.onQuietPage_done _ _ hd hs]; rfl
  · rw [exec_retirePage hr ha i rfl, State.onQuietPage_unused _ _ hd]
  · rw [exec_retirePage hr ha i rfl, State.onQuietPage_busy _ _ hd hs]
  · rw [exec_retirePage hr ha i rfl, State.onQuietPage_done _ _ hd hs]
    obtain ⟨hframes, hrefs, hserial, hlimit⟩ :=
      (s.map.setPage i PageRecord.unused).releaseLive_store (s.map.page i).live
    refine ⟨_, rfl, rfl, ?_, hrefs, hframes, hserial, hlimit, ?_⟩
    · exact (s.map.setPage i PageRecord.unused).releaseLive_pages (s.map.page i).live
    · exact (s.map.setPage i PageRecord.unused).releaseLive_frames (s.map.page i).live

/-! ### PAGE_STATUS -/

/-- Five flags in one byte (R13). -/
theorem flags_bit (a b c d e : Bool) (k : Nat) :
    (byteOf (a.toNat + 2 * b.toNat + 4 * c.toNat + 8 * d.toNat + 16 * e.toNat)).getLsbD k =
      match k with
      | 0 => a
      | 1 => b
      | 2 => c
      | 3 => d
      | 4 => e
      | _ => false := by
  match k with
  | 0 | 1 | 2 | 3 | 4 => revert a b c d e; decide
  | k + 5 =>
    have hlt : a.toNat + 2 * b.toNat + 4 * c.toNat + 8 * d.toNat + 16 * e.toNat < 2 ^ (k + 5) := by
      have := Bool.toNat_le a
      have := Bool.toNat_le b
      have := Bool.toNat_le c
      have := Bool.toNat_le d
      have := Bool.toNat_le e
      have : 2 ^ 5 ≤ 2 ^ (k + 5) := Nat.pow_le_pow_right (by decide) (by omega)
      omega
    simp [byteOf, BitVec.getLsbD_ofNat, Nat.testBit_lt_two_pow hlt]

/-- A port set and a port number in one byte (R13). -/
theorem portSetAndPort_bit (r : PortSet) (n : Nat) (hn : n < 4) (k : Nat) :
    (byteOf (r.toNat + 16 * n)).getLsbD k =
      if k < 4 then r.getLsbD k else if k < 6 then (BitVec.ofNat 2 n).getLsbD (k - 4) else false := by
  have hr : r.toNat < 2 ^ 4 := r.isLt
  have hbit : (r.toNat + 16 * n).testBit k = if k < 4 then r.toNat.testBit k else n.testBit (k - 4) := by
    rw [Nat.add_comm]
    exact Nat.testBit_two_pow_mul_add n hr k
  rw [byteOf, BitVec.getLsbD_ofNat, hbit, BitVec.getLsbD_ofNat]
  split
  · rename_i hk
    simp [BitVec.getLsbD, show k < 8 by omega]
  · split
    · simp [show k < 8 by omega, show k - 4 < 2 by omega]
    · have hlt : n < 2 ^ (k - 4) := lt_of_lt_of_le hn (Nat.pow_le_pow_right (n := 2) (by decide) (by omega : 2 ≤ k - 4))
      simp [Nat.testBit_lt_two_pow hlt]

/-- The sixteen bytes, each with what it is (R13). -/
theorem PageRecord.statusBytes_eq (r : PageRecord) (i : Page) :
    r.statusBytes i =
      bytesOf16 i.val ++
        [byteOf (r.defined.toNat + 2 * r.live.isSome.toNat + 4 * r.staging.isSome.toNat +
            8 * (decide (r.staging.map Staging.state = some .ready)).toNat + 16 * r.lastPublished.isSome.toNat),
          byteOf r.group.val, r.writers ++ r.readers,
          byteOf (r.readersSince.toNat + 16 * (r.staging.map fun x => x.stager.val).getD 0)] ++
        bytes16 r.sequence ++ [(r.lastPublished.getD 0).setWidth 8, (r.staging.map Staging.cyclesLeft).getD 0] ++
        bytes16 ((r.staging.map Staging.serial).getD 0) ++ bytesOf16 ((r.live.map Fin.val).getD 0) ++
        bytesOf16 ((r.staging.map fun x => x.frame.val).getD 0) := by
  unfold PageRecord.statusBytes
  cases r.staging <;> cases r.live <;> simp

/-- Settles O19: the bytes of the record, one by one. -/
theorem pageStatusRecordLayout : Obligations.PageStatusRecordLayout := by
  intro p s i hr
  generalize hrec : s.map.page i = r
  have hexec : exec (.pageStatus p (BitVec.ofNat 16 i.val)) s =
      .next (s.answered p (.pageStatus p (BitVec.ofNat 16 i.val)) .ok (r.statusBytes i)) := by
    rw [← hrec, ← State.answer_receive]
    exact congrArg _ (State.serve_accepted _ hr (pageOf?_ofNat i) (s.lacksRight_none p))
  have hstager : (r.staging.map fun x => x.stager.val).getD 0 < 4 := by
    cases r.staging with
    | none => decide
    | some st => exact st.stager.isLt
  refine ⟨_, hexec, ?_⟩
  rw [PageRecord.statusBytes_eq]
  refine ⟨rfl, rfl, fun k => flags_bit _ _ _ _ _ k, rfl, fun k => ?_, fun k => ?_, rfl, rfl, rfl, rfl, rfl, rfl⟩
  · show (r.writers ++ r.readers).getLsbD k = _
    rw [BitVec.getLsbD_append]
  · exact portSetAndPort_bit r.readersSince _ hstager k

/-! ### Part reset -/

/-- Vectors that hold one value everywhere. -/
theorem getElem_replicate {α : Type} {n : Nat} (a : α) (k : Fin n) : (Vector.replicate n a)[k] = a :=
  Vector.getElem_replicate k.isLt

/-- A stop line after part reset keeps its pin (R130). -/
theorem State.holdInReset_line (s : State) (l : Line) :
    s.holdInReset.stop.lines[l] = { StopLine.reset with pin := s.stop.lines[l].pin } := by
  match l with
  | 0 => rfl
  | 1 => rfl

/-- The plans after part reset (R54). -/
theorem State.holdInReset_plan (s : State) (n : PlanName) :
    (s.holdInReset.sched.plan n).count = 1 ∧
      ∀ k : SlotNo, (s.holdInReset.sched.plan n).entries[k] = SlotEntry.reset := by
  have h : s.holdInReset.sched.plan n = Plan.reset := by cases n <;> rfl
  rw [h]
  exact ⟨rfl, getElem_replicate SlotEntry.reset⟩

/-- Settles O3: the reset values, block by block. -/
theorem partResetRestoresEveryBlock : Obligations.PartResetRestoresEveryBlock := by
  refine ⟨fun s => ⟨s.holdInReset, rfl, rfl, rfl, rfl, s.holdInReset_port, s.holdInReset_page, ?_⟩, fun s => rfl⟩
  have hfree : s.holdInReset.map.freeList = List.finRange 512 := by simp only [State.holdInReset, ExchangeMap.reset]
  have hviews : ∀ (p : Port) (pp : PortPage), s.holdInReset.view.views[p][pp] = none := fun p pp => by
    rw [show s.holdInReset.view.views[p] = Vector.replicate 128 none from getElem_replicate _ p]
    exact getElem_replicate _ pp
  have hlines : ∀ l : Line, s.holdInReset.stop.lines[l].filterTime = 0 ∧ s.holdInReset.stop.lines[l].freeze = 0 ∧
      s.holdInReset.stop.lines[l].mode = .follow ∧ s.holdInReset.stop.lines[l].filtered = .inactive ∧
      s.holdInReset.stop.lines[l].stop = .inactive ∧ s.holdInReset.stop.lines[l].pending = none ∧
      s.holdInReset.stop.lines[l].pin = s.stop.lines[l].pin := fun l => by
    rw [s.holdInReset_line l]
    exact ⟨rfl, rfl, rfl, rfl, rfl, rfl, rfl⟩
  exact ⟨hfree, rfl, getElem_replicate 0, rfl, rfl, rfl, s.holdInReset_plan, rfl, rfl, rfl, rfl, rfl, rfl, rfl, rfl,
    rfl, rfl, rfl, rfl, getElem_replicate _, getElem_replicate _, getElem_replicate _, rfl, hviews, getElem_replicate _,
    hlines, rfl, rfl, rfl, rfl, rfl, rfl, rfl, rfl, getElem_replicate _⟩

end Sys2Proof.Machine
end

section
/-! SUPPORT. A cycle start: what its claims keep of the frames, and the course of one staging through them, counted down
once, marked READY at most once, and published at most once (R9, R25, R26). -/

namespace Sys2Proof.Machine

/-! ### Frames through a cycle start -/

/-- From m to m' frames have only left their roles: the contents and the counts stay, the free list is longer at its
tail, and no frame has left the retiring set. -/
def ExchangeMap.Grows (m m' : ExchangeMap) : Prop :=
  m.SameStore m' ∧ m.freeList <+: m'.freeList ∧ ∀ f ∈ m.retiring, f ∈ m'.retiring

/-- Frame f has left its role: it is in the free list, or in the retiring set while it is referenced (R4, R6). -/
def ExchangeMap.HasReleased (m : ExchangeMap) (f : Frame) : Prop :=
  (m.refs[f] = 0 → f ∈ m.freeList) ∧ (m.refs[f] ≠ 0 → f ∈ m.retiring)

theorem ExchangeMap.Grows.refl (m : ExchangeMap) : m.Grows m := ⟨⟨rfl, rfl, rfl, rfl⟩, List.prefix_rfl, fun _ h => h⟩

theorem ExchangeMap.Grows.trans {m m' m'' : ExchangeMap} (h : m.Grows m') (h' : m'.Grows m'') : m.Grows m'' := by
  obtain ⟨hstore, hfree, hretiring⟩ := h
  obtain ⟨hstore', hfree', hretiring'⟩ := h'
  exact ⟨hstore.trans hstore', hfree.trans hfree', fun f hf => hretiring' f (hretiring f hf)⟩

theorem ExchangeMap.HasReleased.grows {m m' : ExchangeMap} {f : Frame} (hf : m.HasReleased f) (h : m.Grows m') :
    m'.HasReleased f := by
  obtain ⟨⟨-, hrefs, -⟩, hfree, hretiring⟩ := h
  rw [ExchangeMap.HasReleased, hrefs]
  exact ⟨fun h0 => hfree.subset (hf.1 h0), fun h0 => hretiring f (hf.2 h0)⟩

theorem ExchangeMap.setPage_grows (m : ExchangeMap) (i : Page) (r : PageRecord) : m.Grows (m.setPage i r) :=
  ⟨m.setPage_store i r, List.prefix_rfl, fun _ h => h⟩

theorem ExchangeMap.release_grows (m : ExchangeMap) (f : Frame) : m.Grows (m.release f) :=
  ⟨m.release_store f, m.release_freeList f ▸ List.prefix_append _ _, fun g hg =>
    (m.mem_release_retiring f g).2 (Or.inl hg)⟩

theorem ExchangeMap.release_hasReleased (m : ExchangeMap) (f : Frame) : (m.release f).HasReleased f := by
  rw [ExchangeMap.HasReleased, (m.release_store f).2.1]
  refine ⟨fun h0 => ?_, fun h0 => (m.mem_release_retiring f f).2 (Or.inr ⟨rfl, h0⟩)⟩
  rw [m.release_freeList f, if_pos h0]
  exact List.mem_append_right _ (List.mem_singleton_self f)

theorem ExchangeMap.removeStaging_grows (m : ExchangeMap) (i : Page) : m.Grows (m.removeStaging i) := by
  unfold ExchangeMap.removeStaging
  split
  · exact .refl m
  · exact (m.setPage_grows i _).trans (ExchangeMap.release_grows _ _)

theorem ExchangeMap.publishPage_grows (m : ExchangeMap) (i : Page) (st : Staging) (c : CycleCount) :
    m.Grows (m.publishPage i st c) := by
  unfold ExchangeMap.publishPage ExchangeMap.releaseLive
  split
  · exact m.setPage_grows i _
  · exact (m.setPage_grows i _).trans (ExchangeMap.release_grows _ _)

/-- A relation that every visit keeps, a fold keeps. -/
theorem foldl_related {α : Type} (R : α → α → Prop) (hrefl : ∀ a, R a a) (htrans : ∀ a b c, R a b → R b c → R a c)
    (visit : α → Page → α) (hvisit : ∀ a i, R a (visit a i)) (l : List Page) (a : α) : R a (l.foldl visit a) := by
  induction l generalizing a with
  | nil => exact hrefl a
  | cons i l ih => exact htrans _ _ _ (hvisit a i) (ih _)

theorem ExchangeMap.swap_grows (m : ExchangeMap) (g : Group) (c : CycleCount) : m.Grows (m.swap g c).map := by
  refine foldl_related (fun a b : SwapResult => a.map.Grows b.map) (fun a => .refl a.map) (fun _ _ _ => .trans)
    (ExchangeMap.swapPage g c) (fun a i => ?_) (List.finRange 320) { map := m, published := 0, late := [] }
  unfold ExchangeMap.swapPage
  split
  · split
    · exact .refl _
    · split
      · exact .refl _
      · exact a.map.publishPage_grows i _ c
  · exact .refl _

/-- The countdown goes on: frames leave their roles, and expired stagings join the list. -/
def Counts (a b : ExchangeMap × List Expired) : Prop := a.1.Grows b.1 ∧ ∀ e ∈ a.2, e ∈ b.2

theorem Counts.refl (a : ExchangeMap × List Expired) : Counts a a := ⟨.refl a.1, fun _ h => h⟩

theorem Counts.trans {a b c : ExchangeMap × List Expired} (h : Counts a b) (h' : Counts b c) : Counts a c := by
  obtain ⟨hgrows, hlist⟩ := h
  obtain ⟨hgrows', hlist'⟩ := h'
  exact ⟨hgrows.trans hgrows', fun e he => hlist' e (hlist e he)⟩

theorem ExchangeMap.countPage_counts (a : ExchangeMap × List Expired) (i : Page) :
    Counts a (ExchangeMap.countPage a i) := by
  unfold ExchangeMap.countPage
  split
  · exact .refl a
  · split
    · split
      · exact ⟨a.1.removeStaging_grows i, fun e he => List.mem_append_left _ he⟩
      · exact ⟨a.1.setPage_grows i _, fun _ h => h⟩
    · exact .refl a

theorem ExchangeMap.countPages_counts (l : List Page) (a : ExchangeMap × List Expired) :
    Counts a (l.foldl ExchangeMap.countPage a) :=
  foldl_related Counts .refl (fun _ _ _ => .trans) ExchangeMap.countPage ExchangeMap.countPage_counts l a

theorem ExchangeMap.countStagings_grows (m : ExchangeMap) : m.Grows m.countStagings.1 :=
  (ExchangeMap.countPages_counts (List.finRange 320) (m, [])).1

theorem ExchangeMap.countPage_expires {a : ExchangeMap × List Expired} {i : Page} {st : Staging}
    (hs : (a.1.page i).staging = some st) (ho : st.state = .opened) (hc : st.cyclesLeft = 1) :
    ExchangeMap.countPage a i =
      (a.1.removeStaging i, a.2 ++ [{ page := i, stager := st.stager, serial := st.serial }]) := by
  simp [ExchangeMap.countPage, hs, ho, hc]

/-- An OPEN staging with one cycle left expires: it is listed, and its frame is released (R25). -/
theorem ExchangeMap.countStagings_expires {m : ExchangeMap} {i : Page} {st : Staging}
    (hs : (m.page i).staging = some st) (ho : st.state = .opened) (hc : st.cyclesLeft = 1) :
    { page := i, stager := st.stager, serial := st.serial } ∈ m.countStagings.2 ∧
      m.countStagings.1.HasReleased st.frame := by
  obtain ⟨before, behind, hl⟩ := List.append_of_mem (List.mem_finRange i)
  have hnot : before.Nodup ∧ i ∉ before := by
    have hn := nodup_pages
    rw [hl, List.nodup_append] at hn
    exact ⟨hn.1, fun hi => hn.2.2 i hi i (List.mem_cons_self ..) rfl⟩
  have hpage := foldl_page Prod.fst ExchangeMap.countPage (fun _ r => r.counted)
    (fun a i j => ExchangeMap.countPage_page a i j) before hnot.1 (m, []) i
  rw [if_neg hnot.2] at hpage
  have hvisit := ExchangeMap.countPage_expires (a := before.foldl ExchangeMap.countPage (m, []))
    (by rw [hpage]; exact hs) ho hc
  unfold ExchangeMap.countStagings
  rw [hl, List.foldl_append, List.foldl_cons, hvisit]
  generalize before.foldl ExchangeMap.countPage (m, []) = a at hpage
  obtain ⟨hgrows, hlist⟩ := ExchangeMap.countPages_counts behind
    (a.1.removeStaging i, a.2 ++ [{ page := i, stager := st.stager, serial := st.serial }])
  refine ⟨hlist _ (List.mem_append_right _ (List.mem_singleton_self _)), ExchangeMap.HasReleased.grows ?_ hgrows⟩
  unfold ExchangeMap.removeStaging
  rw [hpage, hs]
  exact ExchangeMap.release_hasReleased _ _

/-- The countdown among the claims of a cycle start. -/
theorem State.takeCycleClaim_count (u : State) :
    u.takeCycleClaim .countStagings =
      (u.setMap u.map.countStagings.1,
        (u.expiredNotices u.map.countStagings.2).map (Outgoing.mk .exchangeMap)) := rfl

/-- Every claim of a cycle start lets frames leave their roles alone. -/
theorem State.takeCycleClaim_grows (u : State) (c : CycleClaim) : u.map.Grows (u.takeCycleClaim c).1.map := by
  cases c with
  | block c =>
    have h : u.map.Grows (u.takeClaim c).1.map := by
      rcases u.takeClaim_map c with h | ⟨g, -, -, h⟩ <;> rw [h]
      · exact .refl u.map
      · exact u.map.swap_grows g _
    exact h
  | countStagings =>
    rw [State.takeCycleClaim_count, State.setMap_map]
    exact u.map.countStagings_grows
  | markReady p =>
    have h : u.map.Grows (u.markReady p).map := by
      rcases u.markReady_eq p with h | ⟨pp, j, st, -, -, -, -, -, h⟩ <;> rw [h]
      · exact .refl u.map
      · exact u.map.setPage_grows j _
    exact h

theorem State.takeCycleClaims_grows (u : State) (cs : List CycleClaim) :
    u.map.Grows (u.takeCycleClaims cs).1.map :=
  u.takeCycleClaims_keeps (fun v => u.map.Grows v.map) (fun v c hv => hv.trans (v.takeCycleClaim_grows c)) cs
    (.refl u.map)

/-! ### The claims of a cycle start -/

theorem State.takeCycleClaims_cons (s : State) (c : CycleClaim) (cs : List CycleClaim) :
    s.takeCycleClaims (c :: cs) =
      (((s.takeCycleClaim c).1.takeCycleClaims cs).1,
        (s.takeCycleClaim c).2 ++ ((s.takeCycleClaim c).1.takeCycleClaims cs).2) := rfl

/-- Claims of a cycle start taken one list after another. -/
theorem State.takeCycleClaims_append (s : State) (cs ds : List CycleClaim) :
    s.takeCycleClaims (cs ++ ds) =
      (((s.takeCycleClaims cs).1.takeCycleClaims ds).1,
        (s.takeCycleClaims cs).2 ++ ((s.takeCycleClaims cs).1.takeCycleClaims ds).2) := by
  induction cs generalizing s with
  | nil => rfl
  | cons c cs ih =>
    rw [List.cons_append, State.takeCycleClaims, ih]
    simp [State.takeCycleClaims]

/-- The countdown stands among the claims of a cycle start exactly once (R25, R39). -/
theorem State.count_cycleStartClaims (s : State) (pick : Nat → Nat) (point : Option Group) :
    (s.cycleStartClaims pick point).count .countStagings = 1 := by
  have hmarks : ∀ claims : List CycleClaim,
      (insertMarks pick claims).count .countStagings = claims.count .countStagings := by
    intro claims
    unfold insertMarks
    generalize List.finRange 4 = ports
    induction ports generalizing claims with
    | nil => rfl
    | cons p ports ih =>
      rw [List.foldl_cons, ih]
      split
      · rw [(insertAt_perm _ _ _).count_eq, List.count_cons_of_ne (by simp)]
      · rfl
  unfold State.cycleStartClaims
  rw [hmarks, (insertAt_perm _ _ _).count_eq, List.count_cons_self, List.count_eq_zero.2 (by simp)]

/-- The claims of a cycle start, with the countdown between those before it and those behind it. -/
theorem State.cycleStartClaims_split (s : State) (pick : Nat → Nat) (point : Option Group) :
    ∃ before behind, s.cycleStartClaims pick point = before ++ .countStagings :: behind ∧
      .countStagings ∉ before ∧ .countStagings ∉ behind := by
  have hcount := s.count_cycleStartClaims pick point
  obtain ⟨before, behind, hl⟩ := List.append_of_mem (List.count_pos_iff.1 (by omega :
    0 < (s.cycleStartClaims pick point).count .countStagings))
  rw [hl, List.count_append, List.count_cons_self] at hcount
  exact ⟨before, behind, hl, List.count_eq_zero.1 (by omega), List.count_eq_zero.1 (by omega)⟩

/-! ### One staging through a cycle start -/

/-- What has become of staging st of page i within a cycle start from s, counted down already or not: it is OPEN still,
or gone; it is READY, as it was or marked; or it is published. -/
inductive State.StagingCourse (s : State) (i : Page) (st : Staging) (counted : Bool) (u : State) : Prop where
  | plain (ho : st.state = .opened)
      (hwaits : (∃ pp, s.Awaits st.stager (.stageReady pp) i) → ∃ o, (u.port st.stager).tx = .accepted o)
      (hpage : u.map.page i = { s.map.page i with staging := if counted then st.counted else some st })
  | ready (new : Staging) (hready : new.state = .ready) (hframe : new.frame = st.frame)
      (hnew : (st.state = .ready ∧ new = st) ∨ (s.Marks u i st ∧ (new = { st with state := .ready } ∨
        (st.cyclesLeft ≠ 0 ∧ st.cyclesLeft ≠ 1 ∧
          new = { st with state := .ready, cyclesLeft := st.cyclesLeft - 1 }))))
      (hpage : u.map.page i = { s.map.page i with staging := some new })
  | published (hnew : st.state = .ready ∨ s.Marks u i st)
      (hpage : u.map.page i = (s.map.page i).published u.sched.cycleCount)

/-- u stands within a cycle start from s: no page part has been put off anew, and staging st of page i has gone its
course. -/
def State.InStart (s : State) (i : Page) (st : Staging) (counted : Bool) (u : State) : Prop :=
  s.AwaitsNoMore u ∧ s.StagingCourse i st counted u

/-- A marking is not undone. -/
theorem State.Marks.takeCycleClaim {s u : State} {i : Page} {st : Staging} (h : s.Marks u i st) (c : CycleClaim) :
    s.Marks (u.takeCycleClaim c).1 i st := by
  obtain ⟨ho, hmay, hwaits, hanswer⟩ := h
  refine ⟨ho, hmay, hwaits, ?_⟩
  rw [State.takeCycleClaim_port (fun o ho => nomatch hanswer.symm.trans ho)]
  exact hanswer

/-- A page that is not READY for a swap, or that no swap meets, stays as it is; the others are published. -/
theorem State.takeClaim_page (u : State) (c : Claim) (i : Page) :
    (u.takeClaim c).1.map.page i = u.map.page i ∨
      ((∃ st, (u.map.page i).staging = some st ∧ st.state = .ready) ∧
        (u.takeClaim c).1.map.page i = (u.map.page i).published u.sched.cycleCount) := by
  rcases u.takeClaim_map c with h | ⟨g, -, -, h⟩ <;> rw [h]
  · exact Or.inl rfl
  · rw [ExchangeMap.swap_page]
    unfold PageRecord.swapped
    split
    · rename_i st hst
      split
      · rename_i hg
        exact Or.inr ⟨⟨st, hst, hg.2.2⟩, rfl⟩
      · exact Or.inl rfl
    · exact Or.inl rfl

theorem PageRecord.published_staged {r : PageRecord} {st new : Staging} (hs : r.staging = some st)
    (hframe : new.frame = st.frame) (c : CycleCount) :
    PageRecord.published { r with staging := some new } c = r.published c := by
  simp [PageRecord.published, hs, hframe]

/-- A staging counted down, marked or not, is OPEN still (R9). -/
theorem Staging.counted_opened {st new : Staging} (ho : st.state = .opened) (h : st.counted = some new) :
    new.state = .opened := by
  unfold Staging.counted at h
  split at h
  · cases h
    exact ho
  · split at h
    · cases h
    · cases h
      exact ho

/-- A claim of the blocks, on a staging in its course (R63). -/
theorem State.InStart.takeClaim {s u : State} {i : Page} {st : Staging} {counted : Bool}
    (hs : (s.map.page i).staging = some st) (h : s.InStart i st counted u) (c : Claim) :
    s.InStart i st counted (u.takeClaim c).1 := by
  obtain ⟨hawaits, hcourse⟩ := h
  have ho := u.takeClaim_only c
  have hport : ∀ p, (u.takeClaim c).1.port p = u.port p := State.port_congr ho.link
  have hmarks : s.Marks u i st → s.Marks (u.takeClaim c).1 i st := fun h => h.takeCycleClaim (.block c)
  have hcount : (u.takeClaim c).1.sched.cycleCount = u.sched.cycleCount := by rw [ho.sched]
  have hpage := u.takeClaim_page c i
  refine ⟨fun p x j hw => hawaits p x j ((congrArg LinkPort.tx (hport p)).symm.trans hw), ?_⟩
  cases hcourse with
  | plain hopen hwaits hplain =>
    rcases hpage with hsame | ⟨⟨new, hnew, hready⟩, -⟩
    · exact .plain hopen (fun hw => hport st.stager ▸ hwaits hw) (hsame.trans hplain)
    · rw [hplain] at hnew
      have hstate : new.state = .opened := by
        cases counted with
        | false =>
          cases hnew
          exact hopen
        | true => exact Staging.counted_opened hopen hnew
      exact absurd (hstate.symm.trans hready) (by simp)
  | ready new hready hframe hnew hstaged =>
    rcases hpage with hsame | ⟨-, hpub⟩
    · exact .ready new hready hframe (hnew.imp_right fun ⟨hm, hx⟩ => ⟨hmarks hm, hx⟩) (hsame.trans hstaged)
    · refine .published (hnew.imp And.left fun hm => hmarks hm.1) ?_
      rw [hpub, hstaged, PageRecord.published_staged hs hframe, hcount]
  | published hnew hpub =>
    rcases hpage with hsame | ⟨⟨new, hstaging, -⟩, -⟩
    · exact .published (hnew.imp_right hmarks) (by rw [hsame, hpub, hcount])
    · rw [hpub] at hstaging
      cases hstaging

/-- The staging that a marking finds of page i, in its course, is st, counted down or not (R26). -/
theorem State.StagingCourse.markable {s u : State} {i : Page} {st st' : Staging} {counted : Bool}
    (h : s.StagingCourse i st counted u) (hs : (u.map.page i).staging = some st') (ho : st'.state = .opened) :
    st.state = .opened ∧ u.map.page i = { s.map.page i with staging := some st' } ∧
      (st' = st ∨ (st.cyclesLeft ≠ 0 ∧ st.cyclesLeft ≠ 1 ∧ st' = { st with cyclesLeft := st.cyclesLeft - 1 })) := by
  cases h with
  | plain hopen _ hpage =>
    have hst : (if counted then st.counted else some st) = some st' := by rw [hpage] at hs; exact hs
    refine ⟨hopen, by rw [hpage, hst], ?_⟩
    cases counted with
    | false =>
      cases hst
      exact Or.inl rfl
    | true =>
      unfold Staging.counted at hst
      simp only [if_true] at hst
      split at hst
      · cases hst
        exact Or.inl rfl
      · rename_i hc
        split at hst
        · cases hst
        · rename_i h1
          cases hst
          exact Or.inr ⟨fun h0 => hc (Or.inr h0), h1, rfl⟩
  | ready new hready _ _ hpage =>
    rw [hpage] at hs
    cases hs
    exact absurd (ho.symm.trans hready) (by simp)
  | published _ hpage =>
    rw [hpage] at hs
    cases hs

/-- A marking of port p, on a staging in its course: of this page, or of another one (R22, R26). -/
theorem State.InStart.markReady {s u : State} {i : Page} {st : Staging} {counted : Bool}
    (h : s.InStart i st counted u) (p : Port) : s.InStart i st counted (u.markReady p) := by
  obtain ⟨hawaits, hcourse⟩ := h
  have hmarks : s.Marks u i st → s.Marks (u.markReady p) i st := fun h => h.takeCycleClaim (.markReady p)
  rcases u.markReady_eq p with he | ⟨pp, j, st', hw, hmay, hst', hp, ho, he⟩
  · rw [he]
    exact ⟨hawaits, hcourse⟩
  have hmap : (u.markReady p).map =
      u.map.setPage j { u.map.page j with staging := some { st' with state := .ready } } := by
    rw [he]
    rfl
  have hport : (u.markReady p).port p = { u.port p with tx := .response { status := .ok, body := [] } } := by
    rw [he, State.answer_eq, State.port_setPort_same, State.port_setMap]
  have hother : ∀ q, q ≠ p → (u.markReady p).port q = u.port q := fun q hq => by
    rw [he, State.answer_eq, State.port_setPort_ne _ _ hq, State.port_setMap]
  have hcount : (u.markReady p).sched.cycleCount = u.sched.cycleCount := by rw [he]; rfl
  refine ⟨fun q x k hq => hawaits q x k ?_, ?_⟩
  · by_cases hqp : q = p
    · subst hqp
      rw [State.Awaits, hport] at hq
      cases hq
    · rwa [State.Awaits, hother q hqp] at hq
  by_cases hij : i = j
  · subst hij
    obtain ⟨hopen, hpage, hcut⟩ := hcourse.markable hst' ho
    have hstager : st.stager = p := by rcases hcut with rfl | ⟨-, -, rfl⟩ <;> exact hp
    have hmay' : s.MayStage st.stager i := by
      rw [State.MayStage, hpage] at hmay
      exact hstager ▸ hmay
    have hm : s.Marks (u.markReady p) i st :=
      ⟨hopen, hmay', ⟨pp, hstager ▸ hawaits _ _ _ hw⟩, by rw [hstager, hport]⟩
    refine .ready { st' with state := .ready } rfl ?_ (Or.inr ⟨hm, ?_⟩) ?_
    · rcases hcut with rfl | ⟨-, -, rfl⟩ <;> rfl
    · rcases hcut with rfl | ⟨h0, h1, rfl⟩
      · exact Or.inl rfl
      · exact Or.inr ⟨h0, h1, rfl⟩
    · rw [hmap, ExchangeMap.page_setPage, if_pos rfl, hpage]
  · have hsame : (u.markReady p).map.page i = u.map.page i := by
      rw [hmap, ExchangeMap.page_setPage, if_neg hij]
    cases hcourse with
    | plain hopen hwaits hpage =>
      refine .plain hopen (fun hx => ?_) (hsame.trans hpage)
      have hne : st.stager ≠ p := by
        rintro rfl
        obtain ⟨pp', hx⟩ := hx
        cases hx.symm.trans (hawaits _ _ _ hw)
        exact hij rfl
      rw [hother _ hne]
      exact hwaits hx
    | ready new hready hframe hnew hpage =>
      exact .ready new hready hframe (hnew.imp_right fun ⟨hm, hx⟩ => ⟨hmarks hm, hx⟩) (hsame.trans hpage)
    | published hnew hpage => exact .published (hnew.imp_right hmarks) (by rw [hsame, hpage, hcount])

theorem PageRecord.staging_some_eq {r : PageRecord} {st : Staging} (h : r.staging = some st) :
    { r with staging := some st } = r := by
  rw [← h]

/-- The countdown of one page, in the terms of its staging (R9, R25). -/
theorem PageRecord.counted_eq {r : PageRecord} {st : Staging} (hs : r.staging = some st) :
    r.counted = { r with staging := st.counted } := by
  simp only [PageRecord.counted, hs, Staging.counted]
  cases ho : st.state with
  | ready =>
    simp only [reduceCtorEq, false_and, if_false, true_or, if_true]
    exact (PageRecord.staging_some_eq hs).symm
  | opened =>
    by_cases h0 : st.cyclesLeft = 0
    · simp only [h0, ne_eq, not_true, and_false, if_false, or_true, if_true]
      exact (PageRecord.staging_some_eq hs).symm
    · simp only [h0, ne_eq, not_false_eq_true, and_self, if_true, reduceCtorEq, or_self, if_false]
      split <;> rfl

/-- The countdown, on a staging in its course. -/
theorem State.InStart.countStagings {s u : State} {i : Page} {st : Staging} (h : s.InStart i st false u) :
    s.InStart i st true (u.takeCycleClaim .countStagings).1 := by
  obtain ⟨hawaits, hcourse⟩ := h
  have hpage : (u.takeCycleClaim .countStagings).1.map.page i = (u.map.page i).counted := by
    rw [State.takeCycleClaim_count, State.setMap_map, u.map.countStagings_page i]
  have hport : ∀ q, (u.takeCycleClaim .countStagings).1.port q = u.port q := fun q => by
    rw [State.takeCycleClaim_count, State.port_setMap]
  have hmarks : s.Marks u i st → s.Marks (u.takeCycleClaim .countStagings).1 i st := fun h => h.takeCycleClaim _
  have hcount : (u.takeCycleClaim .countStagings).1.sched.cycleCount = u.sched.cycleCount := by
    rw [State.takeCycleClaim_count, State.setMap_sched]
  generalize (u.takeCycleClaim .countStagings).1 = v at hpage hport hmarks hcount
  refine ⟨fun p x j hw => hawaits p x j (by rwa [State.Awaits, hport] at hw), ?_⟩
  cases hcourse with
  | plain hopen hwaits hplain =>
    refine .plain hopen (fun hw => hport st.stager ▸ hwaits hw) ?_
    rw [hpage, PageRecord.counted_eq (st := st) (by rw [hplain]; rfl), hplain]
    rfl
  | ready new hready hframe hnew hstaged =>
    refine .ready new hready hframe (hnew.imp_right fun ⟨hm, hx⟩ => ⟨hmarks hm, hx⟩) ?_
    rw [hpage, PageRecord.counted_eq (st := new) (by rw [hstaged]), hstaged]
    simp [Staging.counted, hready]
  | published hnew hpub =>
    refine .published (hnew.imp_right hmarks) ?_
    rw [hpage, hpub, hcount]
    rfl

/-- Claims of a cycle start without the countdown, on a staging in its course. -/
theorem State.InStart.takeCycleClaims {s : State} {i : Page} {st : Staging} {counted : Bool}
    (hs : (s.map.page i).staging = some st) {cs : List CycleClaim} (hcs : .countStagings ∉ cs) {u : State}
    (h : s.InStart i st counted u) : s.InStart i st counted (u.takeCycleClaims cs).1 := by
  induction cs generalizing u with
  | nil => exact h
  | cons c cs ih =>
    rw [List.mem_cons, not_or] at hcs
    refine ih hcs.2 ?_
    cases c with
    | block c => exact h.takeClaim hs c
    | countStagings => exact absurd rfl hcs.1
    | markReady p => exact h.markReady p

theorem State.Marks.takeCycleClaims {s u : State} {i : Page} {st : Staging} (h : s.Marks u i st)
    (cs : List CycleClaim) : s.Marks (u.takeCycleClaims cs).1 i st :=
  u.takeCycleClaims_keeps (fun v => s.Marks v i st) (fun _ c hv => hv.takeCycleClaim c) cs h

/-- Notices leave a staging in its course. -/
theorem State.InStart.notified {s u : State} {i : Page} {st : Staging} {counted : Bool}
    (h : s.InStart i st counted u) (n : NoticeUnit) : s.InStart i st counted (u.setNotice n) := by
  obtain ⟨hawaits, hcourse⟩ := h
  refine ⟨hawaits, ?_⟩
  cases hcourse with
  | plain ho hwaits hpage => exact .plain ho hwaits hpage
  | ready new hready hframe hnew hpage => exact .ready new hready hframe hnew hpage
  | published hnew hpage => exact .published hnew hpage

/-! ### A cycle start -/

/-- A stamp depends on the schedule and the timebase alone, which the claims leave. -/
theorem State.takeCycleClaims_stamp (u : State) (cs : List CycleClaim) : (u.takeCycleClaims cs).1.stamp = u.stamp := by
  rw [u.takeCycleClaims_only cs]
  rfl

theorem State.mem_expiredNotices (u : State) {es : List Expired} {e : Expired} (h : e ∈ es) :
    { sender := .exchangeMap, message := u.address e.stager (.stageExpired e.page e.serial) } ∈
      (u.expiredNotices es).map (Outgoing.mk .exchangeMap) :=
  List.mem_map_of_mem (List.mem_map_of_mem (f := fun e => u.address e.stager (.stageExpired e.page e.serial)) h)

/-- What the claims of a cycle start make of staging st of page i: its course; and an OPEN staging with one cycle left
that no STAGE_READY has marked expires (R25). -/
theorem State.takeCycleClaims_staging {s u : State} {i : Page} {st : Staging}
    (hs : (s.map.page i).staging = some st) (hmap : u.map = s.map) (hlink : u.link = s.link)
    {before behind : List CycleClaim} (hbefore : .countStagings ∉ before) (hbehind : .countStagings ∉ behind)
    {r : State × List Outgoing}
    (hr : u.takeCycleClaims (before ++ .countStagings :: behind) = r) :
    s.InStart i st true r.1 ∧
      (st.state = .opened → ¬ s.Marks r.1 i st → st.cyclesLeft = 1 →
        { sender := .exchangeMap, message := u.address st.stager (.stageExpired i st.serial) } ∈ r.2 ∧
          r.1.map.HasReleased st.frame) := by
  have hport : ∀ q, u.port q = s.port q := State.port_congr hlink
  have hstart : s.InStart i st false u := by
    refine ⟨fun p x j hw => by rwa [State.Awaits, hport] at hw, ?_⟩
    have hpage : u.map.page i = { s.map.page i with staging := some st } := by rw [hmap, ← hs]
    cases ho : st.state with
    | opened => exact .plain ho (fun ⟨pp, hw⟩ => ⟨_, (congrArg LinkPort.tx (hport _)).trans hw⟩) hpage
    | ready => exact .ready st ho rfl (Or.inl ⟨ho, rfl⟩) hpage
  have hmid := hstart.takeCycleClaims hs hbefore
  have hstamp := u.takeCycleClaims_stamp before
  rw [State.takeCycleClaims_append, State.takeCycleClaims_cons] at hr
  generalize u.takeCycleClaims before = a at hr hmid hstamp
  have hend := hmid.countStagings.takeCycleClaims hs hbehind
  have hgrows := (a.1.takeCycleClaim .countStagings).1.takeCycleClaims_grows behind
  subst hr
  refine ⟨hend, fun ho hnot hcycles => ?_⟩
  obtain ⟨-, hcourse⟩ := hmid
  have hunmarked : ¬ s.Marks a.1 i st := fun hm => hnot ((hm.takeCycleClaim .countStagings).takeCycleClaims behind)
  have hstaging : (a.1.map.page i).staging = some st := by
    cases hcourse with
    | plain _ _ hpage =>
      rw [hpage]
      rfl
    | ready new hready _ hnew _ =>
      rcases hnew with ⟨hr, -⟩ | ⟨hm, -⟩
      · exact absurd (ho.symm.trans hr) (by simp)
      · exact absurd hm hunmarked
    | published hnew _ =>
      rcases hnew with hr | hm
      · exact absurd (ho.symm.trans hr) (by simp)
      · exact absurd hm hunmarked
  obtain ⟨hlisted, hreleased⟩ := ExchangeMap.countStagings_expires hstaging ho hcycles
  have hmap : (a.1.takeCycleClaim .countStagings).1.map = a.1.map.countStagings.1 := by
    rw [State.takeCycleClaim_count, State.setMap_map]
  rw [← hmap] at hreleased
  refine ⟨List.mem_append_right _ (List.mem_append_left _ ?_), hreleased.grows hgrows⟩
  have haddress : u.address st.stager (.stageExpired i st.serial) =
      a.1.address st.stager (.stageExpired i st.serial) := by
    rw [State.address, State.address, hstamp]
  rw [haddress, State.takeCycleClaim_count]
  dsimp only
  generalize a.1.map.countStagings.2 = expired at hlisted ⊢
  exact a.1.mem_expiredNotices hlisted

/-- A cycle start makes of staging st of page i what its claims make of it, and the notice of its expiry is found (R25).
-/
theorem State.startCycle_staging {s : State} {i : Page} {st : Staging} (hs : (s.map.page i).staging = some st)
    (pick : Nat → Nat) (earlier : List Message) :
    s.InStart i st true (s.startCycle pick earlier) ∧ s.map.Grows (s.startCycle pick earlier).map ∧
      (st.state = .opened → ¬ s.Marks (s.startCycle pick earlier) i st → st.cyclesLeft = 1 →
        (s.startCycle pick earlier).Found st.stager
            { stamp := (s.startCycle pick earlier).stamp, body := .stageExpired i st.serial } ∧
          (s.startCycle pick earlier).map.HasReleased st.frame) := by
  have hstamp : (s.startCycle pick earlier).stamp = (s.setSched (s.sched.beginCycle s.stop.anyActive)).stamp := by
    rw [s.startCycle_only pick earlier]
    rfl
  rw [hstamp]
  unfold State.startCycle State.handOutCycleStart
  dsimp only
  generalize hu : s.setSched (s.sched.beginCycle s.stop.anyActive) = u
  have hmap : u.map = s.map := by rw [← hu]; rfl
  have hlink : u.link = s.link := by rw [← hu]; rfl
  obtain ⟨before, behind, hl, hbefore, hbehind⟩ := u.cycleStartClaims_split pick u.sched.slotPoint
  have hgrows := u.takeCycleClaims_grows (before ++ .countStagings :: behind)
  rw [hl]
  generalize hr : u.takeCycleClaims (before ++ .countStagings :: behind) = r at hgrows
  obtain ⟨hstart, hexpires⟩ := State.takeCycleClaims_staging hs hmap hlink hbefore hbehind hr
  refine ⟨hstart.notified _, hmap ▸ hgrows, fun ho hnot hcycles => ?_⟩
  obtain ⟨hout, hreleased⟩ := hexpires ho hnot hcycles
  exact ⟨State.notifyFrom_delivers _ _ _ _ (List.mem_append_right _ hout) st.stager (decide_eq_true rfl), hreleased⟩

/-- An event that takes a cycle start comes to what every cycle start comes to (R36, R42). -/
theorem comesTo_of_startCycle {c : Instr} {cond : State → Prop} {result : State → State → Prop}
    (hcond : ∀ s, cond s → s.startsCycle c = true)
    (hresult : ∀ s pick earlier, cond s → result s (s.startCycle pick earlier).bump) : ComesTo c cond result := by
  have hedge : ∀ s : State, s.startsCycle .syncEdge = true →
      s.takeEdge = (s.startCycle (fun k => s.draw (k + 1)) []).bump := by
    intro s hs
    have he : s.sched.engine = .waitingSync := of_decide_eq_true hs
    simp only [State.takeEdge, State.syncEdge, he]
  refine ⟨fun s hr hc => ?_, ?_⟩
  · have hs := hcond s hc
    cases c
    case endOfSlot =>
      obtain ⟨he, hlast, hfree⟩ : s.sched.engine = .inCycle ∧
          s.sched.activePlan.count.val ≤ s.sched.slotIndex.val + 1 ∧ s.sched.syncMode = .free := of_decide_eq_true hs
      refine ⟨_, rfl, Or.inl ?_⟩
      rw [State.unlessReset_released hr, State.endSlot, he]
      simp only [dif_neg (Nat.not_lt.2 hlast), hfree]
      exact hresult s _ _ hc
    case syncEdge =>
      refine ⟨_, rfl, ?_⟩
      rw [State.unlessReset_released hr]
      split
      · rename_i hleft
        rw [Bool.and_eq_true, Bool.not_eq_true'] at hleft
        exact Or.inr ⟨rfl, hleft.1, rfl⟩
      · rw [hedge s hs]
        exact Or.inl (hresult s _ _ hc)
    case gapExpiry =>
      obtain ⟨he, hgap⟩ := Bool.and_eq_true_iff.1 hs
      obtain ⟨n, hn⟩ := Option.isSome_iff_exists.1 hgap
      refine ⟨_, rfl, Or.inl ?_⟩
      rw [State.unlessReset_released hr, State.expireGap, of_decide_eq_true he, hn]
      exact hresult s _ _ hc
    all_goals exact absurd hs Bool.false_ne_true
  · rintro rfl s s' - rfl hc
    show result _ (State.takeEdge _)
    rw [hedge _ (hcond _ hc)]
    exact hresult _ _ _ hc

/-- Settles O31: the course of the staging through the claims of the cycle start. -/
theorem cycleStartCountsStagings : Obligations.CycleStartCountsStagings := by
  refine fun c i st => comesTo_of_startCycle (fun s hc => hc.1) fun s pick earlier ⟨_, hs⟩ => ?_
  obtain ⟨⟨-, hcourse⟩, hgrows, hexpires⟩ := State.startCycle_staging hs pick earlier
  generalize s.startCycle pick earlier = t at hcourse hgrows hexpires
  obtain ⟨⟨hframes, hrefs, hserial, -⟩, hfree, -⟩ := hgrows
  have hready : st.state = .ready → ¬ s.Marks t i st := fun hr hm => nomatch hr.symm.trans hm.1
  refine ⟨fun ho hnot => ⟨?_, fun hcycles => ?_⟩, fun hm => ?_, hfree, hrefs, hframes, hserial, fun hr => ?_⟩
  · cases hcourse with
    | plain _ _ hpage =>
      rw [State.bump, State.setChoices_map, hpage]
      simp [Staging.counted, ho]
    | ready _ _ _ hnew _ =>
      rcases hnew with ⟨hr, -⟩ | ⟨hm, -⟩
      · exact absurd (ho.symm.trans hr) (by simp)
      · exact absurd hm hnot
    | published hnew _ =>
      rcases hnew with hr | hm
      · exact absurd (ho.symm.trans hr) (by simp)
      · exact absurd hm hnot
  · obtain ⟨hfound, hreleased⟩ := hexpires ho hnot hcycles
    rw [ExchangeMap.HasReleased, hrefs] at hreleased
    refine ⟨hfound, ?_⟩
    split
    · exact hreleased.1 (by assumption)
    · exact hreleased.2 (by assumption)
  · obtain ⟨ho, -, hwaits, hanswer⟩ := id hm
    cases hcourse with
    | plain _ hput _ =>
      obtain ⟨o, hput⟩ := hput hwaits
      exact nomatch hanswer.symm.trans hput
    | ready new _ _ hnew hpage =>
      rcases hnew with ⟨hr, -⟩ | ⟨-, rfl | ⟨h0, h1, rfl⟩⟩
      · exact absurd (ho.symm.trans hr) (by simp)
      · exact Or.inl hpage
      · exact Or.inr (Or.inl ⟨h0, h1, hpage⟩)
    | published _ hpage => exact Or.inr (Or.inr hpage)
  · cases hcourse with
    | plain ho _ _ => exact absurd (ho.symm.trans hr) (by simp)
    | ready new _ _ hnew hpage =>
      rcases hnew with ⟨-, rfl⟩ | ⟨hm, -⟩
      · left
        rw [State.bump, State.setChoices_map, hpage, ← hs]
      · exact absurd hm (hready hr)
    | published _ hpage => exact Or.inr hpage

end Sys2Proof.Machine
end

section
/-! SUPPORT. The schedule through a step: which commands and events leave it alone, and that each of its own operations
keeps a lawful schedule lawful (R31, R34, R38, R43, R178). -/

namespace Sys2Proof

/-- The commands that can touch the schedule or the part state. -/
def Instr.movesSchedule : Instr → Bool
  | .start _ | .halt _ | .slotSet .. | .planLength .. | .planSwitch _ | .syncSet .. | .partReset | .endOfSlot
  | .syncEdge | .gapExpiry | .cyclePulseEnd | .alarmSwitchRequest => true
  | _ => false

end Sys2Proof

namespace Sys2Proof.Machine

/-! ### What leaves the schedule alone -/

/-- From s to t the schedule and the part state stay. -/
abbrev State.KeepsSchedule (s t : State) : Prop := t.sched = s.sched ∧ t.part = s.part

theorem State.KeepsSchedule.trans {s t u : State} (h : s.KeepsSchedule t) (h' : t.KeepsSchedule u) :
    s.KeepsSchedule u := ⟨h'.1.trans h.1, h'.2.trans h.2⟩

theorem State.takeResetClaims_keepsSchedule (s : State) (p : Port) (left now : ResetClaims) :
    s.KeepsSchedule (s.takeResetClaims p left now) := by
  rw [State.takeResetClaims_eq, State.resetPort_only]
  exact ⟨rfl, rfl⟩

theorem State.refuseData_keepsSchedule (s : State) (p : Port) (x : DataCall) (c : FaultCause) :
    s.KeepsSchedule (s.refuseData p x c) := by
  rw [State.refuseData_only]
  exact ⟨rfl, rfl⟩

theorem State.takePagePart_keepsSchedule (s : State) (p : Port) (x : DataCall) (i : Page) :
    s.KeepsSchedule (s.takePagePart p x i) := by
  have h := s.takePagePart_cases p x i
  generalize s.takePagePart p x i = t at h
  cases h with
  | refused c => exact s.refuseData_keepsSchedule p x c
  | reads r number t =>
    rw [State.beginRead_eq]
    exact ⟨rfl, rfl⟩
  | answered | refusedWrite | writes | opens | marks | drops => exact ⟨rfl, rfl⟩

theorem State.settle_keepsSchedule (s : State) (p : Port) : s.KeepsSchedule (s.settle p) :=
  State.settle_keeps s.KeepsSchedule p (fun left now h => h.trans (s.takeResetClaims_keepsSchedule p left now))
    (fun x i h => h.trans (s.takePagePart_keepsSchedule p x i)) ⟨rfl, rfl⟩

theorem State.settleSome_keepsSchedule (s : State) (p : Port) : s.KeepsSchedule (s.settleSome p) :=
  State.settleSome_keeps s.KeepsSchedule p (fun _ h => h)
    (fun left now h => h.trans (s.takeResetClaims_keepsSchedule p left now))
    (fun x i h => h.trans (s.takePagePart_keepsSchedule p x i)) ⟨rfl, rfl⟩

theorem State.acceptCall_keepsSchedule (s : State) (p : Port) (x : DataCall) :
    s.KeepsSchedule (s.acceptCall p x) := by
  unfold State.acceptCall
  split
  · exact s.refuseData_keepsSchedule p x _
  · dsimp only
    split
    · exact State.KeepsSchedule.trans ⟨rfl, rfl⟩ (State.takePagePart_keepsSchedule _ p x _)
    · exact ⟨rfl, rfl⟩

theorem State.takeClaims_keepsSchedule (s : State) (cs : List Claim) : s.KeepsSchedule (s.takeClaims cs).1 :=
  ⟨(s.takeClaims_only cs).sched, (s.takeClaims_only cs).part⟩

theorem State.expireFilter_keepsSchedule (s : State) (l : Line) : s.KeepsSchedule (s.expireFilter l) := by
  rw [State.expireFilter_only]
  exact ⟨rfl, rfl⟩

theorem State.sampleStop_keepsSchedule (s : State) (l : Line) (level : Level) :
    s.KeepsSchedule (s.sampleStop l level) := by
  rw [State.sampleStop_only]
  exact ⟨rfl, rfl⟩

theorem State.boundary_keepsSchedule (s : State) : s.KeepsSchedule s.boundary := by
  rw [State.boundary_only]
  exact ⟨rfl, rfl⟩

theorem State.setStopLine_keepsSchedule (s : State) (x : StopParams) : s.KeepsSchedule (s.setStopLine x) := by
  unfold State.setStopLine
  dsimp only
  split
  · exact State.KeepsSchedule.trans ⟨rfl, rfl⟩ (State.expireFilter_keepsSchedule _ _)
  · exact ⟨rfl, rfl⟩

theorem State.releaseHold_keepsSchedule (s : State) (p : Port) : s.KeepsSchedule (s.releaseHold p) := by
  unfold State.releaseHold State.endHold
  split
  · exact ⟨rfl, rfl⟩
  · exact s.takeClaims_keepsSchedule (s.holdRemovalClaims p)

theorem State.completeRead_keepsSchedule (s : State) (p : Port) : s.KeepsSchedule (s.completeRead p) := by
  unfold State.completeRead
  split
  · split <;> exact ⟨rfl, rfl⟩
  · exact ⟨rfl, rfl⟩

theorem State.completeStageRead_keepsSchedule (s : State) (p : Port) : s.KeepsSchedule (s.completeStageRead p) := by
  unfold State.completeStageRead
  split
  · split <;> exact ⟨rfl, rfl⟩
  · exact ⟨rfl, rfl⟩

theorem State.dataBytes_keepsSchedule (s : State) (p : Port) (data : List Byte) :
    s.KeepsSchedule (s.dataBytes p data) := by
  rcases s.dataBytes_cases p data with h | ⟨l, h, -⟩ | ⟨w, st, bytes, n, -, -, -, h⟩ <;> rw [h] <;> exact ⟨rfl, rfl⟩

theorem State.selectRises_keepsSchedule (s : State) (p : Port) : s.KeepsSchedule (s.selectRises p) := by
  unfold State.selectRises State.endTransaction
  split
  · dsimp only
    split <;> exact ⟨rfl, rfl⟩
  · exact ⟨rfl, rfl⟩

theorem State.responseSent_keepsSchedule (s : State) (p : Port) : s.KeepsSchedule (s.responseSent p) := by
  unfold State.responseSent
  split <;> exact ⟨rfl, rfl⟩

/-- A request served leaves the schedule alone if its own operation does. -/
theorem State.serve_keepsSchedule {α : Type} (s : State) (p : Port) (record : List Byte) (right : Option RightName)
    (params : Option α) (act : α → State → State) (hact : ∀ a u, State.KeepsSchedule u (act a u)) :
    s.KeepsSchedule (s.serve p record right params act) := by
  rcases s.serve_cases p record right params act with h | ⟨c, h⟩ | ⟨a, -, h⟩ <;> rw [h]
  · exact ⟨rfl, rfl⟩
  · exact ⟨rfl, rfl⟩
  · exact State.KeepsSchedule.trans ⟨rfl, rfl⟩ (hact a _)

theorem State.inSetup_keepsSchedule {s : State} (p : Port) (act : State → State) (hact : s.KeepsSchedule (act s)) :
    s.KeepsSchedule (s.inSetup p act) := by
  unfold State.inSetup
  split
  · exact hact
  · exact ⟨rfl, rfl⟩

theorem State.unlessReset_keepsSchedule {s : State} (act : State → State) (hact : s.KeepsSchedule (act s)) :
    s.KeepsSchedule (s.unlessReset act) :=
  s.unlessReset_keeps s.KeepsSchedule act ⟨rfl, rfl⟩ fun _ => hact

/-- A command outside Instr.movesSchedule leaves the schedule and the part state alone. -/
theorem exec_keepsSchedule {c : Instr} {s t : State} (h : exec c s = .next t) (hc : c.movesSchedule = false) :
    s.KeepsSchedule t := by
  cases c <;> cases h
  case start | halt | slotSet | planLength | planSwitch | syncSet | partReset | endOfSlot | syncEdge | gapExpiry
    | cyclePulseEnd | alarmSwitchRequest => cases hc
  case partStatus | pageStatus | planRead | groupStatus | watchSet | watchRead | holdRead | viewSet | viewGet
      | stopRead | trimSet | timeSet | alarmSet | timeRead | portSelf =>
    exact s.serve_keepsSchedule _ _ _ _ _ fun _ _ => ⟨rfl, rfl⟩
  case portReset p => exact s.serve_keepsSchedule _ _ _ _ _ fun _ u => u.takeResetClaims_keepsSchedule p _ _
  case portRightsSet | stageLimit | holdLimit =>
    exact s.serve_keepsSchedule _ _ _ _ _ fun _ u => u.inSetup_keepsSchedule _ _ ⟨rfl, rfl⟩
  case definePage p page group readers writers =>
    refine s.serve_keepsSchedule _ _ _ _ _ fun _ u => ?_
    unfold State.definePage
    split <;> exact ⟨rfl, rfl⟩
  case pageSet | retirePage =>
    refine s.serve_keepsSchedule _ _ _ _ _ fun _ u => ?_
    unfold State.onQuietPage
    split
    · split <;> exact ⟨rfl, rfl⟩
    · exact ⟨rfl, rfl⟩
  case read p _ _ _ => exact s.serve_keepsSchedule _ _ _ _ _ fun _ u => u.acceptCall_keepsSchedule p _
  case stageOpen p _ _ => exact s.serve_keepsSchedule _ _ _ _ _ fun _ u => u.acceptCall_keepsSchedule p _
  case stageWrite p _ _ _ => exact s.serve_keepsSchedule _ _ _ _ _ fun _ u => u.acceptCall_keepsSchedule p _
  case stageRead p _ _ _ => exact s.serve_keepsSchedule _ _ _ _ _ fun _ u => u.acceptCall_keepsSchedule p _
  case stageReady p _ => exact s.serve_keepsSchedule _ _ _ _ _ fun _ u => u.acceptCall_keepsSchedule p _
  case stageDrop p _ => exact s.serve_keepsSchedule _ _ _ _ _ fun _ u => u.acceptCall_keepsSchedule p _
  case hold =>
    refine s.serve_keepsSchedule _ _ _ _ _ fun _ u => ?_
    unfold State.takeHold
    split
    · exact ⟨rfl, rfl⟩
    · split <;> exact ⟨rfl, rfl⟩
  case release p => exact s.serve_keepsSchedule _ _ _ _ _ fun _ u => u.releaseHold_keepsSchedule p
  case faultTake =>
    refine s.serve_keepsSchedule _ _ _ _ _ fun _ u => ?_
    unfold State.takeFault
    split <;> exact ⟨rfl, rfl⟩
  case stopSet =>
    exact s.serve_keepsSchedule _ _ _ _ _ fun x u => u.inSetup_keepsSchedule _ _ (u.setStopLine_keepsSchedule x)
  case stopClear =>
    refine s.serve_keepsSchedule _ _ _ _ _ fun _ u => ?_
    unfold State.clearStop
    split <;> exact ⟨rfl, rfl⟩
  case noticePeek =>
    refine s.serve_keepsSchedule _ _ _ _ _ fun _ u => ?_
    unfold State.peekNotice
    split <;> exact ⟨rfl, rfl⟩
  case noticePop =>
    refine s.serve_keepsSchedule _ _ _ _ _ fun _ u => ?_
    unfold State.popNotice
    split <;> exact ⟨rfl, rfl⟩
  case badRequest p _ _ =>
    unfold State.refuseHeader
    split
    · split <;> exact ⟨rfl, rfl⟩
    · exact ⟨rfl, rfl⟩
  case readCompletion p => exact (s.settle_keepsSchedule p).trans (State.completeRead_keepsSchedule _ p)
  case stageReadCompletion p => exact (s.settle_keepsSchedule p).trans (State.completeStageRead_keepsSchedule _ p)
  case stageWriteCompletion p data => exact (s.settle_keepsSchedule p).trans (State.dataBytes_keepsSchedule _ p data)
  case selectRelease p => exact (s.settle_keepsSchedule p).trans (State.selectRises_keepsSchedule _ p)
  case lastResponseByte p => exact (s.settle_keepsSchedule p).trans (State.responseSent_keepsSchedule _ p)
  case resetRelease => exact ⟨rfl, rfl⟩
  case stopInputChange l level =>
    exact State.KeepsSchedule.trans ⟨rfl, rfl⟩
      (State.unlessReset_keepsSchedule _ (State.sampleStop_keepsSchedule _ l level))
  case filterTimerExpiry l => exact s.unlessReset_keepsSchedule _ (s.expireFilter_keepsSchedule l)
  case secondBoundary => exact s.unlessReset_keepsSchedule _ s.boundary_keepsSchedule
  case selectPeriodBegin p =>
    unfold State.selectFalls
    split
    · exact ⟨rfl, rfl⟩
    · split <;> exact ⟨rfl, rfl⟩

end Sys2Proof.Machine
end

section
/-! SUPPORT. The schedule's own operations keep a lawful schedule lawful, and so does every step (R31, R34, R38, R43,
R178). -/

namespace Sys2Proof.Machine

/-! ### The schedule's own operations -/

/-- The law of the schedule in a part state, which State.ScheduleLaw asks of both. -/
def Schedule.Law (c : Schedule) (x : PartState) : Prop :=
  c.planA.Law ∧ c.planB.Law ∧ (c.engine ≠ .off → c.slotIndex.val < c.activePlan.count.val) ∧
    (c.slotTimer.isSome = true ↔ c.engine = .inCycle) ∧ (c.gapTimer.isSome = true → c.engine = .waitingSync) ∧
    (x = .setup → c.engine = .off ∧ c.pendingSwitch = false) ∧ (c.engine = .off → c.cycleOut = false)

theorem State.scheduleLaw_iff (s : State) : s.ScheduleLaw ↔ s.sched.Law s.part := Iff.rfl

theorem State.KeepsSchedule.scheduleLaw {s t : State} (h : s.KeepsSchedule t) (hs : s.ScheduleLaw) :
    t.ScheduleLaw := by
  rw [State.scheduleLaw_iff] at hs ⊢
  rw [h.1, h.2]
  exact hs

theorem Schedule.Law.plan {c : Schedule} {x : PartState} (h : c.Law x) (n : PlanName) : (c.plan n).Law := by
  cases n with
  | a => exact h.1
  | b => exact h.2.1

/-- An engine that is not OFF is that of a part in RUN (R178). -/
theorem Schedule.Law.run {c : Schedule} {x : PartState} (h : c.Law x) (he : c.engine ≠ .off) : x = .run := by
  obtain ⟨-, -, -, -, -, hsetup, -⟩ := h
  cases x with
  | run => rfl
  | setup => exact absurd (hsetup rfl).1 he

/-- A cycle begins in RUN, from any lawful plans (R36). -/
theorem Schedule.beginCycle_law {c : Schedule} (hplan : ∀ n, (c.plan n).Law) (stopped : Bool) :
    (c.beginCycle stopped).Law .run := by
  have hcount := (hplan (if c.pendingSwitch then c.active.other else c.active)).1
  rw [Schedule.beginCycle_eq]
  exact ⟨hplan .a, hplan .b, fun _ => hcount, ⟨fun _ => rfl, fun _ => rfl⟩, nofun, nofun, nofun⟩

theorem Schedule.Law.beginSlot {c : Schedule} {x : PartState} (h : c.Law x) (he : c.engine = .inCycle) (k : SlotNo)
    (hk : k.val < c.activePlan.count.val) : (c.beginSlot k).Law x := by
  obtain ⟨ha, hb, -, -, hgap, hsetup, hoff⟩ := h
  exact ⟨ha, hb, fun _ => hk, ⟨fun _ => he, fun _ => rfl⟩, hgap, hsetup, hoff⟩

/-- The engine waits in RUN, in a slot of the active plan (R35, R38). -/
theorem Schedule.wait_law {c : Schedule} (hplan : ∀ n, (c.plan n).Law)
    (hk : c.slotIndex.val < c.activePlan.count.val) : c.wait.Law .run :=
  ⟨hplan .a, hplan .b, fun _ => hk, ⟨nofun, nofun⟩, fun _ => rfl, nofun, nofun⟩

/-- A pending switch is set in RUN alone (R50). -/
theorem Schedule.Law.pendingSwitch {c : Schedule} (h : c.Law .run) : Schedule.Law { c with pendingSwitch := true } .run := by
  obtain ⟨ha, hb, hslot, htimer, hgap, -, hoff⟩ := h
  exact ⟨ha, hb, hslot, htimer, hgap, nofun, hoff⟩

/-- In SETUP the active plan can change, since the engine is OFF (R50). -/
theorem Schedule.Law.activate {c : Schedule} (h : c.Law .setup) (n : PlanName) :
    Schedule.Law { c with active := n } .setup := by
  obtain ⟨ha, hb, -, htimer, hgap, hsetup, hoff⟩ := h
  exact ⟨ha, hb, fun he => absurd (hsetup rfl).1 he, htimer, hgap, hsetup, hoff⟩

/-- HALT stops the engine, whatever the part state (R55). -/
theorem Schedule.Law.stopEngine {c : Schedule} {x y : PartState} (h : c.Law x) : c.stopEngine.Law y := by
  obtain ⟨ha, hb, -⟩ := h
  exact ⟨ha, hb, fun he => absurd rfl he, ⟨nofun, nofun⟩, nofun, fun _ => ⟨rfl, rfl⟩, fun _ => rfl⟩

/-- An edit of a plan that the lock leaves free keeps the slot index within the active plan (R48). -/
theorem Schedule.Law.setPlan {c : Schedule} {x : PartState} (h : c.Law x) (n : PlanName) {pl : Plan} (hpl : pl.Law)
    (hfree : x = .run → n ≠ c.active) : (c.setPlan n pl).Law x := by
  have hplan : ∀ k, ((c.setPlan n pl).plan k).Law := fun k => by
    rw [Schedule.plan_setPlan]
    split
    · exact hpl
    · exact h.plan k
  have hsame : (c.setPlan n pl).engine = c.engine ∧ (c.setPlan n pl).slotIndex = c.slotIndex ∧
      (c.setPlan n pl).active = c.active ∧ (c.setPlan n pl).slotTimer = c.slotTimer ∧
      (c.setPlan n pl).gapTimer = c.gapTimer ∧ (c.setPlan n pl).pendingSwitch = c.pendingSwitch ∧
      (c.setPlan n pl).cycleOut = c.cycleOut := by
    cases n <;> exact ⟨rfl, rfl, rfl, rfl, rfl, rfl, rfl⟩
  have hactive : c.engine ≠ .off → (c.setPlan n pl).activePlan = c.activePlan := fun he => by
    rw [Schedule.activePlan, hsame.2.2.1, Schedule.plan_setPlan, if_neg (hfree (h.run he)).symm]
    rfl
  obtain ⟨-, -, hslot, htimer, hgap, hsetup, hoff⟩ := h
  obtain ⟨heng, hk, -, htm, hgp, hsw, hout⟩ := hsame
  rw [Schedule.Law, heng, hk, htm, hgp, hsw, hout]
  exact ⟨hplan .a, hplan .b, fun he => (hactive he).symm ▸ hslot he, htimer, hgap, hsetup, hoff⟩

/-- The counters and the pulse are no part of the law but for which of them run. -/
theorem Schedule.Law.counters {c : Schedule} {x : PartState} (h : c.Law x) (slot : SlotTimer → SlotTimer)
    (gap : Nat → Nat) :
    Schedule.Law { c with slotTimer := c.slotTimer.map slot, gapTimer := c.gapTimer.map gap, cycleOut := false } x := by
  obtain ⟨ha, hb, hslot, htimer, hgap, hsetup, -⟩ := h
  refine ⟨ha, hb, hslot, ?_, ?_, hsetup, fun _ => rfl⟩
  · rw [Option.isSome_map]
    exact htimer
  · rw [Option.isSome_map]
    exact hgap

/-! ### Events of the schedule -/

/-- A slot start that is no cycle start leaves the schedule as it was put. -/
theorem State.startSlot_keepsSchedule (s : State) (pick : Nat → Nat) : s.KeepsSchedule (s.startSlot pick) := by
  rw [s.startSlot_only pick]
  exact ⟨rfl, rfl⟩

theorem State.startCycle_part (s : State) (pick : Nat → Nat) (earlier : List Message) :
    (s.startCycle pick earlier).part = s.part := by
  rw [s.startCycle_only pick earlier]
  rfl

theorem State.startCycle_scheduleLaw {s : State} (hplan : ∀ n, (s.sched.plan n).Law) (hrun : s.part = .run)
    (pick : Nat → Nat) (earlier : List Message) : (s.startCycle pick earlier).ScheduleLaw := by
  rw [State.scheduleLaw_iff, State.startCycle_sched, State.startCycle_part, hrun]
  exact Schedule.beginCycle_law hplan _

theorem State.endSlot_scheduleLaw {s : State} (hs : s.ScheduleLaw) (pick : Nat → Nat) :
    (s.endSlot pick).ScheduleLaw := by
  have hlaw : s.sched.Law s.part := hs
  unfold State.endSlot
  split
  · rename_i he
    have hrun := hlaw.run (by rw [he]; nofun)
    split
    · rename_i hk
      exact (State.startSlot_keepsSchedule _ pick).scheduleLaw (hlaw.beginSlot he _ hk)
    · split
      · exact State.startCycle_scheduleLaw hlaw.plan hrun pick []
      · rw [State.scheduleLaw_iff, State.setSched_sched, State.setSched_part, hrun]
        obtain ⟨-, -, hslot, -⟩ := id hlaw
        exact Schedule.wait_law hlaw.plan (hslot (by rw [he]; nofun))
  · exact hs

theorem State.syncEdge_scheduleLaw {s : State} (hs : s.ScheduleLaw) (pick : Nat → Nat) :
    (s.syncEdge pick).ScheduleLaw := by
  have hlaw : s.sched.Law s.part := hs
  unfold State.syncEdge
  split
  · rename_i he
    exact State.startCycle_scheduleLaw hlaw.plan (hlaw.run (by rw [he]; nofun)) pick []
  · exact hs
  · exact hs

theorem State.expireGap_scheduleLaw {s : State} (hs : s.ScheduleLaw) (pick : Nat → Nat) :
    (s.expireGap pick).ScheduleLaw := by
  have hlaw : s.sched.Law s.part := hs
  unfold State.expireGap
  split
  · rename_i he _
    exact State.startCycle_scheduleLaw hlaw.plan (hlaw.run (by rw [he]; nofun)) pick _
  · exact hs

theorem State.takeSwitch_scheduleLaw {s : State} (hs : s.ScheduleLaw) : s.takeSwitch.1.ScheduleLaw := by
  have hlaw : s.sched.Law s.part := hs
  unfold State.takeSwitch
  split
  · rename_i hsetup
    rw [hsetup] at hlaw
    rw [State.scheduleLaw_iff, State.notify_sched, State.notify_part, State.setSched_sched, State.setSched_part, hsetup]
    exact hlaw.activate _
  · rename_i hrun
    split
    · exact hs
    · rw [hrun] at hlaw
      rw [State.scheduleLaw_iff, State.setSched_sched, State.setSched_part, hrun]
      exact hlaw.pendingSwitch

theorem State.answerAlarm_scheduleLaw {s : State} (hs : s.ScheduleLaw) : s.answerAlarm.ScheduleLaw := by
  unfold State.answerAlarm
  split
  · exact hs
  · exact State.takeSwitch_scheduleLaw hs

theorem State.takeEvent_scheduleLaw {s : State} (hs : s.ScheduleLaw) (e : TickEvent) :
    (s.takeEvent e).ScheduleLaw := by
  cases e with
  | slot => exact State.endSlot_scheduleLaw hs s.draw
  | gap => exact State.expireGap_scheduleLaw hs s.draw
  | edge => exact State.syncEdge_scheduleLaw (s := s.setSched { s.sched with syncRise := false }) hs _
  | filter l => exact (s.expireFilter_keepsSchedule l).scheduleLaw hs
  | second => exact s.boundary_keepsSchedule.scheduleLaw hs
  | alarmAnswer => exact State.answerAlarm_scheduleLaw hs
  | sample l => exact (s.sampleStop_keepsSchedule l _).scheduleLaw hs
  | claims p => exact (s.settleSome_keepsSchedule p).scheduleLaw hs

theorem State.tick_scheduleLaw {s : State} (hs : s.ScheduleLaw) : s.tick.ScheduleLaw :=
  State.tick_keeps State.ScheduleLaw (fun _ h => Schedule.Law.counters h _ _) (fun _ e h => State.takeEvent_scheduleLaw h e) hs

/-! ### Requests on the schedule -/

theorem State.editPlan_scheduleLaw {s : State} (hs : s.ScheduleLaw) (p : Port) (n : PlanName) {edit : Plan → Plan}
    (hedit : ∀ pl : Plan, pl.Law → (edit pl).Law) : (s.editPlan p n edit).ScheduleLaw := by
  have hlaw : s.sched.Law s.part := hs
  unfold State.editPlan
  split
  · exact hs
  · rename_i hfree
    refine Schedule.Law.setPlan hlaw n (hedit _ (hlaw.plan n)) fun hrun he => hfree ?_
    simp [State.planLocked, hrun, he]

/-- An entry that passes the range check lasts 20 ticks at least (R46, R170). -/
theorem slotParams_duration {plan slot : Byte} {duration : Word16} {group notify value mask : Byte} {x : SlotParams}
    (h : slotParams plan slot duration group notify value mask = some x) : 20 ≤ x.entry.duration.toNat := by
  simp only [slotParams, Option.bind_eq_bind, Option.bind_eq_some_iff] at h
  obtain ⟨n, -, k, -, d, hd, g, -, ports, -, v, -, m, -, h⟩ := h
  cases h
  exact (rangeOf?_eq_some hd).2.1

/-- A slot count that passes the range check is not 0 (R47, R170). -/
theorem planLengthParams_count {plan count : Byte} {x : PlanName × Fin 49}
    (h : planLengthParams plan count = some x) : 1 ≤ x.2.val := by
  simp only [planLengthParams, Option.bind_eq_bind, Option.bind_eq_some_iff] at h
  obtain ⟨n, -, c, hc, h⟩ := h
  cases h
  unfold slotCountOf? at hc
  split at hc
  · cases hc
  · have := finOf?_eq_some hc
    dsimp only
    omega

theorem Plan.Law.setEntry {x : Plan} (h : x.Law) (k : SlotNo) {e : SlotEntry} (he : 20 ≤ e.duration.toNat) :
    Plan.Law { x with entries := x.entries.set k e } := by
  refine ⟨h.1, fun j => ?_⟩
  by_cases hj : j = k
  · subst hj
    simpa using he
  · have hne : k.val ≠ j.val := fun e => hj (Fin.ext e.symm)
    have hold : (x.entries.set k e)[j] = x.entries[j] := by simp [hne]
    show 20 ≤ ((x.entries.set k e)[j]).duration.toNat
    rw [hold]
    exact h.2 j

theorem State.startPart_scheduleLaw {s : State} (hs : s.ScheduleLaw) : s.startPart.ScheduleLaw := by
  have hplan := Schedule.Law.plan (show s.sched.Law s.part from hs)
  unfold State.startPart State.startSchedule
  dsimp only
  split
  · exact State.startCycle_scheduleLaw
      (s := (s.setPart .run).setSched { s.sched with cycleCount := 0, slotIndex := 0, firstCycle := true }) hplan rfl s.draw
      []
  · exact Schedule.wait_law hplan (hplan _).1

theorem State.switchPlan_scheduleLaw {s : State} (hs : s.ScheduleLaw) (p : Port) : (s.switchPlan p).ScheduleLaw := by
  unfold State.switchPlan
  split
  · exact State.takeSwitch_scheduleLaw hs
  · exact hs

theorem State.holdInReset_scheduleLaw (s : State) : s.holdInReset.ScheduleLaw := by
  have hplan : Plan.reset.Law := ⟨by decide, by decide⟩
  exact ⟨hplan, hplan, fun h => absurd rfl h, ⟨nofun, nofun⟩, nofun, fun _ => ⟨rfl, rfl⟩, fun _ => rfl⟩

/-! ### Every command, and the step -/

theorem exec_scheduleLaw_of_moves {c : Instr} {s t : State} (h : exec c s = .next t) (hc : c.movesSchedule = true)
    (hs : s.ScheduleLaw) : t.ScheduleLaw := by
  cases c <;> cases hc <;> cases h
  case start p =>
    exact State.serve_keeps State.ScheduleLaw (fun _ _ _ h => h) _ _ _ _ _ hs fun _ _ _ hr =>
      State.inSetup_keeps State.ScheduleLaw (fun _ _ _ h => h) _ _ hr fun _ => State.startPart_scheduleLaw hr
  case halt p =>
    refine State.serve_keeps State.ScheduleLaw (fun _ _ _ h => h) _ _ _ _ _ hs fun _ _ _ hr => ?_
    split
    · exact Schedule.Law.stopEngine hr
    · exact hr
  case slotSet =>
    exact State.serve_keeps State.ScheduleLaw (fun _ _ _ h => h) _ _ _ _ _ hs fun x hx _ hr =>
      State.editPlan_scheduleLaw hr _ _ fun pl hpl => hpl.setEntry _ (slotParams_duration hx)
  case planLength =>
    exact State.serve_keeps State.ScheduleLaw (fun _ _ _ h => h) _ _ _ _ _ hs fun x hx _ hr =>
      State.editPlan_scheduleLaw hr _ _ fun pl hpl => ⟨planLengthParams_count hx, hpl.2⟩
  case planSwitch p =>
    exact State.serve_keeps State.ScheduleLaw (fun _ _ _ h => h) _ _ _ _ _ hs fun _ _ _ hr =>
      State.switchPlan_scheduleLaw hr p
  case syncSet =>
    exact State.serve_keeps State.ScheduleLaw (fun _ _ _ h => h) _ _ _ _ _ hs fun _ _ _ hr =>
      State.inSetup_keeps State.ScheduleLaw (fun _ _ _ h => h) _ _ hr fun _ => hr
  case partReset => exact s.holdInReset_scheduleLaw
  case endOfSlot =>
    exact State.unlessReset_keeps State.ScheduleLaw _ hs fun _ => State.endSlot_scheduleLaw hs s.draw
  case syncEdge =>
    refine State.unlessReset_keeps State.ScheduleLaw _ hs fun _ => ?_
    split
    · exact hs
    · exact State.syncEdge_scheduleLaw hs _
  case gapExpiry =>
    exact State.unlessReset_keeps State.ScheduleLaw _ hs fun _ => State.expireGap_scheduleLaw hs s.draw
  case cyclePulseEnd =>
    refine State.unlessReset_keeps State.ScheduleLaw _ hs fun _ => ?_
    obtain ⟨ha, hb, hslot, htimer, hgap, hsetup, -⟩ := hs
    exact ⟨ha, hb, hslot, htimer, hgap, hsetup, fun _ => rfl⟩
  case alarmSwitchRequest =>
    exact State.unlessReset_keeps State.ScheduleLaw _ hs fun _ => State.answerAlarm_scheduleLaw hs

theorem exec_scheduleLaw {c : Instr} {s t : State} (h : exec c s = .next t) (hs : s.ScheduleLaw) : t.ScheduleLaw := by
  cases hc : c.movesSchedule with
  | false => exact (exec_keepsSchedule h hc).scheduleLaw hs
  | true => exact exec_scheduleLaw_of_moves h hc hs

/-- Settles O52: each operation of the schedule keeps the law, and what else a step does leaves the schedule alone. -/
theorem stepKeepsTheScheduleLaw : Obligations.StepKeepsTheScheduleLaw := fun _ _ h =>
  step_keeps State.ScheduleLaw (fun _ _ h => h) (fun _ _ _ => exec_scheduleLaw) (fun _ => State.tick_scheduleLaw) h

end Sys2Proof.Machine
end

section
/-! SUPPORT. The events and the requests of the schedule that begin no cycle: the end of a slot, an edge that finds no
waiting engine, plan edits and switches (R37, R38, R42, R46 to R50). -/

namespace Sys2Proof.Machine

/-! ### What an event of the schedule comes to -/

/-- The end of a slot before the last begins the next one (R37). -/
theorem State.endSlot_next {s : State} (he : s.sched.engine = .inCycle) {k : SlotNo}
    (hk : k.val = s.sched.slotIndex.val + 1) (hlt : k.val < s.sched.activePlan.count.val) (pick : Nat → Nat) :
    s.endSlot pick = (s.setSched (s.sched.beginSlot k)).startSlot pick := by
  have hnext : s.sched.slotIndex.val + 1 < s.sched.activePlan.count.val := hk ▸ hlt
  have hke : (⟨s.sched.slotIndex.val + 1, by omega⟩ : SlotNo) = k := Fin.ext hk.symm
  simp only [State.endSlot, he, dif_pos hnext, hke]

/-- The end of the last slot begins a cycle in FREE mode (R38). -/
theorem State.endSlot_free {s : State} (he : s.sched.engine = .inCycle)
    (hlast : s.sched.activePlan.count.val ≤ s.sched.slotIndex.val + 1) (hm : s.sched.syncMode = .free)
    (pick : Nat → Nat) : s.endSlot pick = s.startCycle pick [] := by
  simp only [State.endSlot, he, dif_neg (Nat.not_lt.2 hlast), hm]

/-- In TRIGGERED mode the engine waits behind the last slot (R38). -/
theorem State.endSlot_triggered {s : State} (he : s.sched.engine = .inCycle)
    (hlast : s.sched.activePlan.count.val ≤ s.sched.slotIndex.val + 1) (hm : s.sched.syncMode = .triggered)
    (pick : Nat → Nat) : s.endSlot pick = s.setSched s.sched.wait := by
  simp only [State.endSlot, he, dif_neg (Nat.not_lt.2 hlast), hm]

/-- No slot ends unless the engine is IN_CYCLE (R38). -/
theorem State.endSlot_idle {s : State} (he : s.sched.engine ≠ .inCycle) (pick : Nat → Nat) : s.endSlot pick = s := by
  unfold State.endSlot
  split
  · exact absurd (by assumption) he
  · rfl

/-- An edge begins a cycle where the engine waits for it (R42). -/
theorem State.syncEdge_waiting {s : State} (he : s.sched.engine = .waitingSync) (pick : Nat → Nat) :
    s.syncEdge pick = s.startCycle pick [] := by
  simp only [State.syncEdge, he]

/-- In TRIGGERED mode an edge within a cycle is early (R42). -/
theorem State.syncEdge_early {s : State} (he : s.sched.engine = .inCycle) (hm : s.sched.syncMode = .triggered)
    (pick : Nat → Nat) : s.syncEdge pick = s.notify [s.broadcast .sync (.sync .early)] := by
  simp only [State.syncEdge, he, hm]

/-- Any other edge has no effect (R42). -/
theorem State.syncEdge_ignored {s : State}
    (h : s.sched.engine = .off ∨ (s.sched.engine = .inCycle ∧ s.sched.syncMode = .free)) (pick : Nat → Nat) :
    s.syncEdge pick = s := by
  rcases h with he | ⟨he, hm⟩
  · simp only [State.syncEdge, he]
  · simp only [State.syncEdge, he, hm]

theorem exec_endOfSlot {s : State} (hr : s.inReset = false) : exec .endOfSlot s = .next (s.endSlot s.draw).bump :=
  congrArg Host.Outcome.next (State.unlessReset_released hr)

theorem exec_gapExpiry {s : State} (hr : s.inReset = false) : exec .gapExpiry s = .next (s.expireGap s.draw).bump :=
  congrArg Host.Outcome.next (State.unlessReset_released hr)

/-- SYNC_EDGE is sampled at its command, or its rise is left standing (R42, notes/assumptions/15.md). -/
theorem exec_syncEdge {s : State} (hr : s.inReset = false) :
    exec .syncEdge s = .next s.takeEdge ∨ (s.sched.syncRise = false ∧ exec .syncEdge s = .next s.leaveEdge) := by
  have h : exec .syncEdge s =
      .next (if !s.sched.syncRise && (s.draw 0).testBit 0 then s.leaveEdge else s.takeEdge) :=
    congrArg Host.Outcome.next (State.unlessReset_released hr)
  rw [h]
  split
  · rename_i hleft
    rw [Bool.and_eq_true, Bool.not_eq_true'] at hleft
    exact Or.inr ⟨hleft.1, rfl⟩
  · exact Or.inl rfl

/-- An event other than a SYNC_EDGE comes to what its command comes to. -/
theorem comesTo_of_exec {c : Instr} {cond : State → Prop} {result : State → State → Prop} (hc : c ≠ .syncEdge)
    (h : ∀ s, s.inReset = false → cond s → ∃ t, exec c s = .next t ∧ result s t) : ComesTo c cond result :=
  ⟨fun s hr hs => (h s hr hs).imp fun _ ⟨he, ht⟩ => ⟨he, Or.inl ht⟩, fun he => absurd he hc⟩

/-- A SYNC_EDGE comes to what the sampled edge comes to, at its command or at the next tick (R42). -/
theorem comesTo_of_syncEdge {cond : State → Prop} {result : State → State → Prop}
    (h : ∀ s pick, cond s → result s (s.syncEdge pick).bump) : ComesTo .syncEdge cond result := by
  refine ⟨fun s hr hs => ?_, ?_⟩
  · rcases exec_syncEdge hr with he | ⟨hrise, he⟩
    · exact ⟨_, he, Or.inl (h s _ hs)⟩
    · exact ⟨_, he, Or.inr ⟨rfl, hrise, rfl⟩⟩
  · rintro - s s' - rfl hs
    exact h _ _ hs

/-- Settles O29: each event by its equation. -/
theorem scheduleEventsWithoutACycleStart : Obligations.ScheduleEventsWithoutACycleStart := by
  refine ⟨comesTo_of_exec nofun fun s hr ⟨he, hlast, hm⟩ => ⟨_, exec_endOfSlot hr, ?_⟩,
    comesTo_of_syncEdge fun s pick hs => ?_, comesTo_of_syncEdge fun s pick ⟨he, hm⟩ => ?_, fun s hr => ?_⟩
  · rw [State.endSlot_triggered he hlast hm]
    rfl
  · rw [State.syncEdge_ignored hs]
    rfl
  · rw [State.syncEdge_early he hm]
    exact ⟨rfl, s.notify_one (s.broadcast .sync (.sync .early))⟩
  · exact congrArg Host.Outcome.next (State.unlessReset_released hr)

/-! ### Plan edits and switches -/

@[simp] theorem planOf?_code (n : PlanName) : planOf? n.code = some n := by
  cases n <;> rfl

/-- SLOT_SET on an entry in range hands the edit to the schedule (R46). -/
theorem exec_slotSet {s : State} {p : Port} (hr : s.ReadyFor p) (ha : s.PlanAllowed p) (n : PlanName) (k : SlotNo)
    {x : SlotEntry} (hd : 20 ≤ x.duration.toNat) {group : Byte} (hg : slotGroupOf? group = some x.group) {c : Instr}
    (hc : c = .slotSet p n.code (byteOf k.val) x.duration group (x.notify.setWidth 8) (x.filterValue.setWidth 8)
      (x.filterMask.setWidth 8)) :
    exec c s = .next ((s.receive p c.record).editPlan p n fun pl => { pl with entries := pl.entries.set k x }) := by
  subst hc
  have hrange : rangeOf? 20 65535 x.duration.toNat = some x.duration.toNat := rangeOf?_in hd (by omega)
  have hparams : slotParams n.code (byteOf k.val) x.duration group (x.notify.setWidth 8) (x.filterValue.setWidth 8)
      (x.filterMask.setWidth 8) = some { plan := n, slot := k, entry := x } := by
    simp [slotParams, hrange, hg]
  exact congrArg _ (State.serve_accepted _ hr hparams ha.lacks)

/-- PLAN_LENGTH on a count in range (R47). -/
theorem exec_planLength {s : State} {p : Port} (hr : s.ReadyFor p) (ha : s.PlanAllowed p) (n : PlanName) {k : Fin 49}
    (hk : 1 ≤ k.val) {c : Instr} (hc : c = .planLength p n.code (byteOf k.val)) :
    exec c s = .next ((s.receive p c.record).editPlan p n fun pl => { pl with count := k }) := by
  subst hc
  have hcount : slotCountOf? (byteOf k.val) = some k := by
    rw [slotCountOf?, byteOf_toNat (by omega), finOf?_val, if_neg (by omega)]
  have hparams : planLengthParams n.code (byteOf k.val) = some (n, k) := by
    simp [planLengthParams, hcount]
  exact congrArg _ (State.serve_accepted _ hr hparams ha.lacks)

theorem exec_planSwitch {s : State} {p : Port} (hr : s.ReadyFor p) (ha : s.PlanAllowed p) {c : Instr}
    (hc : c = .planSwitch p) : exec c s = .next ((s.receive p c.record).switchPlan p) := by
  subst hc
  exact congrArg _ (State.serve_accepted (a := ()) _ hr rfl ha.lacks)

/-- The plan lock, as R48 says it. -/
theorem State.planLocked_iff (s : State) (n : PlanName) :
    s.planLocked n = true ↔ s.part = .run ∧ (n = s.sched.active ∨ s.sched.pendingSwitch = true) := by
  simp [State.planLocked]

/-- A plan edit received: refused by the lock, or done (R48). -/
theorem State.editPlan_receive (s : State) (p : Port) (c : Instr) (n : PlanName) (edit : Plan → Plan) :
    (s.receive p c.record).editPlan p n edit =
      if s.part = .run ∧ (n = s.sched.active ∨ s.sched.pendingSwitch = true) then s.answered p c .planLocked []
      else (s.setSched (s.sched.setPlan n (edit (s.sched.plan n)))).answered p c .ok [] := by
  unfold State.editPlan
  simp only [State.planLocked_iff, State.receive_part, State.receive_sched]
  split
  · exact s.answer_receive p c _ _
  · simp [State.answer_eq, State.receive_eq, State.answered]

/-- A switch claim in SETUP: the active plan swapped, with its notice (R50). -/
theorem State.takeSwitch_setup {s : State} (h : s.part = .setup) :
    s.takeSwitch = ((s.setSched { s.sched with active := s.sched.active.other }).notify
      [(s.setSched { s.sched with active := s.sched.active.other }).switchedNotice], true) := by
  simp only [State.takeSwitch, h]

/-- A switch claim in RUN while a switch is pending is not taken (R50). -/
theorem State.takeSwitch_pending {s : State} (h : s.part = .run) (hp : s.sched.pendingSwitch = true) :
    s.takeSwitch = (s, false) := by
  simp only [State.takeSwitch, h, hp, if_true]

/-- A switch claim in RUN makes a switch pending (R50). -/
theorem State.takeSwitch_run {s : State} (h : s.part = .run) (hp : s.sched.pendingSwitch = false) :
    s.takeSwitch = (s.setSched { s.sched with pendingSwitch := true }, true) := by
  simp [State.takeSwitch, h, hp]

/-- PLAN_SWITCH received in SETUP: the swap, its notice, and the answer (R50). -/
theorem State.switchPlan_setup {s : State} (h : s.part = .setup) (p : Port) (c : Instr) :
    (s.receive p c.record).switchPlan p =
      ((s.setSched { s.sched with active := s.sched.active.other }).notify
        [s.broadcast .planSwitched (.planSwitched s.sched.active.other)]).answered p c .ok
          [s.sched.active.other.code, yesNo s.sched.pendingSwitch] := by
  rw [State.switchPlan, State.takeSwitch_setup (s := s.receive p c.record) h, if_pos rfl]
  simp [State.answer_eq, State.receive_eq, State.answered, State.notify, State.takeNotices, State.switchedNotice,
    State.broadcast, State.stamp]

/-- Settles O26: the edits by the lock, the switch by the part state. -/
theorem planEditsAndSwitch : Obligations.PlanEditsAndSwitch := by
  intro p s hr ha
  refine ⟨fun n k x hd => ?_, fun n c hc => ?_, fun hrun => ?_, fun hsetup => ?_⟩
  · rw [exec_slotSet hr ha n k hd ?_ rfl, State.editPlan_receive]
    · split <;> rfl
    · have hne : ∀ g : Group, byteOf g.val ≠ 255 := by decide
      cases x.group with
      | none => rfl
      | some g => rw [slotGroupOf?, if_neg (hne g), groupOf?_byteOf, Option.map_some]
  · rw [exec_planLength hr ha n hc rfl, State.editPlan_receive]
    split <;> rfl
  · rw [exec_planSwitch hr ha rfl, State.switchPlan]
    have hrun' : (s.receive p (Instr.planSwitch p).record).part = .run := hrun
    cases hp : s.sched.pendingSwitch with
    | true =>
      rw [State.takeSwitch_pending hrun' hp]
      exact congrArg _ (s.answer_receive p _ _ _)
    | false =>
      rw [State.takeSwitch_run hrun' hp]
      simp [State.answer_eq, State.receive_eq, State.answered, yesNo]
  · refine ⟨_, (exec_planSwitch hr ha rfl).trans (congrArg _ (State.switchPlan_setup hsetup p _)), ?_, ?_⟩
    · cases s.sched.pendingSwitch <;> rfl
    · exact State.notify_one (s.setSched { s.sched with active := s.sched.active.other })
        (s.broadcast .planSwitched (.planSwitched s.sched.active.other))

/-! ### The next slot -/

/-- A notice sent to several ports, each once: they have taken it, and the others nothing. -/
theorem State.notify_addressed (s : State) (x : Notice) {ps : List Port} (hps : ps.Nodup) (q : Port) :
    (s.notify (ps.map fun p => { recipients := .port p, notice := x })).notice.ports[q] =
      if q ∈ ps then s.notice.ports[q].append x else s.notice.ports[q] := by
  induction ps generalizing s with
  | nil => rfl
  | cons p ps ih =>
    rw [List.nodup_cons] at hps
    have hone : (s.notify [{ recipients := .port p, notice := x }]).notice.ports[q] =
        if q = p then s.notice.ports[q].append x else s.notice.ports[q] := by
      refine (NoticeUnit.take_ports _ _ _).trans ?_
      simp [NoticePort.take, Recipients.reach]
    rw [List.map_cons, State.notify_cons, ih _ hps.2, hone]
    by_cases hq : q = p
    · subst hq
      simp [hps.1]
    · simp [hq]

/-- No event of the hold table is among a publication point's claims. -/
theorem State.takePoint_hold (s : State) (g : Group) : (s.takePoint g).1.hold = s.hold := by
  unfold State.takePoint
  split
  · rfl
  · split
    · rfl
    · rw [(s.publish_spec g _).1, State.setPub_hold, State.setMap_hold]

/-- The slot's filter, as R32 says it of the entry. -/
theorem Schedule.slotActs_iff (c : Schedule) :
    c.slotActs = true ↔ ∀ b : Fin 6, c.activePlan.entries[c.slotIndex].filterMask.getLsbD b.val = true →
      c.cycleCount.getLsbD b.val = c.activePlan.entries[c.slotIndex].filterValue.getLsbD b.val :=
  filterMatches_iff _ _ _

theorem State.slotNotices_acts {s : State} (h : s.sched.slotActs = true) :
    s.slotNotices = (portsOf s.sched.activePlan.entries[s.sched.slotIndex].notify).map fun p =>
      s.address p (.slot s.sched.slotIndex) := if_pos h

theorem mem_portsOf (set : PortSet) (p : Port) : p ∈ portsOf set ↔ set.getLsbD p.val = true := by
  simp [portsOf, List.mem_filter, List.mem_finRange]

theorem nodup_portsOf (set : PortSet) : (portsOf set).Nodup := List.Pairwise.filter _ (List.nodup_finRange 4)

/-- A slot start without a point only sends its SLOT notices (R37). -/
theorem State.startSlot_noPoint {s : State} (h : s.sched.slotPoint = none) (pick : Nat → Nat) :
    s.startSlot pick = s.notify s.slotNotices := by
  simp only [State.startSlot, h, Option.map_none, Option.toList_none, State.takeClaims, List.append_nil]
  exact s.notifyFrom_one_sender pick .schedule _

/-- A slot that does not act has neither a point nor notices (R37). -/
theorem State.startSlot_passed {s : State} (h : s.sched.slotActs = false) (pick : Nat → Nat) : s.startSlot pick = s := by
  have hpoint : s.sched.slotPoint = none := by simp [Schedule.slotPoint, h]
  rw [State.startSlot_noPoint hpoint]
  simp [State.slotNotices, h]

theorem State.startSlot_hold (s : State) (pick : Nat → Nat) : (s.startSlot pick).hold = s.hold := by
  unfold State.startSlot State.notifyFrom
  rw [State.notify_hold]
  cases s.sched.slotPoint with
  | none => rfl
  | some g => exact s.takePoint_hold g

/-- The ports that an acting slot names find its SLOT notice (R37). -/
theorem State.startSlot_found {s : State} (h : s.sched.slotActs = true) (pick : Nat → Nat) {q : Port}
    (hq : s.sched.activePlan.entries[s.sched.slotIndex].notify.getLsbD q.val = true) :
    (s.startSlot pick).Found q { stamp := s.stamp, body := .slot s.sched.slotIndex } := by
  refine State.notifyFrom_delivers _ pick _ { sender := .schedule, message := s.address q (.slot s.sched.slotIndex) }
    (List.mem_append_left _ (List.mem_map_of_mem ?_)) q (decide_eq_true rfl)
  rw [State.slotNotices_acts h]
  exact List.mem_map_of_mem (f := fun p => s.address p (.slot s.sched.slotIndex)) ((mem_portsOf _ _).2 hq)

/-- Settles O27: the slot start, by whether its filter matches and whether it has a group. -/
theorem endOfSlotBeginsTheNextSlot : Obligations.EndOfSlotBeginsTheNextSlot := by
  intro s k hr he hk hlt
  refine ⟨_, exec_endOfSlot hr, ?_⟩
  rw [State.endSlot_next he hk hlt]
  have hacts := Schedule.slotActs_iff (s.sched.beginSlot k)
  have hout := (s.setSched (s.sched.beginSlot k)).startSlot_only s.draw
  have hhold := (s.setSched (s.sched.beginSlot k)).startSlot_hold s.draw
  have hfound : (s.sched.beginSlot k).slotActs = true → ∀ q : Port,
      s.sched.activePlan.entries[k].notify.getLsbD q.val = true →
        ((s.setSched (s.sched.beginSlot k)).startSlot s.draw).Found q
          { stamp := (s.setSched (s.sched.beginSlot k)).stamp, body := .slot k } :=
    fun h q hq => State.startSlot_found (s := s.setSched (s.sched.beginSlot k)) h s.draw hq
  have hquiet := State.startSlot_noPoint (s := s.setSched (s.sched.beginSlot k)) (pick := s.draw)
  have hpass := State.startSlot_passed (s := s.setSched (s.sched.beginSlot k)) (pick := s.draw)
  generalize (s.setSched (s.sched.beginSlot k)).startSlot s.draw = u at hout hhold hfound hquiet hpass
  refine ⟨by rw [hout]; rfl, by rw [hout]; rfl, by rw [hout]; rfl, hhold, by rw [hout]; rfl, by rw [hout]; rfl,
    by rw [hout]; rfl, fun hmatch => hfound (hacts.2 hmatch), fun hmatch hgroup => ?_, fun ⟨b, hmask, hne⟩ => ?_⟩
  · have hpoint : (s.sched.beginSlot k).slotPoint = none := by
      rw [Schedule.slotPoint, hacts.2 hmatch, if_pos rfl]
      exact hgroup
    have hnotices := State.slotNotices_acts (s := s.setSched (s.sched.beginSlot k)) (hacts.2 hmatch)
    rw [hquiet hpoint, hnotices]
    refine ⟨rfl, rfl, fun q => ?_⟩
    have hport := (s.setSched (s.sched.beginSlot k)).notify_addressed
      { stamp := (s.setSched (s.sched.beginSlot k)).stamp, body := .slot k }
      (nodup_portsOf s.sched.activePlan.entries[k].notify) q
    simp only [mem_portsOf] at hport
    split
    · rename_i hq
      rw [if_pos hq] at hport
      exact hport ▸ NoticePort.append_took _ _
    · rename_i hq
      rw [if_neg hq] at hport
      exact hport
  · have hnot : (s.sched.beginSlot k).slotActs = false := by
      rw [Bool.eq_false_iff]
      exact fun h => hne (hacts.1 h b hmask)
    rw [hpass hnot]
    exact ⟨rfl, rfl, rfl⟩

end Sys2Proof.Machine
end

section
/-! SUPPORT. The claims of a cycle start: which they are, and what those that are not about a group leave of it (R39, R57,
R66, R78). -/

namespace Sys2Proof.Machine

/-! ### Which claims a cycle start takes -/

theorem insertRun_perm (k : Nat) (run others : List Claim) : (insertRun k run others).Perm (run ++ others) := by
  unfold insertRun
  refine (List.perm_append_comm.append_right _).trans ?_
  rw [List.append_assoc, List.take_append_drop]

theorem insertMarks_perm (pick : Nat → Nat) (claims : List CycleClaim) :
    ∃ ports : List Port, (insertMarks pick claims).Perm (ports.map .markReady ++ claims) := by
  unfold insertMarks
  generalize List.finRange 4 = all
  induction all generalizing claims with
  | nil => exact ⟨[], .refl _⟩
  | cons p all ih =>
    rw [List.foldl_cons]
    split
    · obtain ⟨ports, h⟩ := ih (insertAt (pick (p.val + 3)) (.markReady p) claims)
      refine ⟨p :: ports, h.trans (((insertAt_perm _ _ _).append_left _).trans ?_)⟩
      exact List.perm_middle
    · exact ih claims

/-- The claims of a cycle start: markings, the countdown, and those of the hold table and of the publication unit. -/
theorem State.cycleStartClaims_perm (s : State) (pick : Nat → Nat) (point : Option Group) :
    ∃ ports : List Port, (s.cycleStartClaims pick point).Perm
      (ports.map .markReady ++ .countStagings :: (s.holdCountClaims ++ publicationClaims point).map .block) := by
  obtain ⟨ports, h⟩ := insertMarks_perm pick (insertAt (pick 1) .countStagings
    ((insertRun (pick 0) s.holdCountClaims (publicationClaims point)).map .block))
  exact ⟨ports, h.trans (((insertAt_perm _ _ _).trans (((insertRun_perm _ _ _).map _).cons _)).append_left _)⟩

theorem State.mem_cycleStartClaims_block {s : State} {pick : Nat → Nat} {point : Option Group} {c : Claim}
    (h : .block c ∈ s.cycleStartClaims pick point) : c ∈ s.holdCountClaims ∨ c ∈ publicationClaims point := by
  obtain ⟨ports, hperm⟩ := s.cycleStartClaims_perm pick point
  have hmem := hperm.mem_iff.1 h
  simpa using hmem

/-- Groups whose hold breaks are those that a cycle start reports (R66, R91). -/
theorem State.report_of_mem {s : State} {pick : Nat → Nat} {point : Option Group} {g : Group}
    (h : .block (.report g) ∈ s.cycleStartClaims pick point) : g ∈ s.hold.uncovered s.hold.count := by
  rcases State.mem_cycleStartClaims_block h with h | h
  · simpa [State.holdCountClaims] using h
  · cases point <;> simp [publicationClaims] at h

theorem State.removeHold_not_mem (s : State) (pick : Nat → Nat) (point : Option Group) (p : Port) :
    .block (.removeHold p) ∉ s.cycleStartClaims pick point := by
  intro h
  rcases State.mem_cycleStartClaims_block h with h | h
  · simp [State.holdCountClaims] at h
  · cases point <;> simp [publicationClaims] at h

/-- The hold table counts once (R91). -/
theorem State.count_countHolds (s : State) (pick : Nat → Nat) (point : Option Group) :
    (s.cycleStartClaims pick point).count (.block .countHolds) = 1 := by
  obtain ⟨ports, hperm⟩ := s.cycleStartClaims_perm pick point
  have hblock : Function.Injective CycleClaim.block := fun _ _ h => by cases h; rfl
  have hmarks : (ports.map CycleClaim.markReady).count (.block .countHolds) = 0 := List.count_eq_zero.2 (by simp)
  have hown : (publicationClaims point).count .countHolds = 0 :=
    List.count_eq_zero.2 (by cases point <;> simp [publicationClaims])
  have hholds : s.holdCountClaims.count .countHolds = 1 := by
    rw [State.holdCountClaims, List.count_cons_self, List.count_eq_zero.2 (by simp)]
  rw [hperm.count_eq, List.count_append, hmarks, List.count_cons_of_ne (by simp),
    List.count_map_of_injective _ _ hblock, List.count_append, hholds, hown]

/-- The publication unit's own claims: the roll and the point. -/
def CycleClaim.isPublication : CycleClaim → Bool
  | .block .rollWatches => true
  | .block (.point _) => true
  | _ => false

theorem filter_insertAt {α : Type} (p : α → Bool) {x : α} (hx : p x = false) (k : Nat) (l : List α) :
    (insertAt k x l).filter p = l.filter p := by
  have hskip : ∀ l : List α, (x :: l).filter p = l.filter p := fun l => List.filter_cons_of_neg (by simp [hx])
  unfold insertAt
  split
  · exact hskip []
  · split
    · exact hskip _
    · rw [List.filter_append, hskip, ← List.filter_append, List.take_append_drop]

/-- The publication unit takes its own claims in their order, wherever the others fall (R39). -/
theorem State.filter_cycleStartClaims (s : State) (pick : Nat → Nat) (point : Option Group) :
    (s.cycleStartClaims pick point).filter CycleClaim.isPublication = (publicationClaims point).map .block := by
  have hmarks : ∀ claims : List CycleClaim,
      (insertMarks pick claims).filter CycleClaim.isPublication = claims.filter CycleClaim.isPublication := by
    intro claims
    unfold insertMarks
    generalize List.finRange 4 = ports
    induction ports generalizing claims with
    | nil => rfl
    | cons p ports ih =>
      rw [List.foldl_cons, ih]
      split
      · exact filter_insertAt _ rfl _ _
      · rfl
  have hholds : (s.holdCountClaims.map CycleClaim.block).filter CycleClaim.isPublication = [] := by
    rw [List.filter_eq_nil_iff]
    simp [State.holdCountClaims, CycleClaim.isPublication]
  have hown : ((publicationClaims point).map CycleClaim.block).filter CycleClaim.isPublication =
      (publicationClaims point).map .block := by
    cases point <;> rfl
  unfold State.cycleStartClaims insertRun
  rw [hmarks, filter_insertAt _ rfl, List.map_append, List.map_append, List.filter_append, List.filter_append, hholds,
    List.append_nil, ← List.filter_append, ← List.map_append, List.take_append_drop, hown]

/-- The claims of a cycle start with a point of group g: the roll, then the point, the others around them (R39, R79). -/
theorem State.cycleStartClaims_point (s : State) (pick : Nat → Nat) (g : Group) :
    ∃ first second third,
      s.cycleStartClaims pick (some g) = first ++ .block .rollWatches :: (second ++ .block (.point g) :: third) ∧
        ∀ c, c ∈ first ∨ c ∈ second ∨ c ∈ third → c.isPublication = false := by
  have h := s.filter_cycleStartClaims pick (some g)
  obtain ⟨first, rest, hfirst, hno, -, hrest⟩ := List.filter_eq_cons_iff.1 h
  obtain ⟨second, third, hsecond, hno', -, hthird⟩ := List.filter_eq_cons_iff.1 hrest
  refine ⟨first, second, third, by rw [hfirst, hsecond], fun c hc => Bool.eq_false_iff.2 ?_⟩
  rcases hc with hc | hc | hc
  · exact hno c hc
  · exact hno' c hc
  · exact List.filter_eq_nil_iff.1 hthird c hc

/-- What each of the claims in a list keeps, the list keeps. -/
theorem State.takeCycleClaims_keeps_of (P : State → Prop) (cs : List CycleClaim)
    (h : ∀ c ∈ cs, ∀ s, P s → P (State.takeCycleClaim s c).1) (s : State) (hs : P s) : P (s.takeCycleClaims cs).1 := by
  induction cs generalizing s with
  | nil => exact hs
  | cons c cs ih => exact ih (fun d hd => h d (List.mem_cons_of_mem c hd)) _ (h c (List.mem_cons_self ..) s hs)

/-! ### Claims about other groups -/

/-- From u to v one outcome of group g has been recorded (R57, R78). -/
def State.Records (u : State) (g : Group) (v : State) : Prop :=
  ∃ (w : PublicationUnit) (o : GroupOutcome) (c : CycleCount) (made missed : Nat),
    (∀ h, h ≠ g → w.groups[h] = u.pub.groups[h]) ∧ w.watches = u.pub.watches ∧
    v.pub = w.record g o c made missed

theorem State.Records.group {u v : State} {g h : Group} (hr : u.Records g v) (hh : h ≠ g) :
    v.pub.groups[h] = u.pub.groups[h] := by
  obtain ⟨w, o, c, made, missed, hw, -, hv⟩ := hr
  rw [hv, PublicationUnit.record_other _ _ _ _ _ hh, hw h hh]

theorem State.Records.watch {u v : State} {g : Group} (hr : u.Records g v) {n : WatchNo}
    (hn : u.pub.watches[n].group ≠ g) : v.pub.watches[n] = u.pub.watches[n] := by
  obtain ⟨w, o, c, made, missed, -, hw, hv⟩ := hr
  rw [hv, PublicationUnit.record_watch, hw, Watch.take, if_neg hn]

/-- A publication point records one outcome, and sends its notice (R57, R59, R75). -/
theorem State.takePoint_recorded (u : State) (g : Group) :
    ∃ (w : PublicationUnit) (o : GroupOutcome) (made missed : Nat),
      (∀ h, h ≠ g → w.groups[h] = u.pub.groups[h]) ∧ w.watches = u.pub.watches ∧
      (u.takePoint g).1.pub = w.record g o u.sched.cycleCount made missed ∧
      u.groupPoint g o made missed ∈ (u.takePoint g).2 := by
  unfold State.takePoint
  split
  · exact ⟨u.pub, .frozen, 0, 0, fun _ _ => rfl, rfl, rfl, List.mem_singleton_self _⟩
  · split
    · exact ⟨u.pub.setMark g true, .deferred, 0, 0, fun h hh => PublicationUnit.setMark_other _ _ hh, rfl, rfl,
        List.mem_singleton_self _⟩
    · obtain ⟨hs, hm⟩ := u.publish_spec g .published
      rw [hs, hm]
      exact ⟨u.pub, .published, _, _, fun _ _ => rfl, rfl, rfl, List.mem_append_right _ (List.mem_singleton_self _)⟩

theorem State.takePoint_records (u : State) (g : Group) : u.Records g (u.takePoint g).1 := by
  obtain ⟨w, o, made, missed, hg, hw, hpub, -⟩ := u.takePoint_recorded g
  exact ⟨w, o, _, made, missed, hg, hw, hpub⟩

/-- A report finds no mark, or its group takes one outcome (R66). -/
theorem State.takeReport_records (u : State) (g : Group) :
    (u.takeReport g).1 = u ∨ u.Records g (u.takeReport g).1 := by
  have hmark : ∀ h, h ≠ g → (u.pub.setMark g false).groups[h] = u.pub.groups[h] :=
    fun h hh => PublicationUnit.setMark_other _ _ hh
  unfold State.takeReport
  split
  · right
    split
    · exact ⟨u.pub.setMark g false, .dropped, _, 0, 0, hmark, rfl, rfl⟩
    · rw [(State.publish_spec _ g .catchUp).1]
      exact ⟨u.pub.setMark g false, .catchUp, _, _, _, hmark, rfl, rfl⟩
  · exact Or.inl rfl

/-- The claim gives group g an outcome, or may give it one. -/
abbrev CycleClaim.About (c : CycleClaim) (g : Group) : Prop := c = .block (.point g) ∨ c = .block (.report g)

theorem State.takeClaim_group (u : State) {c : Claim} {g : Group} (hc : ¬ CycleClaim.About (.block c) g) :
    (u.takeClaim c).1.pub.groups[g] = u.pub.groups[g] := by
  cases c with
  | countHolds | rollWatches | removeHold => rfl
  | point h => exact (u.takePoint_records h).group fun he => hc (Or.inl (by rw [he]))
  | report h =>
    rcases u.takeReport_records h with he | hr
    · exact congrArg (fun v : State => v.pub.groups[g]) he
    · exact hr.group fun he => hc (Or.inr (by rw [he]))

theorem State.takeClaim_watch (u : State) {c : Claim} {g : Group} (hc : ¬ CycleClaim.About (.block c) g)
    (hroll : c ≠ .rollWatches) {n : WatchNo} (hn : u.pub.watches[n].group = g) :
    (u.takeClaim c).1.pub.watches[n] = u.pub.watches[n] := by
  cases c with
  | countHolds | removeHold => rfl
  | rollWatches => exact absurd rfl hroll
  | point h => exact (u.takePoint_records h).watch fun he => hc (Or.inl (by rw [← he, hn]))
  | report h =>
    rcases u.takeReport_records h with he | hr
    · exact congrArg (fun v : State => v.pub.watches[n]) he
    · exact hr.watch fun he => hc (Or.inr (by rw [← he, hn]))

theorem State.takeClaim_page_other (u : State) {c : Claim} {g : Group} (hc : ¬ CycleClaim.About (.block c) g)
    {i : Page} (hi : (u.map.page i).group = g) : (u.takeClaim c).1.map.page i = u.map.page i := by
  rcases u.takeClaim_map c with h | ⟨k, hk, -, h⟩
  · rw [h]
  · have hne : (u.map.page i).group ≠ k := by
      rintro he
      rw [hi] at he
      subst he
      exact hc (hk.imp (fun e => by rw [e]) fun e => by rw [e])
    rw [h, ExchangeMap.swap_page, PageRecord.swapped_other _ hne]

/-- A claim of a cycle start that is not about group g, and not the roll, leaves the group's record and counters. -/
theorem State.takeCycleClaim_quiet (u : State) {c : CycleClaim} {g : Group} (hc : ¬ c.About g)
    (hroll : c ≠ .block .rollWatches) :
    (u.takeCycleClaim c).1.pub.groups[g] = u.pub.groups[g] ∧
      ∀ n : WatchNo, u.pub.watches[n].group = g → (u.takeCycleClaim c).1.pub.watches[n] = u.pub.watches[n] := by
  cases c with
  | block c =>
    exact ⟨u.takeClaim_group hc, fun n hn => u.takeClaim_watch hc (fun he => hroll (by rw [he])) hn⟩
  | countStagings => exact ⟨rfl, fun _ _ => rfl⟩
  | markReady p =>
    have h : (u.markReady p).pub = u.pub := by
      rcases u.markReady_eq p with h | ⟨_, _, _, -, -, -, -, -, h⟩ <;> rw [h]
      rfl
    exact ⟨congrArg (fun v : PublicationUnit => v.groups[g]) h,
      fun n _ => congrArg (fun v : PublicationUnit => v.watches[n]) h⟩

/-- From s to u group g has had no outcome recorded, and the counters of it count as before. -/
abbrev State.QuietIn (s : State) (g : Group) (u : State) : Prop :=
  u.pub.groups[g] = s.pub.groups[g] ∧
    ∀ n : WatchNo, s.pub.watches[n].group = g → u.pub.watches[n] = s.pub.watches[n]

theorem State.takeCycleClaims_quiet (u : State) {cs : List CycleClaim} {g : Group} (hc : ∀ c ∈ cs, ¬ c.About g)
    (hroll : .block .rollWatches ∉ cs) : u.QuietIn g (u.takeCycleClaims cs).1 := by
  refine State.takeCycleClaims_keeps_of (u.QuietIn g) cs (fun c hin v ⟨hgroup, hwatch⟩ => ?_) u ⟨rfl, fun _ _ => rfl⟩
  obtain ⟨hg, hw⟩ := v.takeCycleClaim_quiet (hc c hin) fun he => hroll (he ▸ hin)
  exact ⟨hg.trans hgroup, fun n hn => (hw n (by rw [hwatch n hn]; exact hn)).trans (hwatch n hn)⟩

/-! ### Holds through a cycle start -/

theorem State.takeReport_hold (s : State) (g : Group) : (s.takeReport g).1.hold = s.hold := by
  unfold State.takeReport
  split
  · split
    · rfl
    · rw [(State.publish_spec _ g _).1, State.setPub_hold, State.setMap_hold, State.setPub_hold]
  · rfl

/-- The hold table's own claims alone touch its records. -/
theorem State.takeCycleClaim_hold (s : State) (c : CycleClaim) :
    (s.takeCycleClaim c).1.hold = s.hold ∨ (c = .block .countHolds ∧ (s.takeCycleClaim c).1.hold = s.hold.count) ∨
      ∃ p, c = .block (.removeHold p) := by
  cases c with
  | block c =>
    cases c with
    | countHolds => exact Or.inr (Or.inl ⟨rfl, s.setHold_hold _⟩)
    | rollWatches => exact Or.inl rfl
    | point g => exact Or.inl (s.takePoint_hold g)
    | report g => exact Or.inl (s.takeReport_hold g)
    | removeHold p => exact Or.inr (Or.inr ⟨p, rfl⟩)
  | countStagings => exact Or.inl (by rw [State.takeCycleClaim_count, State.setMap_hold])
  | markReady p =>
    left
    show (s.markReady p).hold = s.hold
    rcases s.markReady_eq p with h | ⟨_, _, _, -, -, -, -, -, h⟩ <;> rw [h]
    rfl

/-- Among claims that count the holds at most once, they are as they were or counted down (R91). -/
theorem State.takeCycleClaims_hold (s : State) {cs : List CycleClaim} (hremove : ∀ p, .block (.removeHold p) ∉ cs)
    (hcount : cs.count (.block .countHolds) ≤ 1) :
    (s.takeCycleClaims cs).1.hold = if .block .countHolds ∈ cs then s.hold.count else s.hold := by
  induction cs generalizing s with
  | nil => rfl
  | cons c cs ih =>
    have hih := ih (s.takeCycleClaim c).1 (fun p hp => hremove p (List.mem_cons_of_mem c hp))
      (le_trans (List.count_le_count_cons ..) hcount)
    rw [State.takeCycleClaims_cons, hih]
    by_cases hc : c = .block .countHolds
    · subst hc
      rw [List.count_cons_self] at hcount
      have hnot : CycleClaim.block .countHolds ∉ cs := fun hin => absurd (List.count_pos_iff.2 hin) (by omega)
      rw [if_neg hnot, if_pos (List.mem_cons_self ..)]
      rfl
    · rcases s.takeCycleClaim_hold c with h | ⟨h, -⟩ | ⟨p, h⟩
      · simp only [h, List.mem_cons, Ne.symm hc, false_or]
      · exact absurd h hc
      · exact absurd (h ▸ List.mem_cons_self ..) (hremove p)

/-- What still covers a group behind the countdown of the holds (R91). -/
theorem HoldTable.count_covers_iff (h : HoldTable) (g : Group) :
    h.count.covers g = true ↔
      ∃ (p : Port) (x : Hold), h.records[p] = some x ∧ x.groups.getLsbD g.val = true ∧ 1 < x.cyclesLeft := by
  rw [HoldTable.covers_iff]
  refine exists_congr fun p => ?_
  rw [HoldTable.count_record]
  constructor
  · rintro ⟨x, hx, hg⟩
    unfold Hold.count at hx
    split at hx
    · cases hx
    · rename_i y hy
      split at hx
      · cases hx
      · cases hx
        exact ⟨y, hy, hg, by omega⟩
  · rintro ⟨x, hx, hg, hl⟩
    refine ⟨{ x with cyclesLeft := x.cyclesLeft - 1 }, ?_, hg⟩
    rw [hx, Hold.count, if_neg (by omega)]

/-- A hold breaks where the group is covered before the countdown and not behind it (R91). -/
theorem State.breaks_iff (s : State) (g : Group) :
    s.Breaks g ↔ s.hold.covers g = true ∧ s.hold.count.covers g = false := by
  rw [HoldTable.covers_iff, Bool.eq_false_iff, Ne, HoldTable.count_covers_iff]
  refine and_congr_right fun _ => ⟨fun h ⟨p, x, hx, hg, hl⟩ => ?_, fun h p x hx hg => ?_⟩
  · exact absurd (h p x hx hg) (by omega)
  · by_contra hl
    exact h ⟨p, x, hx, hg, by omega⟩

/-- Where no hold breaks, the countdown changes nothing of what covers a group. -/
theorem State.count_covers_of_not_breaks {s : State} {g : Group} (h : ¬ s.Breaks g) :
    s.hold.count.covers g = s.hold.covers g := by
  rw [State.breaks_iff] at h
  cases hc : s.hold.covers g with
  | true =>
    rw [hc] at h
    exact Bool.not_eq_false _ ▸ fun hf => h ⟨rfl, hf⟩
  | false =>
    rw [Bool.eq_false_iff, Ne, HoldTable.count_covers_iff]
    rintro ⟨p, x, hx, hg, -⟩
    exact absurd ((HoldTable.covers_iff _ _).2 ⟨p, x, hx, hg⟩) (by rw [hc]; simp)

end Sys2Proof.Machine
end

section
/-! SUPPORT. The ports and the stagings of a group through the claims of a cycle start (R9, R24, R26, R27, R70). -/

namespace Sys2Proof.Machine

/-! ### What one claim does to a port, and to a page -/

/-- A claim of a cycle start leaves a port, or it marks the staging that the port's STAGE_READY awaits, and answers it
(R26, R70). -/
theorem State.takeCycleClaim_answers (u : State) (c : CycleClaim) (q : Port) :
    (u.takeCycleClaim c).1.port q = u.port q ∨
      ∃ pp i st, u.Awaits q (.stageReady pp) i ∧ u.MayStage q i ∧ (u.map.page i).staging = some st ∧ st.stager = q ∧
        st.state = .opened ∧
          (u.takeCycleClaim c).1.port q = { u.port q with tx := .response { status := .ok, body := [] } } := by
  cases c with
  | block c => exact Or.inl (State.port_congr (u.takeClaim_only c).link q)
  | countStagings => exact Or.inl (by rw [State.takeCycleClaim_count, State.port_setMap])
  | markReady p =>
    show (u.markReady p).port q = _ ∨ ∃ pp i st, _ ∧ _ ∧ _ ∧ _ ∧ _ ∧ (u.markReady p).port q = _
    rcases u.markReady_eq p with h | ⟨pp, i, st, hw, hmay, hst, hp, ho, h⟩
    · exact Or.inl (by rw [h])
    · by_cases hq : q = p
      · subst hq
        refine Or.inr ⟨pp, i, st, hw, hmay, hst, hp, ho, ?_⟩
        rw [h, State.answer_eq, State.port_setPort_same, State.port_setMap]
      · left
        rw [h, State.answer_eq, State.port_setPort_ne _ _ hq, State.port_setMap]

theorem State.AwaitsNoMore.takeCycleClaim {s u : State} (h : s.AwaitsNoMore u) (c : CycleClaim) :
    s.AwaitsNoMore (u.takeCycleClaim c).1 := by
  intro p x j hw
  rcases u.takeCycleClaim_answers c p with he | ⟨_, _, _, -, -, -, -, -, he⟩
  · exact h p x j (by rwa [State.Awaits, he] at hw)
  · rw [State.Awaits, he] at hw
    cases hw

/-- A marking leaves a page, or it makes its staging READY (R26). -/
theorem State.markReady_page (u : State) (p : Port) (i : Page) :
    (u.markReady p).map.page i = u.map.page i ∨
      ∃ pp st, u.Awaits st.stager (.stageReady pp) i ∧ u.MayStage st.stager i ∧ (u.map.page i).staging = some st ∧
        st.state = .opened ∧
          (u.markReady p).map.page i = { u.map.page i with staging := some { st with state := .ready } } ∧
            ((u.markReady p).port st.stager).tx = .response { status := .ok, body := [] } := by
  rcases u.markReady_eq p with h | ⟨pp, j, st, hw, hmay, hst, hp, ho, h⟩
  · exact Or.inl (by rw [h])
  · have hmap : (u.markReady p).map =
        u.map.setPage j { u.map.page j with staging := some { st with state := .ready } } := by
      rw [h]
      rfl
    rw [hmap, ExchangeMap.page_setPage]
    by_cases hij : i = j
    · subst hij hp
      refine Or.inr ⟨pp, st, hw, hmay, hst, ho, if_pos rfl, ?_⟩
      rw [h, State.answer_eq, State.port_setPort_same]
    · exact Or.inl (if_neg hij)

/-- What a claim of a cycle start makes of a page: nothing, or it publishes it, counts its staging down, or marks it. -/
theorem State.takeCycleClaim_page (u : State) (c : CycleClaim) (i : Page) :
    (u.takeCycleClaim c).1.map.page i = u.map.page i ∨
      (∃ st k, (u.map.page i).staging = some st ∧ (u.takeCycleClaim c).1.map.page i = (u.map.page i).published k) ∨
      (u.takeCycleClaim c).1.map.page i = (u.map.page i).counted ∨
      ∃ st, (u.map.page i).staging = some st ∧ (u.takeCycleClaim c).1.map.page i =
        { u.map.page i with staging := some { st with state := .ready } } := by
  cases c with
  | block c =>
    rcases u.takeClaim_page c i with h | ⟨⟨st, hst, -⟩, h⟩
    · exact Or.inl h
    · exact Or.inr (Or.inl ⟨st, _, hst, h⟩)
  | countStagings =>
    right; right; left
    rw [State.takeCycleClaim_count, State.setMap_map, u.map.countStagings_page i]
  | markReady p =>
    rcases u.markReady_page p i with h | ⟨_, st, -, -, hst, -, h, -⟩
    · exact Or.inl h
    · exact Or.inr (Or.inr (Or.inr ⟨st, hst, h⟩))

theorem PageRecord.counted_unstaged {r : PageRecord} (h : r.staging = none) : r.counted = r := by
  simp only [PageRecord.counted, h]

/-- The countdown touches the staging alone (R25). -/
theorem PageRecord.counted_only (r : PageRecord) : r.counted = { r with staging := r.counted.staging } := by
  cases hs : r.staging with
  | none =>
    rw [PageRecord.counted_unstaged hs]
  | some st =>
    rw [PageRecord.counted_eq hs]

/-- A page without a staging stays as it is (R63). -/
theorem State.takeCycleClaims_unstaged {u : State} {i : Page} (h : (u.map.page i).staging = none)
    (cs : List CycleClaim) : (u.takeCycleClaims cs).1.map.page i = u.map.page i := by
  refine u.takeCycleClaims_keeps (fun v => v.map.page i = u.map.page i) (fun v c hv => ?_) cs rfl
  rw [← hv] at h
  rcases v.takeCycleClaim_page c i with he | ⟨st, _, hst, -⟩ | he | ⟨st, hst, -⟩
  · exact he.trans hv
  · cases h.symm.trans hst
  · rw [he, PageRecord.counted_unstaged h, hv]
  · cases h.symm.trans hst

/-! ### The ports -/

/-- u stands within a cycle start from s: a staging that is OPEN was OPEN in s with the same stager, under the same access,
and every port is as it was, or its outstanding STAGE_READY has marked its staging and is answered (R26, R70). -/
structure State.Answering (s u : State) : Prop where
  awaits : s.AwaitsNoMore u
  access : ∀ i, (u.map.page i).defined = (s.map.page i).defined ∧ (u.map.page i).writers = (s.map.page i).writers ∧
    (u.map.page i).group = (s.map.page i).group
  opened : ∀ i new, (u.map.page i).staging = some new → new.state = .opened →
    ∃ st, (s.map.page i).staging = some st ∧ st.state = .opened ∧ st.stager = new.stager
  ports : ∀ q, u.port q = s.port q ∨ ∃ i st, (s.map.page i).staging = some st ∧ st.stager = q ∧ s.Marks u i st ∧
    u.port q = { s.port q with tx := .response { status := .ok, body := [] } }

theorem State.Answering.refl (s : State) : s.Answering s :=
  ⟨fun _ _ _ h => h, fun _ => ⟨rfl, rfl, rfl⟩, fun _ new hs ho => ⟨new, hs, ho, rfl⟩, fun _ => Or.inl rfl⟩

/-- The countdown leaves an OPEN staging OPEN, with its stager (R25). -/
theorem Staging.counted_stager {st new : Staging} (h : st.counted = some new) :
    new.state = st.state ∧ new.stager = st.stager ∧ new.frame = st.frame := by
  unfold Staging.counted at h
  split at h
  · cases h
    exact ⟨rfl, rfl, rfl⟩
  · split at h
    · cases h
    · cases h
      exact ⟨rfl, rfl, rfl⟩

theorem State.Answering.takeCycleClaim {s u : State} (h : s.Answering u) (c : CycleClaim) :
    s.Answering (u.takeCycleClaim c).1 := by
  refine ⟨h.awaits.takeCycleClaim c, fun i => ?_, fun i new hs ho => ?_, fun q => ?_⟩
  · rw [← (h.access i).1, ← (h.access i).2.1, ← (h.access i).2.2]
    rcases u.takeCycleClaim_page c i with he | ⟨_, _, -, he⟩ | he | ⟨_, -, he⟩
    · rw [he]; exact ⟨rfl, rfl, rfl⟩
    · rw [he]; exact ⟨rfl, rfl, rfl⟩
    · rw [he, PageRecord.counted_only]; exact ⟨rfl, rfl, rfl⟩
    · rw [he]; exact ⟨rfl, rfl, rfl⟩
  · rcases u.takeCycleClaim_page c i with he | ⟨_, _, -, he⟩ | he | ⟨_, -, he⟩
    · exact h.opened i new (he ▸ hs) ho
    · rw [he] at hs
      cases hs
    · rw [he] at hs
      cases hst : (u.map.page i).staging with
      | none =>
        rw [PageRecord.counted_unstaged hst, hst] at hs
        cases hs
      | some st =>
        rw [PageRecord.counted_eq hst] at hs
        obtain ⟨hstate, hstager, -⟩ := Staging.counted_stager hs
        rw [hstager]
        exact h.opened i st hst (hstate.symm.trans ho)
    · rw [he] at hs
      cases hs
      cases ho
  · have hold := h.ports q
    rcases u.takeCycleClaim_answers c q with he | ⟨pp, i, new, hw, hmay, hst, hp, ho, he⟩
    · rw [he]
      exact hold.imp_right fun ⟨i, st, hs, hq, hm, hport⟩ => ⟨i, st, hs, hq, hm.takeCycleClaim c, hport⟩
    · have hsame : u.port q = s.port q := by
        rcases hold with hold | ⟨_, _, -, -, -, hold⟩
        · exact hold
        · rw [State.Awaits, hold] at hw
          cases hw
      obtain ⟨st, hs, hopen, hstager⟩ := h.opened i new hst ho
      rw [hp] at hstager
      refine Or.inr ⟨i, st, hs, hstager, ⟨hopen, ?_, ⟨pp, ?_⟩, ?_⟩, by rw [he, hsame]⟩
      · rw [State.MayStage, (h.access i).1, (h.access i).2.1] at hmay
        rw [hstager]
        exact hmay
      · rw [hstager]
        exact h.awaits _ _ _ hw
      · rw [hstager, he]

theorem State.Answering.takeCycleClaims (s : State) (cs : List CycleClaim) : s.Answering (s.takeCycleClaims cs).1 :=
  s.takeCycleClaims_keeps s.Answering (fun _ c h => h.takeCycleClaim c) cs (.refl s)

/-! ### The stagings of a group that nothing publishes -/

theorem State.StagingThen.mono {s s' u v : State} {i : Page} {st : Staging} {b : Bool} {o : Option Staging}
    (h : s.StagingThen u i st b o) (hm : s.Marks u i st → s'.Marks v i st) : s'.StagingThen v i st b o := by
  cases h with
  | uncounted => exact .uncounted
  | counted => exact .counted
  | marked _ h => exact .marked _ (hm h)
  | countedThenMarked h h0 h1 => exact .countedThenMarked (hm h) h0 h1

/-- Counted down or marked, a staging keeps its frame and its stager. -/
theorem State.StagingThen.frame {s u : State} {i : Page} {st new : Staging} {b : Bool}
    (h : s.StagingThen u i st b (some new)) : new.frame = st.frame ∧ new.stager = st.stager := by
  generalize ho : some new = o at h
  cases h with
  | uncounted => cases ho; exact ⟨rfl, rfl⟩
  | counted => exact ⟨(Staging.counted_stager ho.symm).2.2, (Staging.counted_stager ho.symm).2.1⟩
  | marked => cases ho; exact ⟨rfl, rfl⟩
  | countedThenMarked => cases ho; exact ⟨rfl, rfl⟩

/-- What the countdown leaves of a staging: as it was, or with one cycle less (R25). -/
theorem Staging.counted_some {st new : Staging} (h : st.counted = some new) :
    new = st ∨ (st.cyclesLeft ≠ 0 ∧ st.cyclesLeft ≠ 1 ∧ new = { st with cyclesLeft := st.cyclesLeft - 1 }) := by
  unfold Staging.counted at h
  split at h
  · cases h
    exact Or.inl rfl
  · rename_i h0
    split at h
    · cases h
    · rename_i h1
      cases h
      exact Or.inr ⟨fun hc => h0 (Or.inr hc), h1, rfl⟩

/-- The countdown meets a staging once (R25). -/
theorem State.StagingThen.count {s u : State} {i : Page} {st : Staging} {o : Option Staging}
    (h : s.StagingThen u i st false o) : s.StagingThen u i st true (o.bind Staging.counted) := by
  cases h with
  | uncounted => exact .counted
  | marked _ h =>
    have he : Staging.counted { st with state := .ready } = some { st with state := .ready } := if_pos (Or.inl rfl)
    exact (congrArg (s.StagingThen u i st true) he).mpr (.marked true h)

/-- A marking of the staging (R26). -/
theorem State.StagingThen.mark {s u v : State} {i : Page} {st new : Staging} {b : Bool}
    (h : s.StagingThen u i st b (some new)) (ho : new.state = .opened) (hm : st.state = .opened → s.Marks v i st) :
    s.StagingThen v i st b (some { new with state := .ready }) := by
  generalize hnew : some new = o at h
  cases h with
  | uncounted =>
    cases hnew
    exact .marked false (hm ho)
  | counted =>
    have hopen : st.state = .opened := (Staging.counted_stager hnew.symm).1.symm.trans ho
    rcases Staging.counted_some hnew.symm with rfl | ⟨h0, h1, rfl⟩
    · exact .marked true (hm hopen)
    · exact .countedThenMarked (hm hopen) h0 h1
  | marked =>
    cases hnew
    cases ho
  | countedThenMarked =>
    cases hnew
    cases ho

/-- u stands within a cycle start from s, in which no outcome of group g has published: the pages of g are as they were but
for their stagings, which are counted down or not, and marked or not (R24, R25). -/
structure State.Unpublished (s : State) (g : Group) (counted : Bool) (u : State) : Prop where
  awaits : s.AwaitsNoMore u
  page : ∀ i, (s.map.page i).group = g → u.map.page i = { s.map.page i with staging := (u.map.page i).staging }
  unstaged : ∀ i, (s.map.page i).group = g → (s.map.page i).staging = none → (u.map.page i).staging = none
  staged : ∀ i st, (s.map.page i).group = g → (s.map.page i).staging = some st →
    s.StagingThen u i st counted (u.map.page i).staging

theorem State.Unpublished.refl (s : State) (g : Group) : s.Unpublished g false s :=
  ⟨fun _ _ _ h => h, fun _ _ => rfl, fun _ _ h => h, fun _ _ _ h => h ▸ .uncounted⟩

theorem State.Unpublished.group {s u : State} {g : Group} {b : Bool} (h : s.Unpublished g b u) {i : Page}
    (hi : (s.map.page i).group = g) : (u.map.page i).group = g := by
  rw [h.page i hi]
  exact hi

/-- A claim that leaves the pages of the group leaves them unpublished. -/
theorem State.Unpublished.same {s u : State} {g : Group} {b : Bool} (h : s.Unpublished g b u) (c : CycleClaim)
    (hpage : ∀ i, (s.map.page i).group = g → (u.takeCycleClaim c).1.map.page i = u.map.page i) :
    s.Unpublished g b (u.takeCycleClaim c).1 := by
  refine ⟨h.awaits.takeCycleClaim c, fun i hi => ?_, fun i hi hs => ?_, fun i st hi hs => ?_⟩
  · rw [hpage i hi]
    exact h.page i hi
  · rw [hpage i hi]
    exact h.unstaged i hi hs
  · rw [hpage i hi]
    exact (h.staged i st hi hs).mono fun hm => hm.takeCycleClaim c

theorem State.Unpublished.countStagings {s u : State} {g : Group} (h : s.Unpublished g false u) :
    s.Unpublished g true (u.takeCycleClaim .countStagings).1 := by
  have hpage : ∀ i, (u.takeCycleClaim .countStagings).1.map.page i = (u.map.page i).counted := fun i => by
    rw [State.takeCycleClaim_count, State.setMap_map, u.map.countStagings_page i]
  refine ⟨h.awaits.takeCycleClaim _, fun i hi => ?_, fun i hi hs => ?_, fun i st hi hs => ?_⟩
  · rw [hpage i, PageRecord.counted_only, h.page i hi]
  · rw [hpage i, PageRecord.counted_unstaged (h.unstaged i hi hs)]
    exact h.unstaged i hi hs
  · have hcount : (u.map.page i).counted.staging = (u.map.page i).staging.bind Staging.counted := by
      cases hu : (u.map.page i).staging with
      | none => rw [PageRecord.counted_unstaged hu, hu]; rfl
      | some x => rw [PageRecord.counted_eq hu]; rfl
    rw [hpage i, hcount]
    exact (h.staged i st hi hs).count.mono fun hm => hm.takeCycleClaim _

theorem State.Unpublished.markReady {s u : State} {g : Group} {b : Bool} (h : s.Unpublished g b u) (p : Port) :
    s.Unpublished g b (u.takeCycleClaim (.markReady p)).1 := by
  have hmarks : ∀ i st, s.Marks u i st → s.Marks (u.markReady p) i st :=
    fun _ _ hm => hm.takeCycleClaim (.markReady p)
  have hpage := u.markReady_page p
  refine ⟨h.awaits.takeCycleClaim _, fun i hi => ?_, fun i hi hs => ?_, fun i st hi hs => ?_⟩
  · show (u.markReady p).map.page i = { s.map.page i with staging := ((u.markReady p).map.page i).staging }
    rcases hpage i with he | ⟨_, new, -, -, -, -, he, -⟩
    · rw [he]
      exact h.page i hi
    · rw [he, h.page i hi]
  · show ((u.markReady p).map.page i).staging = none
    rcases hpage i with he | ⟨_, new, -, -, hnew, -⟩
    · rw [he]
      exact h.unstaged i hi hs
    · cases (h.unstaged i hi hs).symm.trans hnew
  · have hst := h.staged i st hi hs
    show s.StagingThen (u.markReady p) i st b ((u.markReady p).map.page i).staging
    rcases hpage i with he | ⟨pp, new, hw, hmay, hnew, ho, he, hanswer⟩
    · rw [he]
      exact hst.mono (hmarks i st)
    · rw [hnew] at hst
      rw [he]
      rw [hst.frame.2] at hw hmay hanswer
      refine hst.mark ho fun hopen => ⟨hopen, ?_, ⟨pp, h.awaits _ _ _ hw⟩, hanswer⟩
      rw [State.MayStage, h.page i hi] at hmay
      exact hmay

/-- Claims of a cycle start that are not about group g, the countdown at most once among them, leave it unpublished. -/
theorem State.Unpublished.takeCycleClaims {s : State} {g : Group} {cs : List CycleClaim}
    (hcs : ∀ c ∈ cs, ¬ c.About g) {b : Bool} {u : State} (h : s.Unpublished g b u)
    (hcount : cs.count .countStagings ≤ if b then 0 else 1) :
    ∃ b', s.Unpublished g b' (u.takeCycleClaims cs).1 := by
  induction cs generalizing b u with
  | nil => exact ⟨b, h⟩
  | cons c cs ih =>
    have hrest := fun d hd => hcs d (List.mem_cons_of_mem c hd)
    have hle : cs.count .countStagings ≤ if b then 0 else 1 := le_trans (List.count_le_count_cons ..) hcount
    show ∃ b', s.Unpublished g b' ((u.takeCycleClaim c).1.takeCycleClaims cs).1
    cases c with
    | block c =>
      refine ih hrest (h.same (.block c) fun i hi => ?_) hle
      exact u.takeClaim_page_other (hcs _ (List.mem_cons_self ..)) (h.group hi)
    | countStagings =>
      rw [List.count_cons_self] at hcount
      cases b with
      | true => exact absurd hcount (Nat.not_succ_le_zero (cs.count .countStagings))
      | false =>
        have hnone : cs.count .countStagings ≤ 0 := Nat.le_of_succ_le_succ hcount
        exact ih hrest h.countStagings hnone
    | markReady p => exact ih hrest (h.markReady p) hle

end Sys2Proof.Machine
end

section
/-! SUPPORT. The point of slot 0 among the claims of a cycle start, where no hold of its group breaks (R37, R59 to R64, R75,
R78, R79). -/

namespace Sys2Proof.Machine

/-! ### A publication point, by what it finds -/

/-- A point of a frozen group (R60). -/
theorem State.takePoint_frozen {a : State} {g : Group} (h : a.stop.frozen.getLsbD g.val = true) :
    a.takePoint g = a.recordQuiet g .frozen := if_pos h

/-- A point of a group that is held and not frozen (R61). -/
theorem State.takePoint_deferred {a : State} {g : Group} (h : a.stop.frozen.getLsbD g.val = false)
    (hc : a.hold.covers g = true) : a.takePoint g = (a.setPub (a.pub.setMark g true)).recordQuiet g .deferred := by
  have hf : a.stop.isFrozen g = false := h
  rw [State.takePoint, if_neg (Bool.eq_false_iff.1 hf), if_pos hc]

/-- A point of a group that is neither frozen nor held (R62). -/
theorem State.takePoint_published {a : State} {g : Group} (h : a.stop.frozen.getLsbD g.val = false)
    (hc : a.hold.covers g = false) : a.takePoint g = a.publish g .published := by
  have hf : a.stop.isFrozen g = false := h
  rw [State.takePoint, if_neg (Bool.eq_false_iff.1 hf), if_neg (Bool.eq_false_iff.1 hc)]

theorem Watch.rolled_group (w : Watch) : w.rolled.group = w.group := by
  unfold Watch.rolled
  cases w.mode <;> rfl

/-! ### Where the point stands among the claims -/

/-- Among the claims of a cycle start from u that come to r, the point of group g is taken in state a, before the claims
rest: nothing about g has happened before it but the roll, and nothing about g happens behind it. -/
structure State.MeetsPoint (u : State) (g : Group) (r : State × List Outgoing) (a : State) (rest : List CycleClaim) :
    Prop where
  only : u.OnlyCycle a
  found : ∃ counted, u.Unpublished g counted a
  answering : u.Answering a
  covers : a.hold.covers g = u.hold.covers g
  group : a.pub.groups[g] = u.pub.groups[g]
  rolled : ∀ n : WatchNo, u.pub.watches[n].group = g → a.pub.watches[n] = u.pub.watches[n].rolled
  others : ∀ c ∈ rest, ¬ c.About g
  noRoll : .block .rollWatches ∉ rest
  countsOnce : rest.count .countStagings ≤ 1
  ends : r.1 = ((a.takePoint g).1.takeCycleClaims rest).1
  sends : ∀ m ∈ (a.takePoint g).2, { sender := .point, message := m } ∈ r.2

/-- The roll, between claims that are quiet about the group. -/
theorem State.takeCycleClaims_rolled (u : State) {first second : List CycleClaim} {g : Group}
    (habout : ∀ c, c ∈ first ∨ c ∈ second → ¬ c.About g) (hroll : ∀ c, c ∈ first ∨ c ∈ second → c ≠ .block .rollWatches) :
    (u.takeCycleClaims (first ++ .block .rollWatches :: second)).1.pub.groups[g] = u.pub.groups[g] ∧
      ∀ n : WatchNo, u.pub.watches[n].group = g →
        (u.takeCycleClaims (first ++ .block .rollWatches :: second)).1.pub.watches[n] = u.pub.watches[n].rolled := by
  obtain ⟨hgroup, hwatch⟩ := u.takeCycleClaims_quiet (cs := first) (fun c hc => habout c (Or.inl hc))
    fun hin => hroll _ (Or.inl hin) rfl
  rw [State.takeCycleClaims_append, State.takeCycleClaims_cons]
  generalize (u.takeCycleClaims first).1 = b at hgroup hwatch
  have hpub : (b.takeCycleClaim (.block .rollWatches)).1.pub = b.pub.roll := b.setPub_pub _
  dsimp only
  generalize (b.takeCycleClaim (.block .rollWatches)).1 = c at hpub
  obtain ⟨hgroup', hwatch'⟩ := c.takeCycleClaims_quiet (cs := second) (fun c hc => habout c (Or.inr hc))
    fun hin => hroll _ (Or.inr hin) rfl
  refine ⟨hgroup'.trans ?_, fun n hn => ?_⟩
  · rw [hpub]
    exact hgroup
  · have hw : c.pub.watches[n] = u.pub.watches[n].rolled := by
      rw [hpub, PublicationUnit.roll_watch, Watch.roll_eq_rolled, hwatch n hn]
    rw [hwatch' n (by rw [hw, Watch.rolled_group, hn]), hw]

/-- Where no hold of g breaks, the point of g meets it as the cycle start found it (R66, R91). -/
theorem State.meetsPoint {u : State} (pick : Nat → Nat) {g : Group} (hb : ¬ u.Breaks g) :
    ∃ a rest, u.MeetsPoint g (u.takeCycleClaims (u.cycleStartClaims pick (some g))) a rest := by
  obtain ⟨first, second, third, hcs, hno⟩ := u.cycleStartClaims_point pick g
  have hreport : .block (.report g) ∉ u.cycleStartClaims pick (some g) := fun hin =>
    hb (u.breaks_iff g |>.2 ((HoldTable.mem_uncovered _ _ g).1 (State.report_of_mem hin)))
  have habout : ∀ c, c ∈ first ∨ c ∈ second ∨ c ∈ third → ¬ c.About g := by
    rintro c hc (rfl | rfl)
    · exact Bool.noConfusion (hno _ hc)
    · refine hreport (hcs ▸ ?_)
      simpa using hc
  have hroll : ∀ c, c ∈ first ∨ c ∈ second ∨ c ∈ third → c ≠ .block .rollWatches := by
    rintro c hc rfl
    exact Bool.noConfusion (hno _ hc)
  have hbefore : ∀ c ∈ first ++ .block .rollWatches :: second, ¬ c.About g := by
    intro c hc
    rw [List.mem_append, List.mem_cons] at hc
    rcases hc with hc | rfl | hc
    · exact habout c (Or.inl hc)
    · exact fun h => h.elim nofun nofun
    · exact habout c (Or.inr (Or.inl hc))
  have hsplit : u.cycleStartClaims pick (some g) =
      (first ++ .block .rollWatches :: second) ++ .block (.point g) :: third := by
    rw [hcs, List.append_assoc, List.cons_append]
  have hcount := u.count_cycleStartClaims pick (some g)
  have hholds := u.count_countHolds pick (some g)
  have hremove := u.removeHold_not_mem pick (some g)
  rw [hsplit, List.count_append, List.count_cons_of_ne (by simp)] at hcount hholds
  rw [hsplit] at hremove ⊢
  obtain ⟨hgroup, hwatch⟩ := u.takeCycleClaims_rolled (first := first) (second := second)
    (fun c hc => habout c (hc.imp_right Or.inl)) (fun c hc => hroll c (hc.imp_right Or.inl))
  generalize first ++ .block .rollWatches :: second = before at hbefore hcount hholds hremove hgroup hwatch
  have hhold := u.takeCycleClaims_hold (cs := before) (fun p hp => hremove p (List.mem_append_left _ hp)) (by omega)
  rw [State.takeCycleClaims_append, State.takeCycleClaims_cons]
  refine ⟨_, third, u.takeCycleClaims_only before, (State.Unpublished.refl u g).takeCycleClaims hbefore ?_,
    State.Answering.takeCycleClaims u before, ?_, hgroup, hwatch, fun c hc => habout c (Or.inr (Or.inr hc)),
    fun hin => hroll _ (Or.inr (Or.inr hin)) rfl, by omega, rfl, fun m hm => ?_⟩
  · show before.count .countStagings ≤ 1
    omega
  · rw [hhold]
    split
    · exact State.count_covers_of_not_breaks hb
    · rfl
  · exact List.mem_append_right _ (List.mem_append_left _ (List.mem_map_of_mem hm))

/-! ### What the point comes to -/

section
variable {u a : State} {g : Group} {r : State × List Outgoing} {rest : List CycleClaim}

/-- The claims behind the point leave what it recorded. -/
theorem State.MeetsPoint.quiet (h : u.MeetsPoint g r a rest) : (a.takePoint g).1.QuietIn g r.1 := by
  rw [h.ends]
  exact State.takeCycleClaims_quiet _ h.others h.noRoll

theorem State.MeetsPoint.sched (h : u.MeetsPoint g r a rest) : a.sched = u.sched := by
  rw [h.only]
  rfl

theorem State.MeetsPoint.stop (h : u.MeetsPoint g r a rest) : a.stop = u.stop := by
  rw [h.only]
  rfl

theorem State.MeetsPoint.stamp (h : u.MeetsPoint g r a rest) : a.stamp = u.stamp := by
  rw [h.only]
  rfl

/-- The counters of g, rolled, take the outcome that the group status then shows (R77 to R79). -/
theorem State.MeetsPoint.watches (h : u.MeetsPoint g r a rest) {n : WatchNo} (hn : u.pub.watches[n].group = g) :
    r.1.pub.watches[n] = u.pub.watches[n].rolled.after g r.1.pub.groups[g] := by
  obtain ⟨hgroup, hwatch⟩ := h.quiet
  obtain ⟨w, o, made, missed, -, hw, hpub, -⟩ := a.takePoint_recorded g
  have hsame := PublicationUnit.record_same w g o a.sched.cycleCount made missed
  have htaken : (a.takePoint g).1.pub.watches[n] =
      u.pub.watches[n].rolled.after g (a.takePoint g).1.pub.groups[g] := by
    rw [hpub, PublicationUnit.record_watch, hw, h.rolled n hn, ← Watch.take_eq_after, hsame]
  have hkeeps : (u.pub.watches[n].rolled.after g (a.takePoint g).1.pub.groups[g]).group = g := by
    rw [← Watch.rolled_group] at hn
    rw [Watch.after, if_pos hn]
    split <;> exact hn
  rw [hwatch n (by rw [htaken]; exact hkeeps), htaken, hgroup]

/-- The notice of the outcome is sent (R75). -/
theorem State.MeetsPoint.notice (h : u.MeetsPoint g r a rest) :
    { sender := .point
      message := u.groupPoint g r.1.pub.groups[g].last r.1.pub.groups[g].published r.1.pub.groups[g].late } ∈ r.2 := by
  obtain ⟨w, o, made, missed, -, -, hpub, hm⟩ := a.takePoint_recorded g
  have hgroup : r.1.pub.groups[g] = _ := h.quiet.1.trans (by rw [hpub, PublicationUnit.record_same])
  rw [hgroup]
  have hstamp : a.groupPoint g o made missed = u.groupPoint g o made missed := by
    rw [State.groupPoint, State.groupPoint, h.stamp]
  exact hstamp ▸ h.sends _ hm

/-- Behind a point that publishes nothing, the pages of the group are as they were but for their stagings. -/
theorem State.MeetsPoint.live (h : u.MeetsPoint g r a rest) (hmap : (a.takePoint g).1.map = a.map) {i : Page}
    (hi : (u.map.page i).group = g) :
    (r.1.map.page i).live = (u.map.page i).live ∧ (r.1.map.page i).sequence = (u.map.page i).sequence := by
  obtain ⟨_, hfound⟩ := h.found
  obtain ⟨_, hend⟩ := (State.Unpublished.refl (a.takePoint g).1 g).takeCycleClaims h.others h.countsOnce
  rw [← h.ends] at hend
  have hpage := hend.page i (by rw [hmap]; exact hfound.group hi)
  rw [hmap, hfound.page i hi] at hpage
  rw [hpage]
  exact ⟨rfl, rfl⟩

/-- A point of a frozen group (R60). -/
theorem State.MeetsPoint.frozen (h : u.MeetsPoint g r a rest) (hf : u.stop.frozen.getLsbD g.val = true) :
    r.1.pub.groups[g] =
        { last := .frozen, cycle := u.sched.cycleCount, published := 0, late := 0, mark := u.pub.groups[g].mark } ∧
      (a.takePoint g).1.map = a.map := by
  have hpoint := State.takePoint_frozen (h.stop ▸ hf)
  refine ⟨h.quiet.1.trans ?_, by rw [hpoint, State.recordQuiet_map]⟩
  rw [hpoint, State.recordQuiet, State.setPub_pub, PublicationUnit.record_same, h.group, h.sched]

/-- A point of a held group (R61). -/
theorem State.MeetsPoint.deferred (h : u.MeetsPoint g r a rest) (hf : u.stop.frozen.getLsbD g.val = false)
    (hheld : u.Held g) :
    r.1.pub.groups[g] =
        { last := .deferred, cycle := u.sched.cycleCount, published := 0, late := 0, mark := true } ∧
      (a.takePoint g).1.map = a.map := by
  have hpoint := State.takePoint_deferred (h.stop ▸ hf) (h.covers.trans ((HoldTable.covers_iff _ g).2 hheld))
  refine ⟨h.quiet.1.trans ?_, by rw [hpoint, State.recordQuiet_map, State.setPub_map]⟩
  rw [hpoint, State.recordQuiet, State.setPub_pub, PublicationUnit.record_same, State.setPub_pub,
    PublicationUnit.setMark_same, State.setPub_sched, h.sched]

/-- A point of a group that is neither frozen nor held publishes what it meets (R62 to R64). -/
theorem State.MeetsPoint.published (h : u.MeetsPoint g r a rest) (hf : u.stop.frozen.getLsbD g.val = false)
    (hheld : ¬ u.Held g) :
    r.1.pub.groups[g] =
        { last := .published, cycle := u.sched.cycleCount, published := a.map.readyCount g
          late := a.map.lateCount g, mark := u.pub.groups[g].mark } ∧
      (∀ i, a.map.ready g i = true → r.1.map.page i = (a.map.page i).published u.sched.cycleCount) ∧
      ∀ i st, a.map.late g i = true → (a.map.page i).staging = some st →
        { sender := .point, message := u.address st.stager (.late i g) } ∈ r.2 := by
  have hcovers : a.hold.covers g = false := by
    rw [h.covers, Bool.eq_false_iff]
    exact fun hc => hheld ((HoldTable.covers_iff _ g).1 hc)
  have hpoint := State.takePoint_published (h.stop ▸ hf) hcovers
  obtain ⟨hstate, hnotices⟩ := a.publish_spec g .published
  refine ⟨h.quiet.1.trans ?_, fun i hi => ?_, fun i st hi hs => ?_⟩
  · rw [hpoint, hstate, State.setPub_pub, PublicationUnit.record_same, h.group, h.sched]
  · have hpage : (a.takePoint g).1.map.page i = (a.map.page i).published u.sched.cycleCount := by
      rw [hpoint, hstate, State.setPub_map, State.setMap_map, ExchangeMap.swap_page_ready, if_pos hi, h.sched]
    rw [h.ends, State.takeCycleClaims_unstaged (by rw [hpage]; rfl), hpage]
  · have hstamp : a.address st.stager (.late i g) = u.address st.stager (.late i g) := by
      rw [State.address, State.address, h.stamp]
    refine hstamp ▸ h.sends _ ?_
    rw [hpoint, hnotices]
    exact List.mem_append_left _ (List.mem_map_of_mem (f := fun x : Page × Port => a.address x.2 (.late x.1 g))
      ((ExchangeMap.mem_swap_late _ _ _ i st.stager).2 ⟨hi, st, hs, rfl⟩))

end

/-! ### What a publication finds -/

/-- The pages of group g as a shows them, the others as m does. -/
def ExchangeMap.withGroup (m a : ExchangeMap) (g : Group) : ExchangeMap :=
  { m with pages := Vector.ofFn fun i => if (m.page i).group = g then a.page i else m.page i }

theorem ExchangeMap.withGroup_page (m a : ExchangeMap) (g : Group) (i : Page) :
    (m.withGroup a g).page i = if (m.page i).group = g then a.page i else m.page i :=
  Vector.getElem_ofFn ..

theorem ExchangeMap.ready_other {m : ExchangeMap} {g : Group} {i : Page} (h : (m.page i).group ≠ g) :
    m.ready g i = false := by
  unfold ExchangeMap.ready
  split <;> simp [h]

theorem ExchangeMap.late_other {m : ExchangeMap} {g : Group} {i : Page} (h : (m.page i).group ≠ g) :
    m.late g i = false := by
  unfold ExchangeMap.late
  split <;> simp [h]

/-- READY and late pages of the group are those that a shows. -/
theorem ExchangeMap.withGroup_readyLate {m a : ExchangeMap} (g : Group)
    (hgroup : ∀ i, (a.page i).group = (m.page i).group) (i : Page) :
    (m.withGroup a g).ready g i = a.ready g i ∧ (m.withGroup a g).late g i = a.late g i := by
  have hpage := m.withGroup_page a g i
  by_cases hi : (m.page i).group = g
  · rw [if_pos hi] at hpage
    simp only [ExchangeMap.ready, ExchangeMap.late, hpage, and_self]
  · have hi' : (a.page i).group ≠ g := by rwa [hgroup i]
    rw [if_neg hi] at hpage
    have hw : ((m.withGroup a g).page i).group ≠ g := by rwa [hpage]
    rw [ExchangeMap.ready_other hi', ExchangeMap.ready_other hw, ExchangeMap.late_other hi', ExchangeMap.late_other hw]
    exact ⟨rfl, rfl⟩

theorem ExchangeMap.ready_group {m : ExchangeMap} {g : Group} {i : Page} (h : m.ready g i = true) :
    (m.page i).group = g ∧ ∃ st, (m.page i).staging = some st := by
  refine ⟨?_, ?_⟩
  · by_contra hne
    rw [ExchangeMap.ready_other hne] at h
    cases h
  · unfold ExchangeMap.ready at h
    split at h
    · exact ⟨_, by assumption⟩
    · cases h

/-- What the point meets is what a publication of the cycle start from s to t can find, where t shows the markings. -/
theorem State.Unpublished.finds {s u a t : State} {g : Group} {counted : Bool} (h : u.Unpublished g counted a)
    (hs : u.map = s.map) (hmarks : ∀ i st, u.Marks a i st → s.Marks t i st) :
    s.Finds t g (u.map.withGroup a.map g) := by
  refine ⟨counted, fun i => ?_⟩
  rw [ExchangeMap.withGroup_page, ← hs]
  by_cases hi : (u.map.page i).group = g
  · rw [if_pos hi]
    refine ⟨h.page i hi, fun _ => ?_⟩
    split
    · exact h.unstaged i hi (by assumption)
    · exact (h.staged i _ hi (by assumption)).mono (hmarks i _)
  · rw [if_neg hi]
    exact ⟨rfl, fun hg => absurd hg hi⟩

/-- A page that is published is so with the frame of the staging that it had when the cycle started. -/
theorem State.Unpublished.published {u a : State} {g : Group} {counted : Bool} (h : u.Unpublished g counted a)
    {i : Page} (hi : (u.map.page i).group = g) {new : Staging} (hnew : (a.map.page i).staging = some new)
    (c : CycleCount) : (a.map.page i).published c = (u.map.page i).published c := by
  cases hs : (u.map.page i).staging with
  | none => cases (h.unstaged i hi hs).symm.trans hnew
  | some st =>
    have hst := h.staged i st hi hs
    rw [hnew] at hst
    rw [h.page i hi, hnew, PageRecord.published_staged hs hst.frame.1]

end Sys2Proof.Machine
end

section
/-! HEADLINE. A cycle start moves the schedule (R36 to R44, R52, R59 to R64, R75, R78, R79). -/

namespace Sys2Proof.Machine

/-- An event that takes a cycle start comes to what every cycle start comes to; a gap expiry sends SYNC MISSED before it
(R36, R42, R43). -/
theorem comesTo_of_cycleStart {c : Instr} {result : State → State → Prop}
    (hresult : ∀ s pick earlier, (c = .gapExpiry → s.broadcast .sync (.sync .missed) ∈ earlier) →
      result s (s.startCycle pick earlier).bump) : ComesTo c (fun s => s.startsCycle c = true) result := by
  cases c
  case endOfSlot =>
    refine comesTo_of_exec nofun fun s hr hs => ⟨_, exec_endOfSlot hr, ?_⟩
    obtain ⟨he, hlast, hfree⟩ : s.sched.engine = .inCycle ∧
      s.sched.activePlan.count.val ≤ s.sched.slotIndex.val + 1 ∧ s.sched.syncMode = .free := of_decide_eq_true hs
    rw [State.endSlot_free he hlast hfree]
    exact hresult s _ _ nofun
  case syncEdge =>
    refine comesTo_of_syncEdge fun s pick hs => ?_
    rw [State.syncEdge_waiting (of_decide_eq_true hs)]
    exact hresult s _ _ nofun
  case gapExpiry =>
    refine comesTo_of_exec nofun fun s hr hs => ⟨_, exec_gapExpiry hr, ?_⟩
    obtain ⟨he, hgap⟩ := Bool.and_eq_true_iff.1 hs
    obtain ⟨n, hn⟩ := Option.isSome_iff_exists.1 hgap
    rw [State.expireGap, of_decide_eq_true he, hn]
    exact hresult s _ _ fun _ => List.mem_singleton_self _
  all_goals exact comesTo_of_exec nofun fun _ _ hs => absurd hs Bool.false_ne_true

/-- No stop line is ACTIVE (R40). -/
theorem StopUnit.anyActive_eq_false (u : StopUnit) :
    (!u.anyActive) = true ↔ u.lines[(0 : Line)].stop = .inactive ∧ u.lines[(1 : Line)].stop = .inactive := by
  have h : ∀ x : Level, decide (x = .active) = false ↔ x = .inactive := by
    intro x
    cases x <;> simp
  rw [Bool.not_eq_true', StopUnit.anyActive, Bool.or_eq_false_iff, h, h]

/-- What a cycle start hands out and sends, over the state u in which its slot 0 has begun. -/
theorem State.startCycle_eq (s : State) (pick : Nat → Nat) (earlier : List Message) {u : State}
    (hu : u = s.setSched (s.sched.beginCycle s.stop.anyActive)) :
    s.startCycle pick earlier =
      (u.takeCycleClaims (u.cycleStartClaims pick u.sched.slotPoint)).1.notifyFrom (fun i => pick (i + 7))
        ((earlier ++ (if s.sched.pendingSwitch then [u.switchedNotice] else []) ++ u.slotNotices).map
            (Outgoing.mk .schedule) ++
          (u.takeCycleClaims (u.cycleStartClaims pick u.sched.slotPoint)).2) := by
  subst hu
  rfl

/-- A notice that a cycle start sends is found by those whom it reaches (R154). -/
theorem State.notifyFrom_found {u : State} {cs : List CycleClaim} {pick : Nat → Nat} {own : List Message} {x : Outgoing}
    (hx : x ∈ own.map (Outgoing.mk .schedule) ++ (u.takeCycleClaims cs).2) {q : Port}
    (hq : x.message.recipients.reach q u.notice.ports[q] = true) :
    ((u.takeCycleClaims cs).1.notifyFrom pick (own.map (Outgoing.mk .schedule) ++ (u.takeCycleClaims cs).2)).Found q
      x.message.notice := by
  refine State.notifyFrom_delivers _ _ _ x hx q ?_
  have hnotice : (u.takeCycleClaims cs).1.notice = u.notice := by
    rw [u.takeCycleClaims_only cs]
    rfl
  rw [hnotice]
  exact hq

/-- The notices that every cycle start sends: those before it, the PLAN_SWITCHED of an adopted switch, and the SLOT notices
of slot 0 (R36, R37, R43). -/
theorem State.startCycle_found (s : State) (pick : Nat → Nat) {earlier : List Message} {m : Message} {u : State}
    (hu : u = s.setSched (s.sched.beginCycle s.stop.anyActive))
    (hm : m ∈ earlier ∨ (s.sched.pendingSwitch = true ∧ m = u.switchedNotice) ∨ m ∈ u.slotNotices) {q : Port}
    (hq : m.recipients.reach q s.notice.ports[q] = true) : (s.startCycle pick earlier).Found q m.notice := by
  have hnotice : u.notice = s.notice := by rw [hu, State.setSched_notice]
  rw [s.startCycle_eq pick earlier hu]
  refine State.notifyFrom_found (x := { sender := .schedule, message := m })
    (List.mem_append_left _ (List.mem_map_of_mem ?_)) (by rw [hnotice]; exact hq)
  rw [List.mem_append, List.mem_append]
  rcases hm with hm | ⟨hp, rfl⟩ | hm
  · exact Or.inl (Or.inl hm)
  · rw [if_pos hp]
    exact Or.inl (Or.inr (List.mem_singleton_self _))
  · exact Or.inr hm

/-- Every port through a cycle start: as it was, or its outstanding STAGE_READY has marked its staging (R26, R70). -/
theorem State.startCycle_answers (s : State) (pick : Nat → Nat) (earlier : List Message) (q : Port) :
    (s.startCycle pick earlier).port q = s.port q ∨
      ∃ i st, (s.map.page i).staging = some st ∧ st.stager = q ∧ s.Marks (s.startCycle pick earlier) i st ∧
        (s.startCycle pick earlier).port q = { s.port q with tx := .response { status := .ok, body := [] } } := by
  rw [s.startCycle_eq pick earlier rfl]
  exact (State.Answering.takeCycleClaims (s.setSched (s.sched.beginCycle s.stop.anyActive)) _).ports q

/-- A slot that acts has the point that its entry names (R37). -/
theorem Schedule.slotPoint_acts {c : Schedule} (h : c.activePlan.entries[c.slotIndex].Acts c.cycleCount) :
    c.slotPoint = c.activePlan.entries[c.slotIndex].group := by
  rw [Schedule.slotPoint, Schedule.slotActs, filterMatches, h, beq_self_eq_true, if_pos rfl]

/-- A cycle start whose slot 0 has a point of group g that no break of a hold meets: what becomes of the group's status,
counters and pages, and the notices that it sends (R37, R59 to R64, R75, R78, R79). -/
theorem State.startCycle_meetsPoint (s : State) (pick : Nat → Nat) (earlier : List Message) {g : Group} {u t : State}
    (hu : u = s.setSched (s.sched.beginCycle s.stop.anyActive)) (ht : t = (s.startCycle pick earlier).bump)
    (hpoint : u.sched.slotPoint = some g) (hb : ¬ s.Breaks g) :
    ∃ r a rest, u.MeetsPoint g r a rest ∧ t.map = r.1.map ∧ t.pub = r.1.pub ∧
      (∀ i st, u.Marks a i st → u.Marks t i st) ∧
      ∀ x ∈ r.2, ∀ q : Port, x.message.recipients.reach q s.notice.ports[q] = true → t.Found q x.message.notice := by
  have hbreaks : ¬ u.Breaks g := by rw [hu]; exact hb
  have hnotice : u.notice = s.notice := by rw [hu, State.setSched_notice]
  obtain ⟨a, rest, h⟩ := State.meetsPoint pick hbreaks
  have hends := h.ends
  rw [s.startCycle_eq pick earlier hu, hpoint] at ht
  subst ht
  refine ⟨_, a, rest, h, rfl, rfl, fun i st hm => ?_, fun x hx q hq => ?_⟩
  · have hm' := (hm.takeCycleClaim (.block (.point g))).takeCycleClaims rest
    have hend : u.Marks (u.takeCycleClaims (u.cycleStartClaims pick (some g))).1 i st := hends ▸ hm'
    exact hend
  · exact State.notifyFrom_found (List.mem_append_right _ hx) (by rw [hnotice]; exact hq)

/-- The point of slot 0 at a cycle start, as the obligation says it of its two states. -/
theorem State.startCycle_point (s : State) (pick : Nat → Nat) (earlier : List Message) {g : Group}
    {t : State} (ht : t = (s.startCycle pick earlier).bump) (hfirst : t.FirstPoint g) (hb : ¬ s.Breaks g) :
    (∀ n : WatchNo, s.pub.watches[n].group = g →
      t.pub.watches[n] = s.pub.watches[n].rolled.after g t.pub.groups[g]) ∧
    (∀ q : Port, s.notice.ports[q].subscription.getLsbD g.val = true →
      t.Found q
        { stamp := t.stamp
          body := .groupPoint g t.pub.groups[g].last t.pub.groups[g].published t.pub.groups[g].late }) ∧
    (s.stop.frozen.getLsbD g.val = true →
      t.pub.groups[g] =
        { last := .frozen, cycle := t.sched.cycleCount, published := 0, late := 0, mark := s.pub.groups[g].mark }) ∧
    (s.stop.frozen.getLsbD g.val = false → s.Held g →
      t.pub.groups[g] =
        { last := .deferred, cycle := t.sched.cycleCount, published := 0, late := 0, mark := true }) ∧
    (s.stop.frozen.getLsbD g.val = true ∨ s.Held g →
      ∀ i : Page, (s.map.page i).group = g →
        (t.map.page i).live = (s.map.page i).live ∧ (t.map.page i).sequence = (s.map.page i).sequence) ∧
    (s.stop.frozen.getLsbD g.val = false → ¬ s.Held g →
      ∃ m : ExchangeMap, s.Finds t g m ∧ s.PublishedAs t g m ∧
        t.pub.groups[g] =
          { last := .published, cycle := t.sched.cycleCount, published := m.readyCount g, late := m.lateCount g
            mark := s.pub.groups[g].mark }) := by
  obtain ⟨u, hu⟩ : ∃ u, u = s.setSched (s.sched.beginCycle s.stop.anyActive) := ⟨_, rfl⟩
  have honly := s.startCycle_only pick earlier
  have hsched : t.sched = u.sched := by
    rw [ht, honly, hu]
    rfl
  have hstamp : t.stamp = u.stamp := by
    rw [ht, honly, hu]
    rfl
  rw [State.FirstPoint, hsched] at hfirst
  have hpoint : u.sched.slotPoint = some g := by
    rw [hu] at hfirst ⊢
    exact (Schedule.slotPoint_acts hfirst.2).trans hfirst.1
  obtain ⟨r, a, rest, h, hmap, hpub, hmarks, hfound⟩ := s.startCycle_meetsPoint pick earlier hu ht hpoint hb
  rw [hstamp, hpub, hmap, hsched]
  have hpubs : u.pub = s.pub := by rw [hu, State.setSched_pub]
  have hstops : u.stop = s.stop := by rw [hu, State.setSched_stop]
  have hmaps : u.map = s.map := by rw [hu, State.setSched_map]
  have hholds : u.Held g ↔ s.Held g := by rw [hu, State.Held, State.Held, State.setSched_hold]
  rw [← hpubs, ← hstops, ← hholds]
  refine ⟨fun n hn => h.watches hn, fun q hq => hfound _ h.notice q hq, fun hf => (h.frozen hf).1,
    fun hf hheld => (h.deferred hf hheld).1, fun hquiet i hi => ?_, fun hf hheld => ?_⟩
  · rw [← hmaps] at hi ⊢
    refine h.live ?_ hi
    by_cases hf : u.stop.frozen.getLsbD g.val = true
    · exact (h.frozen hf).2
    · exact (h.deferred (Bool.eq_false_iff.2 hf) (hquiet.resolve_left hf)).2
  · obtain ⟨counted, hun⟩ := h.found
    obtain ⟨hgroup, hready, hlate⟩ := h.published hf hheld
    have hsame := ExchangeMap.withGroup_readyLate (m := u.map) g fun i => (h.answering.access i).2.2
    have hcounts : (u.map.withGroup a.map g).readyCount g = a.map.readyCount g ∧
        (u.map.withGroup a.map g).lateCount g = a.map.lateCount g := by
      simp only [ExchangeMap.readyCount, ExchangeMap.lateCount, (hsame _).1, (hsame _).2, and_self]
    refine ⟨u.map.withGroup a.map g, ?_, ⟨fun i hi => ?_, fun i st hi hst => ?_⟩, by rw [hcounts.1, hcounts.2, hgroup]⟩
    · refine hun.finds hmaps fun i st hm => ?_
      have hm' := hmarks i st hm
      rwa [hu] at hm'
    · rw [(hsame i).1] at hi
      obtain ⟨hgi, new, hnew⟩ := ExchangeMap.ready_group hi
      have hgi' : (u.map.page i).group = g := (h.answering.access i).2.2 ▸ hgi
      rw [hmap, hready i hi, hun.published hgi' hnew, hmaps, hsched]
    · rw [(hsame i).2] at hi
      have hgi : (u.map.page i).group = g := by
        by_contra hne
        rw [← (h.answering.access i).2.2] at hne
        rw [ExchangeMap.late_other hne] at hi
        cases hi
      rw [ExchangeMap.withGroup_page, if_pos hgi] at hst
      rw [hstamp]
      exact hfound _ (hlate i st hi hst) st.stager (decide_eq_true rfl)

/-- What a cycle start leaves of the units that it does not reach, its schedule, and its stamp (R36, R40). -/
theorem State.startCycle_keeps (s : State) (pick : Nat → Nat) (earlier : List Message) {t : State}
    (ht : t = (s.startCycle pick earlier).bump) :
    t.sched = s.sched.beginCycle s.stop.anyActive ∧
      t.stamp = (s.setSched (s.sched.beginCycle s.stop.anyActive)).stamp ∧ t.part = s.part ∧ t.inReset = s.inReset ∧
        t.view = s.view ∧ t.stop = s.stop ∧ t.time = s.time := by
  have he := s.startCycle_only pick earlier
  generalize s.startCycle pick earlier = v at he ht
  generalize s.sched.beginCycle s.stop.anyActive = d at he ⊢
  rw [ht]
  generalize v.map = m, v.pub = p, v.hold = h, v.link = l, v.notice = n at he
  subst he
  exact ⟨rfl, rfl, rfl, rfl, rfl, rfl, rfl⟩

/-- A slot that acts sends its notice to every port that its entry names (R37). -/
theorem State.mem_slotNotices {u : State} {k : SlotNo} (hk : u.sched.slotIndex = k)
    (hacts : u.sched.activePlan.entries[k].Acts u.sched.cycleCount) {q : Port}
    (hq : u.sched.activePlan.entries[k].notify.getLsbD q.val = true) : u.address q (.slot k) ∈ u.slotNotices := by
  subst hk
  have h : u.sched.slotActs = true := by
    rw [Schedule.slotActs, filterMatches, hacts, beq_self_eq_true]
  rw [State.slotNotices_acts h]
  exact List.mem_map_of_mem (f := fun p => u.address p (.slot u.sched.slotIndex)) ((mem_portsOf _ _).2 hq)

/-- Settles O30: the schedule by what a cycle start leaves of it, the ports and the point by the course of its claims. -/
theorem cycleStartMovesTheSchedule : Obligations.CycleStartMovesTheSchedule := by
  refine fun c => comesTo_of_cycleStart fun s pick earlier hmissed => ?_
  obtain ⟨u, hu⟩ : ∃ u, u = s.setSched (s.sched.beginCycle s.stop.anyActive) := ⟨_, rfl⟩
  obtain ⟨t, ht⟩ : ∃ t, t = (s.startCycle pick earlier).bump := ⟨_, rfl⟩
  obtain ⟨hsched, hstamp, hpart, hreset, hview, hstop, htime⟩ := s.startCycle_keeps pick earlier ht
  have hfound : ∀ m, (m ∈ earlier ∨ (s.sched.pendingSwitch = true ∧ m = u.switchedNotice) ∨ m ∈ u.slotNotices) →
      ∀ q : Port, m.recipients.reach q s.notice.ports[q] = true → t.Found q m.notice := fun m hm q hq => by
    rw [ht]
    exact s.startCycle_found pick hu hm hq
  have hanswers : ∀ q, t.port q = s.port q ∨ ∃ i st, (s.map.page i).staging = some st ∧ st.stager = q ∧
      s.Marks t i st ∧ t.port q = { s.port q with tx := .response { status := .ok, body := [] } } := fun q => by
    rw [ht]
    exact s.startCycle_answers pick earlier q
  have hpoint := fun g => s.startCycle_point pick earlier (g := g) ht
  rw [← ht]
  have husched : u.sched = t.sched := by rw [hu, hsched, State.setSched_sched]
  have hslot : t.sched.slotIndex = 0 := by rw [hsched, Schedule.beginCycle_eq]
  have hpulse : t.sched.cycleOut = !s.stop.anyActive := by rw [hsched, Schedule.beginCycle_eq]
  rw [← hu] at hstamp
  refine ⟨?_, ?_, ?_, ?_, ?_, ?_, ?_, hslot, ?_, ?_, ?_, ?_, ?_, hpulse ▸ s.stop.anyActive_eq_false, hpart, hreset, hview,
    hstop, htime, hanswers, fun hc q hq => ?_, fun hp q hq => ?_, fun hacts q hq => ?_, hpoint⟩
  case refine_13 => exact hfound _ (Or.inl (hmissed hc)) q hq
  case refine_14 =>
    have h := hfound _ (Or.inr (Or.inl ⟨hp, rfl⟩)) q hq
    rw [State.switchedNotice, husched] at h
    rw [hstamp]
    exact h
  case refine_15 =>
    rw [← husched] at hacts hq hslot
    rw [hstamp]
    exact hfound _ (Or.inr (Or.inr (State.mem_slotNotices hslot hacts hq))) q (decide_eq_true rfl)
  case refine_8 =>
    rw [hsched, Schedule.beginCycle_eq]
    rfl
  all_goals rw [hsched, Schedule.beginCycle_eq]

end Sys2Proof.Machine
end

section
/-! SUPPORT. The group status records, the watch counters and the hold records through a step: which commands and events
leave them alone, and how a property of them passes through the claims that touch them. -/

namespace Sys2Proof

/-- The commands that can touch the publication unit or the hold table. -/
def Instr.movesOutcomes : Instr → Bool
  | .start _ | .halt _ | .portReset _ | .watchSet .. | .hold .. | .release _ | .holdLimit .. | .partReset
  | .endOfSlot | .syncEdge | .gapExpiry | .readCompletion _ | .stageReadCompletion _ | .stageWriteCompletion ..
  | .lastResponseByte _ | .selectRelease _ => true
  | _ => false

end Sys2Proof

namespace Sys2Proof.Machine

/-! ### What leaves the publication unit and the hold table alone -/

/-- From s to t the publication unit and the hold table stay. -/
abbrev State.KeepsOutcomes (s t : State) : Prop := t.pub = s.pub ∧ t.hold = s.hold

theorem State.KeepsOutcomes.trans {s t u : State} (h : s.KeepsOutcomes t) (h' : t.KeepsOutcomes u) :
    s.KeepsOutcomes u := ⟨h'.1.trans h.1, h'.2.trans h.2⟩

theorem State.setMap_keepsOutcomes (s : State) (m : ExchangeMap) : s.KeepsOutcomes (s.setMap m) := ⟨rfl, rfl⟩

theorem State.refuseData_keepsOutcomes (s : State) (p : Port) (x : DataCall) (c : FaultCause) :
    s.KeepsOutcomes (s.refuseData p x c) := by
  rw [State.refuseData_only]
  exact ⟨rfl, rfl⟩

theorem State.takePagePart_keepsOutcomes (s : State) (p : Port) (x : DataCall) (i : Page) :
    s.KeepsOutcomes (s.takePagePart p x i) := by
  have h := s.takePagePart_cases p x i
  generalize s.takePagePart p x i = t at h
  cases h with
  | refused c => exact s.refuseData_keepsOutcomes p x c
  | reads r number t =>
    rw [State.beginRead_eq]
    exact ⟨rfl, rfl⟩
  | answered | refusedWrite | writes | opens | marks | drops => exact ⟨rfl, rfl⟩

theorem State.acceptCall_keepsOutcomes (s : State) (p : Port) (x : DataCall) : s.KeepsOutcomes (s.acceptCall p x) := by
  unfold State.acceptCall
  split
  · exact s.refuseData_keepsOutcomes p x _
  · dsimp only
    split
    · exact State.KeepsOutcomes.trans ⟨rfl, rfl⟩ (State.takePagePart_keepsOutcomes _ p x _)
    · exact ⟨rfl, rfl⟩

theorem State.markReady_keepsOutcomes (s : State) (p : Port) : s.KeepsOutcomes (s.markReady p) := by
  rcases s.markReady_eq p with h | ⟨_, _, _, -, -, -, -, -, h⟩ <;> rw [h] <;> exact ⟨rfl, rfl⟩

theorem State.expireFilter_keepsOutcomes (s : State) (l : Line) : s.KeepsOutcomes (s.expireFilter l) := by
  rw [State.expireFilter_only]
  exact ⟨rfl, rfl⟩

theorem State.sampleStop_keepsOutcomes (s : State) (l : Line) (level : Level) :
    s.KeepsOutcomes (s.sampleStop l level) := by
  rw [State.sampleStop_only]
  exact ⟨rfl, rfl⟩

theorem State.boundary_keepsOutcomes (s : State) : s.KeepsOutcomes s.boundary := by
  rw [State.boundary_only]
  exact ⟨rfl, rfl⟩

theorem State.answerAlarm_keepsOutcomes (s : State) : s.KeepsOutcomes s.answerAlarm := by
  rw [State.answerAlarm_only]
  exact ⟨rfl, rfl⟩

theorem State.setStopLine_keepsOutcomes (s : State) (x : StopParams) : s.KeepsOutcomes (s.setStopLine x) := by
  unfold State.setStopLine
  dsimp only
  split
  · exact State.KeepsOutcomes.trans ⟨rfl, rfl⟩ (State.expireFilter_keepsOutcomes _ _)
  · exact ⟨rfl, rfl⟩

theorem State.switchPlan_keepsOutcomes (s : State) (p : Port) : s.KeepsOutcomes (s.switchPlan p) := by
  unfold State.switchPlan
  split
  · rw [s.takeSwitch_only]
    exact ⟨rfl, rfl⟩
  · exact ⟨rfl, rfl⟩

theorem State.completeRead_keepsOutcomes (s : State) (p : Port) : s.KeepsOutcomes (s.completeRead p) := by
  unfold State.completeRead
  split
  · split <;> exact ⟨rfl, rfl⟩
  · exact ⟨rfl, rfl⟩

theorem State.completeStageRead_keepsOutcomes (s : State) (p : Port) : s.KeepsOutcomes (s.completeStageRead p) := by
  unfold State.completeStageRead
  split
  · split <;> exact ⟨rfl, rfl⟩
  · exact ⟨rfl, rfl⟩

theorem State.dataBytes_keepsOutcomes (s : State) (p : Port) (data : List Byte) :
    s.KeepsOutcomes (s.dataBytes p data) := by
  rcases s.dataBytes_cases p data with h | ⟨l, h, -⟩ | ⟨w, st, bytes, n, -, -, -, h⟩ <;> rw [h] <;> exact ⟨rfl, rfl⟩

theorem State.selectRises_keepsOutcomes (s : State) (p : Port) : s.KeepsOutcomes (s.selectRises p) := by
  unfold State.selectRises State.endTransaction
  split
  · dsimp only
    split <;> exact ⟨rfl, rfl⟩
  · exact ⟨rfl, rfl⟩

theorem State.responseSent_keepsOutcomes (s : State) (p : Port) : s.KeepsOutcomes (s.responseSent p) := by
  unfold State.responseSent
  split <;> exact ⟨rfl, rfl⟩

/-- A request served leaves both blocks alone if its own operation does. -/
theorem State.serve_keepsOutcomes {α : Type} (s : State) (p : Port) (record : List Byte) (right : Option RightName)
    (params : Option α) (act : α → State → State) (hact : ∀ a u, State.KeepsOutcomes u (act a u)) :
    s.KeepsOutcomes (s.serve p record right params act) :=
  State.serve_keeps s.KeepsOutcomes (fun _ _ _ h => h) p record right params act ⟨rfl, rfl⟩
    fun a _ _ hr => hr.trans (hact a _)

theorem State.inSetup_keepsOutcomes {s : State} (p : Port) (act : State → State) (hact : s.KeepsOutcomes (act s)) :
    s.KeepsOutcomes (s.inSetup p act) :=
  State.inSetup_keeps s.KeepsOutcomes (fun _ _ _ h => h) p act ⟨rfl, rfl⟩ fun _ => hact

theorem State.unlessReset_keepsOutcomes {s : State} (act : State → State) (hact : s.KeepsOutcomes (act s)) :
    s.KeepsOutcomes (s.unlessReset act) :=
  s.unlessReset_keeps s.KeepsOutcomes act ⟨rfl, rfl⟩ fun _ => hact

/-- A command outside Instr.movesOutcomes leaves the publication unit and the hold table alone. -/
theorem exec_keepsOutcomes {c : Instr} {s t : State} (h : exec c s = .next t) (hc : c.movesOutcomes = false) :
    s.KeepsOutcomes t := by
  cases c <;> cases h
  case start | halt | portReset | watchSet | hold | release | holdLimit | partReset | endOfSlot | syncEdge | gapExpiry
    | readCompletion | stageReadCompletion | stageWriteCompletion | lastResponseByte | selectRelease => cases hc
  case partStatus | pageStatus | planRead | groupStatus | watchRead | holdRead | viewSet | viewGet | stopRead | trimSet
      | timeSet | alarmSet | timeRead | portSelf =>
    exact s.serve_keepsOutcomes _ _ _ _ _ fun _ _ => ⟨rfl, rfl⟩
  case portRightsSet | stageLimit | syncSet =>
    exact s.serve_keepsOutcomes _ _ _ _ _ fun _ u => u.inSetup_keepsOutcomes _ _ ⟨rfl, rfl⟩
  case definePage =>
    refine s.serve_keepsOutcomes _ _ _ _ _ fun _ u => ?_
    unfold State.definePage
    split <;> exact ⟨rfl, rfl⟩
  case pageSet | retirePage =>
    refine s.serve_keepsOutcomes _ _ _ _ _ fun _ u => ?_
    unfold State.onQuietPage
    split
    · split <;> exact ⟨rfl, rfl⟩
    · exact ⟨rfl, rfl⟩
  case read | stageOpen | stageWrite | stageRead | stageReady | stageDrop =>
    exact s.serve_keepsOutcomes _ _ _ _ _ fun _ u => u.acceptCall_keepsOutcomes _ _
  case slotSet | planLength =>
    refine s.serve_keepsOutcomes _ _ _ _ _ fun _ u => ?_
    unfold State.editPlan
    split <;> exact ⟨rfl, rfl⟩
  case planSwitch p => exact s.serve_keepsOutcomes _ _ _ _ _ fun _ u => u.switchPlan_keepsOutcomes p
  case faultTake =>
    refine s.serve_keepsOutcomes _ _ _ _ _ fun _ u => ?_
    unfold State.takeFault
    split <;> exact ⟨rfl, rfl⟩
  case stopSet =>
    exact s.serve_keepsOutcomes _ _ _ _ _ fun x u => u.inSetup_keepsOutcomes _ _ (u.setStopLine_keepsOutcomes x)
  case stopClear =>
    refine s.serve_keepsOutcomes _ _ _ _ _ fun _ u => ?_
    unfold State.clearStop
    split <;> exact ⟨rfl, rfl⟩
  case noticePeek =>
    refine s.serve_keepsOutcomes _ _ _ _ _ fun _ u => ?_
    unfold State.peekNotice
    split <;> exact ⟨rfl, rfl⟩
  case noticePop =>
    refine s.serve_keepsOutcomes _ _ _ _ _ fun _ u => ?_
    unfold State.popNotice
    split <;> exact ⟨rfl, rfl⟩
  case badRequest =>
    unfold State.refuseHeader
    split
    · split <;> exact ⟨rfl, rfl⟩
    · exact ⟨rfl, rfl⟩
  case resetRelease => exact ⟨rfl, rfl⟩
  case cyclePulseEnd => exact s.unlessReset_keepsOutcomes _ ⟨rfl, rfl⟩
  case stopInputChange l level =>
    exact State.KeepsOutcomes.trans ⟨rfl, rfl⟩
      (State.unlessReset_keepsOutcomes _ (State.sampleStop_keepsOutcomes _ l level))
  case filterTimerExpiry l => exact s.unlessReset_keepsOutcomes _ (s.expireFilter_keepsOutcomes l)
  case secondBoundary => exact s.unlessReset_keepsOutcomes _ s.boundary_keepsOutcomes
  case alarmSwitchRequest => exact s.unlessReset_keepsOutcomes _ s.answerAlarm_keepsOutcomes
  case selectPeriodBegin =>
    unfold State.selectFalls
    split
    · exact ⟨rfl, rfl⟩
    · split <;> exact ⟨rfl, rfl⟩

end Sys2Proof.Machine
end

section
/-! SUPPORT. A property of the group status records, the watch counters and the hold records passes through a step if it
passes through the claims of an outcome, the requests that write those records, and a reset. -/

namespace Sys2Proof.Machine

/-- P rests on the publication unit, the hold table and the stager law alone, and passes through what writes the records
of those blocks outside the claims of an outcome: HOLD, HOLD_LIMIT, WATCH_SET, HALT and part reset. -/
structure KeptByRequests (P : State → Prop) : Prop where
  elsewhere : ∀ {s t : State}, s.KeepsOutcomes t → (s.StagerLaw → t.StagerLaw) → P s → P t
  hold : ∀ {s : State} (p : Port) (groups : GroupSet), groups ≠ 0 → s.hold.records[p] = none → P s →
    P (s.setHold
      { s.hold with records := s.hold.records.set p (some { groups := groups, cyclesLeft := s.hold.limit }) })
  limit : ∀ {s : State} (n : Nat), 1 ≤ n → n ≤ 16 → P s → P (s.setHold { s.hold with limit := n })
  watch : ∀ {s : State} (n : WatchNo) (g : Group) (e : WatchEvent) (m : WatchMode), P s →
    P (s.setPub
      { s.pub with
        watches := s.pub.watches.set n { group := g, event := e, mode := m, value := 0, running := 0 } })
  halt : ∀ {s : State}, P s → P s.haltPart
  reset : ∀ {s : State}, P s → P s.holdInReset

/-- P passes through the claims of outcomes too: through everything that touches the publication unit or the hold
table. -/
structure KeptByOutcomes (P : State → Prop) : Prop extends KeptByRequests P where
  point : ∀ {s : State} (g : Group), P s → P (s.takePoint g).1
  cycle : ∀ {s : State} (pick : Nat → Nat) (point : Option Group), P s → P (s.handOutCycleStart pick point).1
  removal : ∀ {s : State} (k : Nat) (p : Port) (which : ResetClaims), P s → P (s.resetBlocks k p which).1

theorem State.Reaches.stagerLaw {K : List MoveKind} {s t : State} (h : s.Reaches K t) (hs : s.StagerLaw) :
    t.StagerLaw :=
  h.keeps State.StagerLaw (fun _ _ _ _ hm => hm.stagerLaw) hs

/-- An event that moves p's transaction on touches neither block beyond what was outstanding of p's request. -/
theorem exec_movesOn_keepsOutcomes {c : Instr} {p : Port} (hc : c.movesOn = some p) {s t : State}
    (h : exec c s = .next t) : (s.settle p).KeepsOutcomes t := by
  cases c <;> cases hc <;> cases h
  case readCompletion => exact State.completeRead_keepsOutcomes _ p
  case stageReadCompletion => exact State.completeStageRead_keepsOutcomes _ p
  case stageWriteCompletion data => exact State.dataBytes_keepsOutcomes _ p data
  case selectRelease => exact State.selectRises_keepsOutcomes _ p
  case lastResponseByte => exact State.responseSent_keepsOutcomes _ p

/-- RELEASE takes the claims that a port reset takes at the hold table alone (R88, R98). -/
theorem State.endHold_claims (s : State) (p : Port) :
    (s.takeClaims (s.holdRemovalClaims p)).1 = (s.resetBlocks 0 p { ResetClaims.none with hold := true }).1 := by
  simp [State.resetBlocks, ResetClaims.none, State.takeClaims]

/-- What each claim keeps by itself, the claims of outcomes keep, whatever their order. -/
theorem KeptByRequests.claimwise {P : State → Prop} (hP : KeptByRequests P)
    (hclaim : ∀ (s : State) (c : Claim), P s → P (s.takeClaim c).1) : KeptByOutcomes P where
  toKeptByRequests := hP
  point g hs := hclaim _ (.point g) hs
  cycle pick point hs := by
    refine State.takeCycleClaims_keeps P (fun u c hu => ?_) _ _ hs
    cases c with
    | block c => exact hclaim u c hu
    | countStagings => exact hP.elsewhere (u.setMap_keepsOutcomes _) (u.countStagings_reaches (.head [])).stagerLaw hu
    | markReady p => exact hP.elsewhere (u.markReady_keepsOutcomes p) (u.markReady_reaches (.head []) p).stagerLaw hu
  removal k p which hs := by
    unfold State.resetBlocks
    dsimp only
    refine State.takeClaims_keeps P hclaim _ _ ?_
    split
    · exact hP.elsewhere (State.setMap_keepsOutcomes _ _) (State.removeStagingsOf_reaches (.head []) _ p).stagerLaw
        (State.takeClaims_keeps P hclaim _ _ hs)
    · exact State.takeClaims_keeps P hclaim _ _ hs

namespace KeptByOutcomes

variable {P : State → Prop} {s : State}

/-- P looks at no other block. -/
theorem others (hP : KeptByOutcomes P) {t : State} (hs : P s) (hpub : t.pub = s.pub) (hhold : t.hold = s.hold)
    (hmap : t.map = s.map) : P t :=
  hP.elsewhere ⟨hpub, hhold⟩ (fun h p => by rw [hmap]; exact h p) hs

theorem setPort (hP : KeptByOutcomes P) (s : State) (p : Port) (l : LinkPort) (hs : P s) : P (s.setPort p l) :=
  hP.others hs rfl rfl rfl

theorem startSlot (hP : KeptByOutcomes P) (hs : P s) (pick : Nat → Nat) : P (s.startSlot pick) := by
  refine hP.others (s := (s.takeClaims (s.sched.slotPoint.map Claim.point).toList).1) ?_ rfl rfl rfl
  cases s.sched.slotPoint with
  | none => exact hs
  | some g => exact hP.point g hs

theorem startCycle (hP : KeptByOutcomes P) (hs : P s) (pick : Nat → Nat) (earlier : List Message) :
    P (s.startCycle pick earlier) := by
  have hbegun : P (s.setSched (s.sched.beginCycle s.stop.anyActive)) := hP.others hs rfl rfl rfl
  exact hP.others (hP.cycle pick (s.sched.beginCycle s.stop.anyActive).slotPoint hbegun) rfl rfl rfl

theorem endSlot (hP : KeptByOutcomes P) (hs : P s) (pick : Nat → Nat) : P (s.endSlot pick) := by
  unfold State.endSlot
  split
  · split
    · refine hP.startSlot ?_ pick
      exact hP.others hs rfl rfl rfl
    · split
      · exact hP.startCycle hs pick []
      · exact hP.others hs rfl rfl rfl
  · exact hs

theorem syncEdge (hP : KeptByOutcomes P) (hs : P s) (pick : Nat → Nat) : P (s.syncEdge pick) := by
  unfold State.syncEdge
  split
  · exact hP.startCycle hs pick []
  · exact hP.others hs rfl rfl rfl
  · exact hs

theorem takeEdge (hP : KeptByOutcomes P) (hs : P s) : P s.takeEdge :=
  hP.others (hP.syncEdge hs fun i => s.draw (i + 1)) rfl rfl rfl

theorem expireGap (hP : KeptByOutcomes P) (hs : P s) (pick : Nat → Nat) : P (s.expireGap pick) := by
  unfold State.expireGap
  split
  · exact hP.startCycle hs pick _
  · exact hs

theorem takeResetClaims (hP : KeptByOutcomes P) (hs : P s) (p : Port) (left now : ResetClaims) :
    P (s.takeResetClaims p left now) := by
  rw [State.takeResetClaims_eq]
  refine hP.others (s := s.resetPort s.draw p now) ?_ rfl rfl rfl
  unfold State.resetPort
  dsimp only
  split <;> exact hP.others (hP.removal (s.draw 1) p now hs) rfl rfl rfl

theorem takePagePart (hP : KeptByOutcomes P) (hs : P s) {p : Port} {x : DataCall} {i : Page} (hw : s.Awaits p x i) :
    P (s.takePagePart p x i) :=
  hP.elsewhere (s.takePagePart_keepsOutcomes p x i)
    (State.takePagePart_reaches (K := [.quiet, .store]) (.head _) (fun _ _ _ => .tail _ (.head _)) i
      (Or.inr ⟨_, hw⟩)).stagerLaw hs

theorem settle (hP : KeptByOutcomes P) (hs : P s) (p : Port) : P (s.settle p) := by
  unfold State.settle
  split
  · exact hP.takeResetClaims hs p _ _
  · rename_i hw
    exact hP.takePagePart hs hw
  · exact hs

theorem settleSome (hP : KeptByOutcomes P) (hs : P s) (p : Port) : P (s.settleSome p) := by
  unfold State.settleSome
  split
  · exact hP.takeResetClaims hs p _ _
  · rename_i hw
    split
    · exact hP.others (hP.takePagePart hs hw) rfl rfl rfl
    · exact hP.others hs rfl rfl rfl
  · exact hs

theorem endHold (hP : KeptByOutcomes P) (hs : P s) (p : Port) : P (s.endHold p) := by
  refine hP.others (s := (s.takeClaims (s.holdRemovalClaims p)).1) ?_ rfl rfl rfl
  rw [State.endHold_claims]
  exact hP.removal 0 p _ hs

theorem startPart (hP : KeptByOutcomes P) (hs : P s) : P s.startPart := by
  unfold State.startPart State.startSchedule
  dsimp only
  split
  · exact hP.others (hP.startCycle
      (s := (s.setPart .run).setSched { s.sched with cycleCount := 0, slotIndex := 0, firstCycle := true })
      (hP.others hs rfl rfl rfl) s.draw []) rfl rfl rfl
  · exact hP.others hs rfl rfl rfl

/-- P passes through every event of a tick. -/
theorem takeEvent (hP : KeptByOutcomes P) (hs : P s) (e : TickEvent) : P (s.takeEvent e) := by
  cases e with
  | slot => exact hP.others (hP.endSlot hs s.draw) rfl rfl rfl
  | gap => exact hP.others (hP.expireGap hs s.draw) rfl rfl rfl
  | edge => exact hP.takeEdge (s := s.setSched _) (hP.others hs rfl rfl rfl)
  | filter l => exact hP.elsewhere (s.expireFilter_keepsOutcomes l) (s.expireFilter_reaches (.head []) l).stagerLaw hs
  | second => exact hP.elsewhere s.boundary_keepsOutcomes (s.boundary_reaches (.head [])).stagerLaw hs
  | alarmAnswer => exact hP.elsewhere s.answerAlarm_keepsOutcomes (s.answerAlarm_reaches (.head [])).stagerLaw hs
  | sample l => exact hP.elsewhere (s.sampleStop_keepsOutcomes l _) (s.sampleStop_reaches (.head []) l _).stagerLaw hs
  | claims p => exact hP.settleSome hs p

theorem tick (hP : KeptByOutcomes P) (hs : P s) : P s.tick :=
  State.tick_keeps P (fun _ h => hP.others h rfl rfl rfl) (fun _ e h => hP.takeEvent h e) hs

/-- P passes through an event that moves a transaction on. -/
theorem movesOn (hP : KeptByOutcomes P) {c : Instr} {p : Port} (hc : c.movesOn = some p) {t : State}
    (h : exec c s = .next t) (hs : P s) : P t :=
  hP.elsewhere (exec_movesOn_keepsOutcomes hc h) (exec_movesOn_reaches hc h).stagerLaw (hP.settle hs p)

/-- P passes through the commands that can touch either block. -/
theorem exec_of_moves (hP : KeptByOutcomes P) {c : Instr} {t : State} (h : exec c s = .next t)
    (hc : c.movesOutcomes = true) (hs : P s) : P t := by
  have hserve := fun {α : Type} => State.serve_keeps P hP.setPort (α := α) (s := s)
  cases c <;> cases hc
  case readCompletion | stageReadCompletion | stageWriteCompletion | lastResponseByte | selectRelease =>
    exact hP.movesOn rfl h hs
  all_goals cases h
  case start p =>
    exact hserve _ _ _ _ _ hs fun _ _ _ hr =>
      State.inSetup_keeps P hP.setPort _ _ hr fun _ => hP.setPort _ _ _ (hP.startPart hr)
  case halt p =>
    refine hserve _ _ _ _ _ hs fun _ _ _ hr => ?_
    split
    · exact hP.setPort _ _ _ (hP.halt hr)
    · exact hP.setPort _ _ _ hr
  case portReset p => exact hserve _ _ _ _ _ hs fun _ _ _ hr => hP.takeResetClaims hr p _ _
  case watchSet p counter group event mode =>
    exact hserve _ _ _ _ _ hs fun x _ _ hr => hP.setPort _ _ _ (hP.watch x.counter x.group x.event x.mode hr)
  case hold p groups =>
    refine hserve _ _ _ _ _ hs fun g hg _ hr => ?_
    have hne : g ≠ 0 := by
      unfold holdParams at hg
      split at hg
      · cases hg
      · cases hg
        assumption
    unfold State.takeHold
    split
    · exact hP.setPort _ _ _ hr
    · split
      · exact hP.setPort _ _ _ hr
      · rename_i hnone
        exact hP.setPort _ _ _ (hP.hold p g hne hnone hr)
  case release p =>
    refine hserve _ _ _ _ _ hs fun _ _ _ hr => ?_
    unfold State.releaseHold
    split
    · exact hP.setPort _ _ _ hr
    · exact hP.setPort _ _ _ (hP.endHold hr p)
  case holdLimit p limit =>
    refine hserve _ _ _ _ _ hs fun n hn _ hr => State.inSetup_keeps P hP.setPort _ _ hr fun _ => ?_
    obtain ⟨rfl, hlow, hhigh⟩ := rangeOf?_eq_some hn
    exact hP.setPort _ _ _ (hP.limit _ hlow hhigh hr)
  case partReset => exact hP.reset hs
  case endOfSlot =>
    exact State.unlessReset_keeps P _ hs fun _ => hP.others (hP.endSlot hs s.draw) rfl rfl rfl
  case syncEdge =>
    refine State.unlessReset_keeps P _ hs fun _ => ?_
    split
    · exact hP.others hs rfl rfl rfl
    · exact hP.takeEdge hs
  case gapExpiry =>
    exact State.unlessReset_keeps P _ hs fun _ => hP.others (hP.expireGap hs s.draw) rfl rfl rfl

/-- P passes through every command. -/
theorem keeps_exec (hP : KeptByOutcomes P) {c : Instr} {t : State} (h : exec c s = .next t) (hs : P s) : P t := by
  cases hc : c.movesOutcomes with
  | false => exact hP.elsewhere (exec_keepsOutcomes h hc) (exec_reaches h).stagerLaw hs
  | true => exact hP.exec_of_moves h hc hs

/-- P passes through every step. -/
theorem keeps_step (hP : KeptByOutcomes P) {t : State} (h : step s = .next t) (hs : P s) : P t :=
  step_keeps P (fun _ _ h => hP.others h rfl rfl rfl) (fun _ _ _ h hs => hP.keeps_exec h hs) (fun _ h => hP.tick h) h hs

end KeptByOutcomes

end Sys2Proof.Machine
end

section
/-! HEADLINE. Deferral marks stand under a covering hold, and hold records stay in their ranges (R58, R85). -/

namespace Sys2Proof.Machine

/-! ### Hold records -/

/-- A hold table within its ranges (R85), which State.HoldLaw asks of it. -/
def HoldTable.Law (h : HoldTable) : Prop :=
  (1 ≤ h.limit ∧ h.limit ≤ 16) ∧
    ∀ (p : Port) (x : Hold), h.records[p] = some x → x.groups ≠ 0 ∧ 1 ≤ x.cyclesLeft ∧ x.cyclesLeft ≤ 16

theorem State.holdLaw_iff (s : State) : s.HoldLaw ↔ s.hold.Law := Iff.rfl

theorem HoldTable.getElem_set (v : Vector (Option Hold) 4) (p q : Port) (x : Option Hold) :
    (v.set p x)[q] = if q = p then x else v[q] := by
  by_cases h : q = p
  · subst h
    simp
  · have h' : p.val ≠ q.val := fun e => h (Fin.ext e.symm)
    simp [h, h']

theorem HoldTable.Law.set {h : HoldTable} (hl : h.Law) (p : Port) {o : Option Hold}
    (ho : ∀ x, o = some x → x.groups ≠ 0 ∧ 1 ≤ x.cyclesLeft ∧ x.cyclesLeft ≤ 16) :
    HoldTable.Law { h with records := h.records.set p o } := by
  obtain ⟨hlimit, hrecord⟩ := hl
  refine ⟨hlimit, fun q x hx => ?_⟩
  rw [HoldTable.getElem_set] at hx
  split at hx
  · exact ho x hx
  · exact hrecord q x hx

/-- The countdown removes a record before it could reach 0 (R91). -/
theorem HoldTable.Law.count {h : HoldTable} (hl : h.Law) : h.count.Law := by
  obtain ⟨hlimit, hrecord⟩ := hl
  refine ⟨hlimit, fun p x hx => ?_⟩
  rw [HoldTable.count_record] at hx
  unfold Hold.count at hx
  split at hx
  · cases hx
  · rename_i y hy
    obtain ⟨hgroups, -, hhigh⟩ := hrecord p y hy
    split at hx
    · cases hx
    · cases hx
      exact ⟨hgroups, by dsimp only; omega, by dsimp only; omega⟩

theorem HoldTable.law_empty {h : HoldTable} (hlimit : 1 ≤ h.limit ∧ h.limit ≤ 16)
    (hnone : ∀ p : Port, h.records[p] = none) : h.Law :=
  ⟨hlimit, fun p x hx => by rw [hnone p] at hx; cases hx⟩

theorem State.haltPart_records (s : State) (p : Port) : s.haltPart.hold.records[p] = none :=
  getElem_forPorts (fun _ : Port => (none : Option Hold)) p

theorem State.holdInReset_hold (s : State) : s.holdInReset.hold = HoldTable.reset := rfl

/-- No request but HOLD writes a record, and it writes a lawful one. -/
theorem keptByRequests_holdLaw : KeptByRequests State.HoldLaw where
  elsewhere {s t} hkeeps _ hs := by
    rw [State.holdLaw_iff, hkeeps.2]
    exact hs
  hold p groups hne _ hs := HoldTable.Law.set hs p fun x hx => by
    cases hx
    exact ⟨hne, hs.1⟩
  limit n hlow hhigh hs := ⟨⟨hlow, hhigh⟩, hs.2⟩
  watch _ _ _ _ hs := hs
  halt {s} hs := HoldTable.law_empty hs.1 s.haltPart_records
  reset {s} _ := HoldTable.law_empty (h := HoldTable.reset) (by decide) (by decide)

theorem State.takeClaim_holdLaw (s : State) (c : Claim) (hs : s.HoldLaw) : (s.takeClaim c).1.HoldLaw := by
  rw [State.holdLaw_iff] at hs ⊢
  cases c with
  | countHolds => exact hs.count
  | rollWatches => exact hs
  | point g => exact (s.takePoint_hold g).symm ▸ hs
  | report g => exact (s.takeReport_hold g).symm ▸ hs
  | removeHold p => exact hs.set p nofun

theorem keptByOutcomes_holdLaw : KeptByOutcomes State.HoldLaw :=
  keptByRequests_holdLaw.claimwise State.takeClaim_holdLaw

/-! ### Deferral marks through one claim -/

theorem PublicationUnit.record_mark (u : PublicationUnit) (g h : Group) (o : GroupOutcome) (c : CycleCount)
    (m n : Nat) : (u.record g o c m n).groups[h].mark = u.groups[h].mark := by
  by_cases hh : h = g
  · subst hh
    rw [PublicationUnit.record_same]
  · rw [PublicationUnit.record_other _ _ _ _ _ hh]

theorem PublicationUnit.setMark_mark (u : PublicationUnit) (g h : Group) (b : Bool) :
    (u.setMark g b).groups[h].mark = if h = g then b else u.groups[h].mark := by
  by_cases hh : h = g
  · subst hh
    rw [PublicationUnit.setMark_same, if_pos rfl]
  · rw [PublicationUnit.setMark_other _ _ hh, if_neg hh]

theorem State.recordQuiet_mark (s : State) (g h : Group) (o : GroupOutcome) :
    (s.recordQuiet g o).1.pub.groups[h].mark = s.pub.groups[h].mark :=
  s.pub.record_mark g h o _ 0 0

theorem State.publish_mark (s : State) (g h : Group) (o : GroupOutcome) :
    (s.publish g o).1.pub.groups[h].mark = s.pub.groups[h].mark :=
  s.pub.record_mark g h o _ _ _

/-- A point sets the mark of its own group, and that under a hold alone (R58, R61). -/
theorem State.takePoint_mark {s : State} {g h : Group} (hm : (s.takePoint g).1.pub.groups[h].mark = true) :
    s.pub.groups[h].mark = true ∨ (h = g ∧ s.hold.covers g = true) := by
  unfold State.takePoint at hm
  split at hm
  · rw [State.recordQuiet_mark] at hm
    exact Or.inl hm
  · split at hm
    · rename_i hc
      rw [State.recordQuiet_mark, State.setPub_pub, PublicationUnit.setMark_mark] at hm
      split at hm
      · exact Or.inr ⟨by assumption, hc⟩
      · exact Or.inl hm
    · rw [State.publish_mark] at hm
      exact Or.inl hm

/-- A report leaves its group without a mark, and the other marks as they are (R58, R66). -/
theorem State.takeReport_mark {s : State} {g h : Group} (hm : (s.takeReport g).1.pub.groups[h].mark = true) :
    s.pub.groups[h].mark = true ∧ h ≠ g := by
  have hcleared : (s.pub.setMark g false).groups[h].mark = true → s.pub.groups[h].mark = true ∧ h ≠ g := by
    rw [PublicationUnit.setMark_mark]
    split
    · exact nofun
    · exact fun hm => ⟨hm, by assumption⟩
  unfold State.takeReport at hm
  split at hm
  · split at hm
    · rw [State.recordQuiet_mark] at hm
      exact hcleared hm
    · rw [State.publish_mark] at hm
      exact hcleared hm
  · rename_i hnot
    exact ⟨hm, fun he => hnot (he ▸ hm)⟩

/-- A mark behind a claim of a cycle start was there before, unless the claim reports its group; or the claim is a point of
its group, which is held. -/
theorem State.takeCycleClaim_mark {s : State} {c : CycleClaim} {g : Group}
    (hm : (s.takeCycleClaim c).1.pub.groups[g].mark = true) :
    (s.pub.groups[g].mark = true ∧ c ≠ .block (.report g)) ∨ s.hold.covers g = true := by
  cases c with
  | block c =>
    cases c with
    | countHolds | removeHold => exact Or.inl ⟨hm, nofun⟩
    | rollWatches => exact Or.inl ⟨hm, nofun⟩
    | point h =>
      rcases State.takePoint_mark hm with hm | ⟨rfl, hc⟩
      · exact Or.inl ⟨hm, nofun⟩
      · exact Or.inr hc
    | report h =>
      obtain ⟨hm, hne⟩ := State.takeReport_mark hm
      exact Or.inl ⟨hm, fun he => hne (by cases he; rfl)⟩
  | countStagings =>
    rw [State.takeCycleClaim_count, State.setMap_pub] at hm
    exact Or.inl ⟨hm, nofun⟩
  | markReady p =>
    have hpub : (s.takeCycleClaim (.markReady p)).1.pub = s.pub := (s.markReady_keepsOutcomes p).1
    rw [hpub] at hm
    exact Or.inl ⟨hm, nofun⟩

/-! ### Deferral marks through claims in order -/

/-- What claim c leaves of the hold table. -/
def HoldTable.after (h : HoldTable) : CycleClaim → HoldTable
  | .block .countHolds => h.count
  | .block (.removeHold p) => h.remove p
  | _ => h

theorem State.takeCycleClaim_after (s : State) (c : CycleClaim) : (s.takeCycleClaim c).1.hold = s.hold.after c := by
  cases c with
  | block c =>
    cases c with
    | countHolds | rollWatches | removeHold => rfl
    | point g => exact s.takePoint_hold g
    | report g => exact s.takeReport_hold g
  | countStagings => exact s.setMap_hold _
  | markReady p => exact (s.markReady_keepsOutcomes p).2

/-- Behind each claim in the list that uncovers groups, the list holds the reports of those groups (R66, R86). -/
def HoldTable.Reported : HoldTable → List CycleClaim → Prop
  | _, [] => True
  | h, c :: cs => (∀ g ∈ h.uncovered (h.after c), .block (.report g) ∈ cs) ∧ (h.after c).Reported cs

/-- Each mark stands under a covering hold, or its group's report is still among the claims. -/
def State.MarksDue (s : State) (cs : List CycleClaim) : Prop :=
  ∀ g : Group, s.pub.groups[g].mark = true → s.hold.covers g = true ∨ .block (.report g) ∈ cs

theorem State.marksDue_nil (s : State) : s.MarksDue [] ↔ s.MarkLaw := by
  simp [State.MarksDue, State.MarkLaw]

theorem State.MarkLaw.due {s : State} (h : s.MarkLaw) (cs : List CycleClaim) : s.MarksDue cs :=
  fun g hm => Or.inl (h g hm)

theorem State.MarksDue.setMap {s : State} {cs : List CycleClaim} (h : s.MarksDue cs) (m : ExchangeMap) :
    (s.setMap m).MarksDue cs := h

theorem State.MarksDue.takeCycleClaim {s : State} {c : CycleClaim} {cs : List CycleClaim} (h : s.MarksDue (c :: cs))
    (hr : ∀ g ∈ s.hold.uncovered (s.hold.after c), .block (.report g) ∈ cs) :
    (s.takeCycleClaim c).1.MarksDue cs := by
  intro g hm
  have hbefore : s.hold.covers g = true ∨ .block (.report g) ∈ cs := by
    rcases State.takeCycleClaim_mark hm with ⟨hm, hne⟩ | hc
    · exact (h g hm).imp_right fun hin => (List.mem_cons.1 hin).resolve_left hne.symm
    · exact Or.inl hc
  rw [State.takeCycleClaim_after]
  rcases hbefore with hc | hin
  · cases ha : (s.hold.after c).covers g with
    | true => exact Or.inl rfl
    | false => exact Or.inr (hr g ((HoldTable.mem_uncovered _ _ g).2 ⟨hc, ha⟩))
  · exact Or.inr hin

/-- Claims in order leave what the claims behind them need. -/
theorem State.MarksDue.takeCycleClaims {s : State} {cs ds : List CycleClaim} (h : s.MarksDue (cs ++ ds))
    (hr : s.hold.Reported (cs ++ ds)) :
    (s.takeCycleClaims cs).1.MarksDue ds ∧ (s.takeCycleClaims cs).1.hold.Reported ds := by
  induction cs generalizing s with
  | nil => exact ⟨h, hr⟩
  | cons c cs ih =>
    rw [List.cons_append, HoldTable.Reported] at hr
    rw [State.takeCycleClaims_cons]
    exact ih (h.takeCycleClaim hr.1) (by rw [State.takeCycleClaim_after]; exact hr.2)

/-! ### The claims that uncover groups are followed by their reports -/

/-- Reports alone uncover nothing. -/
theorem HoldTable.reported_reports (h : HoldTable) (gs : List Group) :
    h.Reported (gs.map fun g => .block (.report g)) := by
  induction gs with
  | nil => trivial
  | cons g gs ih =>
    refine ⟨fun k hk => ?_, ih⟩
    obtain ⟨hc, hn⟩ := (HoldTable.mem_uncovered h h k).1 hk
    rw [hc] at hn
    cases hn

theorem State.holdCountClaims_reported (s : State) : s.hold.Reported (s.holdCountClaims.map .block) := by
  rw [State.holdCountClaims, List.map_cons, List.map_map]
  exact ⟨fun g hg => List.mem_map_of_mem hg, HoldTable.reported_reports _ _⟩

theorem State.holdRemovalClaims_reported (s : State) (p : Port) :
    s.hold.Reported ((s.holdRemovalClaims p).map .block) := by
  rw [State.holdRemovalClaims, List.map_cons, List.map_map]
  exact ⟨fun g hg => List.mem_map_of_mem hg, HoldTable.reported_reports _ _⟩

/-- The hold table's own claims, with their reports. -/
def CycleClaim.isHolds : CycleClaim → Bool
  | .block .countHolds | .block (.removeHold _) | .block (.report _) => true
  | _ => false

/-- Claims that leave the hold table alone may stand anywhere among the others. -/
theorem HoldTable.Reported.of_filter {h : HoldTable} {cs : List CycleClaim}
    (hr : h.Reported (cs.filter CycleClaim.isHolds)) : h.Reported cs := by
  induction cs generalizing h with
  | nil => trivial
  | cons c cs ih =>
    cases hc : c.isHolds with
    | true =>
      rw [List.filter_cons_of_pos hc] at hr
      exact ⟨fun g hg => List.mem_of_mem_filter (hr.1 g hg), ih hr.2⟩
    | false =>
      rw [List.filter_cons_of_neg (by rw [hc]; exact Bool.false_ne_true)] at hr
      have hsame : h.after c = h := by
        unfold HoldTable.after
        split
        · cases hc
        · cases hc
        · rfl
      refine ⟨fun g hg => ?_, by rw [hsame]; exact ih hr⟩
      obtain ⟨hcov, hnot⟩ := (HoldTable.mem_uncovered _ _ g).1 hg
      rw [hsame, hcov] at hnot
      cases hnot

/-- A cycle start takes the hold table's claims in their order, wherever the others fall (R66, R91). -/
theorem State.filter_cycleStartClaims_holds (s : State) (pick : Nat → Nat) (point : Option Group) :
    (s.cycleStartClaims pick point).filter CycleClaim.isHolds = s.holdCountClaims.map .block := by
  have hmarks : ∀ claims : List CycleClaim,
      (insertMarks pick claims).filter CycleClaim.isHolds = claims.filter CycleClaim.isHolds := by
    intro claims
    unfold insertMarks
    generalize List.finRange 4 = ports
    induction ports generalizing claims with
    | nil => rfl
    | cons p ports ih =>
      rw [List.foldl_cons, ih]
      split
      · exact filter_insertAt _ rfl _ _
      · rfl
  have hholds : ∀ c ∈ s.holdCountClaims.map CycleClaim.block, c.isHolds = true := by
    simp [State.holdCountClaims, CycleClaim.isHolds]
  have hown : ∀ c ∈ (publicationClaims point).map CycleClaim.block, ¬ c.isHolds = true := by
    cases point <;> simp [publicationClaims, CycleClaim.isHolds]
  unfold State.cycleStartClaims insertRun
  rw [hmarks, filter_insertAt _ rfl, List.map_append, List.map_append, List.filter_append, List.filter_append,
    List.filter_eq_self.2 hholds, List.filter_eq_nil_iff.2, List.filter_eq_nil_iff.2, List.nil_append, List.append_nil]
  · exact fun c hc => hown c (List.map_subset _ (List.drop_subset _ _) hc)
  · exact fun c hc => hown c (List.map_subset _ (List.take_subset _ _) hc)

/-! ### The law of marks -/

/-- Claims of the hold table and the publication unit are claims of a cycle start. -/
theorem State.takeCycleClaims_blocks (s : State) (cs : List Claim) :
    (s.takeCycleClaims (cs.map .block)).1 = (s.takeClaims cs).1 := by
  induction cs generalizing s with
  | nil => rfl
  | cons c cs ih => exact ih _

theorem State.handOutCycleStart_markLaw {s : State} (hs : s.MarkLaw) (pick : Nat → Nat) (point : Option Group) :
    (s.handOutCycleStart pick point).1.MarkLaw := by
  have hr : s.hold.Reported (s.cycleStartClaims pick point) :=
    .of_filter (by rw [s.filter_cycleStartClaims_holds]; exact s.holdCountClaims_reported)
  rw [← List.append_nil (s.cycleStartClaims pick point)] at hr
  exact (State.marksDue_nil _).1 ((State.MarkLaw.due hs _).takeCycleClaims hr).1

/-- The removal of p's stagings may fall between the claims of p's hold record (R69). -/
theorem State.resetBlocks_markLaw {s : State} (hs : s.MarkLaw) (k : Nat) (p : Port) (which : ResetClaims) :
    (s.resetBlocks k p which).1.MarkLaw := by
  unfold State.resetBlocks
  dsimp only
  have hr : s.hold.Reported ((if which.hold then s.holdRemovalClaims p else []).map .block) := by
    split
    · exact s.holdRemovalClaims_reported p
    · trivial
  generalize (if which.hold then s.holdRemovalClaims p else []) = claims at hr ⊢
  rw [← List.take_append_drop (k % (claims.length + 1)) claims, List.map_append] at hr
  generalize claims.take (k % (claims.length + 1)) = first, claims.drop (k % (claims.length + 1)) = last at hr ⊢
  obtain ⟨hdue, hrest⟩ := (State.MarkLaw.due hs _).takeCycleClaims hr
  rw [State.takeCycleClaims_blocks] at hdue hrest
  rw [← List.append_nil (last.map _)] at hdue hrest
  rw [← State.marksDue_nil, ← State.takeCycleClaims_blocks]
  split
  · refine ((hdue.setMap _).takeCycleClaims ?_).1
    rw [State.setMap_hold]
    exact hrest
  · exact (hdue.takeCycleClaims hrest).1

theorem State.takePoint_markLaw {s : State} (hs : s.MarkLaw) (g : Group) : (s.takePoint g).1.MarkLaw := by
  intro h hm
  rw [State.takePoint_hold]
  rcases State.takePoint_mark hm with hm | ⟨rfl, hc⟩
  · exact hs h hm
  · exact hc

theorem keptByOutcomes_markLaw : KeptByOutcomes State.MarkLaw where
  elsewhere {s t} hkeeps _ hs := by
    rw [State.MarkLaw, hkeeps.1, hkeeps.2]
    exact hs
  hold {s} p groups _ hnone hs g hm := by
    obtain ⟨q, x, hx, hg⟩ := (HoldTable.covers_iff _ g).1 (hs g hm)
    refine (HoldTable.covers_iff _ g).2 ⟨q, x, ?_, hg⟩
    rw [State.setHold_hold, HoldTable.getElem_set, if_neg, hx]
    rintro rfl
    rw [hnone] at hx
    cases hx
  limit _ _ _ hs := hs
  watch _ _ _ _ hs := hs
  halt {s} _ g hm := by
    have hcleared : s.haltPart.pub.groups[g] = { s.pub.groups[g] with mark := false } := s.pub.clearMarks_group g
    rw [hcleared] at hm
    cases hm
  reset {s} _ g hm := by
    have hcleared : ∀ g : Group, PublicationUnit.reset.groups[g].mark = false := by decide
    exact absurd ((hcleared g).symm.trans hm) Bool.false_ne_true
  point g hs := State.takePoint_markLaw hs g
  cycle pick point hs := State.handOutCycleStart_markLaw hs pick point
  removal k p which hs := State.resetBlocks_markLaw hs k p which

/-- Settles O49: both laws pass through the claims of outcomes and the requests that write the records, so through every
step. -/
theorem stepKeepsTheMarkAndHoldLaws : Obligations.StepKeepsTheMarkAndHoldLaws := fun _ _ h =>
  ⟨keptByOutcomes_markLaw.keeps_step h, keptByOutcomes_holdLaw.keeps_step h⟩

end Sys2Proof.Machine
end

section
/-! HEADLINE. Watch counters stay at 65535 or below, and the pages of an outcome at 32 or fewer (R57, R77). -/

namespace Sys2Proof.Machine

/-! ### Watch counters -/

/-- A watch counter within its range (R77), which State.WatchLaw asks of each. -/
def Watch.Law (w : Watch) : Prop := w.value ≤ 65535 ∧ w.running ≤ 65535

theorem State.watchLaw_iff (s : State) : s.WatchLaw ↔ ∀ n : WatchNo, s.pub.watches[n].Law := Iff.rfl

/-- An outcome adds with saturation (R77, R78). -/
theorem Watch.Law.take {w : Watch} (h : w.Law) (g : Group) (o : GroupOutcome) (m n : Nat) : (w.take g o m n).Law := by
  unfold Watch.take
  split
  · split
    · exact ⟨saturate_le _ _, h.2⟩
    · exact ⟨h.1, saturate_le _ _⟩
  · exact h

/-- A roll moves the running count to the value (R79). -/
theorem Watch.Law.roll {w : Watch} (h : w.Law) : w.roll.Law := by
  unfold Watch.roll
  split
  · exact ⟨h.2, Nat.zero_le _⟩
  · exact h

theorem State.Records.watchLaw {u v : State} {g : Group} (hr : u.Records g v) (hu : u.WatchLaw) : v.WatchLaw := by
  obtain ⟨w, o, c, made, missed, -, hw, hv⟩ := hr
  rw [State.watchLaw_iff] at hu ⊢
  intro n
  rw [hv, PublicationUnit.record_watch, hw]
  exact (hu n).take g o made missed

theorem State.takeClaim_watchLaw (s : State) (c : Claim) (hs : s.WatchLaw) : (s.takeClaim c).1.WatchLaw := by
  cases c with
  | countHolds | removeHold => exact hs
  | rollWatches =>
    rw [State.watchLaw_iff] at hs ⊢
    intro n
    rw [State.takeClaim, State.setPub_pub, PublicationUnit.roll_watch]
    exact (hs n).roll
  | point g => exact (s.takePoint_records g).watchLaw hs
  | report g =>
    rcases s.takeReport_records g with h | h
    · exact (congrArg State.WatchLaw h).symm ▸ hs
    · exact h.watchLaw hs

/-- No request but WATCH_SET writes a counter, and it clears it (R80). -/
theorem keptByRequests_watchLaw : KeptByRequests State.WatchLaw where
  elsewhere {s t} hkeeps _ hs := by
    rw [State.WatchLaw, hkeeps.1]
    exact hs
  hold _ _ _ _ hs := hs
  limit _ _ _ hs := hs
  watch {s} n g e m hs k := by
    by_cases hk : k = n
    · subst hk
      simp
    · have hne : n.val ≠ k.val := fun h => hk (Fin.ext h.symm)
      simpa [hne] using hs k
  halt {s} hs := by
    have hsame : s.haltPart.pub.watches = s.pub.watches := s.pub.clearMarks_watches
    rw [State.WatchLaw, hsame]
    exact hs
  reset {s} _ := by
    have hzero : ∀ n : WatchNo, PublicationUnit.reset.watches[n].Law := by
      unfold Watch.Law
      decide
    exact hzero

theorem keptByOutcomes_watchLaw : KeptByOutcomes State.WatchLaw :=
  keptByRequests_watchLaw.claimwise State.takeClaim_watchLaw

/-! ### The pages of an outcome -/

/-- READY and late pages have a staging each, and no page is both (R63, R64). -/
theorem ExchangeMap.readyCount_add_lateCount_le (m : ExchangeMap) (g : Group) :
    m.readyCount g + m.lateCount g ≤ m.stagingFrames.length := by
  unfold ExchangeMap.readyCount ExchangeMap.lateCount ExchangeMap.stagingFrames
  generalize List.finRange 320 = l
  induction l with
  | nil => simp
  | cons i l ih =>
    rw [List.countP_cons, List.countP_cons]
    cases hs : (m.page i).staging with
    | none =>
      rw [List.filterMap_cons_none (by simp [hs])]
      simpa [ExchangeMap.ready, ExchangeMap.late, hs] using ih
    | some st =>
      rw [List.filterMap_cons_some (by simp [hs]; rfl), List.length_cons]
      have hone : (m.ready g i).toNat + (m.late g i).toNat ≤ 1 := by
        cases ho : st.state <;> simp [ExchangeMap.ready, ExchangeMap.late, hs, ho, Bool.toNat_le]
      simp only [Bool.toNat, cond_eq_ite] at hone
      omega

/-- Four ports stage 8 pages each at most (R7, R57). -/
theorem State.StagerLaw.outcome_le {s : State} (h : s.StagerLaw) (g : Group) :
    s.map.readyCount g + s.map.lateCount g ≤ 32 := by
  have hframes := s.map.readyCount_add_lateCount_le g
  have hst := s.map.stagingFrames_length_le
  have h0 := h 0
  have h1 := h 1
  have h2 := h 2
  have h3 := h 3
  omega

/-- Group status records within their bound (R57), which State.OutcomeLaw asks of the publication unit. -/
def PublicationUnit.OutcomeLaw (u : PublicationUnit) : Prop :=
  ∀ g : Group, u.groups[g].published + u.groups[g].late ≤ 32

theorem State.outcomeLaw_iff (s : State) : s.OutcomeLaw ↔ s.pub.OutcomeLaw := Iff.rfl

theorem PublicationUnit.OutcomeLaw.record {u : PublicationUnit} (h : u.OutcomeLaw) (g : Group) (o : GroupOutcome)
    (c : CycleCount) {m n : Nat} (hmn : m + n ≤ 32) : (u.record g o c m n).OutcomeLaw := by
  intro k
  by_cases hk : k = g
  · subst hk
    rw [PublicationUnit.record_same]
    exact hmn
  · rw [PublicationUnit.record_other _ _ _ _ _ hk]
    exact h k

theorem PublicationUnit.OutcomeLaw.setMark {u : PublicationUnit} (h : u.OutcomeLaw) (g : Group) (b : Bool) :
    (u.setMark g b).OutcomeLaw := by
  intro k
  by_cases hk : k = g
  · subst hk
    rw [PublicationUnit.setMark_same]
    exact h k
  · rw [PublicationUnit.setMark_other _ _ hk]
    exact h k

theorem State.recordQuiet_outcomeLaw {s : State} (hs : s.pub.OutcomeLaw) (g : Group) (o : GroupOutcome) :
    (s.recordQuiet g o).1.pub.OutcomeLaw := hs.record g o _ (by decide)

theorem State.publish_outcomeLaw {s : State} (hst : s.StagerLaw) (hs : s.pub.OutcomeLaw) (g : Group)
    (o : GroupOutcome) : (s.publish g o).1.pub.OutcomeLaw := by
  rw [(s.publish_spec g o).1, State.setPub_pub]
  exact hs.record g o _ (hst.outcome_le g)

/-- An outcome counts the pages of its group's stagings. -/
theorem State.takeClaim_outcomeLaw {s : State} (hst : s.StagerLaw) (hs : s.OutcomeLaw) (c : Claim) :
    (s.takeClaim c).1.OutcomeLaw := by
  rw [State.outcomeLaw_iff] at hs ⊢
  cases c with
  | countHolds | rollWatches | removeHold => exact hs
  | point g =>
    rw [State.takeClaim]
    unfold State.takePoint
    split
    · exact State.recordQuiet_outcomeLaw hs g _
    · split
      · exact State.recordQuiet_outcomeLaw (s := s.setPub _) (hs.setMark g true) g _
      · exact State.publish_outcomeLaw hst hs g _
  | report g =>
    rw [State.takeClaim]
    unfold State.takeReport
    split
    · split
      · exact State.recordQuiet_outcomeLaw (s := s.setPub _) (hs.setMark g false) g _
      · exact State.publish_outcomeLaw (s := s.setPub (s.pub.setMark g false)) hst (hs.setMark g false) g _
    · exact hs

theorem keptByRequests_outcomeLaw : KeptByRequests fun s => s.StagerLaw ∧ s.OutcomeLaw where
  elsewhere {s t} hkeeps hst hs := by
    refine ⟨hst hs.1, ?_⟩
    rw [State.OutcomeLaw, hkeeps.1]
    exact hs.2
  hold _ _ _ _ hs := hs
  limit _ _ _ hs := hs
  watch _ _ _ _ hs := hs
  halt {s} hs := by
    refine ⟨?_, fun g => ?_⟩
    · exact (s.haltPart_reaches (.head [])).stagerLaw hs.1
    · have hgroup : s.haltPart.pub.groups[g] = { s.pub.groups[g] with mark := false } := s.pub.clearMarks_group g
      rw [hgroup]
      exact hs.2 g
  reset {s} hs := by
    have hzero : PublicationUnit.reset.OutcomeLaw := by
      unfold PublicationUnit.OutcomeLaw
      decide
    exact ⟨(State.Move.reset (s := s)).stagerLaw hs.1, hzero⟩

theorem keptByOutcomes_outcomeLaw : KeptByOutcomes fun s => s.StagerLaw ∧ s.OutcomeLaw :=
  keptByRequests_outcomeLaw.claimwise fun s c hs =>
    ⟨(s.takeClaim_reaches (K := [.quiet, .publish]) (.head _) (.tail _ (.head _)) c).stagerLaw hs.1,
      State.takeClaim_outcomeLaw hs.1 hs.2 c⟩

/-- Settles O54: both laws pass through each claim of an outcome and each request that writes a record, so through every
step. -/
theorem stepKeepsTheWatchAndOutcomeLaws : Obligations.StepKeepsTheWatchAndOutcomeLaws := fun _ _ h =>
  ⟨keptByOutcomes_watchLaw.keeps_step h, fun hst hs => (keptByOutcomes_outcomeLaw.keeps_step h ⟨hst, hs⟩).2⟩

end Sys2Proof.Machine
end

section
/-! HEADLINE. A page of a frozen group is not published (R60, R68, R128). -/

namespace Sys2Proof.Machine

/-! ### Claims -/

/-- In u the group of page i is frozen, and the page has the version that it had in s. -/
def State.Withholds (s : State) (i : Page) (u : State) : Prop :=
  u.stop.isFrozen (u.map.page i).group = true ∧ s.KeepsVersion i u

/-- A page of a frozen group keeps its version where at most its staging changes. -/
theorem State.Withholds.restaged {s u v : State} {i : Page} (h : s.Withholds i u) (hstop : v.stop = u.stop)
    {x : Option Staging} (hpage : v.map.page i = { u.map.page i with staging := x }) : s.Withholds i v := by
  obtain ⟨hfrozen, hversion⟩ := h
  rw [State.Withholds, State.KeepsVersion, hstop, hpage]
  exact ⟨hfrozen, hversion⟩

theorem State.Withholds.others {s u v : State} {i : Page} (h : s.Withholds i u) (hstop : v.stop = u.stop)
    (hmap : v.map = u.map) : s.Withholds i v := h.restaged hstop (by rw [hmap])

theorem State.Withholds.setMap {s u : State} {i : Page} (h : s.Withholds i u) {m : ExchangeMap} {x : Option Staging}
    (hpage : m.page i = { u.map.page i with staging := x }) : s.Withholds i (u.setMap m) :=
  h.restaged (u.setMap_stop m) (by rw [State.setMap_map]; exact hpage)

/-- No outcome publishes a page of a frozen group (R60, R68). -/
theorem State.Withholds.takeClaim {s u : State} {i : Page} (h : s.Withholds i u) (c : Claim) :
    s.Withholds i (u.takeClaim c).1 := by
  have hstop := (u.takeClaim_only c).stop
  rcases u.takeClaim_map c with hmap | ⟨g, -, hg, hmap⟩
  · exact h.others hstop hmap
  · have hne : (u.map.page i).group ≠ g := fun he => by
      rw [← he, h.1] at hg
      cases hg
    exact h.restaged hstop (by rw [hmap, ExchangeMap.swap_page, PageRecord.swapped_other _ hne])

theorem State.Withholds.takeClaims {s u : State} {i : Page} (h : s.Withholds i u) (cs : List Claim) :
    s.Withholds i (u.takeClaims cs).1 :=
  u.takeClaims_keeps (s.Withholds i) (fun _ c hu => hu.takeClaim c) cs h

theorem State.Withholds.takeCycleClaim {s u : State} {i : Page} (h : s.Withholds i u) (c : CycleClaim) :
    s.Withholds i (u.takeCycleClaim c).1 := by
  cases c with
  | block c => exact h.takeClaim c
  | countStagings =>
    have hpage := u.map.countStagings_page i
    rw [State.takeCycleClaim_count]
    unfold PageRecord.counted at hpage
    split at hpage
    · exact h.setMap hpage
    · split at hpage
      · split at hpage <;> exact h.setMap hpage
      · exact h.setMap hpage
  | markReady p =>
    show s.Withholds i (u.markReady p)
    rcases u.markReady_eq p with he | ⟨pp, j, st, -, -, -, -, -, he⟩ <;> rw [he]
    · exact h
    · have hpage := u.map.page_setPage j i { u.map.page j with staging := some { st with state := .ready } }
      split at hpage
      · rename_i hij
        subst hij
        exact h.restaged rfl hpage
      · exact h.restaged rfl hpage

theorem State.Withholds.startCycle {s u : State} {i : Page} (h : s.Withholds i u) (pick : Nat → Nat)
    (earlier : List Message) : s.Withholds i (u.startCycle pick earlier) := by
  have hbegun : s.Withholds i (u.setSched (u.sched.beginCycle u.stop.anyActive)) := h.others rfl rfl
  exact (State.takeCycleClaims_keeps (s.Withholds i) (fun _ c hv => hv.takeCycleClaim c) _ _ hbegun).others rfl rfl

theorem State.Withholds.startSlot {s u : State} {i : Page} (h : s.Withholds i u) (pick : Nat → Nat) :
    s.Withholds i (u.startSlot pick) := (h.takeClaims _).others rfl rfl

theorem State.Withholds.resetBlocks {s u : State} {i : Page} (h : s.Withholds i u) (k : Nat) (p : Port)
    (which : ResetClaims) : s.Withholds i (u.resetBlocks k p which).1 := by
  unfold State.resetBlocks
  dsimp only
  refine State.Withholds.takeClaims ?_ _
  split
  · exact (h.takeClaims _).setMap (ExchangeMap.removeStagingsOf_page _ p i)
  · exact h.takeClaims _

theorem State.Withholds.takeResetClaims {s u : State} {i : Page} (h : s.Withholds i u) (p : Port)
    (left now : ResetClaims) : s.Withholds i (u.takeResetClaims p left now) := by
  rw [State.takeResetClaims_eq]
  refine State.Withholds.others (u := u.resetPort u.draw p now) ?_ rfl rfl
  unfold State.resetPort
  dsimp only
  split <;> exact (h.resetBlocks (u.draw 1) p now).others rfl rfl

/-! ### Events of the schedule, START and RELEASE -/

theorem State.Withholds.endSlot {s u : State} {i : Page} (h : s.Withholds i u) (pick : Nat → Nat) :
    s.Withholds i (u.endSlot pick) := by
  unfold State.endSlot
  split
  · split
    · refine State.Withholds.startSlot ?_ pick
      exact h.others rfl rfl
    · split
      · exact h.startCycle pick []
      · exact h.others rfl rfl
  · exact h

theorem State.Withholds.syncEdge {s u : State} {i : Page} (h : s.Withholds i u) (pick : Nat → Nat) :
    s.Withholds i (u.syncEdge pick) := by
  unfold State.syncEdge
  split
  · exact h.startCycle pick []
  · exact h.others rfl rfl
  · exact h

theorem State.Withholds.expireGap {s u : State} {i : Page} (h : s.Withholds i u) (pick : Nat → Nat) :
    s.Withholds i (u.expireGap pick) := by
  unfold State.expireGap
  split
  · exact h.startCycle pick _
  · exact h

theorem State.Withholds.startPart {s u : State} {i : Page} (h : s.Withholds i u) : s.Withholds i u.startPart := by
  unfold State.startPart State.startSchedule
  dsimp only
  split
  · refine (State.Withholds.startCycle ?_ u.draw []).others rfl rfl
    exact h.others rfl rfl
  · exact h.others rfl rfl

theorem State.Withholds.releaseHold {s u : State} {i : Page} (h : s.Withholds i u) (p : Port) :
    s.Withholds i (u.releaseHold p) := by
  unfold State.releaseHold State.endHold
  split
  · exact h.others rfl rfl
  · exact (h.takeClaims (u.holdRemovalClaims p)).others rfl rfl

/-! ### Every command and every event of a tick -/

theorem State.Withholds.refl {s : State} {i : Page} (h : s.stop.isFrozen (s.map.page i).group = true) :
    s.Withholds i s := ⟨h, rfl, rfl⟩

/-- What is outstanding of p's request publishes no page of a frozen group. -/
theorem State.settle_keepsVersion {s : State} {i : Page} (h : s.stop.isFrozen (s.map.page i).group = true) (p : Port) :
    s.KeepsVersion i (s.settle p) := by
  by_cases hreset : ∃ left, (s.port p).tx = .accepted (.portReset left)
  · obtain ⟨left, htx⟩ := hreset
    rw [State.settle_portReset htx]
    exact ((State.Withholds.refl h).takeResetClaims p left left).2
  · exact (State.settle_reaches_of_ne fun left htx => hreset ⟨left, htx⟩).keepsVersion (fun _ hk => hk) i

theorem State.settleSome_keepsVersion {s : State} {i : Page} (h : s.stop.isFrozen (s.map.page i).group = true)
    (p : Port) : s.KeepsVersion i (s.settleSome p) := by
  unfold State.settleSome
  split
  · exact ((State.Withholds.refl h).takeResetClaims p _ _).2
  · rename_i hw
    split
    · exact (State.takePagePart_reaches (K := [.quiet, .store]) (.head _) (fun _ _ _ => .tail _ (.head _)) _
        (Or.inr ⟨_, hw⟩)).keepsVersion (fun _ hk => hk) i
    · exact ⟨rfl, rfl⟩
  · exact ⟨rfl, rfl⟩

theorem State.takeEvent_keepsVersion {s : State} {i : Page} (h : s.stop.isFrozen (s.map.page i).group = true)
    (e : TickEvent) : s.KeepsVersion i (s.takeEvent e) := by
  have hs := State.Withholds.refl h
  have hquiet : ∀ k ∈ [MoveKind.quiet], k ∈ [MoveKind.quiet, .store] := by decide
  cases e with
  | slot => exact (hs.endSlot s.draw).2
  | gap => exact (hs.expireGap s.draw).2
  | edge =>
    have hrise : s.Withholds i (s.setSched { s.sched with syncRise := false }) := hs.others rfl rfl
    exact (hrise.syncEdge _).2
  | filter l => exact (s.expireFilter_reaches (.head []) l).keepsVersion hquiet i
  | second => exact (s.boundary_reaches (.head [])).keepsVersion hquiet i
  | alarmAnswer => exact (s.answerAlarm_reaches (.head [])).keepsVersion hquiet i
  | sample l => exact (s.sampleStop_reaches (.head []) l _).keepsVersion hquiet i
  | claims p => exact s.settleSome_keepsVersion h p

/-- A request served keeps the version of a page of a frozen group if its own operation does. -/
theorem State.serve_withholds {α : Type} {s : State} {i : Page} (h : s.stop.isFrozen (s.map.page i).group = true)
    (p : Port) (record : List Byte) (right : Option RightName) (params : Option α) (act : α → State → State)
    (hact : ∀ a u, s.Withholds i u → s.Withholds i (act a u)) :
    s.Withholds i (s.serve p record right params act) :=
  State.serve_keeps (s.Withholds i) (fun _ _ _ hu => hu.others rfl rfl) p record right params act (.refl h)
    fun a _ _ hr => hact a _ hr

/-- A command keeps the version of a page of a frozen group, while the page stays defined. -/
theorem exec_keepsVersion {c : Instr} {s t : State} (hexec : exec c s = .next t) {i : Page}
    (h : s.stop.isFrozen (s.map.page i).group = true) (hd : (s.map.page i).defined = true)
    (hd' : (t.map.page i).defined = true) : s.KeepsVersion i t := by
  have hs := State.Withholds.refl h
  have hreset : ∀ act : State → State, s.Withholds i (act s) → s.Withholds i (s.unlessReset act) :=
    fun act hact => s.unlessReset_keeps (s.Withholds i) act hs fun _ => hact
  have hquiet : ∀ k ∈ [MoveKind.quiet], k ∈ [MoveKind.quiet, .store] := by decide
  cases c
  case start p =>
    cases hexec
    refine (State.serve_withholds h p _ _ _ _ fun _ u hu => ?_).2
    refine State.inSetup_keeps (s.Withholds i) (fun _ _ _ hv => hv.others rfl rfl) p _ hu fun _ => ?_
    exact hu.startPart.others rfl rfl
  case release p =>
    cases hexec
    exact (State.serve_withholds h p _ _ _ _ fun _ _ hu => hu.releaseHold p).2
  case portReset p =>
    cases hexec
    exact (State.serve_withholds h p _ _ _ _ fun _ _ hu => hu.takeResetClaims p _ _).2
  case definePage p page group readers writers =>
    cases hexec
    rcases s.serve_cases p (Instr.definePage p page group readers writers).record (some .map)
      (pageParams page group readers writers) (fun x s => s.definePage p x) with hk | ⟨_, hk⟩ | ⟨x, -, hk⟩ <;> rw [hk]
    · exact hs.2
    · exact hs.2
    · exact State.definePage_keepsVersion (s.receive p _) p x i hd
  case retirePage p page =>
    cases hexec
    rcases s.serve_cases p (Instr.retirePage p page).record (some .map) (pageOf? page)
      (fun i s => s.onQuietPage p i fun s => s.setMap (s.map.retire i)) with hk | ⟨_, hk⟩ | ⟨j, -, hk⟩ <;>
        rw [hk] at hd' ⊢
    · exact hs.2
    · exact hs.2
    · exact State.retirePage_keepsVersion (s.receive p _) p j i hd'
  case partReset =>
    cases hexec
    rw [State.holdInReset_page] at hd'
    cases hd'
  case endOfSlot =>
    cases hexec
    refine (hreset _ ?_).2
    exact (hs.endSlot s.draw).others rfl rfl
  case syncEdge =>
    cases hexec
    refine (hreset _ ?_).2
    split
    · exact hs.others rfl rfl
    · exact (hs.syncEdge _).others rfl rfl
  case gapExpiry =>
    cases hexec
    refine (hreset _ ?_).2
    exact (hs.expireGap s.draw).others rfl rfl
  case readCompletion p | stageReadCompletion p | stageWriteCompletion p _ | lastResponseByte p | selectRelease p =>
    obtain ⟨hsequence, hlive⟩ := State.settle_keepsVersion h p
    have hrest := (exec_movesOn_reaches rfl hexec).keepsVersion (fun _ hk => hk) i
    exact ⟨hrest.1.trans hsequence, hrest.2.trans hlive⟩
  case stageOpen => exact (exec_reaches hexec).keepsVersion (fun _ hk => hk) i
  all_goals exact (exec_reaches hexec).keepsVersion hquiet i

/-- Settles O58: an outcome publishes no page of a frozen group, and what else a command or an event does publishes
nothing. -/
theorem frozenGroupsKeepTheirVersions : Obligations.FrozenGroupsKeepTheirVersions := by
  rintro s t i (⟨c, hexec⟩ | ⟨e, rfl⟩) h hd hd'
  · exact (exec_keepsVersion hexec h hd hd').symm
  · exact (s.takeEvent_keepsVersion h e).symm

end Sys2Proof.Machine
end

section
/-! HEADLINE. A publication point at a slot start that is no cycle start (R59 to R64, R75, R78). -/

namespace Sys2Proof.Machine

/-- A point records one outcome, which the counters take (R77, R78). -/
theorem State.takePoint_watches (u : State) (g : Group) (n : WatchNo) :
    (u.takePoint g).1.pub.watches[n] = u.pub.watches[n].after g (u.takePoint g).1.pub.groups[g] := by
  obtain ⟨w, o, made, missed, -, hw, hpub, -⟩ := u.takePoint_recorded g
  have hsame := PublicationUnit.record_same w g o u.sched.cycleCount made missed
  rw [hpub, PublicationUnit.record_watch, hw, ← Watch.take_eq_after, hsame]

/-- A point sends the notice of the outcome that it records (R75). -/
theorem State.takePoint_notice (u : State) (g : Group) {x : GroupStatus}
    (hx : (u.takePoint g).1.pub.groups[g] = x) : u.groupPoint g x.last x.published x.late ∈ (u.takePoint g).2 := by
  obtain ⟨w, o, made, missed, -, -, hpub, hsent⟩ := u.takePoint_recorded g
  rw [hpub, PublicationUnit.record_same] at hx
  subst hx
  exact hsent

/-- What a point of a frozen group leaves (R60). -/
theorem State.takePoint_frozen_leaves {u : State} {g : Group} (hf : u.stop.frozen.getLsbD g.val = true) :
    (u.takePoint g).1.map = u.map ∧
      (u.takePoint g).1.pub.groups[g] =
        { last := .frozen, cycle := u.sched.cycleCount, published := 0, late := 0, mark := u.pub.groups[g].mark } := by
  rw [State.takePoint_frozen hf]
  exact ⟨u.recordQuiet_map g _, PublicationUnit.record_same ..⟩

/-- What a point of a held group leaves (R61). -/
theorem State.takePoint_deferred_leaves {u : State} {g : Group} (hf : u.stop.frozen.getLsbD g.val = false)
    (hheld : u.Held g) :
    (u.takePoint g).1.map = u.map ∧
      (u.takePoint g).1.pub.groups[g] =
        { last := .deferred, cycle := u.sched.cycleCount, published := 0, late := 0, mark := true } := by
  rw [State.takePoint_deferred hf ((HoldTable.covers_iff _ g).2 hheld)]
  refine ⟨State.recordQuiet_map _ g _, (PublicationUnit.record_same ..).trans ?_⟩
  rw [State.setPub_pub, PublicationUnit.setMark_same, State.setPub_sched]

/-- A point of a group that is neither frozen nor held publishes (R62). -/
theorem State.takePoint_publishes {u : State} {g : Group} (hf : u.stop.frozen.getLsbD g.val = false)
    (hheld : ¬ u.Held g) : u.takePoint g = u.publish g .published :=
  State.takePoint_published hf (Bool.eq_false_iff.2 fun hc => hheld ((HoldTable.covers_iff _ g).1 hc))

/-- What a publication leaves of the group's record, the pages and the frames (R6, R62 to R64). -/
theorem State.publish_leaves (u : State) (g : Group) (o : GroupOutcome) :
    (u.publish g o).1.pub.groups[g] =
        { last := o, cycle := u.sched.cycleCount, published := u.map.readyCount g, late := u.map.lateCount g
          mark := u.pub.groups[g].mark } ∧
      (∀ i : Page, (u.publish g o).1.map.page i =
        if u.map.ready g i then (u.map.page i).published u.sched.cycleCount else u.map.page i) ∧
      (u.publish g o).1.map.freeList = u.map.freeList ++ u.map.freed g ∧
      (∀ f : Frame, f ∈ (u.publish g o).1.map.retiring ↔ f ∈ u.map.retiring ∨ u.map.retired g f) ∧
      u.map.SameStore (u.publish g o).1.map := by
  rw [State.publish_map, (u.publish_spec g o).1, State.setPub_pub]
  exact ⟨PublicationUnit.record_same .., u.map.swap_page_ready g _, u.map.swap_freeList g _,
    u.map.mem_swap_retiring g _, u.map.swap_store g _⟩

/-- A publication sends the stager of each late page its notice (R64). -/
theorem State.publish_late (u : State) {g : Group} (o : GroupOutcome) {i : Page} {st : Staging}
    (hl : u.map.late g i = true) (hs : (u.map.page i).staging = some st) :
    u.address st.stager (.late i g) ∈ (u.publish g o).2 := by
  rw [(u.publish_spec g o).2]
  exact List.mem_append_left _ (List.mem_map_of_mem (f := fun x : Page × Port => u.address x.2 (.late x.1 g))
    ((ExchangeMap.mem_swap_late _ _ _ i st.stager).2 ⟨hl, st, hs, rfl⟩))

/-- A slot start with a point takes it, and its notices reach those to whom they go (R37, R154). -/
theorem State.startSlot_point {u : State} {g : Group} (hpoint : u.sched.slotPoint = some g) (pick : Nat → Nat) :
    (u.startSlot pick).map = (u.takePoint g).1.map ∧ (u.startSlot pick).pub = (u.takePoint g).1.pub ∧
      ∀ m ∈ (u.takePoint g).2, ∀ q : Port, m.recipients.reach q u.notice.ports[q] = true →
        (u.startSlot pick).Found q m.notice := by
  have htaken : u.takeClaims (u.sched.slotPoint.map Claim.point).toList =
      ((u.takePoint g).1, (u.takePoint g).2.map (Outgoing.mk .point)) := by
    rw [hpoint]
    simp [State.takeClaims, State.takeClaim, Claim.sender]
  have hstart : u.startSlot pick = (u.takePoint g).1.notifyFrom pick
      (u.slotNotices.map (Outgoing.mk .schedule) ++ (u.takePoint g).2.map (Outgoing.mk .point)) := by
    rw [State.startSlot, htaken]
  rw [hstart]
  refine ⟨rfl, rfl, fun m hm q hq => ?_⟩
  refine State.notifyFrom_delivers _ pick _ (Outgoing.mk .point m)
    (List.mem_append_right _ (List.mem_map_of_mem hm)) q ?_
  rw [(u.takePoint_only g).notice]
  exact hq

/-- Settles O28: the point by what it finds, its record, pages and notices as the slot start leaves them. -/
theorem publicationPointOutcomes : Obligations.PublicationPointOutcomes := by
  intro s k g hr he hk hlt hacts hgroup
  obtain ⟨u, hu⟩ : ∃ u, u = s.setSched (s.sched.beginSlot k) := ⟨_, rfl⟩
  have hpoint : u.sched.slotPoint = some g := by
    subst hu
    exact (Schedule.slotPoint_acts hacts).trans hgroup
  have hstamp : u.stamp = { cycle := s.sched.cycleCount, slot := k, second := s.time.calendar.secondOfDay } := by
    subst hu
    rfl
  have hmap : u.map = s.map := by rw [hu, State.setSched_map]
  have hpub : u.pub = s.pub := by rw [hu, State.setSched_pub]
  have hstop : u.stop = s.stop := by rw [hu, State.setSched_stop]
  have hnotice : u.notice = s.notice := by rw [hu, State.setSched_notice]
  have hheld : u.Held g ↔ s.Held g := by rw [State.Held, State.Held, hu, State.setSched_hold]
  have hcycle : u.sched.cycleCount = s.sched.cycleCount := by
    subst hu
    rfl
  obtain ⟨t, ht⟩ : ∃ t, t = (u.startSlot s.draw).bump := ⟨_, rfl⟩
  obtain ⟨htmap, htpub, hfound⟩ : t.map = (u.takePoint g).1.map ∧ t.pub = (u.takePoint g).1.pub ∧
      ∀ m ∈ (u.takePoint g).2, ∀ q : Port, m.recipients.reach q u.notice.ports[q] = true → t.Found q m.notice := by
    subst ht
    exact State.startSlot_point hpoint s.draw
  refine ⟨t, by rw [exec_endOfSlot hr, State.endSlot_next he hk hlt, ht, hu], ?_⟩
  rw [htmap, htpub, ← hstamp, ← hpub, ← hmap, ← hstop, ← hnotice, ← hcycle, ← hheld]
  refine ⟨fun h hh => (u.takePoint_records g).group hh, u.takePoint_watches g, fun q hq => ?_,
    State.takePoint_frozen_leaves, State.takePoint_deferred_leaves, fun hf hnot => ?_⟩
  · exact hfound _ (u.takePoint_notice g rfl) q hq
  · rw [State.takePoint_publishes hf hnot] at hfound ⊢
    obtain ⟨hrecord, hpages, hfree, hretiring, hframes, hrefs, hserial, hlimit⟩ := u.publish_leaves g .published
    exact ⟨hrecord, hpages, hfree, hretiring, hrefs, hframes, hserial, hlimit, fun i st hl hs =>
      hfound _ (u.publish_late .published hl hs) st.stager (decide_eq_true rfl)⟩

end Sys2Proof.Machine
end

section
/-! HEADLINE. WATCH_SET, and the requests that only read a block (R49, R76, R80, R81, R90, R129, R141). -/

namespace Sys2Proof.Machine

/-! ### Requests that pass their checks -/

@[simp] theorem watchEventOf?_code (e : WatchEvent) : watchEventOf? e.code = some e := by
  cases e <;> rfl

@[simp] theorem watchModeOf?_code (m : WatchMode) : watchModeOf? m.code = some m := by
  cases m <;> rfl

/-- WATCH_SET clears the counter that it sets (R80). -/
theorem exec_watchSet {s : State} {p : Port} (hr : s.ReadyFor p) (n : WatchNo) (g : Group) (e : WatchEvent)
    (m : WatchMode) {c : Instr} (hc : c = .watchSet p (byteOf n.val) (byteOf g.val) e.code m.code) :
    exec c s =
      .next ((s.setPub
        { s.pub with
          watches := s.pub.watches.set n { group := g, event := e, mode := m, value := 0, running := 0 } }).answered
            p c .ok []) := by
  have hparams : watchParams (byteOf n.val) (byteOf g.val) e.code m.code =
      some { counter := n, group := g, event := e, mode := m } := by
    simp [watchParams]
  subst hc
  refine congrArg _ ((State.serve_accepted _ hr hparams (s.lacksRight_none p)).trans ?_)
  simp [State.answer_eq, State.receive_eq, State.answered]

/-- A request served that only answers leaves the answered port (R168, R175). -/
theorem State.serve_answer {α : Type} {s : State} {p : Port} (hr : s.ReadyFor p) (i : Instr) {params : Option α} {a : α}
    (hp : params = some a) (body : α → State → List Byte) :
    s.serve p i.record none params (fun x u => u.answer p .ok (body x u)) =
      s.answered p i .ok (body a (s.receive p i.record)) := by
  rw [State.serve_accepted _ hr hp (s.lacksRight_none p), State.answer_receive]

theorem exec_groupStatus {s : State} {p : Port} (hr : s.ReadyFor p) (g : Group) :
    exec (.groupStatus p (byteOf g.val)) s =
      .next (s.answered p (.groupStatus p (byteOf g.val)) .ok (s.groupStatusBody g)) :=
  congrArg _ (State.serve_answer hr _ (groupOf?_byteOf g) fun g u => u.groupStatusBody g)

theorem exec_watchRead {s : State} {p : Port} (hr : s.ReadyFor p) {b : List Byte} (hb : s.pub.watchBody = b) :
    exec (.watchRead p) s = .next (s.answered p (.watchRead p) .ok b) := by
  subst hb
  exact congrArg _ (State.serve_answer hr (.watchRead p) rfl fun _ u => u.pub.watchBody)

theorem exec_holdRead {s : State} {p : Port} (hr : s.ReadyFor p) {b : List Byte} (hb : s.hold.body = b) :
    exec (.holdRead p) s = .next (s.answered p (.holdRead p) .ok b) := by
  subst hb
  exact congrArg _ (State.serve_answer hr (.holdRead p) rfl fun _ u => u.hold.body)

theorem exec_stopRead {s : State} {p : Port} (hr : s.ReadyFor p) {b : List Byte} (hb : s.stop.body = b) :
    exec (.stopRead p) s = .next (s.answered p (.stopRead p) .ok b) := by
  subst hb
  exact congrArg _ (State.serve_answer hr (.stopRead p) rfl fun _ u => u.stop.body)

theorem exec_timeRead {s : State} {p : Port} (hr : s.ReadyFor p) {b : List Byte} (hb : s.time.body = b) :
    exec (.timeRead p) s = .next (s.answered p (.timeRead p) .ok b) := by
  subst hb
  exact congrArg _ (State.serve_answer hr (.timeRead p) rfl fun _ u => u.time.body)

theorem exec_planRead {s : State} {p : Port} (hr : s.ReadyFor p) (n : PlanName) {first number : Nat} (hf : first ≤ 47)
    (hlow : 1 ≤ number) (hhigh : number ≤ 16) (hsum : first + number ≤ 48) :
    exec (.planRead p n.code (byteOf first) (byteOf number)) s =
      .next (s.answered p (.planRead p n.code (byteOf first) (byteOf number)) .ok
        (s.planReadBody { plan := n, first := first, number := number })) := by
  have hfirst : rangeOf? 0 47 (byteOf first).toNat = some first := by
    rw [byteOf_toNat (by omega)]
    exact rangeOf?_in (Nat.zero_le _) hf
  have hnumber : rangeOf? 1 16 (byteOf number).toNat = some number := by
    rw [byteOf_toNat (by omega)]
    exact rangeOf?_in hlow hhigh
  have hparams : planReadParams n.code (byteOf first) (byteOf number) =
      some { plan := n, first := first, number := number } := by
    simp [planReadParams, hfirst, hnumber, hsum]
  exact congrArg _ (State.serve_answer hr _ hparams fun x u => u.planReadBody x)

/-! ### GROUP_STATUS -/

theorem PortSet.join_getLsbD (set : PortSet) (p q : Port) :
    (PortSet.join set p).getLsbD q.val = (set.getLsbD q.val || decide (q = p)) := by
  have hq : q.val < 4 := q.isLt
  simp [PortSet.join, Fin.ext_iff, eq_comm]

/-- Bit q of the holders tells whether q's record names the group (R76, R86). -/
theorem HoldTable.holders_getLsbD (h : HoldTable) (g : Group) (q : Port) :
    (h.holders g).getLsbD q.val = (Hold.groupsOf? h.records[q]).getLsbD g.val := by
  have hfold : ∀ (l : List Port) (set : PortSet),
      (l.foldl (fun set p => if (Hold.groupsOf? h.records[p]).getLsbD g.val then PortSet.join set p else set)
        set).getLsbD q.val =
        (set.getLsbD q.val || (decide (q ∈ l) && (Hold.groupsOf? h.records[q]).getLsbD g.val)) := by
    intro l
    induction l with
    | nil => simp
    | cons p l ih =>
      intro set
      rw [List.foldl_cons, ih]
      by_cases hq : q = p
      · subst hq
        cases hb : (Hold.groupsOf? h.records[q]).getLsbD g.val <;> simp [PortSet.join_getLsbD]
      · split
        · rw [PortSet.join_getLsbD]
          simp [hq]
        · simp [hq]
  rw [HoldTable.holders, hfold]
  simp [List.mem_finRange]

theorem Hold.groupsOf?_getLsbD (o : Option Hold) (g : Group) :
    (Hold.groupsOf? o).getLsbD g.val = true ↔ ∃ x, o = some x ∧ x.groups.getLsbD g.val = true := by
  cases o with
  | none => simp [Hold.groupsOf?]
  | some x => simp [Hold.groupsOf?]

/-- The byte of holders, as R76 gives it. -/
theorem HoldTable.holders_byte (h : HoldTable) (g : Group) :
    (∀ q : Port, ((h.holders g).setWidth 8 : Byte).getLsbD q.val = true ↔
      ∃ x, h.records[q] = some x ∧ x.groups.getLsbD g.val = true) ∧ ((h.holders g).setWidth 8 : Byte).toNat < 16 := by
  refine ⟨fun q => ?_, ?_⟩
  · have hq : q.val < 8 := by omega
    rw [BitVec.getLsbD_setWidth, decide_eq_true hq, Bool.true_and, HoldTable.holders_getLsbD, Hold.groupsOf?_getLsbD]
  · have hlt : (h.holders g).toNat < 16 := (h.holders g).isLt
    rw [BitVec.toNat_setWidth]
    omega

/-! ### The bodies, byte by byte -/

theorem PublicationUnit.watchBody_eq (u : PublicationUnit) :
    u.watchBody = (List.finRange 4).flatMap fun n : WatchNo =>
      [byteOf u.watches[n].group.val, u.watches[n].event.code, u.watches[n].mode.code, byteOf u.watches[n].value,
        byteOf (u.watches[n].value / 256)] := by
  rw [show List.finRange 4 = [0, 1, 2, 3] from rfl]
  simp [PublicationUnit.watchBody, Watch.bytes, bytesOf16_eq]

theorem HoldTable.body_eq (h : HoldTable) :
    h.body = byteOf h.limit :: (List.finRange 4).flatMap fun q : Port =>
      match h.records[q] with
      | none => [0, 0, 0, 0]
      | some x => [1, lowByte x.groups, highByte x.groups, byteOf x.cyclesLeft] := by
  have hslot : ∀ o : Option Hold, Hold.slotBytes o =
      match o with
      | none => [0, 0, 0, 0]
      | some x => [1, lowByte x.groups, highByte x.groups, byteOf x.cyclesLeft] := by
    intro o
    cases o <;> rfl
  rw [show List.finRange 4 = [0, 1, 2, 3] from rfl]
  simp [HoldTable.body, hslot]

theorem StopLine.bytes_eq (x : StopLine) :
    x.bytes = [x.filterTime, lowByte x.freeze, highByte x.freeze, x.mode.code, levelCode x.input,
        levelCode x.filtered, levelCode x.stop] ++
      match x.pending with
      | none => [0, 0, 0]
      | some c => [1, levelCode c.level, byteOf c.timer] := rfl

theorem StopUnit.body_eq (u : StopUnit) :
    u.body = ((List.finRange 2).flatMap fun l : Line =>
        [u.lines[l].filterTime, lowByte u.lines[l].freeze, highByte u.lines[l].freeze, u.lines[l].mode.code,
          levelCode u.lines[l].input, levelCode u.lines[l].filtered, levelCode u.lines[l].stop] ++
          match u.lines[l].pending with
          | none => [0, 0, 0]
          | some c => [1, levelCode c.level, byteOf c.timer]) ++
      [lowByte u.frozen, highByte u.frozen] := by
  rw [show List.finRange 2 = [0, 1] from rfl]
  simp [StopUnit.body, StopUnit.line, StopLine.bytes_eq, bytes16]

theorem Timebase.body_eq (t : Timebase) :
    t.body = t.calendar.bytes ++
      [byteOf t.tickCount, byteOf (t.tickCount / 256), byteOf (t.tickCount / 65536),
        byteOf (t.tickCount / 16777216)] ++ bytes16 (BitVec.ofInt 16 t.trim) ++
      (match t.stagedTrim with | none => [0, 0, 0] | some x => 1 :: bytes16 (BitVec.ofInt 16 x)) ++
      (match t.stagedTime with | none => [0, 0, 0, 0, 0, 0, 0, 0] | some c => 1 :: c.bytes) ++
      [(if t.alarm.enabled then 1 else 0), t.alarm.weekdays.setWidth 8, byteOf t.alarm.hour, byteOf t.alarm.minute,
        (match t.alarm.action with | .notice => 0 | .noticeAndSwitch => 1)] := by
  rw [Timebase.body, bytesOf32_eq]
  rfl

/-! ### PLAN_READ -/

/-- The entries of an interval of positions, in order. -/
theorem filter_interval {α : Type} {p : α → Bool} {l : List α} {a n : Nat}
    (hp : ∀ (i : Nat) (hi : i < l.length), p l[i] = true ↔ a ≤ i ∧ i < a + n) :
    l.filter p = (l.drop a).take n := by
  have hsplit : l = l.take a ++ ((l.drop a).take n ++ (l.drop a).drop n) := by
    rw [List.take_append_drop, List.take_append_drop]
  have hbefore : (l.take a).filter p = [] := by
    refine List.filter_eq_nil_iff.2 fun x hx => ?_
    obtain ⟨i, hi, rfl⟩ := List.mem_take_iff_getElem.1 hx
    rw [hp]
    omega
  have hin : ((l.drop a).take n).filter p = (l.drop a).take n := by
    refine List.filter_eq_self.2 fun x hx => ?_
    obtain ⟨i, hi, rfl⟩ := List.mem_take_iff_getElem.1 hx
    rw [List.length_drop] at hi
    rw [List.getElem_drop, hp]
    omega
  have hbehind : ((l.drop a).drop n).filter p = [] := by
    rw [List.drop_drop]
    refine List.filter_eq_nil_iff.2 fun x hx => ?_
    obtain ⟨i, hi, rfl⟩ := List.mem_drop_iff_getElem.1 hx
    rw [hp]
    omega
  conv_lhs => rw [hsplit]
  rw [List.filter_append, List.filter_append, hbefore, hin, hbehind, List.nil_append, List.append_nil]

/-- Entries of one width stand one behind another. -/
theorem flatMap_chunk {α β : Type} {f : α → List β} {w : Nat} (hf : ∀ x, (f x).length = w) {l : List α} {j : Nat}
    (hj : j < l.length) : ((l.flatMap f).drop (w * j)).take w = f l[j] := by
  induction l generalizing j with
  | nil => cases hj
  | cons x l ih =>
    rw [List.flatMap_cons]
    cases j with
    | zero => simp [hf]
    | succ j =>
      have hdrop : (f x ++ l.flatMap f).drop (w * (j + 1)) = (l.flatMap f).drop (w * j) := by
        rw [Nat.mul_succ, Nat.add_comm, ← List.drop_drop, List.drop_left' (hf x)]
      rw [hdrop]
      exact ih (Nat.lt_of_succ_lt_succ hj)

theorem flatMap_width {α β : Type} {f : α → List β} {w : Nat} (hf : ∀ x, (f x).length = w) (l : List α) :
    (l.flatMap f).length = w * l.length := by
  simp [List.length_flatMap, hf, Nat.mul_comm]

theorem SlotEntry.bytes_length (e : SlotEntry) : e.bytes.length = 6 := rfl

/-- The slots that PLAN_READ reports (R49). -/
def readSlots (first number : Nat) : List SlotNo := ((List.finRange 48).drop first).take number

theorem readSlots_length {first number : Nat} (h : first + number ≤ 48) :
    (readSlots first number).length = number := by
  rw [readSlots, List.length_take, List.length_drop, List.length_finRange]
  omega

theorem readSlots_getElem {first number j : Nat} {k : SlotNo} (hk : k.val = first + j)
    (hj : j < (readSlots first number).length) : (readSlots first number)[j] = k := by
  apply Fin.ext
  simp [readSlots, hk]

/-- The body of PLAN_READ: the slot count, the flags, and an entry for each slot asked for (R49). -/
theorem State.planReadBody_eq (s : State) (x : PlanReadParams) :
    s.planReadBody x =
      [byteOf (s.sched.plan x.plan).count.val, twoFlags (decide (x.plan = s.sched.active)) s.sched.pendingSwitch] ++
        (readSlots x.first x.number).flatMap fun k => (s.sched.plan x.plan).entries[k].bytes := by
  rw [State.planReadBody, filter_interval (a := x.first) (n := x.number), readSlots]
  intro i hi
  simp

/-- Settles O35: each request past its checks, and its body byte by byte. -/
theorem readsOfTheBlocksState : Obligations.ReadsOfTheBlocksState := by
  intro p s hr
  refine ⟨fun n g e m => exec_watchSet hr n g e m rfl, fun g => ?_, exec_watchRead hr s.pub.watchBody_eq,
    exec_holdRead hr s.hold.body_eq, exec_stopRead hr s.stop.body_eq, exec_timeRead hr s.time.body_eq,
    fun n first number hf hlow hhigh hsum => ?_⟩
  · exact ⟨(s.hold.holders g).setWidth 8, exec_groupStatus hr g, s.hold.holders_byte g⟩
  · refine ⟨_, exec_planRead hr n hf hlow hhigh hsum, ?_⟩
    have hlen := readSlots_length hsum
    have hwidth : ∀ k : SlotNo, (s.sched.plan n).entries[k].bytes.length = 6 := fun k => SlotEntry.bytes_length _
    rw [State.planReadBody_eq]
    refine ⟨?_, rfl, rfl, fun j k hj hk => ?_⟩
    · rw [List.length_append, flatMap_width hwidth, hlen]
      rfl
    · have hchunk := flatMap_chunk hwidth (l := readSlots first number) (j := j) (by omega)
      rw [readSlots_getElem hk] at hchunk
      have hskip : 2 + 6 * j = 6 * j + 2 := Nat.add_comm _ _
      rw [hskip]
      exact hchunk

end Sys2Proof.Machine
end

section
/-! HEADLINE. HOLD creates a record with the hold limit, or answers why not (R87). -/

namespace Sys2Proof.Machine

theorem holdParams_nonzero {groups : GroupSet} (h : groups ≠ 0) : holdParams groups = some groups := if_neg h

/-- A HOLD in SETUP (R87). -/
theorem State.takeHold_setup {s : State} (h : s.part = .setup) (p : Port) (groups : GroupSet) :
    s.takeHold p groups = s.answer p .wrongState [] := by
  rw [State.takeHold, h, if_pos nofun]

/-- A HOLD of a port that has a record (R87). -/
theorem State.takeHold_held {s : State} (h : s.part = .run) {p : Port} {x : Hold} (hx : s.hold.records[p] = some x)
    (groups : GroupSet) : s.takeHold p groups = s.answer p .held x.bytes := by
  rw [State.takeHold, if_neg (fun hne => hne h), hx]

/-- A HOLD of a port without a record (R87). -/
theorem State.takeHold_new {s : State} (h : s.part = .run) {p : Port} (hx : s.hold.records[p] = none)
    (groups : GroupSet) :
    s.takeHold p groups =
      (s.setHold
        { s.hold with
          records := s.hold.records.set p (some { groups := groups, cyclesLeft := s.hold.limit }) }).answer p .ok
        (Hold.bytes { groups := groups, cyclesLeft := s.hold.limit }) := by
  rw [State.takeHold, if_neg (fun hne => hne h), hx]

/-- Settles O33: by the part state, then by the port's record. -/
theorem holdCreatesARecord : Obligations.HoldCreatesARecord := by
  intro p s groups hr hg
  have hserve : exec (.hold p groups) s = .next ((s.receive p (Instr.hold p groups).record).takeHold p groups) :=
    congrArg _ (State.serve_accepted _ hr (holdParams_nonzero hg) (s.lacksRight_none p))
  obtain ⟨u, hu⟩ : ∃ u, u = s.receive p (Instr.hold p groups).record := ⟨_, rfl⟩
  have hupart : u.part = s.part := by rw [hu, State.receive_part]
  have huhold : u.hold = s.hold := by rw [hu, State.receive_hold]
  have hanswer : ∀ c b, u.answer p c b = s.answered p (.hold p groups) c b := by
    rw [hu]
    exact s.answer_receive p (.hold p groups)
  have hset : ∀ h, u.setHold h = (s.setHold h).receive p (Instr.hold p groups).record := by
    rw [hu]
    exact fun _ => rfl
  rw [hserve, ← hu]
  cases hpart : s.part with
  | setup => rw [if_pos rfl, State.takeHold_setup (hupart.trans hpart), hanswer]
  | run =>
    rw [if_neg nofun]
    cases hx : s.hold.records[p] with
    | some x =>
      rw [State.takeHold_held (hupart.trans hpart) (huhold ▸ hx), hanswer]
      rfl
    | none =>
      rw [State.takeHold_new (hupart.trans hpart) (huhold ▸ hx), huhold, hset, State.answer_receive]
      rfl

end Sys2Proof.Machine
end

section
/-! SUPPORT. A no-longer-held report by what it finds, the outcome that a point or a report records, and the reports of
one removal taken one after another (R57, R58, R66 to R68, R75, R78). -/

namespace Sys2Proof.Machine

/-! ### A report, by what it finds -/

/-- A report of a group without a mark (R66). -/
theorem State.takeReport_unmarked {a : State} {g : Group} (h : a.pub.groups[g].mark = false) :
    a.takeReport g = (a, []) := if_neg (Bool.eq_false_iff.1 h)

/-- A report of a group that is marked and frozen (R68). -/
theorem State.takeReport_dropped {a : State} {g : Group} (h : a.pub.groups[g].mark = true)
    (hf : a.stop.frozen.getLsbD g.val = true) :
    a.takeReport g = (a.setPub (a.pub.setMark g false)).recordQuiet g .dropped :=
  (if_pos h).trans (if_pos hf)

/-- A report of a group that is marked and not frozen (R67). -/
theorem State.takeReport_catchUp {a : State} {g : Group} (h : a.pub.groups[g].mark = true)
    (hf : a.stop.frozen.getLsbD g.val = false) :
    a.takeReport g = (a.setPub (a.pub.setMark g false)).publish g .catchUp :=
  (if_pos h).trans (if_neg (Bool.eq_false_iff.1 hf))

/-- What the report of a marked and frozen group leaves (R58, R68). -/
theorem State.takeReport_dropped_leaves {a : State} {g : Group} (h : a.pub.groups[g].mark = true)
    (hf : a.stop.frozen.getLsbD g.val = true) :
    (a.takeReport g).1.map = a.map ∧
      (a.takeReport g).1.pub.groups[g] =
        { last := .dropped, cycle := a.sched.cycleCount, published := 0, late := 0, mark := false } := by
  rw [State.takeReport_dropped h hf]
  refine ⟨State.recordQuiet_map _ g _, (PublicationUnit.record_same ..).trans ?_⟩
  rw [State.setPub_pub, PublicationUnit.setMark_same, State.setPub_sched]

/-- What the report of a marked group that is not frozen leaves of the group's record (R58, R67). -/
theorem State.takeReport_catchUp_leaves {a : State} {g : Group} (h : a.pub.groups[g].mark = true)
    (hf : a.stop.frozen.getLsbD g.val = false) :
    (a.takeReport g).1.map = (a.map.swap g a.sched.cycleCount).map ∧
      (a.takeReport g).1.pub.groups[g] =
        { last := .catchUp, cycle := a.sched.cycleCount, published := a.map.readyCount g, late := a.map.lateCount g
          mark := false } := by
  rw [State.takeReport_catchUp h hf]
  obtain ⟨hrecord, -⟩ := (a.setPub (a.pub.setMark g false)).publish_leaves g .catchUp
  refine ⟨State.publish_map _ g _, hrecord.trans ?_⟩
  rw [State.setPub_pub, PublicationUnit.setMark_same, State.setPub_sched, State.setPub_map]

/-- The report of a marked group that is not frozen sends the stager of each late page its notice (R64, R67). -/
theorem State.takeReport_late {a : State} {g : Group} (h : a.pub.groups[g].mark = true)
    (hf : a.stop.frozen.getLsbD g.val = false) {i : Page} {st : Staging} (hl : a.map.late g i = true)
    (hs : (a.map.page i).staging = some st) : a.address st.stager (.late i g) ∈ (a.takeReport g).2 := by
  rw [State.takeReport_catchUp h hf]
  exact (a.setPub (a.pub.setMark g false)).publish_late .catchUp hl hs

/-! ### One outcome recorded -/

/-- From u, what comes to r records one outcome of group g, which the counters take, and sends its notice (R57, R75,
R78). -/
def State.GivesOutcome (u : State) (g : Group) (r : State × List Message) : Prop :=
  ∃ (w : PublicationUnit) (o : GroupOutcome) (made missed : Nat),
    w.watches = u.pub.watches ∧ r.1.pub = w.record g o u.sched.cycleCount made missed ∧
      u.groupPoint g o made missed ∈ r.2

theorem State.takePoint_givesOutcome (u : State) (g : Group) : u.GivesOutcome g (u.takePoint g) := by
  obtain ⟨w, o, made, missed, -, hw, hpub, hsent⟩ := u.takePoint_recorded g
  exact ⟨w, o, made, missed, hw, hpub, hsent⟩

theorem State.takeReport_givesOutcome {u : State} {g : Group} (h : u.pub.groups[g].mark = true) :
    u.GivesOutcome g (u.takeReport g) := by
  cases hf : u.stop.frozen.getLsbD g.val with
  | true =>
    rw [State.takeReport_dropped h hf]
    exact ⟨u.pub.setMark g false, .dropped, 0, 0, rfl, rfl, List.mem_singleton_self _⟩
  | false =>
    rw [State.takeReport_catchUp h hf]
    obtain ⟨hstate, hsent⟩ := (u.setPub (u.pub.setMark g false)).publish_spec g .catchUp
    refine ⟨u.pub.setMark g false, .catchUp, u.map.readyCount g, u.map.lateCount g, rfl, ?_, ?_⟩
    · rw [hstate]
      rfl
    · rw [hsent]
      exact List.mem_append_right _ (List.mem_singleton_self _)

section
variable {u : State} {g : Group} {r : State × List Message}

theorem State.GivesOutcome.watches (h : u.GivesOutcome g r) (n : WatchNo) :
    r.1.pub.watches[n] = u.pub.watches[n].after g r.1.pub.groups[g] := by
  obtain ⟨w, o, made, missed, hw, hpub, -⟩ := h
  have hsame := PublicationUnit.record_same w g o u.sched.cycleCount made missed
  rw [hpub, PublicationUnit.record_watch, hw, ← Watch.take_eq_after, hsame]

theorem State.GivesOutcome.notice (h : u.GivesOutcome g r) {x : GroupStatus} (hx : r.1.pub.groups[g] = x) :
    u.groupPoint g x.last x.published x.late ∈ r.2 := by
  obtain ⟨w, o, made, missed, -, hpub, hsent⟩ := h
  rw [hpub, PublicationUnit.record_same] at hx
  subst hx
  exact hsent

theorem State.GivesOutcome.cycle (h : u.GivesOutcome g r) : r.1.pub.groups[g].cycle = u.sched.cycleCount := by
  obtain ⟨w, o, made, missed, -, hpub, -⟩ := h
  rw [hpub, PublicationUnit.record_same]

end

theorem Watch.after_group (w : Watch) (g : Group) (x : GroupStatus) : (w.after g x).group = w.group := by
  unfold Watch.after
  split
  · cases w.mode <;> rfl
  · rfl

/-! ### One group of the exchange map -/

/-- Both maps show the same pages of group g. -/
def ExchangeMap.SameGroup (m m' : ExchangeMap) (g : Group) : Prop :=
  ∀ i, (m'.page i).group = (m.page i).group ∧ ((m.page i).group = g → m'.page i = m.page i)

theorem ExchangeMap.SameGroup.refl (m : ExchangeMap) (g : Group) : m.SameGroup m g := fun _ => ⟨rfl, fun _ => rfl⟩

theorem ExchangeMap.SameGroup.trans {m m' m'' : ExchangeMap} {g : Group} (h : m.SameGroup m' g)
    (h' : m'.SameGroup m'' g) : m.SameGroup m'' g := fun i =>
  ⟨(h' i).1.trans (h i).1, fun hi => ((h' i).2 ((h i).1.trans hi)).trans ((h i).2 hi)⟩

section
variable {m m' : ExchangeMap} {g : Group}

theorem ExchangeMap.SameGroup.ready (h : m.SameGroup m' g) (i : Page) : m'.ready g i = m.ready g i := by
  obtain ⟨hgroup, hpage⟩ := h i
  by_cases hi : (m.page i).group = g
  · rw [ExchangeMap.ready, ExchangeMap.ready, hpage hi]
  · rw [ExchangeMap.ready_other hi, ExchangeMap.ready_other (hgroup ▸ hi)]

theorem ExchangeMap.SameGroup.late (h : m.SameGroup m' g) (i : Page) : m'.late g i = m.late g i := by
  obtain ⟨hgroup, hpage⟩ := h i
  by_cases hi : (m.page i).group = g
  · rw [ExchangeMap.late, ExchangeMap.late, hpage hi]
  · rw [ExchangeMap.late_other hi, ExchangeMap.late_other (hgroup ▸ hi)]

theorem ExchangeMap.SameGroup.readyCount (h : m.SameGroup m' g) : m'.readyCount g = m.readyCount g := by
  simp only [ExchangeMap.readyCount, h.ready]

theorem ExchangeMap.SameGroup.lateCount (h : m.SameGroup m' g) : m'.lateCount g = m.lateCount g := by
  simp only [ExchangeMap.lateCount, h.late]

/-- A page that the group publishes, or that is late in it, is a page of the group. -/
theorem ExchangeMap.late_group {i : Page} (h : m.late g i = true) : (m.page i).group = g := by
  by_contra hne
  rw [ExchangeMap.late_other hne] at h
  cases h

/-- The frames that a swap of the group gives back rest on its pages and on the read references (R63). -/
theorem ExchangeMap.SameGroup.freed (h : m.SameGroup m' g) (hrefs : m'.refs = m.refs) : m'.freed g = m.freed g := by
  unfold ExchangeMap.freed
  refine congrArg (List.filterMap · _) (funext fun i => ?_)
  rw [h.ready i, hrefs]
  split
  · rename_i hi
    rw [(h i).2 (ExchangeMap.ready_group hi).1]
  · rfl

theorem ExchangeMap.SameGroup.retired (h : m.SameGroup m' g) (hrefs : m'.refs = m.refs) (f : Frame) :
    m'.retired g f ↔ m.retired g f := by
  refine exists_congr fun i => ?_
  rw [h.ready i, hrefs]
  refine and_congr_right fun hi => ?_
  rw [(h i).2 (ExchangeMap.ready_group hi).1]

end

/-! ### Reports in order -/

/-- The claims that reports of the groups gs are. -/
abbrev reportClaims (gs : List Group) : List Claim := gs.map .report

theorem State.takeClaims_cons (u : State) (c : Claim) (cs : List Claim) :
    u.takeClaims (c :: cs) =
      (((u.takeClaim c).1.takeClaims cs).1,
        (u.takeClaim c).2.map (Outgoing.mk c.sender) ++ ((u.takeClaim c).1.takeClaims cs).2) := rfl

/-- A report leaves every other group's pages. -/
theorem State.takeReport_sameGroup (u : State) {g h : Group} (hh : h ≠ g) :
    u.map.SameGroup (u.takeReport g).1.map h := by
  intro i
  have hclaim : ¬ CycleClaim.About (.block (.report g)) h := by
    rintro (he | he) <;> cases he
    exact hh rfl
  exact ⟨((State.Answering.refl u).takeCycleClaim (.block (.report g)) |>.access i).2.2,
    fun hi => u.takeClaim_page_other hclaim hi⟩

theorem State.takeReport_quietIn (u : State) {g h : Group} (hh : h ≠ g) : u.QuietIn h (u.takeReport g).1 := by
  rcases u.takeReport_records g with he | hr
  · rw [he]
    exact ⟨rfl, fun _ _ => rfl⟩
  · exact ⟨hr.group hh, fun n hn => hr.watch (hn ▸ hh)⟩

theorem State.QuietIn.trans {u v w : State} {g : Group} (h : u.QuietIn g v) (h' : v.QuietIn g w) : u.QuietIn g w := by
  obtain ⟨hgroup, hwatch⟩ := h
  obtain ⟨hgroup', hwatch'⟩ := h'
  exact ⟨hgroup'.trans hgroup, fun n hn => (hwatch' n (by rw [hwatch n hn, hn])).trans (hwatch n hn)⟩

/-- From u to v nothing has happened in group g: neither its record and its counters nor its pages have changed. -/
abbrev State.Leaves (u : State) (g : Group) (v : State) : Prop := u.QuietIn g v ∧ u.map.SameGroup v.map g

theorem State.Leaves.trans {u v w : State} {g : Group} (h : u.Leaves g v) (h' : v.Leaves g w) : u.Leaves g w :=
  ⟨h.1.trans h'.1, h.2.trans h'.2⟩

theorem State.Leaves.refl (u : State) (g : Group) : u.Leaves g u := ⟨⟨rfl, fun _ _ => rfl⟩, .refl u.map g⟩

theorem State.takeReports_hold (u : State) (gs : List Group) : (u.takeClaims (reportClaims gs)).1.hold = u.hold := by
  induction gs generalizing u with
  | nil => rfl
  | cons k gs ih => exact (ih (u.takeReport k).1).trans (u.takeReport_hold k)

/-- Reports of other groups leave a group. -/
theorem State.takeReports_leaves (u : State) {gs : List Group} {g : Group} (hg : g ∉ gs) :
    u.Leaves g (u.takeClaims (reportClaims gs)).1 := by
  induction gs generalizing u with
  | nil => exact .refl u g
  | cons k gs ih =>
    rw [List.mem_cons, not_or] at hg
    obtain ⟨hk, hgs⟩ := hg
    exact State.Leaves.trans ⟨u.takeReport_quietIn hk, u.takeReport_sameGroup hk⟩ (ih (u.takeReport k).1 hgs)

/-- Among reports in order, the report of g meets the group in some state a as it was before all of them, and the others
leave what it makes of the group. -/
theorem State.takeReports_meets (u : State) {gs : List Group} (hgs : gs.Nodup) {g : Group} (hg : g ∈ gs) :
    ∃ a, u.OnlyClaims a ∧ u.Leaves g a ∧ (a.takeReport g).1.Leaves g (u.takeClaims (reportClaims gs)).1 ∧
      ∀ m ∈ (a.takeReport g).2, m ∈ (u.takeClaims (reportClaims gs)).2.map Outgoing.message := by
  obtain ⟨before, behind, rfl⟩ := List.append_of_mem hg
  rw [List.nodup_append, List.nodup_cons] at hgs
  obtain ⟨-, ⟨hbehind, -⟩, hne⟩ := hgs
  have hbefore : g ∉ before := fun hin => hne g hin g (List.mem_cons_self ..) rfl
  rw [reportClaims, List.map_append, List.map_cons, State.takeClaims_append, State.takeClaims_cons]
  refine ⟨_, u.takeClaims_only _, u.takeReports_leaves hbefore, State.takeReports_leaves _ hbehind, fun m hm => ?_⟩
  rw [List.map_append, List.map_append, List.map_map]
  refine List.mem_append_right _ (List.mem_append_left _ ?_)
  exact List.mem_map.2 ⟨m, hm, rfl⟩

/-- The report of the group publishes it (R66, R67). -/
def State.catchesUp (u : State) (g : Group) : Bool := u.pub.groups[g].mark && !u.stop.frozen.getLsbD g.val

theorem State.catchesUp_iff (u : State) (g : Group) :
    u.catchesUp g = true ↔ u.pub.groups[g].mark = true ∧ u.stop.frozen.getLsbD g.val = false := by
  rw [State.catchesUp, Bool.and_eq_true, Bool.not_eq_true']

/-- The frames that one report gives back (R6, R63). -/
theorem State.takeReport_frames (u : State) (g : Group) :
    (u.takeReport g).1.map.freeList = u.map.freeList ++ (if u.catchesUp g then u.map.freed g else []) ∧
      (∀ f : Frame, f ∈ (u.takeReport g).1.map.retiring ↔
        f ∈ u.map.retiring ∨ (u.catchesUp g = true ∧ u.map.retired g f)) ∧
      u.map.SameStore (u.takeReport g).1.map := by
  cases hc : u.catchesUp g with
  | true =>
    obtain ⟨hm, hf⟩ := (u.catchesUp_iff g).1 hc
    rw [(State.takeReport_catchUp_leaves hm hf).1, if_pos rfl]
    exact ⟨u.map.swap_freeList g _, by simpa using u.map.mem_swap_retiring g _, u.map.swap_store g _⟩
  | false =>
    have hmap : (u.takeReport g).1.map = u.map := by
      cases hm : u.pub.groups[g].mark with
      | false => rw [State.takeReport_unmarked hm]
      | true =>
        cases hf : u.stop.frozen.getLsbD g.val with
        | true => exact (State.takeReport_dropped_leaves hm hf).1
        | false => exact absurd ((u.catchesUp_iff g).2 ⟨hm, hf⟩) (by rw [hc]; exact Bool.false_ne_true)
    rw [hmap]
    exact ⟨by simp, by simp, rfl, rfl, rfl, rfl⟩

/-- The frames that reports give back, group by group (R4, R6, R63). -/
theorem State.takeReports_frames (u : State) {gs : List Group} (hgs : gs.Nodup) :
    (u.takeClaims (reportClaims gs)).1.map.freeList =
        u.map.freeList ++ (gs.filter u.catchesUp).flatMap u.map.freed ∧
      (∀ f : Frame, f ∈ (u.takeClaims (reportClaims gs)).1.map.retiring ↔
        f ∈ u.map.retiring ∨ ∃ g ∈ gs, u.catchesUp g = true ∧ u.map.retired g f) ∧
      u.map.SameStore (u.takeClaims (reportClaims gs)).1.map := by
  induction gs generalizing u with
  | nil => exact ⟨by simp [State.takeClaims], by simp [State.takeClaims], rfl, rfl, rfl, rfl⟩
  | cons k gs ih =>
    rw [List.nodup_cons] at hgs
    obtain ⟨hk, hgs⟩ := hgs
    obtain ⟨hfree, hretiring, hstore⟩ := u.takeReport_frames k
    obtain ⟨hfree', hretiring', hstore'⟩ := ih (u.takeReport k).1 hgs
    have hrefs := hstore.2.1
    have hne : ∀ g ∈ gs, g ≠ k := fun g hg he => hk (he ▸ hg)
    have hstop : (u.takeReport k).1.stop = u.stop := (u.takeReport_only k).stop
    have hcatches : ∀ g ∈ gs, (u.takeReport k).1.catchesUp g = u.catchesUp g := fun g hg => by
      rw [State.catchesUp, State.catchesUp, (u.takeReport_quietIn (hne g hg)).1, hstop]
    have hfreed : ∀ g ∈ gs, (u.takeReport k).1.map.freed g = u.map.freed g := fun g hg =>
      (u.takeReport_sameGroup (hne g hg)).freed hrefs
    have hretired : ∀ g ∈ gs, ∀ f, (u.takeReport k).1.map.retired g f ↔ u.map.retired g f := fun g hg =>
      (u.takeReport_sameGroup (hne g hg)).retired hrefs
    have hcons : (u.takeClaims (reportClaims (k :: gs))).1 = ((u.takeReport k).1.takeClaims (reportClaims gs)).1 := rfl
    rw [hcons]
    refine ⟨?_, fun f => ?_, hstore.trans hstore'⟩
    · have hlist : (gs.filter (u.takeReport k).1.catchesUp).flatMap (u.takeReport k).1.map.freed =
          (gs.filter u.catchesUp).flatMap u.map.freed := by
        rw [List.filter_congr hcatches, List.flatMap_def, List.flatMap_def]
        exact congrArg List.flatten (List.map_congr_left fun g hg => hfreed g (List.mem_of_mem_filter hg))
      rw [hfree', hfree, hlist, List.append_assoc, List.filter_cons]
      split <;> simp
    · rw [hretiring', hretiring, or_assoc, List.exists_mem_cons_iff]
      refine or_congr_right (or_congr_right (exists_congr fun g => and_congr_right fun hg => ?_))
      rw [hcatches g hg, hretired g hg]

end Sys2Proof.Machine
end

section
/-! HEADLINE. RELEASE removes the hold and catches up or drops the deferred groups it alone covered (R66 to R68, R75, R78,
R86, R88). -/

namespace Sys2Proof.Machine

/-- The groups that the removal of p's record uncovers (R86). -/
def State.releasedGroups (s : State) (p : Port) : List Group := s.hold.uncovered (s.hold.remove p)

theorem HoldTable.mem_uncovered_remove (h : HoldTable) (p : Port) (g : Group) :
    g ∈ h.uncovered (h.remove p) ↔
      (∃ x, h.records[p] = some x ∧ x.groups.getLsbD g.val = true) ∧
        ∀ (q : Port) (x : Hold), q ≠ p → h.records[q] = some x → x.groups.getLsbD g.val = false := by
  rw [HoldTable.mem_uncovered, Bool.eq_false_iff, Ne, HoldTable.covers_iff, HoldTable.covers_iff]
  constructor
  · rintro ⟨⟨q, x, hx, hg⟩, hnot⟩
    have hothers : ∀ (q : Port) (x : Hold), q ≠ p → h.records[q] = some x → x.groups.getLsbD g.val = false :=
      fun q x hq hx => Bool.eq_false_iff.2 fun hg => hnot ⟨q, x, by rw [h.remove_other hq, hx], hg⟩
    by_cases hq : q = p
    · subst hq
      exact ⟨⟨x, hx, hg⟩, hothers⟩
    · exact absurd hg (Bool.eq_false_iff.1 (hothers q x hq hx))
  · rintro ⟨⟨x, hx, hg⟩, hothers⟩
    refine ⟨⟨p, x, hx, hg⟩, fun ⟨q, y, hy, hgy⟩ => ?_⟩
    by_cases hq : q = p
    · subst hq
      rw [h.remove_same] at hy
      cases hy
    · rw [h.remove_other hq] at hy
      exact absurd hgy (Bool.eq_false_iff.1 (hothers q y hq hy))

/-- The deferrals that the removal ends are those of the uncovered groups with a mark (R66, R86). -/
theorem State.endsDeferral_iff (s : State) (p : Port) (g : Group) :
    s.EndsDeferral p g ↔ g ∈ s.releasedGroups p ∧ s.pub.groups[g].mark = true := by
  rw [State.releasedGroups, HoldTable.mem_uncovered_remove, and_assoc]

/-- An ascending list of the groups that the removal catches up (R66, R67). -/
theorem State.released_eq {s : State} {p : Port} {ended : List Group} (hsorted : ended.Pairwise fun a b => a.val < b.val)
    (hmem : ∀ g, g ∈ ended ↔ s.EndsDeferral p g ∧ s.stop.frozen.getLsbD g.val = false) :
    (s.releasedGroups p).filter s.catchesUp = ended := by
  have hgroups : ((s.releasedGroups p).filter s.catchesUp).Pairwise (· < ·) :=
    List.Pairwise.filter _ (List.Pairwise.filter _ (List.pairwise_lt_finRange 16) : (groupsOf _).Pairwise (· < ·))
  have hended : ended.Pairwise (· < ·) := hsorted
  refine List.Pairwise.eq_of_mem_iff hgroups hended fun g => ?_
  rw [List.mem_filter, State.catchesUp_iff, hmem, State.endsDeferral_iff, and_assoc]

/-- The state behind the removal of p's record and the reports of it. -/
def State.released (s : State) (p : Port) : State :=
  ((s.setHold (s.hold.remove p)).takeClaims (reportClaims (s.releasedGroups p))).1

theorem State.endHold_eq (s : State) (p : Port) :
    s.endHold p = (s.released p).notify
      (((s.setHold (s.hold.remove p)).takeClaims (reportClaims (s.releasedGroups p))).2.map Outgoing.message) := rfl

/-- The answer to a RELEASE touches the port alone, and its notices the notice unit alone (R88). -/
theorem State.endHold_answered {s t : State} {p : Port} {c : Status} {b : List Byte}
    (ht : t = (s.endHold p).answer p c b) :
    t.map = (s.released p).map ∧ t.pub = (s.released p).pub ∧ t.hold = (s.released p).hold ∧
      t.notice = (s.endHold p).notice := by
  rw [ht, State.answer_map, State.answer_pub, State.answer_hold, State.answer_notice, State.endHold_eq,
    State.notify_map, State.notify_pub, State.notify_hold]
  exact ⟨rfl, rfl, rfl, rfl⟩

theorem State.endHold_answered_same {s t : State} {p : Port} {c : Status} {b : List Byte}
    (ht : t = (s.endHold p).answer p c b) :
    t.part = s.part ∧ t.sched = s.sched ∧ t.view = s.view ∧ t.stop = s.stop ∧ t.time = s.time ∧
      t.inReset = s.inReset := by
  have honly : s.OnlyClaims (s.released p) := (s.setHold_only _).trans (State.takeClaims_only _ _)
  rw [ht, State.answer_part, State.answer_sched, State.answer_view, State.answer_stop, State.answer_time,
    State.answer_inReset, State.endHold_eq, State.notify_part, State.notify_sched, State.notify_view,
    State.notify_stop, State.notify_time, State.notify_inReset]
  exact ⟨honly.part, honly.sched, honly.view, honly.stop, honly.time, honly.inReset⟩

/-- The removal touches the map, the publication unit and the hold table alone, and the hold table by the removal. -/
theorem State.released_only (s : State) (p : Port) :
    s.OnlyClaims (s.released p) ∧ (s.released p).hold = s.hold.remove p := by
  refine ⟨(s.setHold_only _).trans (State.takeClaims_only _ _), ?_⟩
  exact (State.takeReports_hold _ _).trans (s.setHold_hold _)

theorem State.releasedGroups_nodup (s : State) (p : Port) : (s.releasedGroups p).Nodup := nodup_uncovered _ _

/-- The removal meets a group whose deferral it ends in some state a as the release found it, and leaves of it what its
report makes of it (R66). -/
theorem State.released_meets {s : State} {p : Port} {g : Group} (hg : g ∈ s.releasedGroups p) :
    ∃ a, s.OnlyClaims a ∧ s.Leaves g a ∧ (a.takeReport g).1.Leaves g (s.released p) ∧
      ∀ m ∈ (a.takeReport g).2, ∀ q : Port, m.recipients.reach q s.notice.ports[q] = true →
        (s.endHold p).Found q m.notice := by
  obtain ⟨a, honly, hleaves, hends, hsends⟩ :=
    (s.setHold (s.hold.remove p)).takeReports_meets (s.releasedGroups_nodup p) hg
  refine ⟨a, (s.setHold_only _).trans honly, hleaves, hends, fun m hm q hq => ?_⟩
  rw [State.endHold_eq]
  refine State.notify_delivers _ _ m (hsends m hm) q ?_
  rw [(s.released_only p).1.notice]
  exact hq

/-- A group whose deferral the removal does not end is as it was (R66). -/
theorem State.released_leaves {s : State} {p : Port} {g : Group} (h : ¬ s.EndsDeferral p g) :
    s.Leaves g (s.released p) := by
  by_cases hg : g ∈ s.releasedGroups p
  · obtain ⟨a, -, hleaves, hends, -⟩ := State.released_meets hg
    have hmark : a.pub.groups[g].mark = false := by
      rw [hleaves.1.1, Bool.eq_false_iff]
      exact fun hm => h ((s.endsDeferral_iff p g).2 ⟨hg, hm⟩)
    rw [State.takeReport_unmarked hmark] at hends
    exact hleaves.trans hends
  · exact (s.setHold (s.hold.remove p)).takeReports_leaves hg

/-- What the removal leaves of a group whose deferral it ends, and the notices that it sends (R66 to R68, R75, R78). -/
theorem State.released_ends {s t : State} {p : Port} {g : Group} (h : s.EndsDeferral p g)
    (hpub : t.pub = (s.released p).pub) (hmap : t.map = (s.released p).map)
    (hnotice : t.notice = (s.endHold p).notice) :
    (∀ n : WatchNo, s.pub.watches[n].group = g →
      t.pub.watches[n] = s.pub.watches[n].after g t.pub.groups[g]) ∧
    (∀ q : Port, s.notice.ports[q].subscription.getLsbD g.val = true →
      t.Found q
        { stamp := s.stamp
          body := .groupPoint g t.pub.groups[g].last t.pub.groups[g].published t.pub.groups[g].late }) ∧
    (s.stop.frozen.getLsbD g.val = true →
      t.pub.groups[g] =
          { last := .dropped, cycle := s.sched.cycleCount, published := 0, late := 0, mark := false } ∧
        ∀ i : Page, (s.map.page i).group = g → t.map.page i = s.map.page i) ∧
    (s.stop.frozen.getLsbD g.val = false →
      t.pub.groups[g] =
          { last := .catchUp, cycle := s.sched.cycleCount, published := s.map.readyCount g, late := s.map.lateCount g
            mark := false } ∧
        (∀ i : Page, (s.map.page i).group = g →
          t.map.page i =
            if s.map.ready g i then (s.map.page i).published s.sched.cycleCount else s.map.page i) ∧
        ∀ (i : Page) (st : Staging), s.map.late g i = true → (s.map.page i).staging = some st →
          t.Found st.stager { stamp := s.stamp, body := .late i g }) := by
  obtain ⟨hg, hm⟩ := (s.endsDeferral_iff p g).1 h
  obtain ⟨a, honly, ⟨⟨hgroup, hwatch⟩, hsame⟩, ⟨⟨hgroup', hwatch'⟩, hsame'⟩, hfound⟩ := State.released_meets hg
  have hmark : a.pub.groups[g].mark = true := by rw [hgroup, hm]
  have hgives := State.takeReport_givesOutcome hmark
  have hfound : ∀ m ∈ (a.takeReport g).2, ∀ q : Port, m.recipients.reach q s.notice.ports[q] = true →
      t.Found q m.notice := fun m hm q hq => by
    rw [State.Found, hnotice]
    exact hfound m hm q hq
  rw [hpub, hmap, hgroup', ← honly.stamp]
  refine ⟨fun n hn => ?_, fun q hq => hfound _ (hgives.notice rfl) q hq, fun hf => ?_, fun hf => ?_⟩
  · have hn' : (a.takeReport g).1.pub.watches[n].group = g := by
      rw [hgives.watches, hwatch n hn, Watch.after_group, hn]
    rw [hwatch' n hn', hgives.watches, hwatch n hn]
  · obtain ⟨hmap', hrecord⟩ := State.takeReport_dropped_leaves hmark (honly.stop ▸ hf)
    rw [hrecord, honly.sched]
    refine ⟨rfl, fun i hi => ?_⟩
    rw [hmap'] at hsame'
    exact (hsame.trans hsame' i).2 hi
  · obtain ⟨hmap', hrecord⟩ := State.takeReport_catchUp_leaves hmark (honly.stop ▸ hf)
    rw [hrecord, honly.sched, hsame.readyCount, hsame.lateCount]
    refine ⟨rfl, fun i hi => ?_, fun i st hl hs => ?_⟩
    · have hpage := a.map.swap_page_ready g a.sched.cycleCount i
      rw [← hmap', hsame.ready i, (hsame i).2 hi, honly.sched] at hpage
      have hkeeps : ((a.takeReport g).1.map.page i).group = g := by
        rw [hpage]
        split <;> exact hi
      rw [(hsame' i).2 hkeeps, hpage]
    · have hi := ExchangeMap.late_group hl
      rw [← hsame.late i] at hl
      rw [← (hsame i).2 hi] at hs
      exact hfound _ (State.takeReport_late hmark (honly.stop ▸ hf) hl hs) st.stager (decide_eq_true rfl)

/-- The frames that the removal gives back, group by group (R4, R6, R63, R88). -/
theorem State.released_frames (s : State) (p : Port) :
    (∀ ended : List Group, ended.Pairwise (fun a b => a.val < b.val) →
      (∀ g, g ∈ ended ↔ s.EndsDeferral p g ∧ s.stop.frozen.getLsbD g.val = false) →
      (s.released p).map.freeList = s.map.freeList ++ ended.flatMap s.map.freed) ∧
    (∀ f : Frame, f ∈ (s.released p).map.retiring ↔ f ∈ s.map.retiring ∨
      ∃ g, s.EndsDeferral p g ∧ s.stop.frozen.getLsbD g.val = false ∧ s.map.retired g f) ∧
    s.map.SameStore (s.released p).map := by
  obtain ⟨hfree, hretiring, hstore⟩ :=
    (s.setHold (s.hold.remove p)).takeReports_frames (s.releasedGroups_nodup p)
  have hcatches : (s.setHold (s.hold.remove p)).catchesUp = s.catchesUp := rfl
  rw [hcatches] at hfree hretiring
  refine ⟨fun ended hsorted hmem => ?_, fun f => ?_, hstore⟩
  · rw [← State.released_eq hsorted hmem]
    exact hfree
  · refine (hretiring f).trans (or_congr_right (exists_congr fun g => ?_))
    rw [State.endsDeferral_iff, State.catchesUp_iff, and_assoc, and_assoc]
    rfl

/-- The answer to a request depends on the link alone. -/
theorem State.answer_link {s t : State} (h : s.link = t.link) (p : Port) (c : Status) (b : List Byte) :
    (s.answer p c b).link = (t.answer p c b).link := by
  rw [State.answer_eq, State.answer_eq, State.port_congr h, State.setPort, State.setPort, h]
  rfl

/-- RELEASE of a port without a record (R88). -/
theorem exec_release_none {s : State} {p : Port} (hr : s.ReadyFor p) (h : s.hold.records[p] = none) :
    exec (.release p) s = .next (s.answered p (.release p) .notHeld []) := by
  have hserve := State.serve_accepted (act := fun _ s => State.releaseHold s p) (Instr.release p).record hr
    (rfl : some () = some ()) (s.lacksRight_none p)
  have hreleased : (s.receive p (Instr.release p).record).releaseHold p = s.answered p (.release p) .notHeld [] := by
    rw [State.releaseHold, State.receive_hold, h]
    exact s.answer_receive p (.release p) _ _
  exact congrArg _ (hserve.trans hreleased)

/-- RELEASE of a port with a record (R88). -/
theorem exec_release_some {s : State} {p : Port} (hr : s.ReadyFor p) {h : Hold} (hx : s.hold.records[p] = some h) :
    exec (.release p) s =
      .next (((s.receive p (Instr.release p).record).endHold p).answer p .ok h.bytes) := by
  have hserve := State.serve_accepted (act := fun _ s => State.releaseHold s p) (Instr.release p).record hr
    (rfl : some () = some ()) (s.lacksRight_none p)
  have hreleased : (s.receive p (Instr.release p).record).releaseHold p =
      ((s.receive p (Instr.release p).record).endHold p).answer p .ok h.bytes := by
    rw [State.releaseHold, State.receive_hold, hx]
  exact congrArg _ (hserve.trans hreleased)

/-- Settles O34: the release group by group, and the frames by the reports in order. -/
theorem releaseCatchesUpDeferredGroups : Obligations.ReleaseCatchesUpDeferredGroups := by
  refine fun p s hr => ⟨exec_release_none hr, fun h hx => ⟨_, exec_release_some hr hx, ?_⟩⟩
  obtain ⟨u, hu⟩ : ∃ u, u = s.receive p (Instr.release p).record := ⟨_, rfl⟩
  obtain ⟨t, ht⟩ : ∃ t, t = (u.endHold p).answer p .ok h.bytes := ⟨_, rfl⟩
  obtain ⟨honly, hhold⟩ := u.released_only p
  obtain ⟨hmap, hpub, hthold, hnotice⟩ := State.endHold_answered ht
  obtain ⟨hpart, hsched, hview, hstop, htime, hreset⟩ := State.endHold_answered_same ht
  obtain ⟨hfree, hretiring, hframes, hrefs, hserial, hlimit⟩ := u.released_frames p
  have hlink : t.link = (s.answered p (.release p) .ok h.bytes).link := by
    rw [ht, ← State.answer_receive, ← hu]
    refine State.answer_link ?_ p .ok h.bytes
    rw [State.endHold_eq, State.notify_link, honly.link]
  rw [← hu, ← ht]
  rw [hhold] at hthold
  have hends := fun g (hg : u.EndsDeferral p g) => State.released_ends hg hpub hmap hnotice
  have hleaves : ∀ g, ¬ u.EndsDeferral p g → u.Leaves g t := fun g hg => by
    have h := State.released_leaves hg
    rwa [State.Leaves, State.QuietIn, ← hpub, ← hmap] at h
  rw [← hmap] at hfree hretiring hframes hrefs hserial hlimit
  refine ⟨hlink, ?_⟩
  subst hu
  refine ⟨hthold, hpart, hsched, hview, hstop, htime, hreset, hrefs, hframes, hserial, hlimit, hfree, hretiring,
    fun g => ⟨hends g, fun hg => ?_⟩⟩
  obtain ⟨⟨hgroup, hwatch⟩, hsame⟩ := hleaves g hg
  exact ⟨hgroup, hwatch, fun i hi => (hsame i).2 hi⟩

end Sys2Proof.Machine
end

section
/-! SUPPORT. One group through the claims of a cycle start: where the claims that give it outcomes stand, and what has
become of its record, its counters and its pages between them (R57, R58, R66, R70, R77 to R79, R91). -/

namespace Sys2Proof.Machine

/-! ### Where the claims about a group stand -/

/-- The claims of a cycle start that group g depends on: the countdown of the holds, the roll, and its own point and
report. -/
def CycleClaim.concerns (g : Group) : CycleClaim → Bool
  | .block .countHolds | .block .rollWatches => true
  | .block (.point h) | .block (.report h) => decide (h = g)
  | _ => false

theorem CycleClaim.About.concerns {c : CycleClaim} {g : Group} (h : c.About g) : c.concerns g = true := by
  rcases h with rfl | rfl <;> exact decide_eq_true rfl

/-- What a choice among the claims of the blocks finds, wherever the countdown of stagings and the markings fall (R26,
R39). -/
theorem State.filter_cycleStartClaims_blocks (s : State) (pick : Nat → Nat) (point : Option Group)
    {f : CycleClaim → Bool} (hmark : ∀ p, f (.markReady p) = false) (hcount : f .countStagings = false) :
    (s.cycleStartClaims pick point).filter f =
      ((insertRun (pick 0) s.holdCountClaims (publicationClaims point)).map CycleClaim.block).filter f := by
  have hmarks : ∀ (ports : List Port) (claims : List CycleClaim),
      (ports.foldl (fun l p => if (pick 2).testBit p.val then insertAt (pick (p.val + 3)) (.markReady p) l else l)
        claims).filter f = claims.filter f := by
    intro ports
    induction ports with
    | nil => exact fun _ => rfl
    | cons p ports ih =>
      intro claims
      rw [List.foldl_cons, ih]
      split
      · exact filter_insertAt f (hmark p) _ _
      · rfl
  rw [State.cycleStartClaims, insertMarks, hmarks, filter_insertAt f hcount]

/-- The claims of the hold table that group g depends on (R66, R91). -/
def State.holdsOf (s : State) (g : Group) : List CycleClaim :=
  .block .countHolds :: if g ∈ s.hold.uncovered s.hold.count then [.block (.report g)] else []

/-- The publication unit's own claims that group g depends on (R39, R79). -/
def pointsOf (point : Option Group) (g : Group) : List CycleClaim :=
  .block .rollWatches :: if point = some g then [.block (.point g)] else []

theorem State.filter_holdCountClaims (s : State) (g : Group) :
    (s.holdCountClaims.map CycleClaim.block).filter (CycleClaim.concerns g) = s.holdsOf g := by
  have hreports : ((s.hold.uncovered s.hold.count).map (CycleClaim.block ∘ Claim.report)).filter
      (CycleClaim.concerns g) =
        if g ∈ s.hold.uncovered s.hold.count then [CycleClaim.block (.report g)] else [] := by
    have hcomp : CycleClaim.concerns g ∘ (CycleClaim.block ∘ Claim.report) = fun k => decide (k = g) := rfl
    rw [List.filter_map, hcomp, List.filter_eq, (nodup_uncovered _ _).count]
    split <;> rfl
  rw [State.holdCountClaims, List.map_cons, List.map_map, List.filter_cons_of_pos rfl, hreports, State.holdsOf]

theorem filter_publicationClaims (point : Option Group) (g : Group) :
    ((publicationClaims point).map CycleClaim.block).filter (CycleClaim.concerns g) = pointsOf point g := by
  cases point with
  | none => rfl
  | some k =>
    by_cases hk : k = g
    · subst hk
      simp [publicationClaims, pointsOf, CycleClaim.concerns]
    · have hother : ¬ (CycleClaim.block (.point k)).concerns g = true := fun h => hk (of_decide_eq_true h)
      rw [pointsOf, if_neg (fun he => hk (Option.some.inj he))]
      exact (List.filter_cons_of_pos rfl).trans (congrArg _ (List.filter_cons_of_neg hother))

/-- Among the claims that group g depends on, those of the hold table stand together (R66). -/
theorem State.filter_cycleStartClaims_concerns (s : State) (pick : Nat → Nat) (point : Option Group) (g : Group) :
    ∃ first last, (s.cycleStartClaims pick point).filter (CycleClaim.concerns g) = first ++ s.holdsOf g ++ last ∧
      first ++ last = pointsOf point g := by
  rw [s.filter_cycleStartClaims_blocks pick point (fun _ => rfl) rfl, insertRun, List.map_append, List.map_append,
    List.filter_append, List.filter_append, s.filter_holdCountClaims g]
  refine ⟨_, _, rfl, ?_⟩
  rw [← List.filter_append, ← List.map_append, List.take_append_drop, filter_publicationClaims]

/-- A claim that a choice finds, with what it finds before and behind it. -/
theorem exists_split_of_filter {α : Type} {f : α → Bool} {l first last : List α} {x : α}
    (h : l.filter f = first ++ x :: last) :
    ∃ before behind, l = before ++ x :: behind ∧ before.filter f = first ∧ behind.filter f = last := by
  obtain ⟨before, rest, rfl, hfirst, hrest⟩ := List.filter_eq_append_iff.1 h
  obtain ⟨skipped, behind, rfl, hno, -, hlast⟩ := List.filter_eq_cons_iff.1 hrest
  refine ⟨before ++ skipped, behind, (List.append_assoc ..).symm, ?_, hlast⟩
  rw [List.filter_append, hfirst, List.filter_eq_nil_iff.2 hno, List.append_nil]

/-- Claims that give group g no outcome. -/
def QuietAbout (g : Group) (cs : List CycleClaim) : Prop := ∀ c ∈ cs, ¬ c.About g

theorem quietAbout_of_filter {g : Group} {cs : List CycleClaim} (h : QuietAbout g (cs.filter (CycleClaim.concerns g))) :
    QuietAbout g cs := fun c hc ha => h c (List.mem_filter.2 ⟨hc, ha.concerns⟩) ha

theorem mem_of_concerns {g : Group} {cs l : List CycleClaim} (hl : cs.filter (CycleClaim.concerns g) = l)
    {c : CycleClaim} (hc : c.concerns g = true) : c ∈ cs ↔ c ∈ l := by
  rw [← hl, List.mem_filter]
  exact (and_iff_left hc).symm

/-- Where the claims about group g stand among claims cs: whether a hold of g breaks, whether there is a point of g, and in
which order they give it outcomes (R39, R66, R70, R79). -/
inductive Standing (g : Group) (cs : List CycleClaim) : (breaks point : Bool) → Prop where
  | none : QuietAbout g cs → Standing g cs false false
  | point (first last : List CycleClaim) : cs = first ++ .block (.point g) :: last → QuietAbout g first →
      QuietAbout g last → .block .rollWatches ∉ last → Standing g cs false true
  | report (first last : List CycleClaim) : cs = first ++ .block (.report g) :: last → QuietAbout g first →
      QuietAbout g last → Standing g cs true false
  | reportThenPoint (first mid last : List CycleClaim) :
      cs = first ++ .block (.report g) :: (mid ++ .block (.point g) :: last) → QuietAbout g first → QuietAbout g mid →
      QuietAbout g last → .block .rollWatches ∉ last → .block .countHolds ∉ last → Standing g cs true true
  | pointThenReport (first mid last : List CycleClaim) :
      cs = first ++ .block (.point g) :: (mid ++ .block (.report g) :: last) → QuietAbout g first → QuietAbout g mid →
      QuietAbout g last → .block .rollWatches ∉ mid ++ last → .block .countHolds ∈ mid → Standing g cs true true

/-- The countdown of the holds and the roll: the claims that a group depends on and that give it no outcome. -/
abbrev Preparing (l : List CycleClaim) : Prop := l ⊆ [.block .countHolds, .block .rollWatches]

section
variable {g : Group} {cs l l₁ l₂ : List CycleClaim}

theorem Preparing.quietAbout (hl : Preparing l) (g : Group) : QuietAbout g l := by
  intro c hc ha
  have hin := hl hc
  rcases ha with rfl | rfl <;> simp at hin

theorem Preparing.quiet (hl : Preparing l) (h : cs.filter (CycleClaim.concerns g) = l) : QuietAbout g cs :=
  quietAbout_of_filter (h ▸ hl.quietAbout g)

theorem Standing.of_point (h : cs.filter (CycleClaim.concerns g) = l₁ ++ .block (.point g) :: l₂) (h₁ : Preparing l₁)
    (h₂ : Preparing l₂) (hroll : .block .rollWatches ∉ l₂) : Standing g cs false true := by
  obtain ⟨first, last, rfl, hfirst, hlast⟩ := exists_split_of_filter h
  exact .point first last rfl (h₁.quiet hfirst) (h₂.quiet hlast) fun hin => hroll ((mem_of_concerns hlast rfl).1 hin)

theorem Standing.of_report (h : cs.filter (CycleClaim.concerns g) = l₁ ++ .block (.report g) :: l₂)
    (h₁ : Preparing l₁) (h₂ : Preparing l₂) : Standing g cs true false := by
  obtain ⟨first, last, rfl, hfirst, hlast⟩ := exists_split_of_filter h
  exact .report first last rfl (h₁.quiet hfirst) (h₂.quiet hlast)

theorem Standing.of_reportThenPoint
    (h : cs.filter (CycleClaim.concerns g) = l₁ ++ .block (.report g) :: (l₂ ++ [.block (.point g)]))
    (h₁ : Preparing l₁) (h₂ : Preparing l₂) : Standing g cs true true := by
  obtain ⟨first, rest, rfl, hfirst, hrest⟩ := exists_split_of_filter h
  obtain ⟨mid, last, rfl, hmid, hlast⟩ := exists_split_of_filter hrest
  refine .reportThenPoint first mid last rfl (h₁.quiet hfirst) (h₂.quiet hmid)
    (Preparing.quiet (List.nil_subset _) hlast) (fun hin => ?_) fun hin => ?_
  · cases (mem_of_concerns hlast rfl).1 hin
  · cases (mem_of_concerns hlast rfl).1 hin

theorem Standing.of_pointThenReport
    (h : cs.filter (CycleClaim.concerns g) =
      [.block .rollWatches] ++ .block (.point g) :: ([.block .countHolds] ++ [.block (.report g)])) :
    Standing g cs true true := by
  obtain ⟨first, rest, rfl, hfirst, hrest⟩ := exists_split_of_filter h
  obtain ⟨mid, last, rfl, hmid, hlast⟩ := exists_split_of_filter hrest
  refine .pointThenReport first mid last rfl (Preparing.quiet (by simp) hfirst) (Preparing.quiet (by simp) hmid)
    (Preparing.quiet (List.nil_subset _) hlast) (fun hin => ?_) ((mem_of_concerns hmid rfl).2 (List.mem_singleton_self _))
  rcases List.mem_append.1 hin with hin | hin
  · have hroll := (mem_of_concerns hmid rfl).1 hin
    simp at hroll
  · cases (mem_of_concerns hlast rfl).1 hin

end

/-- The claims of a cycle start in their order, as group g sees them (R39, R66, R70, R79, R91). -/
theorem State.standing (s : State) (pick : Nat → Nat) (point : Option Group) (g : Group) :
    Standing g (s.cycleStartClaims pick point) (decide (g ∈ s.hold.uncovered s.hold.count))
      (decide (point = some g)) := by
  obtain ⟨first, last, hcs, hpoints⟩ := s.filter_cycleStartClaims_concerns pick point g
  generalize s.cycleStartClaims pick point = cs at hcs
  unfold State.holdsOf at hcs
  unfold pointsOf at hpoints
  by_cases hp : point = some g
  · rw [if_pos hp] at hpoints
    rw [decide_eq_true hp]
    have hplaces : (first = [] ∧ last = [.block .rollWatches, .block (.point g)]) ∨
        (first = [.block .rollWatches] ∧ last = [.block (.point g)]) ∨
          (first = [.block .rollWatches, .block (.point g)] ∧ last = []) := by
      rcases List.append_eq_cons_iff.1 hpoints with h | ⟨rest, rfl, hrest⟩
      · exact Or.inl h
      · rcases List.append_eq_singleton_iff.1 hrest.symm with ⟨rfl, rfl⟩ | ⟨rfl, rfl⟩
        · exact Or.inr (Or.inl ⟨rfl, rfl⟩)
        · exact Or.inr (Or.inr ⟨rfl, rfl⟩)
    by_cases hb : g ∈ s.hold.uncovered s.hold.count
    · rw [if_pos hb] at hcs
      rw [decide_eq_true hb]
      rcases hplaces with ⟨rfl, rfl⟩ | ⟨rfl, rfl⟩ | ⟨rfl, rfl⟩
      · exact .of_reportThenPoint (l₁ := [.block .countHolds]) (l₂ := [.block .rollWatches]) hcs (by simp) (by simp)
      · exact .of_reportThenPoint (l₁ := [.block .rollWatches, .block .countHolds]) (l₂ := []) hcs (by simp) (by simp)
      · exact .of_pointThenReport hcs
    · rw [if_neg hb] at hcs
      rw [decide_eq_false hb]
      rcases hplaces with ⟨rfl, rfl⟩ | ⟨rfl, rfl⟩ | ⟨rfl, rfl⟩
      · exact .of_point (l₁ := [.block .countHolds, .block .rollWatches]) (l₂ := []) hcs (by simp) (by simp) (by simp)
      · exact .of_point (l₁ := [.block .rollWatches, .block .countHolds]) (l₂ := []) hcs (by simp) (by simp) (by simp)
      · exact .of_point (l₁ := [.block .rollWatches]) (l₂ := [.block .countHolds]) hcs (by simp) (by simp) (by simp)
  · rw [if_neg hp] at hpoints
    rw [decide_eq_false hp]
    by_cases hb : g ∈ s.hold.uncovered s.hold.count
    · rw [if_pos hb] at hcs
      rw [decide_eq_true hb]
      rcases List.append_eq_singleton_iff.1 hpoints with ⟨rfl, rfl⟩ | ⟨rfl, rfl⟩
      · exact .of_report (l₁ := [.block .countHolds]) (l₂ := [.block .rollWatches]) hcs (by simp) (by simp)
      · exact .of_report (l₁ := [.block .rollWatches, .block .countHolds]) (l₂ := []) hcs (by simp) (by simp)
    · rw [if_neg hb] at hcs
      rw [decide_eq_false hb]
      refine .none (Preparing.quiet (l := first ++ [.block .countHolds] ++ last) ?_ hcs)
      rcases List.append_eq_singleton_iff.1 hpoints with ⟨rfl, rfl⟩ | ⟨rfl, rfl⟩ <;> simp

end Sys2Proof.Machine
end

section
/-! SUPPORT. The pages of a group behind a publication within a cycle start, and what a first and a second publication of it
find (R24, R25, R63, R70). -/

namespace Sys2Proof.Machine

/-! ### Pages behind a publication -/

/-- State s with the pages that group g publishes in state a made live, as the swap taken in a makes them (R63). -/
def State.madeLive (s a : State) (g : Group) : State :=
  s.setMap
    { s.map with
      pages := Vector.ofFn fun i =>
        if a.map.ready g i then (s.map.page i).published a.sched.cycleCount else s.map.page i }

theorem State.madeLive_page (s a : State) (g : Group) (i : Page) :
    (s.madeLive a g).map.page i =
      if a.map.ready g i then (s.map.page i).published a.sched.cycleCount else s.map.page i :=
  Vector.getElem_ofFn ..

theorem State.madeLive_awaits (s a : State) (g : Group) (p : Port) (x : DataCall) (i : Page) :
    (s.madeLive a g).Awaits p x i ↔ s.Awaits p x i := by
  rw [State.Awaits, State.madeLive, State.port_setMap]

theorem State.madeLive_group (s a : State) (g : Group) (i : Page) :
    ((s.madeLive a g).map.page i).group = (s.map.page i).group := by
  rw [State.madeLive_page]
  split <;> rfl

/-- Claims that are not about group g, without the countdown, leave its pages unpublished and its stagings uncounted. -/
theorem State.Unpublished.takeUncounted {s u : State} {g : Group} {b : Bool} (h : s.Unpublished g b u)
    {cs : List CycleClaim} (hcs : QuietAbout g cs) (hcount : .countStagings ∉ cs) :
    s.Unpublished g b (u.takeCycleClaims cs).1 := by
  refine State.takeCycleClaims_keeps_of (s.Unpublished g b) cs (fun c hc v hv => ?_) u h
  cases c with
  | block c => exact hv.same (.block c) fun i hi => v.takeClaim_page_other (hcs _ hc) (hv.group hi)
  | countStagings => exact absurd hc hcount
  | markReady p => exact hv.markReady p

/-- A page without a staging is as it was. -/
theorem State.Unpublished.unstaged_page {s u : State} {g : Group} {b : Bool} (h : s.Unpublished g b u) {i : Page}
    (hi : (s.map.page i).group = g) (hs : (s.map.page i).staging = none) : u.map.page i = s.map.page i := by
  rw [h.page i hi, h.unstaged i hi hs, ← hs]

/-- A page that the group publishes in u had a staging in s. -/
theorem State.Unpublished.staged_of_ready {s u : State} {g : Group} {b : Bool} (h : s.Unpublished g b u) {i : Page}
    (hi : (s.map.page i).group = g) (hr : u.map.ready g i = true) : (s.map.page i).staging ≠ none := by
  intro hs
  obtain ⟨-, st, hst⟩ := ExchangeMap.ready_group hr
  cases (h.unstaged i hi hs).symm.trans hst

/-- Behind the swap that state u takes, the pages of the group stand as the swap found them in s, with those that it made
live. -/
theorem State.Unpublished.madeLive {s u v : State} {g : Group} {b : Bool} (h : s.Unpublished g b u)
    (hmap : v.map = (u.map.swap g u.sched.cycleCount).map) (hport : ∀ q, v.port q = u.port q) :
    (s.madeLive u g).Unpublished g b v := by
  have hpage : ∀ i, v.map.page i =
      if u.map.ready g i then (u.map.page i).published u.sched.cycleCount else u.map.page i := fun i => by
    rw [hmap, ExchangeMap.swap_page_ready]
  have hlive : ∀ i, (s.map.page i).group = g → u.map.ready g i = true →
      v.map.page i = (s.map.page i).published u.sched.cycleCount := fun i hi hr => by
    obtain ⟨-, new, hnew⟩ := ExchangeMap.ready_group hr
    rw [hpage, if_pos hr, h.published hi hnew]
  refine ⟨fun p x i hw => ?_, fun i hi => ?_, fun i hi hs => ?_, fun i st hi hs => ?_⟩
  · have hwaits : u.Awaits p x i := by rwa [State.Awaits, hport] at hw
    exact (s.madeLive_awaits u g p x i).2 (h.awaits p x i hwaits)
  all_goals rw [State.madeLive_group] at hi
  · rw [State.madeLive_page]
    cases hr : u.map.ready g i with
    | true =>
      rw [hlive i hi hr, if_pos rfl]
    | false =>
      rw [hpage, hr, if_neg Bool.false_ne_true, if_neg Bool.false_ne_true]
      exact h.page i hi
  · cases hr : u.map.ready g i with
    | true =>
      rw [hlive i hi hr]
      rfl
    | false =>
      rw [State.madeLive_page, hr, if_neg Bool.false_ne_true] at hs
      rw [hpage, hr, if_neg Bool.false_ne_true]
      exact h.unstaged i hi hs
  · cases hr : u.map.ready g i with
    | true =>
      rw [State.madeLive_page, hr, if_pos rfl] at hs
      cases hs
    | false =>
      have hsame := s.madeLive_page u g i
      rw [hr, if_neg Bool.false_ne_true] at hsame
      rw [hsame] at hs
      rw [hpage, hr, if_neg Bool.false_ne_true]
      refine (h.staged i st hi hs).mono fun ⟨hopen, hmay, ⟨pp, hwaits⟩, hanswer⟩ =>
        ⟨hopen, ?_, ⟨pp, (s.madeLive_awaits u g _ _ i).2 hwaits⟩, (congrArg LinkPort.tx (hport _)).trans hanswer⟩
      rw [State.MayStage, hsame]
      exact hmay

/-- A page that the base shows published stays so, whatever is published behind it. -/
theorem State.Unpublished.madeLive_unstaged {s u : State} {g : Group} {b : Bool} (h : s.Unpublished g b u) {i : Page}
    (hi : (s.map.page i).group = g) (hs : (s.map.page i).staging = none) :
    (s.madeLive u g).map.page i = s.map.page i := by
  rw [State.madeLive_page, if_neg fun hr => h.staged_of_ready hi hr hs]

/-! ### What the first publication finds -/

/-- The map that a publication in state a of group g finds shows READY and late pages as a does. -/
theorem ExchangeMap.withGroup_counts {m a : ExchangeMap} (g : Group)
    (hgroup : ∀ i, (a.page i).group = (m.page i).group) :
    (m.withGroup a g).readyCount g = a.readyCount g ∧ (m.withGroup a g).lateCount g = a.lateCount g := by
  have hsame := ExchangeMap.withGroup_readyLate g hgroup
  simp only [ExchangeMap.readyCount, ExchangeMap.lateCount, (hsame _).1, (hsame _).2, and_self]

/-- A late page of the group stands in the map that the publication finds as a shows it. -/
theorem ExchangeMap.withGroup_late {m a : ExchangeMap} {g : Group} (hgroup : ∀ i, (a.page i).group = (m.page i).group)
    {i : Page} (h : (m.withGroup a g).late g i = true) : a.late g i = true ∧ (m.withGroup a g).page i = a.page i := by
  rw [(ExchangeMap.withGroup_readyLate g hgroup i).2] at h
  refine ⟨h, ?_⟩
  rw [ExchangeMap.withGroup_page, if_pos ((hgroup i).symm.trans (ExchangeMap.late_group h))]

/-! ### What a second publication finds -/

/-- The staging of a page, READY (R22). -/
def PageRecord.markedReady (r : PageRecord) : PageRecord :=
  { r with staging := r.staging.map fun st => { st with state := .ready } }

/-- What a publication in state v of group g finds behind one in state a, but for the pages that this one published: those
stand as m shows them, READY (R24, R70). -/
def ExchangeMap.behind (m a v : ExchangeMap) (g : Group) : ExchangeMap :=
  { m with
    pages := Vector.ofFn fun i =>
      if (m.page i).group = g then if a.ready g i then (m.page i).markedReady else v.page i else m.page i }

theorem ExchangeMap.behind_page (m a v : ExchangeMap) (g : Group) (i : Page) :
    (m.behind a v g).page i =
      if (m.page i).group = g then if a.ready g i then (m.page i).markedReady else v.page i else m.page i :=
  Vector.getElem_ofFn ..

/-- A READY staging is what some publication finds of its page, with the countdown before it or behind it (R9, R26). -/
theorem State.StagingThen.markedReady {s u : State} {i : Page} {st new : Staging} {b : Bool}
    (h : s.StagingThen u i st b (some new)) (hr : new.state = .ready) (b' : Bool) :
    s.StagingThen u i st b' (some { st with state := .ready }) := by
  have hready : st.state = .ready → s.StagingThen u i st b' (some { st with state := .ready }) := fun hst => by
    have hsame : { st with state := .ready } = st := by rw [← hst]
    rw [hsame]
    cases b' with
    | false => exact .uncounted
    | true =>
      have hcounted : st.counted = some st := if_pos (Or.inl hst)
      exact hcounted ▸ .counted
  generalize hnew : some new = o at h
  cases h with
  | uncounted =>
    cases hnew
    exact hready hr
  | counted => exact hready ((Staging.counted_stager hnew.symm).1.symm.trans hr)
  | marked _ hm => exact .marked b' hm
  | countedThenMarked hm _ _ => exact .marked b' hm

/-- A publication in state a of group g, and one in state v behind it: what they find of the pages as s showed them, where
the first leaves its pages live. -/
structure State.PublishedTwice (s : State) (g : Group) (a v : State) : Prop where
  first : ∃ b, s.Unpublished g b a
  second : ∃ b, (s.madeLive a g).Unpublished g b v
  groupFirst : ∀ i, (a.map.page i).group = (s.map.page i).group
  groupSecond : ∀ i, (v.map.page i).group = (s.map.page i).group

section
variable {s a v : State} {g : Group}

/-- A page that the first publication made live is neither READY nor late for the second. -/
theorem State.PublishedTwice.spent (h : s.PublishedTwice g a v) {i : Page} (hr : a.map.ready g i = true) :
    (v.map.page i).staging = none ∧ (v.map.page i).group = g := by
  obtain ⟨_, hv⟩ := h.second
  have hi : (s.map.page i).group = g := (h.groupFirst i).symm.trans (ExchangeMap.ready_group hr).1
  refine ⟨hv.unstaged i (by rw [State.madeLive_group, hi]) ?_, (h.groupSecond i).trans hi⟩
  rw [State.madeLive_page, if_pos hr]
  rfl

theorem ExchangeMap.unstaged_readyLate {m : ExchangeMap} {i : Page} (h : (m.page i).staging = none) (g : Group) :
    m.ready g i = false ∧ m.late g i = false := by
  simp only [ExchangeMap.ready, ExchangeMap.late, h, and_self]

/-- READY and late pages as the second publication finds them. -/
theorem State.PublishedTwice.readyLate (h : s.PublishedTwice g a v) (i : Page) :
    (s.map.behind a.map v.map g).ready g i = (a.map.ready g i || v.map.ready g i) ∧
      (s.map.behind a.map v.map g).late g i = v.map.late g i := by
  have hpage := s.map.behind_page a.map v.map g i
  by_cases hi : (s.map.page i).group = g
  · rw [if_pos hi] at hpage
    cases hr : a.map.ready g i with
    | true =>
      obtain ⟨_, ha⟩ := h.first
      have hnone := ExchangeMap.unstaged_readyLate (h.spent hr).1 g
      have hdefined : (s.map.page i).defined = true := by
        have hready := hr
        unfold ExchangeMap.ready at hready
        rw [ha.page i hi] at hready
        split at hready
        · simp only [Bool.and_eq_true] at hready
          exact hready.1.1
        · cases hready
      obtain ⟨st, hst⟩ := Option.ne_none_iff_exists'.1 (ha.staged_of_ready hi hr)
      rw [hr, if_pos rfl] at hpage
      rw [hnone.2]
      simp [ExchangeMap.ready, ExchangeMap.late, hpage, PageRecord.markedReady, hst, hdefined, hi]
    | false =>
      rw [hr, if_neg Bool.false_ne_true] at hpage
      simp only [ExchangeMap.ready, ExchangeMap.late, hpage, Bool.false_or, and_self]
  · rw [if_neg hi] at hpage
    have hother : ((s.map.behind a.map v.map g).page i).group ≠ g := by rwa [hpage]
    have ha : (a.map.page i).group ≠ g := fun he => hi ((h.groupFirst i).symm.trans he)
    have hv : (v.map.page i).group ≠ g := fun he => hi ((h.groupSecond i).symm.trans he)
    rw [ExchangeMap.ready_other hother, ExchangeMap.late_other hother, ExchangeMap.ready_other ha,
      ExchangeMap.ready_other hv, ExchangeMap.late_other hv]
    exact ⟨rfl, rfl⟩

/-- The second publication finds the pages that are READY for it and were not for the first (R70). -/
theorem State.PublishedTwice.counts (h : s.PublishedTwice g a v) :
    (s.map.withGroup a.map g).newlyReadyCount (s.map.behind a.map v.map g) g = v.map.readyCount g ∧
      (s.map.behind a.map v.map g).lateCount g = v.map.lateCount g := by
  have hready : ∀ i, ((s.map.behind a.map v.map g).ready g i && !(s.map.withGroup a.map g).ready g i) =
      v.map.ready g i := fun i => by
    rw [(h.readyLate i).1, (ExchangeMap.withGroup_readyLate g h.groupFirst i).1]
    cases hr : a.map.ready g i with
    | true => rw [(ExchangeMap.unstaged_readyLate (h.spent hr).1 g).1]; rfl
    | false => simp
  simp only [ExchangeMap.newlyReadyCount, ExchangeMap.readyCount, ExchangeMap.lateCount, hready, (h.readyLate _).2,
    and_self]

/-- A late page stands in the map that the second publication finds as v shows it. -/
theorem State.PublishedTwice.late (h : s.PublishedTwice g a v) {i : Page}
    (hl : (s.map.behind a.map v.map g).late g i = true) :
    v.map.late g i = true ∧ (s.map.behind a.map v.map g).page i = v.map.page i := by
  rw [(h.readyLate i).2] at hl
  refine ⟨hl, ?_⟩
  have hi : (s.map.page i).group = g := (h.groupSecond i).symm.trans (ExchangeMap.late_group hl)
  rw [ExchangeMap.behind_page, if_pos hi, if_neg]
  intro hr
  rw [(ExchangeMap.unstaged_readyLate (h.spent hr).1 g).2] at hl
  cases hl

/-- What the second publication finds is what a publication of the cycle start from s₀ to t can find, where t shows the
markings. -/
theorem State.PublishedTwice.finds (h : s.PublishedTwice g a v) {s₀ t : State} (hs : s.map = s₀.map)
    (hfirst : ∀ i st, s.Marks a i st → s₀.Marks t i st) (hsecond : ∀ i st, s.Marks v i st → s₀.Marks t i st) :
    s₀.Finds t g (s.map.behind a.map v.map g) := by
  obtain ⟨_, ha⟩ := h.first
  obtain ⟨counted, hv⟩ := h.second
  refine ⟨counted, fun i => ?_⟩
  rw [ExchangeMap.behind_page, ← hs]
  by_cases hi : (s.map.page i).group = g
  · rw [if_pos hi]
    have hlive := s.madeLive_page a g i
    cases hr : a.map.ready g i with
    | true =>
      obtain ⟨-, new, hnew⟩ := ExchangeMap.ready_group hr
      obtain ⟨st, hst⟩ := Option.ne_none_iff_exists'.1 (ha.staged_of_ready hi hr)
      have hready : new.state = .ready := by
        unfold ExchangeMap.ready at hr
        rw [hnew] at hr
        simp only [Bool.and_eq_true, decide_eq_true_eq] at hr
        exact hr.2
      have hthen := ha.staged i st hi hst
      rw [hnew] at hthen
      refine ⟨rfl, fun _ => ?_⟩
      rw [if_pos rfl, PageRecord.markedReady, hst]
      exact (hthen.markedReady hready counted).mono (hfirst i st)
    | false =>
      rw [hr, if_neg Bool.false_ne_true] at hlive
      rw [if_neg Bool.false_ne_true]
      have hg : ((s.madeLive a g).map.page i).group = g := by rw [hlive, hi]
      refine ⟨by rw [← hlive]; exact hv.page i hg, fun _ => ?_⟩
      split
      · rename_i hnone
        exact hv.unstaged i hg (by rw [hlive, hnone])
      · rename_i st hst
        refine (hv.staged i st hg (by rw [hlive, hst])).mono fun ⟨hopen, hmay, ⟨pp, hwaits⟩, hanswer⟩ =>
          hsecond i st ⟨hopen, ?_, ⟨pp, (s.madeLive_awaits a g _ _ i).1 hwaits⟩, hanswer⟩
        rw [State.MayStage, hlive] at hmay
        exact hmay
  · rw [if_neg hi]
    exact ⟨rfl, fun hg => absurd hg hi⟩

end

end Sys2Proof.Machine
end

section
/-! SUPPORT. The outcomes that a cycle start gives a group, in order: what has been recorded of them, told and published when
the claims before some point of the cycle start have been taken (R57, R58, R63, R66, R70, R75, R77 to R79). -/

namespace Sys2Proof.Machine

/-! ### Counters through outcomes -/

/-- A counter after outcomes of group g, in order (R77, R78). -/
def Watch.afterAll (w : Watch) (g : Group) (xs : List GroupStatus) : Watch := xs.foldl (fun w x => w.after g x) w

theorem Watch.afterAll_group (w : Watch) (g : Group) (xs : List GroupStatus) : (w.afterAll g xs).group = w.group := by
  induction xs generalizing w with
  | nil => rfl
  | cons x xs ih => exact (ih (w.after g x)).trans (w.after_group g x)

theorem Watch.afterAll_snoc (w : Watch) (g : Group) (xs : List GroupStatus) (x : GroupStatus) :
    w.afterAll g (xs ++ [x]) = (w.afterAll g xs).after g x := List.foldl_append ..

/-- The counters roll once (R79). -/
theorem State.count_rollWatches (s : State) (pick : Nat → Nat) (point : Option Group) :
    (s.cycleStartClaims pick point).count (.block .rollWatches) = 1 := by
  have hown : CycleClaim.isPublication (.block .rollWatches) = true := rfl
  rw [← List.count_filter hown, s.filter_cycleStartClaims pick point]
  cases point <;> simp [publicationClaims]

/-! ### How far a cycle start has come -/

/-- Claims that remove no hold, count the holds once at most, and roll the counters once at most (R79, R91). -/
structure Regular (cs : List CycleClaim) : Prop where
  noRemoval : ∀ p, .block (.removeHold p) ∉ cs
  holdsOnce : cs.count (.block .countHolds) ≤ 1
  rollOnce : cs.count (.block .rollWatches) ≤ 1

theorem Regular.sublist {cs ds : List CycleClaim} (h : Regular cs) (hd : ds.Sublist cs) : Regular ds :=
  ⟨fun p hp => h.noRemoval p (hd.subset hp), (hd.count_le _).trans h.holdsOnce, (hd.count_le _).trans h.rollOnce⟩

/-- A notice of a cycle start that comes to r. -/
def SentIn (r : State × List Outgoing) (m : Message) : Prop := ∃ y ∈ r.2, y.message = m

/-- From s, where claims cs are left in u, the counters of group g have taken the outcomes outs: the early ones, which are the
report's, before the roll, the late ones behind it (R78, R79). -/
def State.CountersAt (s : State) (g : Group) (outs : List GroupStatus) (cs : List CycleClaim) (u : State) : Prop :=
  ∃ early late, early ++ late = outs ∧ (∀ x ∈ early, x.last = .catchUp ∨ x.last = .dropped) ∧
    (.block .rollWatches ∈ cs → late = []) ∧ ∀ n : WatchNo, s.pub.watches[n].group = g →
      u.pub.watches[n] =
        if .block .rollWatches ∈ cs then s.pub.watches[n].afterAll g early
        else (s.pub.watches[n].afterAll g early).rolled.afterAll g late

/-- Within a cycle start from s that comes to r, state u has been reached and claims cs are left. Group g has been given the
outcomes outs, each with its notice, its mark is as said, and its counters have taken those outcomes. Its pages stand as in
base, but for their stagings, which are counted down or not, and marked or not. -/
structure State.Reached (s : State) (g : Group) (r : State × List Outgoing) (base : State) (outs : List GroupStatus)
    (mark : Bool) (cs : List CycleClaim) (u : State) : Prop where
  only : s.OnlyCycle u
  regular : Regular cs
  hold : u.hold = if .block .countHolds ∈ cs then s.hold else s.hold.count
  found : ∃ b, base.Unpublished g b u ∧ cs.count .countStagings ≤ if b then 0 else 1
  answering : s.Answering u
  group : u.pub.groups[g] = { outs.getLastD s.pub.groups[g] with mark := mark }
  counters : s.CountersAt g outs cs u
  told : ∀ x ∈ outs, x.cycle = s.sched.cycleCount ∧ SentIn r (s.groupPoint g x.last x.published x.late)
  ends : r.1 = (u.takeCycleClaims cs).1
  sends : (u.takeCycleClaims cs).2 ⊆ r.2

section
variable {s base u : State} {g : Group} {r : State × List Outgoing} {outs : List GroupStatus} {mark : Bool}
  {cs ds : List CycleClaim}

/-- Where a cycle start begins. -/
theorem State.Reached.start (s : State) (pick : Nat → Nat) (point : Option Group) (g : Group) :
    s.Reached g (s.takeCycleClaims (s.cycleStartClaims pick point)) s [] s.pub.groups[g].mark
      (s.cycleStartClaims pick point) s := by
  have hholds := s.count_countHolds pick point
  have hroll := s.count_rollWatches pick point
  refine ⟨rfl, ⟨s.removeHold_not_mem pick point, hholds.le, hroll.le⟩, ?_, ⟨false, .refl s g, ?_⟩, .refl s, rfl,
    ⟨[], [], rfl, nofun, fun _ => rfl, fun n _ => ?_⟩, nofun, rfl, fun _ h => h⟩
  · rw [if_pos (List.count_pos_iff.1 (by omega))]
  · exact (s.count_cycleStartClaims pick point).le
  · rw [if_pos (List.count_pos_iff.1 (by omega))]
    rfl

theorem State.Reached.sched (h : s.Reached g r base outs mark cs u) : u.sched = s.sched := by
  rw [h.only]
  rfl

theorem State.Reached.stop (h : s.Reached g r base outs mark cs u) : u.stop = s.stop := by
  rw [h.only]
  rfl

theorem State.Reached.stamp (h : s.Reached g r base outs mark cs u) : u.stamp = s.stamp := by
  rw [h.only]
  rfl

/-- The holds through claims that do not remove any (R91). -/
theorem State.Reached.hold_behind (h : s.Reached g r base outs mark (cs ++ ds) u) :
    (u.takeCycleClaims cs).1.hold = if .block .countHolds ∈ ds then s.hold else s.hold.count := by
  have hcount := h.regular.holdsOnce
  rw [List.count_append] at hcount
  rw [u.takeCycleClaims_hold (fun p hp => h.regular.noRemoval p (List.mem_append_left _ hp)) (by omega), h.hold]
  by_cases hc : CycleClaim.block .countHolds ∈ cs
  · have hpos := List.count_pos_iff.2 hc
    have hd : CycleClaim.block .countHolds ∉ ds := fun hd => absurd (List.count_pos_iff.2 hd) (by omega)
    rw [if_pos hc, if_pos (List.mem_append_left _ hc), if_neg hd]
  · simp only [hc, if_false, List.mem_append, false_or]

/-- The pages through claims that give the group no outcome (R24, R25). -/
theorem State.Reached.found_behind (h : s.Reached g r base outs mark (cs ++ ds) u) (hcs : QuietAbout g cs) :
    ∃ b, base.Unpublished g b (u.takeCycleClaims cs).1 ∧ ds.count .countStagings ≤ if b then 0 else 1 := by
  obtain ⟨b, hun, hcount⟩ := h.found
  rw [List.count_append] at hcount
  by_cases hc : CycleClaim.countStagings ∈ cs
  · have hpos := List.count_pos_iff.2 hc
    obtain ⟨b', hun'⟩ := hun.takeCycleClaims hcs (by omega)
    have hnone : ds.count .countStagings = 0 := by
      cases b with
      | true => exact absurd hcount (by rw [if_pos rfl]; omega)
      | false =>
        rw [if_neg Bool.false_ne_true] at hcount
        omega
    exact ⟨b', hun', by rw [hnone]; exact Nat.zero_le _⟩
  · exact ⟨b, hun.takeUncounted hcs hc, by omega⟩

/-- The group's record and its counters through claims that give the group no outcome, the roll among them or not (R78,
R79). -/
theorem State.Reached.rolled_behind (h : s.Reached g r base outs mark (cs ++ ds) u) (hcs : QuietAbout g cs) :
    (u.takeCycleClaims cs).1.pub.groups[g] = u.pub.groups[g] ∧
      ∀ n : WatchNo, u.pub.watches[n].group = g → (u.takeCycleClaims cs).1.pub.watches[n] =
        if .block .rollWatches ∈ cs then u.pub.watches[n].rolled else u.pub.watches[n] := by
  by_cases hc : CycleClaim.block .rollWatches ∈ cs
  · have hcount := h.regular.rollOnce
    obtain ⟨first, second, rfl⟩ := List.append_of_mem hc
    rw [List.count_append, List.count_append, List.count_cons_self] at hcount
    have hfirst : CycleClaim.block .rollWatches ∉ first := List.count_eq_zero.1 (by omega)
    have hsecond : CycleClaim.block .rollWatches ∉ second := List.count_eq_zero.1 (by omega)
    simp only [hc, if_true]
    refine u.takeCycleClaims_rolled (fun c hin => hcs c ?_) fun c hin he => ?_
    · exact List.mem_append.2 (hin.imp_right (List.mem_cons_of_mem _))
    · subst he
      exact hin.elim hfirst hsecond
  · simp only [hc, if_false]
    exact u.takeCycleClaims_quiet hcs hc

/-- Claims that give the group no outcome bring the cycle start on. -/
theorem State.Reached.skip (h : s.Reached g r base outs mark (cs ++ ds) u) (hcs : QuietAbout g cs) :
    ∃ v, s.Reached g r base outs mark ds v := by
  have hends := h.ends
  have hsends := h.sends
  obtain ⟨hgroup, hwatch⟩ := h.rolled_behind hcs
  obtain ⟨early, late, houts, hearly, hlate, hcounted⟩ := h.counters
  rw [State.takeCycleClaims_append] at hends hsends
  refine ⟨(u.takeCycleClaims cs).1, h.only.trans (u.takeCycleClaims_only cs),
    h.regular.sublist (List.sublist_append_right ..), h.hold_behind, h.found_behind hcs,
    u.takeCycleClaims_keeps s.Answering (fun _ c hv => hv.takeCycleClaim c) cs h.answering, hgroup.trans h.group,
    ⟨early, late, houts, hearly, fun hd => hlate (List.mem_append_right _ hd), fun n hn => ?_⟩, h.told, hends,
    fun y hy => hsends (List.mem_append_right _ hy)⟩
  have hkept : u.pub.watches[n].group = g := by
    rw [hcounted n hn]
    split
    · rw [Watch.afterAll_group, hn]
    · rw [Watch.afterAll_group, Watch.rolled_group, Watch.afterAll_group, hn]
  rw [hwatch n hkept, hcounted n hn]
  have hcount := h.regular.rollOnce
  rw [List.count_append] at hcount
  by_cases hc : CycleClaim.block .rollWatches ∈ cs
  · have hpos := List.count_pos_iff.2 hc
    have hd : CycleClaim.block .rollWatches ∉ ds := fun hd => absurd (List.count_pos_iff.2 hd) (by omega)
    rw [if_pos hc, if_pos (List.mem_append_left _ hc), if_neg hd, hlate (List.mem_append_left _ hc)]
    rfl
  · simp only [hc, if_false, List.mem_append, false_or]

/-- Behind the last outcome, the cycle start comes to its end. -/
theorem State.Reached.finish (h : s.Reached g r base outs mark cs u) (hcs : QuietAbout g cs) :
    s.Reached g r base outs mark [] r.1 := by
  rw [← List.append_nil cs] at h
  obtain ⟨v, hv⟩ := h.skip hcs
  have hend : r.1 = v := hv.ends
  rw [hend]
  exact hv

/-! ### Outcomes -/

theorem State.Reached.marks (h : s.Reached g r base outs mark cs u) {i : Page} {st : Staging} (hm : s.Marks u i st) :
    s.Marks r.1 i st := by
  rw [h.ends]
  exact hm.takeCycleClaims cs

section
variable {c : Claim}

/-- The notices of the next claim are sent. -/
theorem State.Reached.sent (h : s.Reached g r base outs mark (.block c :: cs) u) {m : Message}
    (hm : m ∈ (u.takeClaim c).2) : SentIn r m :=
  ⟨{ sender := c.sender, message := m }, h.sends (List.mem_append_left _ (List.mem_map_of_mem hm)), rfl⟩

theorem takeClaim_hold_of_about {u : State} {g : Group} {c : Claim} (hc : CycleClaim.About (.block c) g) :
    (u.takeClaim c).1.hold = u.hold := by
  rcases hc with hc | hc <;> cases hc
  · exact u.takePoint_hold g
  · exact u.takeReport_hold g

theorem State.Reached.holds_next (h : s.Reached g r base outs mark (.block c :: cs) u)
    (hc : CycleClaim.About (.block c) g) : u.hold = if .block .countHolds ∈ cs then s.hold else s.hold.count := by
  have hne : CycleClaim.block .countHolds ≠ .block c := by
    rintro he
    rw [← he] at hc
    exact hc.elim nofun nofun
  rw [h.hold]
  simp only [List.mem_cons, hne, false_or]

theorem State.Reached.counters_next (h : s.Reached g r base outs mark (.block c :: cs) u)
    (hc : CycleClaim.About (.block c) g) : s.CountersAt g outs cs u := by
  have hne : CycleClaim.block .rollWatches ≠ .block c := by
    rintro he
    rw [← he] at hc
    exact hc.elim nofun nofun
  have hcounters := h.counters
  simp only [State.CountersAt, List.mem_cons, hne, false_or] at hcounters
  exact hcounters

theorem State.Reached.found_next (h : s.Reached g r base outs mark (.block c :: cs) u) :
    ∃ b, base.Unpublished g b u ∧ cs.count .countStagings ≤ if b then 0 else 1 := by
  obtain ⟨b, hun, hcount⟩ := h.found
  rw [List.count_cons_of_ne (by simp)] at hcount
  exact ⟨b, hun, hcount⟩

/-- The next claim gives the group an outcome x. -/
theorem State.Reached.outcome (h : s.Reached g r base outs mark (.block c :: cs) u)
    (hc : CycleClaim.About (.block c) g) (hgives : u.GivesOutcome g (u.takeClaim c)) {x : GroupStatus}
    (hx : (u.takeClaim c).1.pub.groups[g] = x)
    (hearly : .block .rollWatches ∈ cs → x.last = .catchUp ∨ x.last = .dropped) {base' : State}
    (hpages : ∀ b, base.Unpublished g b u → base'.Unpublished g b (u.takeClaim c).1) :
    s.Reached g r base' (outs ++ [x]) x.mark cs (u.takeClaim c).1 := by
  obtain ⟨b, hun, hcount⟩ := h.found_next
  obtain ⟨early, late, houts, hall, hlate, hcounted⟩ := h.counters_next hc
  have hcycle : x.cycle = s.sched.cycleCount := by rw [← hx, hgives.cycle, h.sched]
  have htold : SentIn r (s.groupPoint g x.last x.published x.late) := by
    rw [State.groupPoint, ← h.stamp]
    exact h.sent (hgives.notice hx)
  refine ⟨h.only.trans (u.takeClaim_only c).cycle, h.regular.sublist (List.sublist_cons_self ..),
    (takeClaim_hold_of_about hc).trans (h.holds_next hc), ⟨b, hpages b hun, hcount⟩,
    h.answering.takeCycleClaim (.block c), ?_, ?_, fun y hy => ?_, h.ends, fun y hy => h.sends (List.mem_append_right _ hy)⟩
  · rw [hx, List.getLastD_concat]
  · by_cases hroll : CycleClaim.block .rollWatches ∈ cs
    · refine ⟨early ++ [x], [], ?_, fun y hy => ?_, fun _ => rfl, fun n hn => ?_⟩
      · rw [List.append_nil, ← houts, hlate hroll, List.append_nil]
      · rcases List.mem_append.1 hy with hy | hy
        · exact hall y hy
        · rw [List.mem_singleton.1 hy]
          exact hearly hroll
      · rw [hgives.watches, hcounted n hn, if_pos hroll, if_pos hroll, Watch.afterAll_snoc, hx]
    · refine ⟨early, late ++ [x], by rw [← houts, List.append_assoc], hall, fun hin => absurd hin hroll, fun n hn => ?_⟩
      rw [hgives.watches, hcounted n hn, if_neg hroll, if_neg hroll, Watch.afterAll_snoc, hx]
  · rcases List.mem_append.1 hy with hy | hy
    · exact h.told y hy
    · rw [List.mem_singleton.1 hy]
      exact ⟨hcycle, htold⟩

/-- The next claim is a report that finds no mark (R66). -/
theorem State.Reached.report_unmarked (h : s.Reached g r base outs false (.block (.report g) :: cs) u) :
    s.Reached g r base outs false cs u := by
  have hmark : u.pub.groups[g].mark = false := by rw [h.group]
  have htaken : u.takeCycleClaim (.block (.report g)) = (u, []) := by
    show ((u.takeReport g).1, (u.takeReport g).2.map _) = _
    rw [State.takeReport_unmarked hmark]
    rfl
  have hends := h.ends
  have hsends := h.sends
  rw [State.takeCycleClaims_cons, htaken] at hends hsends
  exact ⟨h.only, h.regular.sublist (List.sublist_cons_self ..), h.holds_next (Or.inr rfl), h.found_next, h.answering,
    h.group, h.counters_next (Or.inr rfl), h.told, hends, hsends⟩

end

/-- A publication of group g within a cycle start from s that comes to r, taken in state a, where base shows the pages of the
group but for what the countdown and markings have made of their stagings (R24, R25, R63, R64). -/
structure State.Publication (s : State) (g : Group) (r : State × List Outgoing) (base a : State) : Prop where
  found : ∃ b, base.Unpublished g b a
  group : ∀ i, (a.map.page i).group = (s.map.page i).group
  cycle : a.sched.cycleCount = s.sched.cycleCount
  marks : ∀ i st, s.Marks a i st → s.Marks r.1 i st
  late : ∀ (i : Page) (st : Staging), a.map.late g i = true → (a.map.page i).staging = some st →
    SentIn r (s.address st.stager (.late i g))

theorem State.Reached.publication {c : Claim} (h : s.Reached g r base outs mark (.block c :: cs) u)
    (hlate : ∀ (i : Page) (st : Staging), u.map.late g i = true → (u.map.page i).staging = some st →
      u.address st.stager (.late i g) ∈ (u.takeClaim c).2) : s.Publication g r base u := by
  obtain ⟨b, hun, -⟩ := h.found
  refine ⟨⟨b, hun⟩, fun i => (h.answering.access i).2.2, congrArg Schedule.cycleCount h.sched, fun _ _ => h.marks,
    fun i st hl hs => ?_⟩
  rw [State.address, ← h.stamp]
  exact h.sent (hlate i st hl hs)

/-- A report of a marked and frozen group (R68). -/
theorem State.Reached.report_dropped (h : s.Reached g r base outs true (.block (.report g) :: cs) u)
    (hf : s.stop.frozen.getLsbD g.val = true) :
    ∃ v, s.Reached g r base (outs ++
      [{ last := .dropped, cycle := s.sched.cycleCount, published := 0, late := 0, mark := false }]) false cs v := by
  have hmark : u.pub.groups[g].mark = true := by rw [h.group]
  obtain ⟨hmap, hgroup⟩ := State.takeReport_dropped_leaves hmark (h.stop ▸ hf)
  rw [h.sched] at hgroup
  exact ⟨_, h.outcome (Or.inr rfl) (State.takeReport_givesOutcome hmark) hgroup (fun _ => Or.inr rfl) fun b hun =>
    hun.same (.block (.report g)) fun i _ => congrArg (ExchangeMap.page · i) hmap⟩

/-- A report of a marked group that is not frozen (R67). -/
theorem State.Reached.report_catchUp (h : s.Reached g r base outs true (.block (.report g) :: cs) u)
    (hf : s.stop.frozen.getLsbD g.val = false) :
    s.Publication g r base u ∧
      ∃ v, s.Reached g r (base.madeLive u g) (outs ++
        [{ last := .catchUp, cycle := s.sched.cycleCount, published := u.map.readyCount g, late := u.map.lateCount g
           mark := false }]) false cs v := by
  have hmark : u.pub.groups[g].mark = true := by rw [h.group]
  have hfu : u.stop.frozen.getLsbD g.val = false := h.stop ▸ hf
  obtain ⟨hmap, hgroup⟩ := State.takeReport_catchUp_leaves hmark hfu
  rw [h.sched] at hgroup
  exact ⟨h.publication fun i st hl hs => State.takeReport_late hmark hfu hl hs, _, h.outcome (Or.inr rfl)
    (State.takeReport_givesOutcome hmark) hgroup (fun _ => Or.inl rfl) fun b hun =>
      hun.madeLive hmap (State.port_congr (u.takeReport_only g).link)⟩

/-- A point of a frozen group (R60). -/
theorem State.Reached.point_frozen (h : s.Reached g r base outs mark (.block (.point g) :: cs) u)
    (hroll : .block .rollWatches ∉ cs) (hf : s.stop.frozen.getLsbD g.val = true) :
    ∃ v, s.Reached g r base (outs ++
      [{ last := .frozen, cycle := s.sched.cycleCount, published := 0, late := 0, mark := mark }]) mark cs v := by
  obtain ⟨hmap, hgroup⟩ := State.takePoint_frozen_leaves (g := g) (h.stop ▸ hf)
  have hmark : u.pub.groups[g].mark = mark := by rw [h.group]
  rw [h.sched, hmark] at hgroup
  exact ⟨_, h.outcome (Or.inl rfl) (u.takePoint_givesOutcome g) hgroup (fun hin => absurd hin hroll) fun b hun =>
    hun.same (.block (.point g)) fun i _ => congrArg (ExchangeMap.page · i) hmap⟩

/-- A point of a group that is held and not frozen (R61). -/
theorem State.Reached.point_deferred (h : s.Reached g r base outs mark (.block (.point g) :: cs) u)
    (hroll : .block .rollWatches ∉ cs) (hf : s.stop.frozen.getLsbD g.val = false) (hcovers : u.hold.covers g = true) :
    ∃ v, s.Reached g r base (outs ++
      [{ last := .deferred, cycle := s.sched.cycleCount, published := 0, late := 0, mark := true }]) true cs v := by
  obtain ⟨hmap, hgroup⟩ := State.takePoint_deferred_leaves (h.stop ▸ hf) ((HoldTable.covers_iff _ g).1 hcovers)
  rw [h.sched] at hgroup
  exact ⟨_, h.outcome (Or.inl rfl) (u.takePoint_givesOutcome g) hgroup (fun hin => absurd hin hroll) fun b hun =>
    hun.same (.block (.point g)) fun i _ => congrArg (ExchangeMap.page · i) hmap⟩

/-- A point of a group that is neither frozen nor held (R62). -/
theorem State.Reached.point_published (h : s.Reached g r base outs mark (.block (.point g) :: cs) u)
    (hroll : .block .rollWatches ∉ cs) (hf : s.stop.frozen.getLsbD g.val = false) (hcovers : u.hold.covers g = false) :
    s.Publication g r base u ∧
      ∃ v, s.Reached g r (base.madeLive u g) (outs ++
        [{ last := .published, cycle := s.sched.cycleCount, published := u.map.readyCount g, late := u.map.lateCount g
           mark := mark }]) mark cs v := by
  have hpoint := State.takePoint_published (g := g) (h.stop ▸ hf) hcovers
  obtain ⟨hgroup, -⟩ := u.publish_leaves g .published
  have hmap := u.publish_map g .published
  have hmark : u.pub.groups[g].mark = mark := by rw [h.group]
  rw [← hpoint] at hgroup hmap
  rw [h.sched, hmark] at hgroup
  refine ⟨h.publication fun i st hl hs => ?_, _, h.outcome (Or.inl rfl) (u.takePoint_givesOutcome g) hgroup
    (fun hin => absurd hin hroll) fun b hun => hun.madeLive hmap (State.port_congr (u.takePoint_only g).link)⟩
  show _ ∈ (u.takePoint g).2
  rw [hpoint]
  exact u.publish_late .published hl hs

end

end Sys2Proof.Machine
end

section
/-! SUPPORT. What a cycle start comes to for one group: the publications that it takes, and its outcomes in each order of
the claims (R59, R66, R70). -/

namespace Sys2Proof.Machine

/-! ### From the claims to the state behind the notices -/

/-- A cycle start from s begins slot 0 in u, its claims come to r, and with its notices it leaves t. -/
structure State.StartsInto (s u : State) (r : State × List Outgoing) (t : State) : Prop where
  begun : u = s.setSched (s.sched.beginCycle s.stop.anyActive)
  map : t.map = r.1.map
  pub : t.pub = r.1.pub
  hold : t.hold = r.1.hold
  port : ∀ q, t.port q = r.1.port q
  sched : t.sched = u.sched
  stamp : t.stamp = u.stamp
  found : ∀ m, SentIn r m → ∀ q : Port, m.recipients.reach q s.notice.ports[q] = true → t.Found q m.notice

theorem State.startCycle_startsInto (s : State) (pick : Nat → Nat) (earlier : List Message) {u : State}
    (hu : u = s.setSched (s.sched.beginCycle s.stop.anyActive)) :
    s.StartsInto u (u.takeCycleClaims (u.cycleStartClaims pick u.sched.slotPoint)) (s.startCycle pick earlier).bump := by
  obtain ⟨hsched, hstamp, -⟩ := s.startCycle_keeps pick earlier rfl
  have hnotice : u.notice = s.notice := by rw [hu, State.setSched_notice]
  have husched : u.sched = s.sched.beginCycle s.stop.anyActive := by rw [hu, State.setSched_sched]
  rw [← hu] at hstamp
  have hstart := s.startCycle_eq pick earlier hu
  refine ⟨hu, ?_, ?_, ?_, fun q => ?_, hsched.trans husched.symm, hstamp, fun m hm q hq => ?_⟩
  · rw [State.bump, State.setChoices_map, hstart]
    rfl
  · rw [State.bump, State.setChoices_pub, hstart]
    rfl
  · rw [State.bump, State.setChoices_hold, hstart]
    rfl
  · rw [State.bump, State.port_setChoices, hstart]
    rfl
  · obtain ⟨y, hy, rfl⟩ := hm
    have hfound : (s.startCycle pick earlier).Found q y.message.notice := by
      rw [hstart]
      exact State.notifyFrom_found (List.mem_append_right _ hy) (by rw [hnotice]; exact hq)
    exact hfound

section
variable {s u t : State} {r : State × List Outgoing} (hinto : s.StartsInto u r t)
include hinto

theorem State.StartsInto.blocks : u.map = s.map ∧ u.pub = s.pub ∧ u.hold = s.hold ∧ u.stop = s.stop := by
  rw [hinto.begun]
  exact ⟨State.setSched_map .., State.setSched_pub .., State.setSched_hold .., State.setSched_stop ..⟩

theorem State.StartsInto.marks {i : Page} {st : Staging} (h : u.Marks r.1 i st) : s.Marks t i st := by
  obtain ⟨hopen, hmay, ⟨pp, hwaits⟩, hanswer⟩ := h
  refine ⟨hopen, ?_, ⟨pp, ?_⟩, (congrArg LinkPort.tx (hinto.port _)).trans hanswer⟩
  · rwa [State.MayStage, hinto.blocks.1] at hmay
  · rwa [State.Awaits, hinto.begun, State.port_setSched] at hwaits

/-- A notice to a group's subscribers, as a cycle start's outcome sends it (R75). -/
theorem State.StartsInto.found_groupPoint {g : Group} {x : GroupStatus}
    (h : SentIn r (u.groupPoint g x.last x.published x.late)) {q : Port}
    (hq : s.notice.ports[q].subscription.getLsbD g.val = true) :
    t.Found q { stamp := t.stamp, body := .groupPoint g x.last x.published x.late } := by
  rw [hinto.stamp]
  exact hinto.found _ h q hq

theorem State.StartsInto.found_address {q : Port} {b : NoticeBody} (h : SentIn r (u.address q b)) :
    t.Found q { stamp := t.stamp, body := b } := by
  rw [hinto.stamp]
  exact hinto.found _ h q (decide_eq_true rfl)

end

/-! ### Publications -/

/-- The pages as the cycle start found them are what a publication of it can find (R24). -/
theorem State.finds_self (s t : State) (g : Group) : s.Finds t g s.map := by
  refine ⟨false, fun i => ⟨rfl, fun _ => ?_⟩⟩
  split
  · assumption
  · rename_i st hst
    rw [hst]
    exact .uncounted

section
variable {s u t a v : State} {g : Group} {r : State × List Outgoing}

/-- A page that the base of the end shows published is published at the end. -/
theorem State.Unpublished.ends_published {base : State} {b : Bool} (h : base.Unpublished g b u) {i : Page}
    {x : PageRecord} {c : CycleCount} (hx : x.group = g) (hi : base.map.page i = x.published c) :
    u.map.page i = x.published c := by
  rw [h.unstaged_page (by rw [hi]; exact hx) (by rw [hi]; rfl), hi]

/-- The one publication of a cycle start (R62 to R64, R67). -/
theorem State.Publication.alone (h : u.Publication g r u a) (hinto : s.StartsInto u r t) {b : Bool}
    (hend : (u.madeLive a g).Unpublished g b r.1) :
    ∃ m, s.Finds t g m ∧ s.PublishedAs t g m ∧ m.readyCount g = a.map.readyCount g ∧
      m.lateCount g = a.map.lateCount g := by
  obtain ⟨_, ha⟩ := h.found
  obtain ⟨hready, hlate⟩ := ExchangeMap.withGroup_counts g h.group
  refine ⟨u.map.withGroup a.map g, ha.finds hinto.blocks.1 fun i st hm => hinto.marks (h.marks i st hm),
    ⟨fun i hi => ?_, fun i st hi hst => ?_⟩, hready, hlate⟩
  · rw [(ExchangeMap.withGroup_readyLate g h.group i).1] at hi
    have hg : (u.map.page i).group = g := (h.group i).symm.trans (ExchangeMap.ready_group hi).1
    rw [hinto.map, hinto.sched, ← hinto.blocks.1]
    refine hend.ends_published hg ?_
    rw [State.madeLive_page, if_pos hi, h.cycle]
  · obtain ⟨hi, hpage⟩ := ExchangeMap.withGroup_late h.group hi
    rw [hpage] at hst
    exact hinto.found_address (h.late i st hi hst)

/-- Two publications of a cycle start, the point's behind the catch-up's (R70). -/
theorem State.Publication.twice (h : u.Publication g r u a) (h' : u.Publication g r (u.madeLive a g) v)
    (hinto : s.StartsInto u r t) {b : Bool} (hend : ((u.madeLive a g).madeLive v g).Unpublished g b r.1) :
    ∃ m m', (s.Finds t g m ∧ s.Finds t g m' ∧ ∀ i, m.ready g i = true → m'.ready g i = true) ∧
      (s.PublishedAs t g m ∧ s.PublishedAs t g m') ∧
      (m.readyCount g = a.map.readyCount g ∧ m.lateCount g = a.map.lateCount g) ∧
      m.newlyReadyCount m' g = v.map.readyCount g ∧ m'.lateCount g = v.map.lateCount g := by
  obtain ⟨_, ha⟩ := h.found
  obtain ⟨_, hv⟩ := h'.found
  have htwice : u.PublishedTwice g a v := ⟨h.found, h'.found, h.group, h'.group⟩
  have hready : ∀ i, (u.map.withGroup a.map g).ready g i = a.map.ready g i := fun i =>
    (ExchangeMap.withGroup_readyLate g h.group i).1
  have hlive : ∀ i, a.map.ready g i = true ∨ v.map.ready g i = true →
      t.map.page i = (s.map.page i).published t.sched.cycleCount := fun i hi => by
    have hg : (u.map.page i).group = g := by
      rcases hi with hi | hi
      · exact (h.group i).symm.trans (ExchangeMap.ready_group hi).1
      · exact (h'.group i).symm.trans (ExchangeMap.ready_group hi).1
    rw [hinto.map, hinto.sched, ← hinto.blocks.1]
    refine hend.ends_published hg ?_
    have hfirst := u.madeLive_page a g i
    cases hra : a.map.ready g i with
    | true =>
      rw [hra, if_pos rfl, h.cycle] at hfirst
      rw [hv.madeLive_unstaged (by rw [State.madeLive_group, hg]) (by rw [hfirst]; rfl), hfirst]
    | false =>
      rw [hra, if_neg Bool.false_ne_true] at hfirst
      have hrv : v.map.ready g i = true := hi.resolve_left (by rw [hra]; exact Bool.false_ne_true)
      rw [State.madeLive_page, if_pos hrv, hfirst, h'.cycle]
  refine ⟨u.map.withGroup a.map g, u.map.behind a.map v.map g, ⟨?_, ?_, fun i hi => ?_⟩,
    ⟨⟨fun i hi => hlive i (Or.inl ?_), fun i st hi hst => ?_⟩, ⟨fun i hi => hlive i ?_, fun i st hi hst => ?_⟩⟩,
    ExchangeMap.withGroup_counts g h.group, htwice.counts⟩
  · exact ha.finds hinto.blocks.1 fun i st hm => hinto.marks (h.marks i st hm)
  · exact htwice.finds hinto.blocks.1 (fun i st hm => hinto.marks (h.marks i st hm)) fun i st hm =>
      hinto.marks (h'.marks i st hm)
  · rw [hready] at hi
    rw [(htwice.readyLate i).1, hi]
    rfl
  · rwa [hready] at hi
  · obtain ⟨hi, hpage⟩ := ExchangeMap.withGroup_late h.group hi
    rw [hpage] at hst
    exact hinto.found_address (h.late i st hi hst)
  · rw [(htwice.readyLate i).1] at hi
    exact Bool.or_eq_true_iff.1 hi
  · obtain ⟨hi, hpage⟩ := htwice.late hi
    rw [hpage] at hst
    exact hinto.found_address (h'.late i st hi hst)

end

end Sys2Proof.Machine
end

section
/-! HEADLINE. A cycle start counts down and breaks holds, catches up what they deferred, and rolls the CYCLE-mode watch
counters (R58, R59, R66 to R68, R70, R78, R79, R91). -/

namespace Sys2Proof.Machine

/-! ### The outcomes of one group -/

/-- What the cycle start from s to t gives group g: outcomes in one of the orders that R70 allows, as the notices, the
status record, the mark, the pages and the counters tell. -/
def State.TakesOutcomes (s t : State) (g : Group) : Prop :=
  ∃ (point : Bool) (early late : List GroupStatus) (m m' : ExchangeMap),
    (point = true ↔ t.FirstPoint g) ∧ s.Finds t g m ∧ s.Finds t g m' ∧
    (∀ i : Page, m.ready g i = true → m'.ready g i = true) ∧
    s.CycleOutcomes g m m' point ((early ++ late).map fun x => (x.last, x.published, x.late)) ∧
    (∀ x ∈ early, x.last = .catchUp ∨ x.last = .dropped) ∧
    (∀ x ∈ early ++ late, x.cycle = t.sched.cycleCount ∧
      (∀ q : Port, s.notice.ports[q].subscription.getLsbD g.val = true →
        t.Found q { stamp := t.stamp, body := .groupPoint g x.last x.published x.late }) ∧
      (x.last = .published ∨ x.last = .catchUp → s.PublishedAs t g m ∧ s.PublishedAs t g m')) ∧
    ((∀ x ∈ early ++ late, x.last ≠ .published ∧ x.last ≠ .catchUp) →
      ∀ i : Page, (s.map.page i).group = g →
        (t.map.page i).live = (s.map.page i).live ∧ (t.map.page i).sequence = (s.map.page i).sequence) ∧
    t.pub.groups[g] = { (early ++ late).getLastD s.pub.groups[g] with mark := t.pub.groups[g].mark } ∧
    (t.pub.groups[g].mark = true ↔ ¬ s.Breaks g ∧
      (s.pub.groups[g].mark = true ∨ (point = true ∧ s.stop.frozen.getLsbD g.val = false ∧ s.Held g))) ∧
    ∀ n : WatchNo, s.pub.watches[n].group = g →
      t.pub.watches[n] =
        late.foldl (fun w x => w.after g x) (early.foldl (fun w x => w.after g x) s.pub.watches[n]).rolled

/-- A cycle start leaves group g its mark, or a point of it under a hold sets it; a break clears it (R58, R61, R66). -/
abbrev State.KeepsMark (s : State) (g : Group) (point : Bool) : Prop :=
  ¬ s.Breaks g ∧
    (s.pub.groups[g].mark = true ∨ (point = true ∧ s.stop.frozen.getLsbD g.val = false ∧ s.Held g))

theorem State.Breaks.clearsMark {s : State} {g : Group} (hb : s.Breaks g) (point : Bool) :
    false = true ↔ s.KeepsMark g point := iff_of_false Bool.false_ne_true fun hm => hm.1 hb

section
variable {s u t base v : State} {g : Group} {r : State × List Outgoing} {outs : List GroupStatus} {mark point : Bool}
  {cs : List CycleClaim} (hinto : s.StartsInto u r t)
include hinto

/-- The outcomes that stand at the end of the claims, with the maps that its publications find. -/
theorem State.Reached.concludes (h : u.Reached g r base outs mark [] v) (hpoint : point = true ↔ t.FirstPoint g)
    {m m' : ExchangeMap}
    (hfinds : s.Finds t g m ∧ s.Finds t g m' ∧ ∀ i, m.ready g i = true → m'.ready g i = true)
    (houts : s.CycleOutcomes g m m' point (outs.map fun x => (x.last, x.published, x.late)))
    (hpublished : ∀ x ∈ outs, x.last = .published ∨ x.last = .catchUp → s.PublishedAs t g m ∧ s.PublishedAs t g m')
    (hquiet : (∀ x ∈ outs, x.last ≠ .published ∧ x.last ≠ .catchUp) → base = u)
    (hmark : mark = true ↔ s.KeepsMark g point) :
    s.TakesOutcomes t g := by
  obtain ⟨hfm, hfm', hmono⟩ := hfinds
  obtain ⟨early, late, rfl, hearly, -, hwatches⟩ := h.counters
  have hend : r.1 = v := h.ends
  have hgroup : t.pub.groups[g] = { (early ++ late).getLastD s.pub.groups[g] with mark := mark } := by
    rw [hinto.pub, hend, h.group, hinto.blocks.2.1]
  refine ⟨point, early, late, m, m', hpoint, hfm, hfm', hmono, houts, hearly, fun x hx => ?_, fun hno i hi => ?_, ?_, ?_,
    fun n hn => ?_⟩
  · obtain ⟨hcycle, hsent⟩ := h.told x hx
    exact ⟨by rw [hinto.sched, hcycle], fun q hq => hinto.found_groupPoint hsent hq, hpublished x hx⟩
  · obtain ⟨b, hun, -⟩ := h.found
    rw [hquiet hno] at hun
    rw [hinto.map, hend, ← hinto.blocks.1]
    rw [← hinto.blocks.1] at hi
    rw [hun.page i hi]
    exact ⟨rfl, rfl⟩
  · rw [hgroup]
  · rw [hgroup]
    exact hmark
  · rw [← hinto.blocks.2.1] at hn ⊢
    rw [hinto.pub, hend, hwatches n hn, if_neg List.not_mem_nil]
    rfl

/-- Outcomes of which none publishes. -/
theorem State.Reached.concludes_quiet (h : u.Reached g r u outs mark [] v) (hpoint : point = true ↔ t.FirstPoint g)
    (houts : s.CycleOutcomes g s.map s.map point (outs.map fun x => (x.last, x.published, x.late)))
    (hquiet : ∀ x ∈ outs, x.last ≠ .published ∧ x.last ≠ .catchUp)
    (hmark : mark = true ↔ s.KeepsMark g point) :
    s.TakesOutcomes t g :=
  h.concludes hinto hpoint ⟨s.finds_self t g, s.finds_self t g, fun _ h => h⟩ houts
    (fun x hx hl => absurd hl (not_or.2 (hquiet x hx))) (fun _ => rfl) hmark

/-- Outcomes of which some publish. -/
theorem State.Reached.concludes_published (h : u.Reached g r base outs mark [] v)
    (hpoint : point = true ↔ t.FirstPoint g) {m m' : ExchangeMap}
    (hfinds : s.Finds t g m ∧ s.Finds t g m' ∧ ∀ i, m.ready g i = true → m'.ready g i = true)
    (hpublished : s.PublishedAs t g m ∧ s.PublishedAs t g m')
    (houts : s.CycleOutcomes g m m' point (outs.map fun x => (x.last, x.published, x.late)))
    (hsome : ∃ x ∈ outs, x.last = .published ∨ x.last = .catchUp) (hmark : mark = true ↔ s.KeepsMark g point) :
    s.TakesOutcomes t g := by
  refine h.concludes hinto hpoint hfinds houts (fun _ _ _ => hpublished) (fun hno => ?_) hmark
  obtain ⟨x, hx, hl⟩ := hsome
  exact absurd hl (not_or.2 (hno x hx))

/-- Outcomes of which one publishes, in state a. -/
theorem State.Reached.concludes_alone {a : State} (h : u.Reached g r (u.madeLive a g) outs mark [] v)
    (hpub : u.Publication g r u a) (hpoint : point = true ↔ t.FirstPoint g)
    (houts : ∀ m : ExchangeMap, m.readyCount g = a.map.readyCount g → m.lateCount g = a.map.lateCount g →
      s.CycleOutcomes g m m point (outs.map fun x => (x.last, x.published, x.late)))
    (hsome : ∃ x ∈ outs, x.last = .published ∨ x.last = .catchUp) (hmark : mark = true ↔ s.KeepsMark g point) :
    s.TakesOutcomes t g := by
  obtain ⟨b, hun, -⟩ := h.found
  have hend : r.1 = v := h.ends
  obtain ⟨m, hfinds, hpublished, hready, hlate⟩ := hpub.alone hinto (hend ▸ hun)
  exact h.concludes_published hinto hpoint ⟨hfinds, hfinds, fun _ h => h⟩ ⟨hpublished, hpublished⟩
    (houts m hready hlate) hsome hmark

/-- Outcomes of which two publish, the first in state a, the second in state d. -/
theorem State.Reached.concludes_twice {a d : State}
    (h : u.Reached g r ((u.madeLive a g).madeLive d g) outs mark [] v) (hpub : u.Publication g r u a)
    (hpub' : u.Publication g r (u.madeLive a g) d) (hpoint : point = true ↔ t.FirstPoint g)
    (houts : ∀ m m' : ExchangeMap, m.readyCount g = a.map.readyCount g → m.lateCount g = a.map.lateCount g →
      m.newlyReadyCount m' g = d.map.readyCount g → m'.lateCount g = d.map.lateCount g →
      s.CycleOutcomes g m m' point (outs.map fun x => (x.last, x.published, x.late)))
    (hsome : ∃ x ∈ outs, x.last = .published ∨ x.last = .catchUp) (hmark : mark = true ↔ s.KeepsMark g point) :
    s.TakesOutcomes t g := by
  obtain ⟨b, hun, -⟩ := h.found
  have hend : r.1 = v := h.ends
  obtain ⟨m, m', hfinds, hpublished, ⟨hready, hlate⟩, hready', hlate'⟩ := hpub.twice hpub' hinto (hend ▸ hun)
  exact h.concludes_published hinto hpoint hfinds hpublished (houts m m' hready hlate hready' hlate') hsome hmark

end

/-! ### The orders of the claims about a group -/

section
variable {s u t v : State} {g : Group} {r : State × List Outgoing} {first mid last : List CycleClaim}
  (hinto : s.StartsInto u r t)
include hinto

/-- Neither a point nor a break: no outcome. -/
theorem State.Reached.takes_nothing (h : u.Reached g r u [] s.pub.groups[g].mark first v) (hfirst : QuietAbout g first)
    (hb : ¬ s.Breaks g) (hpoint : ¬ t.FirstPoint g) : s.TakesOutcomes t g :=
  (h.finish hfirst).concludes_quiet hinto (iff_of_false Bool.false_ne_true hpoint) (.nothing fun hm => hb hm.1) nofun
    ⟨fun hm => ⟨hb, Or.inl hm⟩, fun hm => hm.2.resolve_right fun hx => nomatch hx.1⟩

/-- A point of a group of which no hold breaks (R59 to R62). -/
theorem State.Reached.takes_point (h : u.Reached g r u [] s.pub.groups[g].mark (first ++ .block (.point g) :: last) v)
    (hfirst : QuietAbout g first) (hlast : QuietAbout g last) (hroll : .block .rollWatches ∉ last)
    (hb : ¬ s.Breaks g) (hpoint : t.FirstPoint g) : s.TakesOutcomes t g := by
  obtain ⟨-, -, hhold, hstop⟩ := hinto.blocks
  obtain ⟨a, ha⟩ := h.skip hfirst
  have hcovers : a.hold.covers g = s.hold.covers g := by
    rw [ha.holds_next (Or.inl rfl), hhold]
    split
    · rfl
    · exact State.count_covers_of_not_breaks hb
  have hp : true = true ↔ t.FirstPoint g := iff_of_true rfl hpoint
  cases hf : s.stop.frozen.getLsbD g.val with
  | true =>
    obtain ⟨c, hc⟩ := ha.point_frozen hroll (hstop ▸ hf)
    exact (hc.finish hlast).concludes_quiet hinto hp (.frozen (fun hm => hb hm.1) hf) (by simp)
      ⟨fun hm => ⟨hb, Or.inl hm⟩, fun hm => hm.2.resolve_right fun hx => nomatch hf.symm.trans hx.2.1⟩
  | false =>
    cases hheld : s.hold.covers g with
    | true =>
      obtain ⟨c, hc⟩ := ha.point_deferred hroll (hstop ▸ hf) (hcovers.trans hheld)
      have hheld := (HoldTable.covers_iff _ g).1 hheld
      exact (hc.finish hlast).concludes_quiet hinto hp (.deferred hheld hb hf) (by simp)
        (iff_of_true rfl ⟨hb, Or.inr ⟨rfl, hf, hheld⟩⟩)
    | false =>
      obtain ⟨hpub, c, hc⟩ := ha.point_published hroll (hstop ▸ hf) (hcovers.trans hheld)
      have hnot : ¬ s.Held g := fun hh => absurd ((HoldTable.covers_iff _ g).2 hh) (by rw [hheld]; simp)
      refine (hc.finish hlast).concludes_alone hinto hpub hp (fun m hready hlate => ?_) (by simp)
        ⟨fun hm => ⟨hb, Or.inl hm⟩, fun hm => hm.2.resolve_right fun hx => hnot hx.2.2⟩
      rw [← hready, ← hlate]
      exact .published (fun hh => absurd hh hnot) hf

/-- A break of a group without a point (R66 to R68). -/
theorem State.Reached.takes_report {mark : Bool} (hmark : s.pub.groups[g].mark = mark)
    (h : u.Reached g r u [] mark (first ++ .block (.report g) :: last) v) (hfirst : QuietAbout g first)
    (hlast : QuietAbout g last) (hb : s.Breaks g) (hpoint : ¬ t.FirstPoint g) : s.TakesOutcomes t g := by
  obtain ⟨-, -, -, hstop⟩ := hinto.blocks
  obtain ⟨a, ha⟩ := h.skip hfirst
  have hp : false = true ↔ t.FirstPoint g := iff_of_false Bool.false_ne_true hpoint
  cases mark with
  | false =>
    exact (ha.report_unmarked.finish hlast).concludes_quiet hinto hp
      (.nothing fun hm => nomatch hmark.symm.trans hm.2) nofun (hb.clearsMark _)
  | true =>
    cases hf : s.stop.frozen.getLsbD g.val with
    | true =>
      obtain ⟨c, hc⟩ := ha.report_dropped (hstop ▸ hf)
      exact (hc.finish hlast).concludes_quiet hinto hp (.dropped hb hmark hf) (by simp) (hb.clearsMark _)
    | false =>
      obtain ⟨hpub, c, hc⟩ := ha.report_catchUp (hstop ▸ hf)
      refine (hc.finish hlast).concludes_alone hinto hpub hp (fun m hready hlate => ?_) (by simp) (hb.clearsMark _)
      rw [← hready, ← hlate]
      exact .catchUp hb hmark hf

/-- A break of a group before its point (R70). -/
theorem State.Reached.takes_reportThenPoint {mark : Bool} (hmark : s.pub.groups[g].mark = mark)
    (h : u.Reached g r u [] mark (first ++ .block (.report g) :: (mid ++ .block (.point g) :: last)) v)
    (hfirst : QuietAbout g first) (hmid : QuietAbout g mid) (hlast : QuietAbout g last)
    (hroll : .block .rollWatches ∉ last) (hholds : .block .countHolds ∉ last) (hb : s.Breaks g)
    (hpoint : t.FirstPoint g) : s.TakesOutcomes t g := by
  obtain ⟨-, -, hhold, hstop⟩ := hinto.blocks
  obtain ⟨a, ha⟩ := h.skip hfirst
  have hp : true = true ↔ t.FirstPoint g := iff_of_true rfl hpoint
  have hcovers : ∀ {base c : State} {outs : List GroupStatus} {k : Bool},
      u.Reached g r base outs k (.block (.point g) :: last) c → c.hold.covers g = false := fun hc => by
    rw [hc.holds_next (Or.inl rfl), if_neg hholds, hhold]
    exact ((s.breaks_iff g).1 hb).2
  cases mark with
  | false =>
    obtain ⟨c, hc⟩ := ha.report_unmarked.skip hmid
    cases hf : s.stop.frozen.getLsbD g.val with
    | true =>
      obtain ⟨d, hd⟩ := hc.point_frozen hroll (hstop ▸ hf)
      exact (hd.finish hlast).concludes_quiet hinto hp (.frozen (fun hm => nomatch hmark.symm.trans hm.2) hf) (by simp)
        (hb.clearsMark _)
    | false =>
      obtain ⟨hpub, d, hd⟩ := hc.point_published hroll (hstop ▸ hf) (hcovers hc)
      refine (hd.finish hlast).concludes_alone hinto hpub hp (fun m hready hlate => ?_) (by simp) (hb.clearsMark _)
      rw [← hready, ← hlate]
      exact .published (fun _ => ⟨hb, hmark⟩) hf
  | true =>
    cases hf : s.stop.frozen.getLsbD g.val with
    | true =>
      obtain ⟨c, hc⟩ := ha.report_dropped (hstop ▸ hf)
      obtain ⟨d, hd⟩ := hc.skip hmid
      obtain ⟨e, he⟩ := hd.point_frozen hroll (hstop ▸ hf)
      exact (he.finish hlast).concludes_quiet hinto hp (.droppedThenFrozen hb hmark hf) (by simp) (hb.clearsMark _)
    | false =>
      obtain ⟨hpub, c, hc⟩ := ha.report_catchUp (hstop ▸ hf)
      obtain ⟨d, hd⟩ := hc.skip hmid
      obtain ⟨hpub', e, he⟩ := hd.point_published hroll (hstop ▸ hf) (hcovers hd)
      refine (he.finish hlast).concludes_twice hinto hpub hpub' hp (fun m m' hready hlate hready' hlate' => ?_)
        (by simp) (hb.clearsMark _)
      rw [← hready, ← hlate, ← hready', ← hlate']
      exact .breakThenPoint hb hmark hf

/-- A point of a group before the break of its hold (R70). -/
theorem State.Reached.takes_pointThenReport {mark : Bool} (hmark : s.pub.groups[g].mark = mark)
    (h : u.Reached g r u [] mark (first ++ .block (.point g) :: (mid ++ .block (.report g) :: last)) v)
    (hfirst : QuietAbout g first) (hmid : QuietAbout g mid) (hlast : QuietAbout g last)
    (hroll : .block .rollWatches ∉ mid ++ last) (hholds : .block .countHolds ∈ mid) (hb : s.Breaks g)
    (hpoint : t.FirstPoint g) : s.TakesOutcomes t g := by
  obtain ⟨-, -, hhold, hstop⟩ := hinto.blocks
  obtain ⟨a, ha⟩ := h.skip hfirst
  have hp : true = true ↔ t.FirstPoint g := iff_of_true rfl hpoint
  have hcovers : a.hold.covers g = true := by
    rw [ha.holds_next (Or.inl rfl), if_pos (List.mem_append_left _ hholds), hhold]
    exact ((s.breaks_iff g).1 hb).1
  have hrolled : CycleClaim.block .rollWatches ∉ mid ++ .block (.report g) :: last := by
    simpa using hroll
  cases hf : s.stop.frozen.getLsbD g.val with
  | true =>
    obtain ⟨c, hc⟩ := ha.point_frozen hrolled (hstop ▸ hf)
    obtain ⟨d, hd⟩ := hc.skip hmid
    cases mark with
    | false =>
      exact (hd.report_unmarked.finish hlast).concludes_quiet hinto hp
        (.frozen (fun hm => nomatch hmark.symm.trans hm.2) hf) (by simp) (hb.clearsMark _)
    | true =>
      obtain ⟨e, he⟩ := hd.report_dropped (hstop ▸ hf)
      exact (he.finish hlast).concludes_quiet hinto hp (.frozenThenDropped hb hmark hf) (by simp) (hb.clearsMark _)
  | false =>
    obtain ⟨c, hc⟩ := ha.point_deferred hrolled (hstop ▸ hf) hcovers
    obtain ⟨d, hd⟩ := hc.skip hmid
    obtain ⟨hpub, e, he⟩ := hd.report_catchUp (hstop ▸ hf)
    refine (he.finish hlast).concludes_alone hinto hpub hp (fun m hready hlate => ?_) (by simp) (hb.clearsMark _)
    rw [← hready, ← hlate]
    exact .pointThenBreak hb hf

end

/-! ### A cycle start -/

/-- The current slot has a point of the group that its entry names, if it acts (R37). -/
theorem Schedule.slotPoint_iff {c : Schedule} {k : SlotNo} (h : c.slotIndex = k) (g : Group) :
    c.slotPoint = some g ↔
      c.activePlan.entries[k].group = some g ∧ c.activePlan.entries[k].Acts c.cycleCount := by
  subst h
  constructor
  · intro hp
    unfold Schedule.slotPoint at hp
    split at hp
    · rename_i hacts
      exact ⟨hp, eq_of_beq hacts⟩
    · cases hp
  · rintro ⟨hgroup, hacts⟩
    rw [Schedule.slotPoint_acts hacts, hgroup]

section
variable {s u t : State} {pick : Nat → Nat}
  (hinto : s.StartsInto u (u.takeCycleClaims (u.cycleStartClaims pick u.sched.slotPoint)) t)
include hinto

/-- Each group through a cycle start, in the order in which its claims stand (R59, R66, R70). -/
theorem State.StartsInto.takesOutcomes (g : Group) : s.TakesOutcomes t g := by
  have hstart := State.Reached.start u pick u.sched.slotPoint g
  have hstanding := u.standing pick u.sched.slotPoint g
  have hb : g ∈ u.hold.uncovered u.hold.count ↔ s.Breaks g := by
    rw [HoldTable.mem_uncovered, hinto.blocks.2.2.1]
    exact (s.breaks_iff g).symm
  have hp : u.sched.slotPoint = some g ↔ t.FirstPoint g := by
    rw [State.FirstPoint, hinto.sched]
    exact Schedule.slotPoint_iff (by rw [hinto.begun, State.setSched_sched, Schedule.beginCycle_eq]) g
  rw [hinto.blocks.2.1] at hstart
  rw [decide_eq_decide.2 hb, decide_eq_decide.2 hp] at hstanding
  generalize hbreaks : decide (s.Breaks g) = breaks at hstanding
  generalize hpoint : decide (t.FirstPoint g) = point at hstanding
  generalize u.takeCycleClaims (u.cycleStartClaims pick u.sched.slotPoint) = r at hinto hstart
  generalize u.cycleStartClaims pick u.sched.slotPoint = cs at hstart hstanding
  cases hstanding with
  | none hquiet =>
    exact hstart.takes_nothing hinto hquiet (of_decide_eq_false hbreaks) (of_decide_eq_false hpoint)
  | point first last hcs hfirst hlast hroll =>
    subst hcs
    exact hstart.takes_point hinto hfirst hlast hroll (of_decide_eq_false hbreaks) (of_decide_eq_true hpoint)
  | report first last hcs hfirst hlast =>
    subst hcs
    exact hstart.takes_report hinto rfl hfirst hlast (of_decide_eq_true hbreaks) (of_decide_eq_false hpoint)
  | reportThenPoint first mid last hcs hfirst hmid hlast hroll hholds =>
    subst hcs
    exact hstart.takes_reportThenPoint hinto rfl hfirst hmid hlast hroll hholds (of_decide_eq_true hbreaks)
      (of_decide_eq_true hpoint)
  | pointThenReport first mid last hcs hfirst hmid hlast hroll hholds =>
    subst hcs
    exact hstart.takes_pointThenReport hinto rfl hfirst hmid hlast hroll hholds (of_decide_eq_true hbreaks)
      (of_decide_eq_true hpoint)

/-- The holds are counted down once (R91). -/
theorem State.StartsInto.counts_holds : t.hold = s.hold.count := by
  have hcount := u.count_countHolds pick u.sched.slotPoint
  rw [hinto.hold, u.takeCycleClaims_hold (u.removeHold_not_mem pick _) hcount.le,
    if_pos (List.count_pos_iff.1 (by omega)), hinto.blocks.2.2.1]

/-- The holder of a record that breaks finds HOLD_BROKEN (R91, R92). -/
theorem State.StartsInto.found_holdBroken {p : Port} {h : Hold} (hp : s.hold.records[p] = some h)
    (hl : h.cyclesLeft ≤ 1) : t.Found p { stamp := t.stamp, body := .holdBroken h.groups } := by
  have hcount := u.count_countHolds pick u.sched.slotPoint
  have hremove := u.removeHold_not_mem pick u.sched.slotPoint
  refine hinto.found_address ?_
  generalize u.cycleStartClaims pick u.sched.slotPoint = cs at hcount hremove
  obtain ⟨before, behind, rfl⟩ := List.append_of_mem (List.count_pos_iff.1 (by omega :
    0 < cs.count (.block .countHolds)))
  rw [List.count_append, List.count_cons_self] at hcount
  have hbefore : CycleClaim.block .countHolds ∉ before := List.count_eq_zero.1 (by omega)
  have hhold := u.takeCycleClaims_hold (fun q hq => hremove q (List.mem_append_left _ hq))
    (by omega : before.count (.block .countHolds) ≤ 1)
  have hstamp := u.takeCycleClaims_stamp before
  rw [if_neg hbefore, hinto.blocks.2.2.1] at hhold
  rw [State.takeCycleClaims_append, State.takeCycleClaims_cons]
  generalize (u.takeCycleClaims before).1 = a at hhold hstamp
  have hbroken : a.address p (.holdBroken h.groups) ∈ a.holdBroken := by
    refine List.mem_filterMap.2 ⟨p, List.mem_finRange p, ?_⟩
    rw [hhold, hp]
    exact if_pos hl
  rw [State.address, ← hstamp]
  exact ⟨{ sender := .holdTable, message := a.address p (.holdBroken h.groups) },
    List.mem_append_right _ (List.mem_append_left _ (List.mem_map_of_mem hbroken)), rfl⟩

end

/-- Settles O32: the holds by their countdown, each group by the outcomes that its claims give it in their order. -/
theorem cycleStartCountsHoldsAndRollsWatches : Obligations.CycleStartCountsHoldsAndRollsWatches := by
  refine fun c => comesTo_of_cycleStart fun s pick earlier _ => ?_
  have hinto := s.startCycle_startsInto pick earlier rfl
  have hhold := hinto.counts_holds
  refine ⟨by rw [hhold]; rfl, fun p => ?_, fun p h => hinto.found_holdBroken, hinto.takesOutcomes⟩
  rw [hhold, HoldTable.count_record]
  rfl

end Sys2Proof.Machine
end

section
/-! SUPPORT. The view unit's requests (R101, R103, R112, R113), and what a refusal of the access check leaves behind it
(R104 to R111, R113). -/

namespace Sys2Proof.Machine

/-! ### The report of a fault record's occupancy -/

/-- A report of a fault record's occupancy changes it at its port, with the attention line that follows it, and nothing
else (R113, R161, R162). -/
theorem State.takeNotices_faultReport (s : State) (p q : Port) (occupied : Bool) :
    if q = p then
      (s.takeNotices [.faultReport p occupied]).notice.ports[q] =
        { s.notice.ports[q] with
          faultOccupied := occupied
          attn := (s.takeNotices [.faultReport p occupied]).notice.ports[q].attn }
    else (s.takeNotices [.faultReport p occupied]).notice.ports[q] = s.notice.ports[q] := by
  have htake : (s.takeNotices [.faultReport p occupied]).notice.ports[q] =
      if q = p then s.notice.ports[q].reportFault occupied else s.notice.ports[q] :=
    NoticeUnit.take_ports s.notice (.faultReport p occupied) q
  rw [htake]
  split <;> rfl

/-! ### FAULT_TAKE -/

theorem exec_faultTake {s : State} {p : Port} (hr : s.ReadyFor p) :
    exec (.faultTake p) s = .next ((s.receive p (Instr.faultTake p).record).takeFault p) :=
  congrArg _ (State.serve_accepted _ hr rfl rfl)

theorem State.takeFault_none {s : State} {p : Port} (h : s.view.faults[p] = none) :
    s.takeFault p = s.answer p .nothingThere [] := by
  simp [State.takeFault, h]

theorem State.takeFault_some {s : State} {p : Port} {r : FaultRecord} (h : s.view.faults[p] = some r) :
    s.takeFault p =
      ((s.setView (s.view.emptyFault p)).takeNotices [.faultReport p false]).answer p .ok r.bytes := by
  simp [State.takeFault, h]

theorem FaultRecord.bytes_eq (r : FaultRecord) :
    r.bytes =
      [r.cause.code, r.request.code, byteOf r.portPage.val, byteOf r.offset.val, r.cycle.setWidth 8,
        (if r.repeated then 1 else 0)] := by
  unfold FaultRecord.bytes yesNo
  rfl

/-- Settles O37: the record is empty or occupied. -/
theorem faultTakeEmptiesTheRecord : Obligations.FaultTakeEmptiesTheRecord := by
  intro p s hr
  refine ⟨fun hnone => ?_, fun r hsome => ?_⟩
  · have htake := State.takeFault_none (s := s.receive p (Instr.faultTake p).record) hnone
    rw [exec_faultTake hr, htake, State.answer_receive]
  · have htake := State.takeFault_some (s := s.receive p (Instr.faultTake p).record) hsome
    refine ⟨_, exec_faultTake hr, ?_, fun q => ?_⟩
    · rw [htake, FaultRecord.bytes_eq]
      simp [State.answer_eq, State.answered, State.receive_eq, ViewUnit.emptyFault, State.takeNotices]
    · rw [htake, State.answer_notice]
      exact State.takeNotices_faultReport
        ((s.receive p (Instr.faultTake p).record).setView (s.view.emptyFault p)) p q false

/-! ### VIEW_SET and VIEW_GET -/

/-- The operands of VIEW_SET on an in-range entry, and on an absent one with whatever page and rights (R101, R170). -/
theorem viewParams_of (t : Port) (pp : PortPage) {e : Option ViewEntry} {presence rights : Byte} {page : Word16}
    (h : match e with
      | none => presence = 0
      | some x => presence = 1 ∧ page = BitVec.ofNat 16 x.page.val ∧ rights = twoFlags x.read x.stage) :
    viewParams (byteOf t.val) (byteOf pp.val) presence page rights =
      some { target := t, portPage := pp, entry := e } := by
  have hentry : viewEntryOf? presence page rights = some e := by
    cases e with
    | none => subst h; rfl
    | some x =>
      obtain ⟨rfl, rfl, rfl⟩ := h
      simp [viewEntryOf?, boolOf?]
  simp [viewParams, hentry]

theorem ViewEntry.bytes_eq (e : Option ViewEntry) :
    ViewEntry.bytes e =
      match e with
      | none => [0, 0, 0, 0]
      | some x => [1, byteOf x.page.val, byteOf (x.page.val / 256), twoFlags x.read x.stage] := by
  cases e with
  | none => rfl
  | some x => exact congrArg (1 :: · ++ [twoFlags x.read x.stage]) (bytesOf16_eq x.page.val)

/-- VIEW_GET's six flags in one byte (R174): five, and one above them. -/
theorem sixFlags_bit (a b c d e f : Bool) (k : Nat) :
    (byteOf (a.toNat + 2 * b.toNat + 4 * c.toNat + 8 * d.toNat + 16 * e.toNat + 32 * f.toNat)).getLsbD k =
      match k with
      | 0 => a
      | 1 => b
      | 2 => c
      | 3 => d
      | 4 => e
      | 5 => f
      | _ => false := by
  have hlow := flags_bit a b c d e k
  have hlt : a.toNat + 2 * b.toNat + 4 * c.toNat + 8 * d.toNat + 16 * e.toNat < 2 ^ 5 := by
    have := Bool.toNat_le a
    have := Bool.toNat_le b
    have := Bool.toNat_le c
    have := Bool.toNat_le d
    have := Bool.toNat_le e
    omega
  generalize a.toNat + 2 * b.toNat + 4 * c.toNat + 8 * d.toNat + 16 * e.toNat = n at hlow hlt
  have hbit : (n + 32 * f.toNat).testBit k = if k < 5 then n.testBit k else f.toNat.testBit (k - 5) := by
    rw [Nat.add_comm]
    exact Nat.testBit_two_pow_mul_add f.toNat hlt k
  rw [byteOf, BitVec.getLsbD_ofNat] at hlow ⊢
  rw [hbit]
  match k with
  | 0 | 1 | 2 | 3 | 4 => exact hlow
  | 5 => cases f <;> rfl
  | k + 6 =>
    have hone : f.toNat < 2 ^ (k + 6 - 5) := lt_of_le_of_lt (Bool.toNat_le f) (Nat.one_lt_two_pow (by omega))
    rw [if_neg (by omega), Nat.testBit_lt_two_pow hone, Bool.and_false]
    rfl

/-- The body of VIEW_GET, its flags spelled out (R103, R174). -/
theorem State.viewGetBody_eq (s : State) (t : Port) (pp : PortPage) :
    ∃ flags : Byte,
      s.viewGetBody t pp =
          ([byteOf t.val, byteOf pp.val, flags] ++
            match s.view.views[t][pp] with
            | none => [0, 0]
            | some x => [byteOf x.page.val, byteOf (x.page.val / 256)]) ∧
        ∀ k, flags.getLsbD k =
          match s.view.views[t][pp] with
          | none => false
          | some x =>
            match k with
            | 0 => true
            | 1 => x.read
            | 2 => x.stage
            | 3 => (s.map.page x.page).defined
            | 4 => x.read && (s.map.page x.page).defined && (s.map.page x.page).readers.getLsbD t.val
            | 5 => x.stage && (s.map.page x.page).defined && (s.map.page x.page).writers.getLsbD t.val
            | _ => false := by
  unfold State.viewGetBody ViewUnit.entry
  cases s.view.views[t][pp] with
  | none => exact ⟨0, rfl, fun k => BitVec.getLsbD_zero⟩
  | some x =>
    dsimp only
    rw [bytesOf16_eq]
    exact ⟨_, rfl, sixFlags_bit true x.read x.stage _ _ _⟩

theorem exec_viewSet {s : State} {p t : Port} {pp : PortPage} {e : Option ViewEntry} {presence rights : Byte}
    {page : Word16} (hr : s.ReadyFor p) (ha : s.MapAllowed p)
    (h : viewParams (byteOf t.val) (byteOf pp.val) presence page rights =
      some { target := t, portPage := pp, entry := e }) :
    exec (.viewSet p (byteOf t.val) (byteOf pp.val) presence page rights) s =
      .next ((s.setView (s.view.setEntry t pp e)).answered p
        (.viewSet p (byteOf t.val) (byteOf pp.val) presence page rights) .ok
        (ViewEntry.bytes (s.view.entry t pp))) := by
  refine congrArg Host.Outcome.next ((State.serve_accepted _ hr h ha.lacks).trans ?_)
  rw [← State.answer_receive]
  rfl

theorem exec_viewGet {s : State} {p : Port} (t : Port) (pp : PortPage) (hr : s.ReadyFor p) :
    exec (.viewGet p (byteOf t.val) (byteOf pp.val)) s =
      .next (s.answered p (.viewGet p (byteOf t.val) (byteOf pp.val)) .ok (s.viewGetBody t pp)) := by
  have hparams : viewGetParams (byteOf t.val) (byteOf pp.val) = some (t, pp) := by simp [viewGetParams]
  refine congrArg Host.Outcome.next ((State.serve_accepted _ hr hparams rfl).trans ?_)
  rw [← State.answer_receive]
  rfl

/-- Settles O36: VIEW_SET by its operands, present and absent; VIEW_GET flag by flag. -/
theorem viewSetAndGet : Obligations.ViewSetAndGet := by
  intro p t pp s hr
  refine ⟨fun e presence rights page ha he => ?_, ?_⟩
  · rw [exec_viewSet hr ha (viewParams_of t pp he), ViewEntry.bytes_eq]
    rfl
  · obtain ⟨flags, hbody, hflags⟩ := s.viewGetBody_eq t pp
    have hanswer := congrArg (s.answered p (.viewGet p (byteOf t.val) (byteOf pp.val)) .ok) hbody
    exact ⟨flags, (exec_viewGet t pp hr).trans (congrArg _ hanswer), hflags⟩

end Sys2Proof.Machine
end

section
/-! SUPPORT. A request leaves every port but its own as it was, the rights aside (R109, R177). -/

namespace Sys2Proof.Machine

/-- From s to t port p is as it was, but for its rights, which a PORT_RIGHTS_SET of another port sets (R177). -/
def State.Spares (s t : State) (p : Port) : Prop := t.port p = { s.port p with rights := (t.port p).rights }

theorem State.Spares.of_port {s t : State} {p : Port} (h : t.port p = s.port p) : s.Spares t p := by
  rw [State.Spares, h]

theorem State.Spares.of_link {s t : State} {p : Port} (h : t.link = s.link) : s.Spares t p :=
  .of_port (State.port_congr h p)

theorem State.Spares.trans {s t u : State} {p : Port} (h : s.Spares t p) (h' : t.Spares u p) : s.Spares u p := by
  unfold State.Spares at *
  rw [h', h]

theorem State.setPort_spares (s : State) {p q : Port} (hp : p ≠ q) (l : LinkPort) : s.Spares (s.setPort q l) p :=
  .of_port (s.port_setPort_ne l hp)

theorem State.setRights_spares (s : State) (p q : Port) (r : Rights) :
    s.Spares (s.setPort q { s.port q with rights := r }) p := by
  by_cases hp : p = q
  · subst hp
    simp [State.Spares]
  · exact s.setPort_spares hp _

section
variable {p q : Port} (hp : p ≠ q)
include hp

theorem State.Spares.answer {s t : State} (h : s.Spares t p) (c : Status) (b : List Byte) :
    s.Spares (t.answer q c b) p := h.trans (t.setPort_spares hp _)

theorem State.answer_spares (s : State) (c : Status) (b : List Byte) : s.Spares (s.answer q c b) p :=
  s.setPort_spares hp _

theorem State.OnlyReplies.spares {s t : State} (h : s.OnlyReplies q t) : s.Spares t p := by
  obtain ⟨v, c, b, rfl, -, hlink, -⟩ := h
  exact (State.Spares.of_link hlink).answer hp c b

theorem State.inSetup_spares {s : State} {act : State → State} (h : s.part = .setup → s.Spares (act s) p) :
    s.Spares (s.inSetup q act) p := by
  unfold State.inSetup
  split
  · exact h ‹_›
  · exact s.answer_spares hp _ _

/-- A request served spares the other ports if its own operation does. -/
theorem State.serve_spares {α : Type} (s : State) (record : List Byte) (right : Option RightName) (params : Option α)
    (act : α → State → State) (hact : ∀ a, (s.receive q record).Spares (act a (s.receive q record)) p) :
    s.Spares (s.serve q record right params act) p := by
  have hreceive : s.Spares (s.receive q record) p := s.setPort_spares hp _
  rcases s.serve_cases q record right params act with h | ⟨c, h⟩ | ⟨a, -, h⟩ <;> rw [h]
  · exact .of_port rfl
  · exact hreceive.answer hp c []
  · exact hreceive.trans (hact a)

/-! ### Data requests -/

theorem State.refuseData_spares (s : State) (x : DataCall) (c : FaultCause) : s.Spares (s.refuseData q x c) p := by
  rw [State.refuseData_only]
  exact State.setPort_spares _ hp _

theorem State.takePagePart_spares (s : State) (x : DataCall) (i : Page) : s.Spares (s.takePagePart q x i) p := by
  have h := s.takePagePart_cases q x i
  generalize s.takePagePart q x i = t at h
  cases h with
  | refused c => exact s.refuseData_spares hp x c
  | reads r number t =>
    rw [State.beginRead_eq]
    exact State.setPort_spares _ hp _
  | answered | refusedWrite | writes | opens | marks | drops => exact State.setPort_spares _ hp _

theorem State.acceptCall_spares (s : State) (x : DataCall) : s.Spares (s.acceptCall q x) p := by
  unfold State.acceptCall
  split
  · exact s.refuseData_spares hp x _
  · rename_i i _
    have hawait : s.Spares (s.setPort q { s.port q with tx := .accepted (.pagePart x i) }).bump p :=
      s.setPort_spares hp _
    dsimp only
    split
    · exact hawait.trans (State.takePagePart_spares hp _ x i)
    · exact hawait

/-! ### Requests on pages -/

theorem State.definePage_spares (s : State) (x : PageParams) : s.Spares (s.definePage q x) p := by
  unfold State.definePage
  split <;> exact State.setPort_spares _ hp _

theorem State.onQuietPage_spares (s : State) (i : Page) (m : State → ExchangeMap) :
    s.Spares (s.onQuietPage q i fun s => s.setMap (m s)) p := by
  unfold State.onQuietPage
  split
  · split <;> exact State.setPort_spares _ hp _
  · exact State.setPort_spares _ hp _

/-! ### Requests with claims of several blocks -/

theorem State.takeResetClaims_spares (s : State) (left now : ResetClaims) :
    s.Spares (s.takeResetClaims q left now) p := by
  have hlink := s.takeResetClaims_link q left now
  exact (s.setPort_spares hp _).trans (.of_link hlink)

theorem State.releaseHold_spares (s : State) : s.Spares (s.releaseHold q) p := by
  unfold State.releaseHold
  split
  · exact s.answer_spares hp _ _
  · have hend : (s.endHold q).link = s.link := (s.takeClaims_only (s.holdRemovalClaims q)).link
    exact (State.Spares.of_link hend).answer hp _ _

theorem State.refuseHeader_spares (s : State) (a b : Byte) : s.Spares (s.refuseHeader q a b) p := by
  have hreceive : s.Spares (s.receive q [a, b]) p := s.setPort_spares hp _
  unfold State.refuseHeader
  split
  · split
    · exact hreceive
    · exact hreceive.answer hp _ _
  · exact .of_port rfl

end

/-! ### START -/

/-- A cycle start that meets no staging answers no STAGE_READY (R26). -/
theorem State.startCycle_spares {s : State} {p : Port} (h : ∀ i, (s.map.page i).staging = none) (pick : Nat → Nat)
    (earlier : List Message) : s.Spares (s.startCycle pick earlier) p := by
  rcases s.startCycle_answers pick earlier p with hport | ⟨i, st, hst, -⟩
  · exact .of_port hport
  · exact nomatch (h i).symm.trans hst

/-- START meets no staging, by the law of SETUP (R178, R179). -/
theorem State.startPart_spares {s : State} {p : Port} (hlaw : s.SetupLaw) (h : s.part = .setup) :
    s.Spares s.startPart p := by
  unfold State.startPart State.startSchedule
  split
  · exact State.startCycle_spares (s := (s.setPart .run).setSched _) (hlaw h).1 s.draw []
  · exact .of_port rfl

/-! ### Every request -/

/-- A request of port q leaves port p as it was, its rights aside. -/
theorem exec_spares {c : Instr} {p q : Port} {s t : State} (hlaw : s.SetupLaw) (hc : c.requestPort? = some q)
    (hq : q ≠ p) (h : exec c s = .next t) : s.Spares t p := by
  have hp : p ≠ q := hq.symm
  cases c <;> cases hc <;> cases h
  case partStatus | pageStatus | planRead | groupStatus | watchRead | holdRead | viewGet | stopRead | timeRead
      | viewSet | watchSet | trimSet | timeSet | alarmSet | portSelf =>
    exact s.serve_spares hp _ _ _ _ fun _ => State.setPort_spares _ hp _
  case start =>
    exact s.serve_spares hp _ _ _ _ fun _ => State.inSetup_spares hp fun hsetup =>
      (State.startPart_spares (s := s.receive _ _) hlaw hsetup).answer hp _ _
  case halt =>
    refine s.serve_spares hp _ _ _ _ fun _ => ?_
    split <;> exact State.setPort_spares _ hp _
  case portReset => exact s.serve_spares hp _ _ _ _ fun _ => State.takeResetClaims_spares hp _ _ _
  case portRightsSet =>
    exact s.serve_spares hp _ _ _ _ fun x => State.inSetup_spares hp fun _ =>
      (State.setRights_spares _ p x.1 x.2).answer hp _ _
  case definePage => exact s.serve_spares hp _ _ _ _ fun x => State.definePage_spares hp _ x
  case pageSet => exact s.serve_spares hp _ _ _ _ fun x => State.onQuietPage_spares hp _ x.page _
  case retirePage => exact s.serve_spares hp _ _ _ _ fun i => State.onQuietPage_spares hp _ i _
  case stageLimit | syncSet | holdLimit =>
    exact s.serve_spares hp _ _ _ _ fun _ => State.inSetup_spares hp fun _ => State.setPort_spares _ hp _
  case read | stageOpen | stageWrite | stageRead | stageReady | stageDrop =>
    exact s.serve_spares hp _ _ _ _ fun _ => State.acceptCall_spares hp _ _
  case slotSet | planLength =>
    exact s.serve_spares hp _ _ _ _ fun _ => (State.editPlan_replies _ _ _ _).spares hp
  case planSwitch => exact s.serve_spares hp _ _ _ _ fun _ => (State.switchPlan_replies _ _).spares hp
  case hold => exact s.serve_spares hp _ _ _ _ fun g => (State.takeHold_replies _ _ g).spares hp
  case release => exact s.serve_spares hp _ _ _ _ fun _ => State.releaseHold_spares hp _
  case faultTake => exact s.serve_spares hp _ _ _ _ fun _ => (State.takeFault_replies _ _).spares hp
  case stopSet =>
    exact s.serve_spares hp _ _ _ _ fun x => State.inSetup_spares hp fun _ =>
      (State.setStopLine_replies _ _ x _).spares hp
  case stopClear => exact s.serve_spares hp _ _ _ _ fun l => (State.clearStop_replies _ _ l).spares hp
  case noticePeek => exact s.serve_spares hp _ _ _ _ fun _ => (State.peekNotice_replies _ _).spares hp
  case noticePop => exact s.serve_spares hp _ _ _ _ fun _ => (State.popNotice_replies _ _).spares hp
  case badRequest => exact s.refuseHeader_spares hp _ _

end Sys2Proof.Machine
end

section
/-! SUPPORT. What a refusal of the access check leaves behind it (R104 to R108, R111, R113). -/

namespace Sys2Proof.Machine

/-- The fault record that a refusal leaves: filled, or its repeated flag set (R110, R111). -/
theorem State.recordFault_view (s : State) (p : Port) (c : FaultCause) (x : DataCall) :
    (s.recordFault p c x).view =
      { s.view with
        faults := s.view.faults.set p
          (match s.view.faults[p] with
            | some r => some { r with repeated := true }
            | none => some
              { cause := c, request := x.request, portPage := x.portPage, offset := x.offset
                cycle := s.sched.cycleCount, repeated := false }) } := by
  unfold State.recordFault
  cases hrecord : s.view.faults[p] <;> simp

/-- The occupancy is reported where the record was empty (R113). -/
theorem State.recordFault_notice (s : State) (p : Port) (c : FaultCause) (x : DataCall) (r : Port) :
      if r = p ∧ s.view.faults[p] = none then
        (s.recordFault p c x).notice.ports[r] =
          { s.notice.ports[r] with faultOccupied := true, attn := (s.recordFault p c x).notice.ports[r].attn }
      else (s.recordFault p c x).notice.ports[r] = s.notice.ports[r] := by
  unfold State.recordFault
  cases hrecord : s.view.faults[p] with
  | none =>
    simp only [and_true]
    exact State.takeNotices_faultReport _ p r true
  | some _ =>
    simp only [reduceCtorEq, and_false, if_false]
    rfl

/-- The port after a refusal: answered, or in the data phase of its STAGE_WRITE with the refusal (R108). -/
theorem State.refuseData_link (s : State) (p : Port) (x : DataCall) (c : FaultCause) :
    (s.refuseData p x c).link =
      (s.setPort p
        (match x with
          | .stageWrite b => { s.port p with tx := .writeData b.length (some c.status), write := none }
          | _ => { s.port p with tx := .response { status := c.status, body := [] } })).link := by
  have h := s.recordFault_only p c x
  cases x <;> (unfold State.refuseData; dsimp only; rw [h]; rfl)

/-- A refusal does what the rules say of it, and nothing else (R104 to R108, R111, R113). -/
theorem State.refuseData_refused (s : State) (p : Port) (x : DataCall) (c : FaultCause) :
    s.Refused (s.refuseData p x c) p x c := by
  have hview : (s.refuseData p x c).view = (s.recordFault p c x).view := by
    cases x <;> rfl
  have hnotice : (s.refuseData p x c).notice = (s.recordFault p c x).notice := by
    cases x <;> rfl
  refine ⟨s.refuseData_link p x c, hview.trans (s.recordFault_view p c x), fun r => ?_, ?_⟩
  · rw [hnotice]
    exact s.recordFault_notice p c x r
  · rw [s.refuseData_only p x c]
    exact ⟨rfl, rfl, rfl, rfl, rfl, rfl, rfl, rfl, rfl⟩

/-- A data request comes to what its exchange map's claim comes to, at its command or later (R104, R109). -/
theorem DataCall.gives_of_takePagePart {x : DataCall} (hx : x.InRange) {p : Port} {i : Page} {cond : State → Prop}
    {result : State → State → Prop} (haccepting : ∀ s, cond s → cond (s.accepting p x i))
    (hresult : ∀ s, cond s → result s (s.takePagePart p x i)) : x.Gives p i cond result := by
  have hsettle : ∀ s : State, s.Awaits p x i → cond s → result s (s.settle p) := fun s hw hc => by
    rw [State.settle_pagePart hw]
    exact hresult s hc
  refine ⟨fun s hr ⟨e, he, ha, hpage⟩ hc => ⟨_, exec_command hx hr, ?_⟩, hsettle⟩
  subst hpage
  rcases State.acceptCall_ok (State.viewPart_ok he ha) with h | h <;> rw [h]
  · exact Or.inl (hsettle _ (s.accepting_awaits p x e.page) (haccepting s hc))
  · exact Or.inr rfl

/-- Settles O20: the view part at the acceptance, the page part at the exchange map's claim, and what comes between. -/
theorem accessCheckRefusalRecordsTheFault : Obligations.AccessCheckRefusalRecordsTheFault := by
  refine ⟨fun x p s c hx hr htable => ⟨_, exec_command hx hr, ?_⟩, fun x p i c hx => ?_,
    fun c p q s t hlaw hc hq h => exec_spares hlaw hc hq h⟩
  · have hview : (s.receive p (x.command p).record).viewTable p x = some c := htable
    rw [State.acceptCall_error ((State.viewPart_error _ p x c).2 hview)]
    exact State.refuseData_refused _ p x c
  · refine DataCall.gives_of_takePagePart hx (fun s h => h) fun s htable => ?_
    rw [State.takePagePart_error ((State.pagePart_error s p x i c).2 htable)]
    exact s.refuseData_refused p x c

end Sys2Proof.Machine
end

section
/-! SUPPORT. STAGE_OPEN past its checks, and the acceptance of STAGE_WRITE, STAGE_READY and STAGE_DROP (R8, R9, R18,
R20, R22, R23). -/

namespace Sys2Proof.Machine

/-! ### STAGE_OPEN -/

theorem State.acceptStageOpen_opens {s : State} {p : Port} (copy : Bool) {i : Page} {f : Frame} {rest : List Frame}
    (h : s.part = .run) (hf : s.stop.isFrozen (s.map.page i).group = false) (hs : (s.map.page i).staging = none)
    (hn : s.map.stagingCount p < 8) (hfree : s.map.freeList = f :: rest) :
    s.acceptStageOpen p copy i =
      (s.setMap (s.map.openStaging i p copy f rest)).answer p .ok (bytesOf16 i.val ++ bytes16 (s.map.serial + 1)) := by
  simp [State.acceptStageOpen, h, hf, hs, Config.stagingLimit, hn, hfree]

/-- A byte of a frame read whole. -/
theorem Memory.getD_readFrame (m : Memory) (f : Frame) {k : Nat} (hk : k < 64) :
    (m.readFrame f 0 64).getD k 0 = m.read (64 * f.val + k) := by
  simp [Memory.readFrame, List.getD, hk, frameAddress_eq]

/-- What a staging opened leaves in memory: the live frame's bytes or zeros in its frame, and every other byte as it was
(R18). -/
theorem ExchangeMap.openStaging_read {m : ExchangeMap} (hwf : m.frames.wf = true) (i : Page) (p : Port) (copy : Bool)
    (f : Frame) (rest : List Frame) (a : Nat) :
    (m.openStaging i p copy f rest).frames.read a =
      if 64 * f.val ≤ a ∧ a < 64 * f.val + 64 then
        match copy, (m.page i).live with
        | true, some l => m.frames.read (64 * l.val + (a - 64 * f.val))
        | _, _ => 0
      else m.frames.read a := by
  have hread : ∀ data : List Byte, data.length = 64 →
      (m.frames.writeFrame f 0 data).read a =
        if 64 * f.val ≤ a ∧ a < 64 * f.val + 64 then data.getD (a - 64 * f.val) 0 else m.frames.read a := by
    intro data hlen
    rw [Memory.read_writeFrame f a (by omega) hwf, hlen]
    rfl
  have hopen : (m.openStaging i p copy f rest).frames =
      m.frames.writeFrame f 0
        (match copy, (m.page i).live with
          | true, some live => m.frames.readFrame live 0 64
          | _, _ => List.replicate 64 0) := rfl
  rw [hopen]
  split
  · rename_i l _
    rw [hread _ (m.frames.readFrame_length l 0 64)]
    split
    · exact m.frames.getD_readFrame l (by omega)
    · rfl
  · rw [hread _ List.length_replicate]
    split
    · exact List.getD_replicate _ (by omega)
    · rfl

/-- Settles O23: every check passes, and the staging opens on the head of the free list. -/
theorem stageOpenTakesTheFreeListHead : Obligations.StageOpenTakesTheFreeListHead := by
  intro p pp copy i f rest
  have hx : (DataCall.stageOpen pp copy).InRange := trivial
  refine DataCall.gives_of_acceptData hx (fun s h => h) (fun s h => State.pagePart_stage nofun h.1) ?_
  rintro s ⟨-, hrun, hmemory, hfrozen, hstaging, hcount, hfree⟩
  have hopens : s.acceptData p (.stageOpen pp copy) i = _ :=
    State.acceptStageOpen_opens copy hrun hfrozen hstaging hcount hfree
  rw [hopens]
  exact ⟨rfl, ExchangeMap.openStaging_read hmemory i p copy f rest⟩

/-! ### STAGE_WRITE -/

/-- What STAGE_WRITE's acceptance comes to on the port's own staging: refused on a READY one (R20). -/
theorem State.acceptStageWrite_own {s : State} {p : Port} {i : Page} {st : Staging} (b : Transfer)
    (hs : (s.map.page i).staging = some st) (hp : st.stager = p) :
    s.acceptStageWrite p b i =
      s.setPort p
        { s.port p with
          tx := .writeData b.length (if st.state = .ready then some .alreadyReady else none)
          write :=
            if st.state = .ready then none
            else some { page := i, serial := st.serial, offset := b.offset.val, data := [] } } := by
  unfold State.acceptStageWrite
  rw [PageRecord.stagedBy_eq hs hp]
  cases ho : st.state <;> simp [ho, State.refuseWrite]

/-- Settles O24: without a staging of the port, and on the port's own. -/
theorem stageWriteAcceptance : Obligations.StageWriteAcceptance := by
  intro p b i hlo hhi
  have hpass : ∀ {s : State}, s.MayStage p i → s.map.pagePart p i .stageWrite = .ok i :=
    fun h => State.pagePart_stage nofun h
  have hrange : (DataCall.stageWrite b).InRange := ⟨hlo, hhi⟩
  refine ⟨?_, fun st hst => ?_⟩
  · refine DataCall.gives_of_acceptData hrange (fun s h => h) (fun s h => hpass h.1) ?_
    rintro s ⟨-, hno⟩
    simp only [State.acceptData, State.acceptStageWrite, PageRecord.stagedBy_none hno]
    rfl
  · exact DataCall.gives_of_acceptData hrange (fun s h => h) (fun s h => hpass h.1)
      fun s ⟨_, hs⟩ => State.acceptStageWrite_own b hs hst

/-! ### STAGE_READY and STAGE_DROP -/

/-- STAGE_READY on the port's own staging (R22). -/
theorem State.acceptStageReady_own {s : State} {p : Port} {i : Page} {st : Staging}
    (hs : (s.map.page i).staging = some st) (hp : st.stager = p) :
    s.acceptStageReady p i =
      if st.state = .ready then s.answer p .alreadyReady []
      else
        (s.setMap (s.map.setPage i { s.map.page i with staging := some { st with state := .ready } })).answer p .ok
          [] := by
  unfold State.acceptStageReady
  rw [PageRecord.stagedBy_eq hs hp]
  cases ho : st.state <;> simp [ho]

/-- STAGE_DROP on the port's own staging (R23). -/
theorem State.acceptStageDrop_own {s : State} {p : Port} {i : Page} {st : Staging}
    (hs : (s.map.page i).staging = some st) (hp : st.stager = p) :
    s.acceptStageDrop p i = (s.setMap (s.map.removeStaging i)).answer p .ok [] := by
  simp [State.acceptStageDrop, PageRecord.stagedBy_eq hs hp]

/-- A staging whose frame nothing reads is removed, and its frame joins the free list (R4). -/
theorem ExchangeMap.removeStaging_unread {m : ExchangeMap} {i : Page} {st : Staging}
    (hs : (m.page i).staging = some st) (hrefs : m.refs[st.frame] = 0) :
    m.removeStaging i =
      { m with
        pages := m.pages.set i { m.page i with staging := none }
        freeList := m.freeList ++ [st.frame] } := by
  unfold ExchangeMap.removeStaging
  rw [hs]
  exact if_pos hrefs

/-- Settles O25: without a staging of the port, and on the port's own. -/
theorem stageReadyAndDrop : Obligations.StageReadyAndDrop := by
  intro p pp i
  have hpass : ∀ {s : State} {q : DataRequest}, q ≠ .read → s.MayStage p i → s.map.pagePart p i q = .ok i :=
    State.pagePart_stage
  have hready : (DataCall.stageReady pp).InRange := trivial
  have hdrop : (DataCall.stageDrop pp).InRange := trivial
  refine ⟨⟨?_, ?_⟩, fun st hst => ⟨?_, ?_⟩⟩
  · refine DataCall.gives_of_acceptData hready (fun s h => h) (fun s h => hpass nofun h.1) ?_
    rintro s ⟨-, hno⟩
    simp only [State.acceptData, State.acceptStageReady, PageRecord.stagedBy_none hno]
    rfl
  · refine DataCall.gives_of_acceptData hdrop (fun s h => h) (fun s h => hpass nofun h.1) ?_
    rintro s ⟨-, hno⟩
    simp only [State.acceptData, State.acceptStageDrop, PageRecord.stagedBy_none hno]
    rfl
  · refine DataCall.gives_of_acceptData hready (fun s h => h) (fun s h => hpass nofun h.1) ?_
    rintro s ⟨-, hs⟩
    have hown : s.acceptData p (.stageReady pp) i = _ := State.acceptStageReady_own hs hst
    rw [hown]
    split <;> rfl
  · refine DataCall.gives_of_acceptData hdrop (fun s h => h) (fun s h => hpass nofun h.1) ?_
    rintro s ⟨-, hs, hrefs⟩
    have hown : s.acceptData p (.stageDrop pp) i = _ := State.acceptStageDrop_own hs hst
    rw [hown, ExchangeMap.removeStaging_unread hs hrefs]
    rfl

end Sys2Proof.Machine
end

section
/-! SUPPORT. A stop line that moves with its STOP notice, the frozen group set that follows it, and the stop unit's
operations as such moves (R118 to R127). -/

namespace Sys2Proof.Machine

/-! ### The frozen group set -/

/-- Which groups the frozen set has once a line is replaced (R127). -/
theorem StopUnit.frozen_setLine_bit (u : StopUnit) (l : Line) (x : StopLine) (k : Nat) :
    (u.setLine l x).frozen.getLsbD k = true ↔
      ∃ m : Line, (u.setLine l x).lines[m].stop = .active ∧ (u.setLine l x).lines[m].freeze.getLsbD k = true :=
  StopUnit.frozenUnion_bit _ k

/-- The frozen set follows the stop states and the freeze sets alone (R127). -/
theorem StopUnit.frozen_setLine_kept {u : StopUnit} {l : Line} {x : StopLine} (hu : u.frozen = u.frozenUnion)
    (hstop : x.stop = (u.line l).stop) (hfreeze : x.freeze = (u.line l).freeze) :
    (u.setLine l x).frozen = u.frozen := by
  apply BitVec.eq_of_getLsbD_eq
  intro k _
  have hline : ∀ m : Line, (u.setLine l x).lines[m].stop = u.lines[m].stop ∧
      (u.setLine l x).lines[m].freeze = u.lines[m].freeze := by
    intro m
    show ((u.setLine l x).line m).stop = (u.line m).stop ∧ ((u.setLine l x).line m).freeze = (u.line m).freeze
    rw [StopUnit.line_setLine]
    split
    · rename_i hm
      subst hm
      exact ⟨hstop, hfreeze⟩
    · exact ⟨rfl, rfl⟩
  rw [Bool.eq_iff_iff, StopUnit.frozen_setLine_bit, hu, StopUnit.frozenUnion_bit]
  simp only [hline]

/-! ### A line moved with its notice -/

/-- Line l becomes x, and the STOP notice of event e is sent, in one claim (R124, R127). -/
def State.moveLine (s : State) (l : Line) (x : StopLine) (e : StopEvent) : State :=
  (s.setStop (s.stop.setLine l x)).notify [s.stopNotice l e]

/-- From s to t line l has become x, the frozen set has followed, the STOP notice of event e has gone to the ports that
accept its kind, and nothing else has changed but the two units (R124, R127). -/
structure State.LineMoved (s t : State) (l : Line) (x : StopLine) (e : StopEvent) : Prop where
  only : t = (s.setStop t.stop).setNotice t.notice
  lines : t.stop.lines = s.stop.lines.set l x
  frozen : ∀ k, t.stop.frozen.getLsbD k = true ↔
    ∃ m : Line, t.stop.lines[m].stop = .active ∧ t.stop.lines[m].freeze.getLsbD k = true
  sent : s.Sent t (fun q => s.notice.ports[q].kinds.getLsbD 1) { stamp := s.stamp, body := .stop l e }

theorem State.moveLine_moved (s : State) (l : Line) (x : StopLine) (e : StopEvent) :
    s.LineMoved (s.moveLine l x e) l x e where
  only := rfl
  lines := rfl
  frozen := s.stop.frozen_setLine_bit l x
  sent := (s.setStop (s.stop.setLine l x)).notify_one (s.stopNotice l e)

theorem State.passFilter_eq (s : State) (l : Line) (level : Level) :
    s.passFilter l level = s.moveLine l ((s.stop.line l).pass level) ((s.stop.line l).passEvent level) := rfl

/-- A line set and then moved has moved. -/
theorem State.moveLine_setLine (s : State) (l : Line) (x y : StopLine) (e : StopEvent) :
    (s.setStop (s.stop.setLine l x)).moveLine l y e = s.moveLine l y e := by
  unfold State.moveLine
  rw [State.setStop_stop, StopUnit.setLine_twice, State.setStop_twice]
  rfl

/-- A level passes the filter of a line as it has just been set. -/
theorem State.passFilter_setLine (s : State) (l : Line) (x : StopLine) (level : Level) :
    (s.setStop (s.stop.setLine l x)).passFilter l level = s.moveLine l (x.pass level) (x.passEvent level) := by
  rw [State.passFilter_eq, State.moveLine_setLine, State.setStop_stop, StopUnit.line_setLine_same]

/-! ### The expiry of a filter timer -/

/-- Without a pending change the expiry does nothing (notes/assumptions/6.md). -/
theorem State.expireFilter_none {s : State} {l : Line} (h : (s.stop.line l).pending = none) : s.expireFilter l = s := by
  simp [State.expireFilter, h]

theorem State.expireFilter_some {s : State} {l : Line} {c : PendingChange} (h : (s.stop.line l).pending = some c) :
    s.expireFilter l = s.passFilter l c.level := by
  simp [State.expireFilter, h]

theorem StopLine.expired_none {x : StopLine} (h : x.pending = none) : x.expired = false := by
  simp [StopLine.expired, h]

theorem StopLine.expired_some {x : StopLine} {c : PendingChange} (h : x.pending = some c) :
    x.expired = decide (x.filterTime.toNat ≤ c.timer) := by
  simp [StopLine.expired, h]

/-! ### Requests at a port -/

/-- A request received, done at the stop unit and the notice unit, and answered. -/
theorem State.answer_of_stop_notice {s t : State} {p : Port} (i : Instr)
    (h : t = ((s.receive p i.record).setStop t.stop).setNotice t.notice) (c : Status) (b : List Byte) :
    t.answer p c b = ((s.setStop t.stop).setNotice t.notice).answered p i c b := by
  generalize t.stop = x at h ⊢
  generalize t.notice = n at h ⊢
  subst h
  simp [State.answer_eq, State.receive_eq, State.answered]

end Sys2Proof.Machine
end

section
/-! HEADLINE. STOP_CLEAR by its table of stop state and filtered level (R125). -/

namespace Sys2Proof.Machine

theorem exec_stopClear {s : State} {p : Port} (hr : s.ReadyFor p) (ha : s.PlanAllowed p) (l : Line) {c : Instr}
    (hc : c = .stopClear p (byteOf l.val)) : exec c s = .next ((s.receive p c.record).clearStop p l) := by
  subst hc
  exact congrArg _ (State.serve_accepted _ hr (lineOf?_byteOf l) ha.lacks)

/-- A latched line becomes INACTIVE, with its notice. -/
theorem State.clearStop_latched {s : State} {p : Port} {l : Line} (hstop : (s.stop.line l).stop = .active)
    (hfiltered : (s.stop.line l).filtered = .inactive) :
    s.clearStop p l =
      (s.moveLine l { s.stop.line l with stop := .inactive } .inactive).answer p .ok [0, 0] := by
  unfold State.clearStop
  rw [hstop, hfiltered]
  rfl

theorem State.clearStop_input {s : State} {p : Port} {l : Line} (hstop : (s.stop.line l).stop = .active)
    (hfiltered : (s.stop.line l).filtered = .active) : s.clearStop p l = s.answer p .stopActive [1, 1] := by
  unfold State.clearStop
  rw [hstop, hfiltered]
  rfl

theorem State.clearStop_inactive {s : State} {p : Port} {l : Line} (hstop : (s.stop.line l).stop = .inactive)
    (hfiltered : (s.stop.line l).filtered = .inactive) : s.clearStop p l = s.answer p .ok [0, 0] := by
  unfold State.clearStop
  rw [hstop, hfiltered]
  rfl

/-- Settles O39, row by row of the table. -/
theorem stopClearByItsTable : Obligations.StopClearByItsTable := by
  intro p s l hr ha
  rw [exec_stopClear hr ha l rfl]
  refine ⟨fun hstop hfiltered => ?_, fun hstop hfiltered => ?_, fun hstop hfiltered => ?_⟩
  · have hmoved := (s.receive p (Instr.stopClear p (byteOf l.val)).record).moveLine_moved l
      { s.stop.line l with stop := .inactive } .inactive
    rw [State.clearStop_latched (s := s.receive p _) hstop hfiltered]
    exact ⟨_, rfl, State.answer_of_stop_notice _ hmoved.only _ _, hmoved.lines, hmoved.frozen, hmoved.sent⟩
  · rw [State.clearStop_input (s := s.receive p _) hstop hfiltered, State.answer_receive]
  · rw [State.clearStop_inactive (s := s.receive p _) hstop hfiltered, State.answer_receive]

end Sys2Proof.Machine
end

section
/-! HEADLINE. STOP_SET replaces the settings of a line; a change that has waited long enough expires (R118, R127). -/

namespace Sys2Proof.Machine

@[simp] theorem stopModeOf?_code (m : StopMode) : stopModeOf? m.code = some m := by
  cases m <;> rfl

/-- A line with the three settings replaced (R118). -/
def StopLine.withSettings (y : StopLine) (x : StopParams) : StopLine :=
  { y with filterTime := x.filterTime, freeze := x.freeze, mode := x.mode }

theorem exec_stopSet {s : State} {p : Port} (hr : s.ReadyFor p) (x : StopParams) {c : Instr}
    (hc : c = .stopSet p (byteOf x.line.val) x.filterTime x.freeze x.mode.code) :
    exec c s = .next ((s.receive p c.record).inSetup p fun u =>
      (u.setStopLine x).answer p .ok (u.stop.line x.line).settingsBytes) := by
  have hparams : stopParams (byteOf x.line.val) x.filterTime x.freeze x.mode.code = some x := by
    simp [stopParams]
  subst hc
  exact congrArg _ (State.serve_accepted _ hr hparams (s.lacksRight_none p))

theorem StopLine.expired_withSettings {y : StopLine} {c : PendingChange} (h : y.pending = some c) (x : StopParams) :
    (y.withSettings x).expired = decide (x.filterTime.toNat ≤ c.timer) :=
  StopLine.expired_some (x := y.withSettings x) h

/-- The comparison of R118 is made under the new settings. -/
theorem State.setStopLine_eq (s : State) (x : StopParams) :
    s.setStopLine x =
      if ((s.stop.line x.line).withSettings x).expired then
        (s.setStop (s.stop.setLine x.line ((s.stop.line x.line).withSettings x))).expireFilter x.line
      else s.setStop (s.stop.setLine x.line ((s.stop.line x.line).withSettings x)) := by
  unfold State.setStopLine
  simp only [State.setStop_stop, StopUnit.line_setLine_same]
  rfl

/-- Without a change that has waited for the new filter time, the settings are replaced and that is all (R118). -/
theorem State.setStopLine_waiting {s : State} {x : StopParams}
    (h : ∀ c, (s.stop.line x.line).pending = some c → c.timer < x.filterTime.toNat) :
    s.setStopLine x = s.setStop (s.stop.setLine x.line ((s.stop.line x.line).withSettings x)) := by
  have hwaits : ((s.stop.line x.line).withSettings x).expired = false := by
    cases hp : (s.stop.line x.line).pending with
    | none => exact StopLine.expired_none hp
    | some c => exact (StopLine.expired_withSettings hp x).trans (decide_eq_false (Nat.not_le.2 (h c hp)))
  rw [State.setStopLine_eq, if_neg (Bool.eq_false_iff.1 hwaits)]

/-- A change that has waited for the new filter time passes under the new settings (R118, R120). -/
theorem State.setStopLine_expiring {s : State} {x : StopParams} {c : PendingChange}
    (hp : (s.stop.line x.line).pending = some c) (htime : x.filterTime.toNat ≤ c.timer) :
    s.setStopLine x =
      s.moveLine x.line (((s.stop.line x.line).withSettings x).pass c.level)
        (((s.stop.line x.line).withSettings x).passEvent c.level) := by
  have hexpired : ((s.stop.line x.line).withSettings x).expired = true :=
    (StopLine.expired_withSettings hp x).trans (decide_eq_true htime)
  have hline : ((s.setStop (s.stop.setLine x.line ((s.stop.line x.line).withSettings x))).stop.line x.line).pending =
      some c := by
    rw [State.setStop_stop, StopUnit.line_setLine_same]
    exact hp
  rw [State.setStopLine_eq, if_pos hexpired, State.expireFilter_some hline, State.passFilter_setLine]

/-- Settles O38: in SETUP, by whether a pending change has waited for the new filter time. -/
theorem stopSetReplacesTheSettings : Obligations.StopSetReplacesTheSettings := by
  intro p s l time freeze mode hr
  have hexec := exec_stopSet hr ⟨l, time, freeze, mode⟩ rfl
  refine ⟨fun hrun => ?_, fun hsetup => ?_⟩
  · rw [hexec, State.inSetup_run (s := s.receive p _) hrun, State.answer_receive]
  rw [hexec, State.inSetup_setup (s := s.receive p _) hsetup]
  by_cases hwait : ∀ c, s.stop.lines[l].pending = some c → c.timer < time.toNat
  · rw [State.setStopLine_waiting (s := s.receive p _) (x := ⟨l, time, freeze, mode⟩) hwait]
    exact ⟨_, rfl, State.answer_of_stop_notice _ rfl _ _, s.stop.frozen_setLine_bit l _, fun _ => ⟨rfl, rfl⟩,
      fun c hp htime => absurd (hwait c hp) (Nat.not_lt.2 htime)⟩
  · push Not at hwait
    obtain ⟨c, hp, htime⟩ := hwait
    have hmoved := (s.receive p (Instr.stopSet p (byteOf l.val) time freeze mode.code).record).moveLine_moved l
      ((s.stop.lines[l].withSettings ⟨l, time, freeze, mode⟩).pass c.level)
      ((s.stop.lines[l].withSettings ⟨l, time, freeze, mode⟩).passEvent c.level)
    rw [State.setStopLine_expiring (s := s.receive p _) (x := ⟨l, time, freeze, mode⟩) hp htime]
    refine ⟨_, rfl, State.answer_of_stop_notice _ hmoved.only _ _, hmoved.frozen,
      fun h => absurd (h c hp) (Nat.not_lt.2 htime), fun c' hp' _ => ?_⟩
    cases hp.symm.trans hp'
    exact ⟨hmoved.lines, hmoved.sent⟩

end Sys2Proof.Machine
end

section
/-! HEADLINE. Input changes and filter expiries follow the filter and the stop state table (R119, R120, R122, R123). -/

namespace Sys2Proof.Machine

theorem exec_stopInputChange {s : State} (h : s.inReset = false) (l : Line) (level : Level) :
    exec (.stopInputChange l level) s = .next ((s.driveStop l level).sampleStop l level) :=
  congrArg _ (State.unlessReset_released (s := s.driveStop l level) h)

theorem exec_filterTimerExpiry {s : State} (h : s.inReset = false) (l : Line) :
    exec (.filterTimerExpiry l) s = .next (s.expireFilter l) :=
  congrArg _ (State.unlessReset_released h)

/-- What driving a pin and sampling it comes to, by the levels sampled and filtered before (R119, R120). -/
theorem State.driveStop_sampleStop (s : State) (l : Line) (level : Level) :
    (s.driveStop l level).sampleStop l level =
      if level = s.stop.lines[l].input then s.driveStop l level
      else if level = s.stop.lines[l].filtered then
        s.setStop (s.stop.setLine l { s.stop.lines[l] with pin := level, input := level, pending := none })
      else if s.stop.lines[l].filterTime = 0 then
        s.moveLine l (StopLine.pass { s.stop.lines[l] with pin := level, input := level } level)
          (s.stop.lines[l].passEvent level)
      else
        s.setStop (s.stop.setLine l
          { s.stop.lines[l] with pin := level, input := level, pending := some { level := level, timer := 0 } }) := by
  unfold State.sampleStop State.driveStop
  simp only [State.setStop_stop, StopUnit.line_setLine_same, StopUnit.setLine_twice, State.setStop_twice,
    State.passFilter_setLine]
  rfl

/-- Settles O40: the four cases of a change, and an expiry without and with a pending change. -/
theorem stopInputsAreFiltered : Obligations.StopInputsAreFiltered := by
  intro s l hreset
  have hkept : ∀ x : StopLine, x.stop = (s.stop.line l).stop → x.freeze = (s.stop.line l).freeze →
      s.StopLaw → (s.stop.setLine l x).frozen = s.stop.frozen :=
    fun x hstop hfreeze hlaw => StopUnit.frozen_setLine_kept hlaw.2 hstop hfreeze
  have hexec := fun level => (exec_stopInputChange hreset l level).trans
    (congrArg Host.Outcome.next (s.driveStop_sampleStop l level))
  refine ⟨fun level hinput hfiltered => ?_, fun level hinput hfiltered htime => ?_, fun level hinput => ?_,
    fun level hinput hfiltered htime => ?_, fun hp => ?_, fun c hp => ?_⟩
  · rw [hexec, if_neg hinput, if_pos hfiltered]
    exact ⟨_, rfl, rfl, rfl, hkept _ rfl rfl⟩
  · rw [hexec, if_neg hinput, if_neg hfiltered, if_neg htime]
    exact ⟨_, rfl, rfl, rfl, hkept _ rfl rfl⟩
  · rw [hexec, if_pos hinput]
    exact ⟨_, rfl, rfl, rfl, hkept _ rfl rfl⟩
  · rw [hexec, if_neg hinput, if_neg hfiltered, if_pos htime]
    have hmoved := s.moveLine_moved l (StopLine.pass { s.stop.lines[l] with pin := level, input := level } level)
      (s.stop.lines[l].passEvent level)
    exact ⟨_, rfl, hmoved.only, hmoved.lines, hmoved.frozen, hmoved.sent⟩
  · rw [exec_filterTimerExpiry hreset, State.expireFilter_none hp]
  · have hmoved := s.moveLine_moved l ((s.stop.line l).pass c.level) ((s.stop.line l).passEvent c.level)
    rw [exec_filterTimerExpiry hreset, State.expireFilter_some hp, State.passFilter_eq]
    exact ⟨_, rfl, hmoved.only, hmoved.lines, hmoved.frozen, hmoved.sent⟩

end Sys2Proof.Machine
end

section
/-! HEADLINE. TRIM_SET, TIME_SET and ALARM_SET at the timebase (R135, R139, R142). -/

namespace Sys2Proof.Machine

/-! ### Range checks -/

/-- A trim in range is the number that its wire word spells (R135, R167). -/
theorem trimOf?_ofInt {n : Int} (hlow : -2000 ≤ n) (hhigh : n ≤ 2000) : trimOf? (BitVec.ofInt 16 n) = some n := by
  have hn : (BitVec.ofInt 16 n).toInt = n := by
    rw [BitVec.toInt_ofInt]
    exact Int.bmod_eq_of_le (by omega) (by omega)
  rw [trimOf?, hn, if_pos ⟨hlow, hhigh⟩]

/-- What passes the range check of TRIM_SET is in the range of trims (R135). -/
theorem trimOf?_eq_some {w : Word16} {n : Int} (h : trimOf? w = some n) : -2000 ≤ n ∧ n ≤ 2000 := by
  unfold trimOf? at h
  split at h
  · rename_i hrange
    cases h
    exact hrange
  · cases h

/-- A valid record is the calendar that its bytes spell (R139). -/
theorem timeParams_of {c : Calendar} (h : c.valid = true) :
    timeParams (byteOf c.year) (byteOf c.month) (byteOf c.day) (byteOf c.hour) (byteOf c.minute) (byteOf c.second)
      (byteOf c.weekday) = some c := by
  obtain ⟨hyear, -, hmonth, -, hday, hhour, hminute, hsecond, hweekday⟩ := c.valid_iff.1 h
  have hlength := (monthLength_bounds c.year c.month).2
  rw [timeParams, byteOf_toNat (by omega), byteOf_toNat (by omega), byteOf_toNat (by omega), byteOf_toNat (by omega),
    byteOf_toNat (by omega), byteOf_toNat (by omega), byteOf_toNat (by omega)]
  exact if_pos h

@[simp] theorem alarmActionOf?_code (a : AlarmAction) : alarmActionOf? a.code = some a := by
  cases a <;> rfl

/-- An alarm record in range is the one that its bytes spell (R142). -/
theorem alarmParams_of {a : Alarm} (hhour : a.hour ≤ 23) (hminute : a.minute ≤ 59) :
    alarmParams (yesNo a.enabled) (a.weekdays.setWidth 8) (byteOf a.hour) (byteOf a.minute) a.action.code = some a := by
  have hh : rangeOf? 0 23 (byteOf a.hour).toNat = some a.hour := by
    rw [byteOf_toNat (by omega)]
    exact rangeOf?_in (Nat.zero_le _) hhour
  have hm : rangeOf? 0 59 (byteOf a.minute).toNat = some a.minute := by
    rw [byteOf_toNat (by omega)]
    exact rangeOf?_in (Nat.zero_le _) hminute
  simp [alarmParams, hh, hm]

/-! ### The requests -/

/-- A request received, done at the timebase and answered. -/
theorem State.answer_setTime_receive (s : State) (p : Port) (i : Instr) (x : Timebase) (c : Status) (b : List Byte) :
    ((s.receive p i.record).setTime x).answer p c b = (s.setTime x).answered p i c b := by
  simp [State.answer_eq, State.receive_eq, State.answered]

/-- A request of the timebase that passes its checks is done and answered (R170, R171, R176). -/
theorem State.serve_setTime {α : Type} {s : State} {p : Port} (hr : s.ReadyFor p) (ha : s.PlanAllowed p) (i : Instr)
    {params : Option α} {a : α} (hp : params = some a) (time : α → Timebase → Timebase)
    (body : α → Timebase → List Byte) :
    s.serve p i.record (some .plan) params (fun x u => (u.setTime (time x u.time)).answer p .ok (body x u.time)) =
      (s.setTime (time a s.time)).answered p i .ok (body a s.time) := by
  rw [State.serve_accepted _ hr hp ha.lacks, State.answer_setTime_receive, State.receive_time]

/-- Settles O41: each request passes its checks and is done at the timebase. -/
theorem timebaseRequests : Obligations.TimebaseRequests := by
  intro p s hr ha
  refine ⟨fun n hlow hhigh => congrArg Host.Outcome.next ?_, fun c hc => congrArg Host.Outcome.next ?_,
    fun a hhour hminute => congrArg Host.Outcome.next ?_⟩
  · refine (State.serve_setTime hr ha (.trimSet p (BitVec.ofInt 16 n)) (trimOf?_ofInt hlow hhigh)
      (fun t x => { x with stagedTrim := some t }) fun t x => trimBytes x.trim ++ stagedTrimBytes (some t)).trans ?_
    rw [List.append_assoc]
    rfl
  · exact State.serve_setTime hr ha _ (timeParams_of hc) (fun c x => { x with stagedTime := some c })
      fun c x => x.calendar.bytes ++ c.bytes
  · exact State.serve_setTime hr ha _ (alarmParams_of hhour hminute) (fun a x => { x with alarm := a })
      fun _ x => x.alarm.bytes

end Sys2Proof.Machine
end

section
/-! HEADLINE. A second boundary takes a staged time, or advances the calendar and compares the alarm (R134, R138, R143 to
R145). -/

namespace Sys2Proof.Machine

theorem exec_secondBoundary {s : State} (h : s.inReset = false) : exec .secondBoundary s = .next s.boundary :=
  congrArg Host.Outcome.next (State.unlessReset_released h)

/-! ### The comparison with the alarm -/

/-- What a match is (R143). -/
theorem Alarm.fires_iff (a : Alarm) (c : Calendar) :
    a.fires c = true ↔ a.enabled = true ∧ c.second = 0 ∧ c.hour = a.hour ∧ c.minute = a.minute ∧
      a.weekdays.getLsbD c.weekday = true := by
  simp [Alarm.fires, and_assoc]

/-- A match falls on the first second of the alarm's minute (R143, R147). -/
theorem Alarm.secondOfDay_of_fires {a : Alarm} {c : Calendar} (h : a.fires c = true) :
    c.secondOfDay = a.hour * 3600 + a.minute * 60 := by
  obtain ⟨-, hsecond, hhour, hminute, -⟩ := (a.fires_iff c).1 h
  rw [Calendar.secondOfDay, hsecond, hhour, hminute, Nat.add_zero]

/-! ### The boundary -/

/-- The timebase in the second that begins, before the alarm acts (R134). -/
def Timebase.nextSecond (t : Timebase) : Timebase := { t.beginSecond with calendar := t.calendar.advance }

/-- A staged time is taken, and no alarm is compared with it (R134). -/
theorem State.boundary_staged {s : State} {c : Calendar} (h : s.time.stagedTime = some c) :
    s.boundary = s.setTime { s.time.beginSecond with calendar := c, stagedTime := none } := by
  simp [State.boundary, Timebase.beginSecond, h]

/-- Without a staged time the calendar advances and the alarm is compared (R134). -/
theorem State.boundary_advance {s : State} (h : s.time.stagedTime = none) :
    s.boundary =
      if s.time.alarm.fires s.time.calendar.advance then (s.setTime s.time.nextSecond).fireAlarm
      else s.setTime s.time.nextSecond := by
  simp [State.boundary, Timebase.beginSecond, Timebase.nextSecond, h]

/-- The alarm's action is a notice, or a pending answer; it leaves the rest of the timebase alone (R143). -/
theorem State.fireAlarm_time (s : State) :
    s.fireAlarm.time = { s.time with pendingAlarm := s.fireAlarm.time.pendingAlarm } := by
  unfold State.fireAlarm
  split <;> rfl

theorem State.boundary_time {s : State} (h : s.time.stagedTime = none) :
    s.boundary.time = { s.time.nextSecond with pendingAlarm := s.boundary.time.pendingAlarm } := by
  rw [State.boundary_advance h]
  split
  · exact State.fireAlarm_time _
  · rfl

theorem State.boundary_calendar {s : State} (h : s.time.stagedTime = none) :
    s.boundary.time.calendar = s.time.calendar.advance := by
  rw [State.boundary_time h]
  rfl

theorem State.boundary_noMatch {s : State} (h : s.time.stagedTime = none)
    (hf : ¬ s.time.alarm.fires s.time.calendar.advance = true) : s.boundary = s.setTime s.time.nextSecond := by
  rw [State.boundary_advance h, if_neg hf]

/-- A match of an alarm that asks for no switch sends its notice at once (R143, R144). -/
theorem State.boundary_notice {s : State} (h : s.time.stagedTime = none)
    (hf : s.time.alarm.fires s.time.calendar.advance = true) (ha : s.time.alarm.action = .notice) :
    s.boundary.time.pendingAlarm = s.time.pendingAlarm ∧
      s.Sent s.boundary (fun q => s.notice.ports[q].kinds.getLsbD 0)
        { stamp :=
            { cycle := s.sched.cycleCount, slot := s.sched.slotIndex
              second := s.time.alarm.hour * 3600 + s.time.alarm.minute * 60 }
          body := .alarm false false } := by
  have hfired : s.boundary =
      (s.setTime s.time.nextSecond).notify [(s.setTime s.time.nextSecond).broadcast .alarm (.alarm false false)] := by
    rw [State.boundary_advance h, if_pos hf, State.fireAlarm]
    split
    · rfl
    · rename_i hswitch
      cases ha.symm.trans hswitch
  rw [hfired, ← Alarm.secondOfDay_of_fires hf]
  exact ⟨rfl, (s.setTime s.time.nextSecond).notify_one
    ((s.setTime s.time.nextSecond).broadcast .alarm (.alarm false false))⟩

/-- A match of an alarm that asks for a switch records its second of day and waits for the answer (R143, R145). -/
theorem State.boundary_switch {s : State} (h : s.time.stagedTime = none)
    (hf : s.time.alarm.fires s.time.calendar.advance = true) (ha : s.time.alarm.action = .noticeAndSwitch) :
    s.boundary.time.pendingAlarm = some (s.time.alarm.hour * 3600 + s.time.alarm.minute * 60) ∧
      s.boundary.notice = s.notice := by
  have hfired : s.boundary =
      s.setTime { s.time.nextSecond with pendingAlarm := some s.time.calendar.advance.secondOfDay } := by
    rw [State.boundary_advance h, if_pos hf, State.fireAlarm]
    split
    · rename_i hnotice
      cases ha.symm.trans hnotice
    · rfl
  rw [hfired, ← Alarm.secondOfDay_of_fires hf]
  exact ⟨rfl, rfl⟩

/-- Settles O42: with a staged time, and without one by match and action of the alarm. -/
theorem secondBoundaryAdvancesTheCalendar : Obligations.SecondBoundaryAdvancesTheCalendar := by
  intro s hreset
  rw [exec_secondBoundary hreset]
  refine ⟨fun c hc => congrArg Host.Outcome.next (State.boundary_staged hc), fun hnone hvalid => ?_⟩
  have htime := State.boundary_time hnone
  have hcal := State.boundary_calendar hnone
  refine ⟨_, rfl, s.boundary_only, s.boundary_tickCount, congrArg Timebase.trim htime,
    congrArg Timebase.stagedTrim htime, (congrArg Timebase.stagedTime htime).trans hnone,
    (congrArg Timebase.alarm htime).trans rfl, hcal.trans (Calendar.advance_eq hvalid), ?_, ?_⟩
  · rw [hcal, ← Alarm.fires_iff]
    intro hf
    split
    · rename_i ha
      exact State.boundary_notice hnone hf ha
    · rename_i ha
      exact State.boundary_switch hnone hf ha
  · rw [hcal, ← Alarm.fires_iff]
    intro hf
    rw [State.boundary_noMatch hnone hf]
    exact ⟨rfl, rfl⟩

end Sys2Proof.Machine
end

section
/-! HEADLINE. The schedule takes the alarm's switch request, and the ALARM notice carries its answer (R51, R145). -/

namespace Sys2Proof.Machine

theorem exec_alarmSwitchRequest {s : State} (h : s.inReset = false) :
    exec .alarmSwitchRequest s = .next s.answerAlarm :=
  congrArg Host.Outcome.next (State.unlessReset_released h)

/-- The ALARM notice that carries the schedule's answer, with the second of day of the match (R144, R145). -/
def State.alarmAnswer (s : State) (second : Nat) (taken : Bool) : Message :=
  { recipients := .accepting .alarm
    notice :=
      { stamp := { cycle := s.sched.cycleCount, slot := s.sched.slotIndex, second := second }
        body := .alarm true taken } }

/-- Without a pending answer there is no request (notes/assumptions/6.md). -/
theorem State.answerAlarm_none {s : State} (h : s.time.pendingAlarm = none) : s.answerAlarm = s := by
  simp [State.answerAlarm, h]

/-- A switch claim moves neither cycle nor slot (R50). -/
theorem State.takeSwitch_place (s : State) :
    s.takeSwitch.1.sched.cycleCount = s.sched.cycleCount ∧ s.takeSwitch.1.sched.slotIndex = s.sched.slotIndex := by
  unfold State.takeSwitch
  split
  · exact ⟨rfl, rfl⟩
  · split <;> exact ⟨rfl, rfl⟩

/-- A switch claim touches the timebase nowhere (R50). -/
theorem State.takeSwitch_time (s : State) : s.takeSwitch.1.time = s.time := by
  rw [s.takeSwitch_only]
  rfl

/-- The request is a switch claim, and its answer goes out as the ALARM notice (R51, R145). -/
theorem State.answerAlarm_some {s : State} {second : Nat} (h : s.time.pendingAlarm = some second) :
    s.answerAlarm =
      (s.takeSwitch.1.setTime { s.time with pendingAlarm := none }).notify
        [s.alarmAnswer second s.takeSwitch.2] := by
  obtain ⟨hcycle, hslot⟩ := s.takeSwitch_place
  simp only [State.answerAlarm, h, State.setTime_sched, State.takeSwitch_time, State.alarmAnswer, hcycle, hslot]

/-- A switch claim in RUN leaves a switch pending, and is taken if none was (R50). -/
theorem State.takeSwitch_inRun {s : State} (h : s.part = .run) :
    s.takeSwitch = (s.setSched { s.sched with pendingSwitch := true }, !s.sched.pendingSwitch) := by
  cases hp : s.sched.pendingSwitch with
  | false => exact State.takeSwitch_run h hp
  | true =>
    have hsame : { s.sched with pendingSwitch := true } = s.sched := by rw [← hp]
    rw [State.takeSwitch_pending h hp, hsame, State.setSched_self, Bool.not_true]

/-- A notice goes to the ports that accept its kind, and to no other (R153, R154). -/
theorem State.notify_accepting (s : State) (k : AcceptedKind) (x : Notice) :
    s.Sent (s.notify [{ recipients := .accepting k, notice := x }])
      (fun q => s.notice.ports[q].kinds.getLsbD k.bit) x :=
  s.notify_one { recipients := .accepting k, notice := x }

/-- Two notices, one behind the other: each goes to the ports that accept its kind (R153, R154). -/
theorem State.notify_accepting_twice {s u : State} {k : AcceptedKind} {x : Notice}
    (hu : u.notice = (s.notify [{ recipients := .accepting k, notice := x }]).notice) (k' : AcceptedKind) (x' : Notice)
    (q : Port) :
    ∃ n : NoticePort,
      (if s.notice.ports[q].kinds.getLsbD k.bit then s.notice.ports[q].Took n x else n = s.notice.ports[q]) ∧
        if s.notice.ports[q].kinds.getLsbD k'.bit then
          n.Took (u.notify [{ recipients := .accepting k', notice := x' }]).notice.ports[q] x'
        else (u.notify [{ recipients := .accepting k', notice := x' }]).notice.ports[q] = n := by
  obtain ⟨-, hkinds, -⟩ := s.notify_keeps_part [{ recipients := .accepting k, notice := x }] q
  refine ⟨_, s.notify_accepting k x q, ?_⟩
  rw [← hkinds, ← hu]
  exact u.notify_accepting k' x' q

/-- Settles O43: without a pending answer, in RUN, and in SETUP, where two notices go out. -/
theorem alarmSwitchRequestIsAnswered : Obligations.AlarmSwitchRequestIsAnswered := by
  intro s hreset
  rw [exec_alarmSwitchRequest hreset]
  refine ⟨fun hnone => congrArg Host.Outcome.next (State.answerAlarm_none hnone), fun second hsome => ?_⟩
  rw [State.answerAlarm_some hsome]
  refine ⟨fun hrun => ?_, fun hsetup => ?_⟩
  · rw [State.takeSwitch_inRun hrun]
    exact ⟨_, rfl, rfl, State.notify_accepting _ .alarm _⟩
  · rw [State.takeSwitch_setup hsetup]
    exact ⟨_, rfl, rfl, State.notify_accepting_twice (s := s.setSched _) (k := .planSwitched) rfl .alarm _⟩

end Sys2Proof.Machine
end

section
/-! SUPPORT. The timebase through a step: which commands and events leave it alone (R132 to R145). -/

namespace Sys2Proof

/-- The commands that can touch the timebase. -/
def Instr.movesTime : Instr → Bool
  | .trimSet .. | .timeSet .. | .alarmSet .. | .partReset | .secondBoundary | .alarmSwitchRequest => true
  | _ => false

end Sys2Proof

namespace Sys2Proof.Machine

/-- From s to t the timebase stays. -/
abbrev State.KeepsTime (s t : State) : Prop := t.time = s.time

theorem State.KeepsTime.trans {s t u : State} (h : s.KeepsTime t) (h' : t.KeepsTime u) : s.KeepsTime u :=
  Eq.trans h' h

/-! ### Claims -/

theorem State.takeClaims_keepsTime (s : State) (cs : List Claim) : s.KeepsTime (s.takeClaims cs).1 :=
  (s.takeClaims_only cs).time

theorem State.takeResetClaims_keepsTime (s : State) (p : Port) (left now : ResetClaims) :
    s.KeepsTime (s.takeResetClaims p left now) := by
  rw [State.takeResetClaims_eq, State.resetPort_only]
  rfl

theorem State.refuseData_keepsTime (s : State) (p : Port) (x : DataCall) (c : FaultCause) :
    s.KeepsTime (s.refuseData p x c) := by
  rw [State.refuseData_only]
  rfl

theorem State.takePagePart_keepsTime (s : State) (p : Port) (x : DataCall) (i : Page) :
    s.KeepsTime (s.takePagePart p x i) := by
  have h := s.takePagePart_cases p x i
  generalize s.takePagePart p x i = t at h
  cases h with
  | refused c => exact s.refuseData_keepsTime p x c
  | reads r number t =>
    rw [State.beginRead_eq]
    rfl
  | answered | refusedWrite | writes | opens | marks | drops => rfl

theorem State.settle_keepsTime (s : State) (p : Port) : s.KeepsTime (s.settle p) :=
  State.settle_keeps s.KeepsTime p (fun left now h => h.trans (s.takeResetClaims_keepsTime p left now))
    (fun x i h => h.trans (s.takePagePart_keepsTime p x i)) rfl

theorem State.settleSome_keepsTime (s : State) (p : Port) : s.KeepsTime (s.settleSome p) :=
  State.settleSome_keeps s.KeepsTime p (fun _ h => h)
    (fun left now h => h.trans (s.takeResetClaims_keepsTime p left now))
    (fun x i h => h.trans (s.takePagePart_keepsTime p x i)) rfl

theorem State.acceptCall_keepsTime (s : State) (p : Port) (x : DataCall) : s.KeepsTime (s.acceptCall p x) := by
  unfold State.acceptCall
  split
  · exact s.refuseData_keepsTime p x _
  · dsimp only
    split
    · exact State.KeepsTime.trans (s := s) rfl (State.takePagePart_keepsTime _ p x _)
    · rfl

/-! ### Events of the schedule and the stop unit -/

theorem State.startSlot_keepsTime (s : State) (pick : Nat → Nat) : s.KeepsTime (s.startSlot pick) := by
  rw [s.startSlot_only pick]
  rfl

theorem State.startCycle_keepsTime (s : State) (pick : Nat → Nat) (earlier : List Message) :
    s.KeepsTime (s.startCycle pick earlier) := by
  rw [s.startCycle_only pick earlier]
  rfl

theorem State.endSlot_keepsTime (s : State) (pick : Nat → Nat) : s.KeepsTime (s.endSlot pick) := by
  unfold State.endSlot
  split
  · split
    · exact State.startSlot_keepsTime _ pick
    · split
      · exact s.startCycle_keepsTime pick []
      · rfl
  · rfl

theorem State.syncEdge_keepsTime (s : State) (pick : Nat → Nat) : s.KeepsTime (s.syncEdge pick) := by
  unfold State.syncEdge
  split
  · exact s.startCycle_keepsTime pick []
  · rfl
  · rfl

theorem State.expireGap_keepsTime (s : State) (pick : Nat → Nat) : s.KeepsTime (s.expireGap pick) := by
  unfold State.expireGap
  split
  · exact s.startCycle_keepsTime pick _
  · rfl

theorem State.startPart_keepsTime (s : State) : s.KeepsTime s.startPart := by
  unfold State.startPart State.startSchedule
  dsimp only
  split
  · exact State.startCycle_keepsTime
      ((s.setPart .run).setSched { s.sched with cycleCount := 0, slotIndex := 0, firstCycle := true }) s.draw []
  · rfl

theorem State.expireFilter_keepsTime (s : State) (l : Line) : s.KeepsTime (s.expireFilter l) := by
  rw [State.expireFilter_only]
  rfl

theorem State.sampleStop_keepsTime (s : State) (l : Line) (level : Level) : s.KeepsTime (s.sampleStop l level) := by
  rw [State.sampleStop_only]
  rfl

theorem State.setStopLine_keepsTime (s : State) (x : StopParams) : s.KeepsTime (s.setStopLine x) := by
  unfold State.setStopLine
  dsimp only
  split
  · exact State.KeepsTime.trans (s := s) rfl (State.expireFilter_keepsTime _ _)
  · rfl

/-! ### Events of a transaction -/

theorem State.completeRead_keepsTime (s : State) (p : Port) : s.KeepsTime (s.completeRead p) := by
  unfold State.completeRead
  split
  · split <;> rfl
  · rfl

theorem State.completeStageRead_keepsTime (s : State) (p : Port) : s.KeepsTime (s.completeStageRead p) := by
  unfold State.completeStageRead
  split
  · split <;> rfl
  · rfl

theorem State.dataBytes_keepsTime (s : State) (p : Port) (data : List Byte) : s.KeepsTime (s.dataBytes p data) := by
  rcases s.dataBytes_cases p data with h | ⟨l, h, -⟩ | ⟨w, st, bytes, n, -, -, -, h⟩ <;> rw [h] <;> rfl

theorem State.selectRises_keepsTime (s : State) (p : Port) : s.KeepsTime (s.selectRises p) := by
  unfold State.selectRises State.endTransaction
  split
  · dsimp only
    split <;> rfl
  · rfl

theorem State.responseSent_keepsTime (s : State) (p : Port) : s.KeepsTime (s.responseSent p) := by
  unfold State.responseSent
  split <;> rfl

/-- An event that moves p's transaction on leaves the timebase alone. -/
theorem exec_movesOn_keepsTime {c : Instr} {p : Port} (hc : c.movesOn = some p) {s t : State}
    (h : exec c s = .next t) : s.KeepsTime t := by
  refine (s.settle_keepsTime p).trans ?_
  cases c <;> cases hc <;> cases h
  case readCompletion => exact State.completeRead_keepsTime _ p
  case stageReadCompletion => exact State.completeStageRead_keepsTime _ p
  case stageWriteCompletion data => exact State.dataBytes_keepsTime _ p data
  case selectRelease => exact State.selectRises_keepsTime _ p
  case lastResponseByte => exact State.responseSent_keepsTime _ p

/-! ### Requests served -/

theorem State.switchPlan_keepsTime (s : State) (p : Port) : s.KeepsTime (s.switchPlan p) := by
  unfold State.switchPlan
  split
  · rw [s.takeSwitch_only]
    rfl
  · rfl

theorem State.releaseHold_keepsTime (s : State) (p : Port) : s.KeepsTime (s.releaseHold p) := by
  unfold State.releaseHold State.endHold
  split
  · rfl
  · exact s.takeClaims_keepsTime (s.holdRemovalClaims p)

/-- A request served leaves the timebase alone if its own operation does. -/
theorem State.serve_keepsTime {α : Type} (s : State) (p : Port) (record : List Byte) (right : Option RightName)
    (params : Option α) (act : α → State → State) (hact : ∀ a u, State.KeepsTime u (act a u)) :
    s.KeepsTime (s.serve p record right params act) :=
  State.serve_keeps s.KeepsTime (fun _ _ _ h => h) p record right params act rfl fun a _ _ hr => hr.trans (hact a _)

theorem State.inSetup_keepsTime {s : State} (p : Port) (act : State → State) (hact : s.KeepsTime (act s)) :
    s.KeepsTime (s.inSetup p act) :=
  State.inSetup_keeps s.KeepsTime (fun _ _ _ h => h) p act rfl fun _ => hact

theorem State.unlessReset_keepsTime {s : State} (act : State → State) (hact : s.KeepsTime (act s)) :
    s.KeepsTime (s.unlessReset act) :=
  s.unlessReset_keeps s.KeepsTime act rfl fun _ => hact

/-- A command outside Instr.movesTime leaves the timebase alone. -/
theorem exec_keepsTime {c : Instr} {s t : State} (h : exec c s = .next t) (hc : c.movesTime = false) :
    s.KeepsTime t := by
  cases c
  case readCompletion | stageReadCompletion | stageWriteCompletion | selectRelease | lastResponseByte =>
    exact exec_movesOn_keepsTime rfl h
  all_goals cases h
  case trimSet | timeSet | alarmSet | partReset | secondBoundary | alarmSwitchRequest => cases hc
  case partStatus | pageStatus | planRead | groupStatus | watchSet | watchRead | holdRead | viewSet | viewGet | stopRead
      | timeRead | portSelf =>
    exact s.serve_keepsTime _ _ _ _ _ fun _ _ => rfl
  case start => exact s.serve_keepsTime _ _ _ _ _ fun _ u => u.inSetup_keepsTime _ _ u.startPart_keepsTime
  case halt =>
    refine s.serve_keepsTime _ _ _ _ _ fun _ u => ?_
    split <;> rfl
  case portReset p => exact s.serve_keepsTime _ _ _ _ _ fun _ u => u.takeResetClaims_keepsTime p _ _
  case portRightsSet | stageLimit | syncSet | holdLimit =>
    exact s.serve_keepsTime _ _ _ _ _ fun _ u => u.inSetup_keepsTime _ _ rfl
  case definePage =>
    refine s.serve_keepsTime _ _ _ _ _ fun _ u => ?_
    unfold State.definePage
    split <;> rfl
  case pageSet | retirePage =>
    refine s.serve_keepsTime _ _ _ _ _ fun _ u => ?_
    unfold State.onQuietPage
    split
    · split <;> rfl
    · rfl
  case read | stageOpen | stageWrite | stageRead | stageReady | stageDrop =>
    exact s.serve_keepsTime _ _ _ _ _ fun _ u => u.acceptCall_keepsTime _ _
  case slotSet | planLength =>
    refine s.serve_keepsTime _ _ _ _ _ fun _ u => ?_
    unfold State.editPlan
    split <;> rfl
  case planSwitch p => exact s.serve_keepsTime _ _ _ _ _ fun _ u => u.switchPlan_keepsTime p
  case hold =>
    refine s.serve_keepsTime _ _ _ _ _ fun _ u => ?_
    unfold State.takeHold
    split
    · rfl
    · split <;> rfl
  case release p => exact s.serve_keepsTime _ _ _ _ _ fun _ u => u.releaseHold_keepsTime p
  case faultTake =>
    refine s.serve_keepsTime _ _ _ _ _ fun _ u => ?_
    unfold State.takeFault
    split <;> rfl
  case stopSet =>
    exact s.serve_keepsTime _ _ _ _ _ fun x u => u.inSetup_keepsTime _ _ (u.setStopLine_keepsTime x)
  case stopClear =>
    refine s.serve_keepsTime _ _ _ _ _ fun _ u => ?_
    unfold State.clearStop
    split <;> rfl
  case noticePeek =>
    refine s.serve_keepsTime _ _ _ _ _ fun _ u => ?_
    unfold State.peekNotice
    split <;> rfl
  case noticePop =>
    refine s.serve_keepsTime _ _ _ _ _ fun _ u => ?_
    unfold State.popNotice
    split <;> rfl
  case badRequest =>
    unfold State.refuseHeader
    split
    · split <;> rfl
    · rfl
  case resetRelease => rfl
  case endOfSlot => exact s.unlessReset_keepsTime _ (s.endSlot_keepsTime s.draw)
  case syncEdge =>
    refine s.unlessReset_keepsTime _ ?_
    split
    · rfl
    · exact s.syncEdge_keepsTime _
  case gapExpiry => exact s.unlessReset_keepsTime _ (s.expireGap_keepsTime s.draw)
  case cyclePulseEnd => exact s.unlessReset_keepsTime _ rfl
  case stopInputChange l level =>
    exact State.KeepsTime.trans (s := s) rfl (State.unlessReset_keepsTime _ (State.sampleStop_keepsTime _ l level))
  case filterTimerExpiry l => exact s.unlessReset_keepsTime _ (s.expireFilter_keepsTime l)
  case selectPeriodBegin =>
    unfold State.selectFalls
    split
    · rfl
    · split <;> rfl

end Sys2Proof.Machine
end

section
/-! HEADLINE. The calendar stays valid, the trims stay in range and the tick count below the second's length (R132,
R137). -/

namespace Sys2Proof.Machine

/-! ### The law without the tick count -/

/-- The calendar and a staged time are valid, and the trims in range (R135, R137): what holds of the timebase at every
moment of a tick, where the tick count can stand at its limit until the second boundary is taken. -/
structure Timebase.InRange (t : Timebase) : Prop where
  calendar : t.calendar.valid = true
  stagedTime : ∀ c, t.stagedTime = some c → c.valid = true
  trim : -2000 ≤ t.trim ∧ t.trim ≤ 2000
  stagedTrim : ∀ n, t.stagedTrim = some n → -2000 ≤ n ∧ n ≤ 2000

theorem State.timeLaw_iff (s : State) :
    s.TimeLaw ↔ s.time.InRange ∧ s.time.tickCount < s.time.secondLength :=
  ⟨fun ⟨hcal, htime, htrim, hstaged, hcount⟩ => ⟨⟨hcal, htime, htrim, hstaged⟩, hcount⟩,
    fun ⟨⟨hcal, htime, htrim, hstaged⟩, hcount⟩ => ⟨hcal, htime, htrim, hstaged, hcount⟩⟩

/-- No trim makes a second empty (R132, R135). -/
theorem Timebase.InRange.secondLength_pos {t : Timebase} (h : t.InRange) : 0 < t.secondLength := by
  have htrim := h.trim.2
  unfold Timebase.secondLength Config.nominalSecond
  omega

/-- A staged trim is adopted (R134, R135). -/
theorem Timebase.InRange.beginSecond {t : Timebase} (h : t.InRange) : t.beginSecond.InRange where
  calendar := h.calendar
  stagedTime := h.stagedTime
  trim := by
    unfold Timebase.beginSecond
    cases hstaged : t.stagedTrim with
    | none => exact h.trim
    | some n => exact h.stagedTrim n hstaged
  stagedTrim := nofun

/-! ### The second boundary -/

theorem State.boundary_inRange {s : State} (h : s.time.InRange) : s.boundary.time.InRange := by
  have hbegun := h.beginSecond
  cases hstaged : s.time.stagedTime with
  | some c =>
    rw [State.boundary_staged hstaged]
    exact ⟨h.stagedTime c hstaged, nofun, hbegun.trim, hbegun.stagedTrim⟩
  | none =>
    rw [State.boundary_time hstaged]
    exact ⟨Calendar.advance_valid h.calendar, hbegun.stagedTime, hbegun.trim, hbegun.stagedTrim⟩

/-- A second boundary brings the tick count back below the second's length, wherever it stood (R134). -/
theorem State.boundary_timeLaw {s : State} (h : s.time.InRange) : s.boundary.TimeLaw := by
  have hrange := State.boundary_inRange h
  rw [State.timeLaw_iff, State.boundary_tickCount]
  exact ⟨hrange, hrange.secondLength_pos⟩

/-! ### What leaves the law alone -/

/-- From s to t the timebase stays, but for the pending alarm answer, which is no part of the law. -/
abbrev State.KeepsClock (s t : State) : Prop := t.time = { s.time with pendingAlarm := t.time.pendingAlarm }

theorem State.KeepsTime.clock {s t : State} (h : s.KeepsTime t) : s.KeepsClock t := by
  show t.time = _
  rw [h]

theorem State.answerAlarm_keepsClock (s : State) : s.KeepsClock s.answerAlarm := by
  unfold State.answerAlarm
  split
  · rfl
  · dsimp only
    rw [s.takeSwitch_only]
    rfl

theorem State.KeepsClock.inRange {s t : State} (h : s.KeepsClock t) (hs : s.time.InRange) : t.time.InRange := by
  rw [h]
  exact ⟨hs.calendar, hs.stagedTime, hs.trim, hs.stagedTrim⟩

theorem State.KeepsClock.below {s t : State} (h : s.KeepsClock t) (hs : s.time.tickCount < s.time.secondLength) :
    t.time.tickCount < t.time.secondLength := by
  rw [h]
  exact hs

theorem State.KeepsClock.timeLaw {s t : State} (h : s.KeepsClock t) (hs : s.TimeLaw) : t.TimeLaw := by
  rw [State.timeLaw_iff] at hs ⊢
  exact ⟨h.inRange hs.1, h.below hs.2⟩

/-! ### A tick -/

theorem State.takeEvent_keepsClock (s : State) {e : TickEvent} (he : e ≠ .second) : s.KeepsClock (s.takeEvent e) := by
  cases e with
  | slot => exact State.KeepsTime.clock (s.endSlot_keepsTime s.draw)
  | gap => exact State.KeepsTime.clock (s.expireGap_keepsTime s.draw)
  | edge =>
    exact State.KeepsTime.clock (State.syncEdge_keepsTime (s.setSched { s.sched with syncRise := false }) _)
  | filter l => exact (s.expireFilter_keepsTime l).clock
  | second => exact absurd rfl he
  | alarmAnswer => exact s.answerAlarm_keepsClock
  | sample l => exact (s.sampleStop_keepsTime l _).clock
  | claims p => exact (s.settleSome_keepsTime p).clock

/-- Events keep the tick count below its limit, and bring it back there if the second boundary is among them. -/
theorem State.takeEvents_timeLaw (l : List TickEvent) {s : State} (hs : s.time.InRange)
    (hl : s.time.tickCount < s.time.secondLength ∨ .second ∈ l) : (l.foldl State.takeEvent s).TimeLaw := by
  induction l generalizing s with
  | nil => exact s.timeLaw_iff.2 ⟨hs, hl.resolve_right List.not_mem_nil⟩
  | cons e l ih =>
    by_cases he : e = .second
    · subst he
      exact ih (State.boundary_inRange hs) (.inl ((State.timeLaw_iff _).1 (State.boundary_timeLaw hs)).2)
    · have hkeeps := s.takeEvent_keepsClock he
      refine ih (hkeeps.inRange hs) (hl.imp hkeeps.below fun hmem => ?_)
      exact (List.mem_cons.1 hmem).resolve_left (Ne.symm he)

/-- A tick that brings the tick count to the second's length takes the second boundary (R133, R134). -/
theorem State.tick_timeLaw {s : State} (hs : s.TimeLaw) : s.tick.TimeLaw := by
  cases hreset : s.inReset with
  | true =>
    rw [State.tick, State.unlessReset_held hreset]
    exact hs
  | false =>
    obtain ⟨l, hl, htick⟩ := State.tick_eq hreset
    obtain ⟨hrange, -⟩ := s.timeLaw_iff.1 hs
    rw [htick]
    refine State.takeEvents_timeLaw l ⟨hrange.calendar, hrange.stagedTime, hrange.trim, hrange.stagedTrim⟩ ?_
    refine (Nat.lt_or_ge (s.time.tickCount + 1) s.time.secondLength).imp_right fun hdue => ?_
    exact hl.mem_iff.2 ((s.mem_due .second).2 hdue)

/-! ### Every command, and the step -/

theorem Timebase.reset_inRange : Timebase.reset.InRange := ⟨by decide, nofun, by decide, nofun⟩

theorem State.holdInReset_timeLaw (s : State) : s.holdInReset.TimeLaw :=
  s.holdInReset.timeLaw_iff.2 ⟨Timebase.reset_inRange, Timebase.reset_inRange.secondLength_pos⟩

theorem exec_timeLaw_of_moves {c : Instr} {s t : State} (h : exec c s = .next t) (hc : c.movesTime = true)
    (hs : s.TimeLaw) : t.TimeLaw := by
  have hserve := fun {α : Type} => State.serve_keeps State.TimeLaw (fun _ _ _ h => h) (α := α) (s := s)
  cases c <;> cases hc <;> cases h
  case trimSet =>
    refine hserve _ _ _ _ _ hs fun n hn _ hr => ?_
    obtain ⟨hcal, htime, htrim, -, hcount⟩ := hr
    refine ⟨hcal, htime, htrim, fun m hm => ?_, hcount⟩
    cases hm
    exact trimOf?_eq_some hn
  case timeSet =>
    refine hserve _ _ _ _ _ hs fun c hc _ hr => ?_
    obtain ⟨hcal, -, htrim, hstaged, hcount⟩ := hr
    refine ⟨hcal, fun d hd => ?_, htrim, hstaged, hcount⟩
    cases hd
    exact timeParams_valid hc
  case alarmSet => exact hserve _ _ _ _ _ hs fun _ _ _ hr => hr
  case partReset => exact s.holdInReset_timeLaw
  case secondBoundary =>
    exact State.unlessReset_keeps State.TimeLaw _ hs fun _ => State.boundary_timeLaw (s.timeLaw_iff.1 hs).1
  case alarmSwitchRequest =>
    exact State.unlessReset_keeps State.TimeLaw _ hs fun _ => s.answerAlarm_keepsClock.timeLaw hs

theorem exec_timeLaw {c : Instr} {s t : State} (h : exec c s = .next t) (hs : s.TimeLaw) : t.TimeLaw := by
  cases hc : c.movesTime with
  | false => exact (exec_keepsTime h hc).clock.timeLaw hs
  | true => exact exec_timeLaw_of_moves h hc hs

/-- Settles O53: the second boundary and what a request stages keep the law, a tick whose count reaches the second's
length takes the boundary, and what else a step does leaves the timebase alone. -/
theorem stepKeepsTheTimeLaw : Obligations.StepKeepsTheTimeLaw := fun _ _ h =>
  step_keeps State.TimeLaw (fun _ _ h => h) (fun _ _ _ => exec_timeLaw) (fun _ => State.tick_timeLaw) h

end Sys2Proof.Machine
end

section
/-! SUPPORT. The laws of the notice unit through its claims (R113, R151, R161): messages keep them, and so does a change
of the fault records whose reports come with it. -/

namespace Sys2Proof.Machine

/-- From s to t the laws of the notice unit hold on: the attention lines (R161), the reported fault occupancy (R113,
R162), the bound and the lost flag of the queues (R151). -/
structure State.KeepsNoticeLaws (s t : State) : Prop where
  attention : s.AttentionLaw → t.AttentionLaw
  faultReport : s.FaultReportLaw → t.FaultReportLaw
  queue : s.QueueLaw → t.QueueLaw

theorem State.KeepsNoticeLaws.trans {s t u : State} (h : s.KeepsNoticeLaws t) (h' : t.KeepsNoticeLaws u) :
    s.KeepsNoticeLaws u :=
  ⟨h'.attention ∘ h.attention, h'.faultReport ∘ h.faultReport, h'.queue ∘ h.queue⟩

/-- The laws speak of the notice unit and the fault records alone. -/
theorem State.KeepsNoticeLaws.same {s t : State} (hnotice : t.notice = s.notice)
    (hfaults : t.view.faults = s.view.faults) : s.KeepsNoticeLaws t where
  attention h p := hnotice ▸ h p
  faultReport h p := hnotice ▸ hfaults ▸ h p
  queue h p := hnotice ▸ h p

/-- What other blocks have done before plays no part. -/
theorem State.KeepsNoticeLaws.after {s t u : State} (h : t.KeepsNoticeLaws u) (hnotice : t.notice = s.notice)
    (hfaults : t.view.faults = s.view.faults) : s.KeepsNoticeLaws u :=
  (State.KeepsNoticeLaws.same hnotice hfaults).trans h

/-! ### Reports of the fault records -/

/-- Only a report of p's fault record touches the reported occupancy: a claim that reports nothing else of it than
occupied leaves it at occupied, where it was so before or the claim says so (R162). -/
theorem NoticePort.take_faultOccupied {n : NoticePort} {p : Port} {c : NoticeClaim} {occupied : Bool}
    (htrue : ∀ b, c = .faultReport p b → b = occupied)
    (hknown : n.faultOccupied = occupied ∨ c = .faultReport p occupied) : (n.take p c).faultOccupied = occupied := by
  cases c with
  | message m =>
    obtain ⟨-, -, -, happend⟩ := n.append_keeps m.notice
    have hbefore := hknown.resolve_right nofun
    simp only [NoticePort.take]
    split
    · exact happend.trans hbefore
    · exact hbefore
  | emptyQueue q =>
    have hbefore := hknown.resolve_right nofun
    simp only [NoticePort.take]
    split <;> exact hbefore
  | faultReport q b =>
    simp only [NoticePort.take]
    split
    · rename_i hq
      subst hq
      exact htrue b rfl
    · rename_i hq
      refine hknown.resolve_right fun h => ?_
      cases h
      exact hq rfl

/-- Claims whose reports of p's fault record all say occupied leave that as the reported occupancy, if one of them is
among them or it was so before. -/
theorem State.takeNotices_faultOccupied (s : State) (cs : List NoticeClaim) (p : Port) (occupied : Bool)
    (htrue : ∀ b, .faultReport p b ∈ cs → b = occupied)
    (hknown : s.notice.ports[p].faultOccupied = occupied ∨ .faultReport p occupied ∈ cs) :
    (s.takeNotices cs).notice.ports[p].faultOccupied = occupied := by
  induction cs generalizing s with
  | nil => exact hknown.resolve_right List.not_mem_nil
  | cons c cs ih =>
    refine ih (s.takeNotices [c]) (fun b hb => htrue b (List.mem_cons_of_mem c hb)) ?_
    have hone : (s.takeNotices [c]).notice.ports[p] = NoticePort.take s.notice.ports[p] p c :=
      NoticeUnit.take_ports _ _ _
    rw [List.mem_cons, ← or_assoc, eq_comm (b := c)] at hknown
    rw [hone]
    exact hknown.imp_left (NoticePort.take_faultOccupied fun b hb => htrue b (hb ▸ List.mem_cons_self))

/-- A change of the view unit with the claims that come with it keeps the laws if every report says what the fault
record now is, and a record that has been filled or emptied is reported (R113, R162). -/
theorem State.setView_takeNotices_keepsNoticeLaws (s : State) (v : ViewUnit) (cs : List NoticeClaim)
    (htrue : ∀ (p : Port) b, .faultReport p b ∈ cs → b = v.faults[p].isSome)
    (hreported : ∀ p : Port, v.faults[p].isSome = s.view.faults[p].isSome ∨
      .faultReport p v.faults[p].isSome ∈ cs) : s.KeepsNoticeLaws ((s.setView v).takeNotices cs) where
  attention := State.takeNotices_keeps (fun _ n => n.Attentive) NoticePort.take_attentive (s.setView v) cs
  faultReport h p := State.takeNotices_faultOccupied (s.setView v) cs p _ (htrue p)
    ((hreported p).imp_left fun hsame => (h p).trans hsame.symm)
  queue := State.takeNotices_keeps (fun _ n => n.Bounded) NoticePort.take_bounded (s.setView v) cs

/-- Messages keep the laws. -/
theorem State.notify_keepsNoticeLaws (s : State) (ms : List Message) : s.KeepsNoticeLaws (s.notify ms) :=
  s.setView_takeNotices_keepsNoticeLaws s.view (ms.map .message) (fun _ _ h => by simp at h) fun _ => .inl rfl

/-- One port's value replaced, read at any port. -/
theorem getElem_set_port {α : Type} (v : Vector α 4) (p q : Port) (x : α) :
    (v.set p x)[q] = if q = p then x else v[q] := by
  simp [Vector.getElem_set, Fin.ext_iff, eq_comm]

theorem ViewUnit.emptyFault_faults (v : ViewUnit) (p q : Port) :
    (v.emptyFault p).faults[q] = if q = p then none else v.faults[q] :=
  getElem_set_port v.faults p q none

/-- An emptied fault record with its report (R112, R113). -/
theorem State.emptyFault_keepsNoticeLaws (s : State) (p : Port) (cs : List NoticeClaim)
    (hreports : ∀ q b, .faultReport q b ∈ cs ↔ q = p ∧ b = false) :
    s.KeepsNoticeLaws ((s.setView (s.view.emptyFault p)).takeNotices cs) := by
  refine s.setView_takeNotices_keepsNoticeLaws _ cs (fun q b hmem => ?_) fun q => ?_
  · obtain ⟨rfl, rfl⟩ := (hreports q b).1 hmem
    rw [ViewUnit.emptyFault_faults, if_pos rfl]
    rfl
  · rw [ViewUnit.emptyFault_faults, hreports]
    by_cases hq : q = p <;> simp [hq]

/-- A refusal fills an empty fault record with a report of it; an occupied one stays occupied (R111, R113). -/
theorem State.recordFault_keepsNoticeLaws (s : State) (p : Port) (c : FaultCause) (x : DataCall) :
    s.KeepsNoticeLaws (s.recordFault p c x) := by
  have hset : ∀ (f : FaultRecord) (q : Port),
      ((s.view.faults.set p (some f))[q]).isSome = if q = p then true else s.view.faults[q].isSome := by
    intro f q
    rw [getElem_set_port]
    split <;> rfl
  unfold State.recordFault
  split
  · refine s.setView_takeNotices_keepsNoticeLaws _ _ (fun q b hmem => ?_) fun q => ?_
    · simp only [List.mem_singleton, NoticeClaim.faultReport.injEq] at hmem
      obtain ⟨rfl, rfl⟩ := hmem
      simp
    · rw [hset]
      by_cases hq : q = p <;> simp [hq]
  · rename_i r hr
    rw [← State.takeNotices_nil (s.setView _)]
    refine s.setView_takeNotices_keepsNoticeLaws _ [] (fun _ _ hmem => absurd hmem List.not_mem_nil) fun q => .inl ?_
    rw [hset]
    split
    · rename_i hq
      rw [hq, hr]
      rfl
    · rfl

/-! ### One port's part of the notice unit replaced -/

/-- A port whose attention line is brought up to date, whose reported occupancy stays and whose queue stays lawful. -/
theorem State.setPort_notice_keepsNoticeLaws (s : State) (p : Port) (n : NoticePort) (hattentive : n.Attentive)
    (hoccupied : n.faultOccupied = s.notice.ports[p].faultOccupied)
    (hbounded : NoticePort.Bounded s.notice.ports[p] → n.Bounded) :
    s.KeepsNoticeLaws (s.setNotice (s.notice.setPort p n)) := by
  have heach : ∀ P : Port → NoticePort → Prop, (P p s.notice.ports[p] → P p n) →
      (∀ q : Port, P q s.notice.ports[q]) → ∀ q : Port, P q (s.notice.setPort p n).ports[q] := by
    intro P hp h q
    by_cases hq : q = p
    · subst hq
      rw [NoticeUnit.setPort_same]
      exact hp (h q)
    · rw [NoticeUnit.setPort_ne _ _ hq]
      exact h q
  exact
    { attention := heach (fun _ m => m.Attentive) fun _ => hattentive
      faultReport := heach (fun q m => m.faultOccupied = s.view.faults[q].isSome) hoccupied.trans
      queue := heach (fun _ m => m.Bounded) hbounded }

theorem State.popNotice_keepsNoticeLaws (s : State) (p : Port) : s.KeepsNoticeLaws (s.popNotice p) := by
  unfold State.popNotice
  split
  · exact .same rfl rfl
  · have hpop := s.setPort_notice_keepsNoticeLaws p (NoticePort.pop s.notice.ports[p])
      (NoticePort.refresh_attentive _) rfl (NoticePort.pop_bounded _)
    exact hpop.trans (.same rfl rfl)

theorem State.subscribe_keepsNoticeLaws (s : State) (p : Port) (x : SelfParams) :
    s.KeepsNoticeLaws (s.setNotice (s.notice.setPort p (NoticePort.subscribe s.notice.ports[p] x))) :=
  s.setPort_notice_keepsNoticeLaws p _ (NoticePort.refresh_attentive _) rfl id

end Sys2Proof.Machine
end

section
/-! HEADLINE. Every step keeps the laws of the notice unit (R113, R151, R161). -/

namespace Sys2Proof.Machine

/-! ### Claims -/

theorem State.OnlyClaims.keepsNoticeLaws {s t : State} (h : s.OnlyClaims t) : s.KeepsNoticeLaws t :=
  .same h.notice (congrArg ViewUnit.faults h.view)

theorem State.OnlyCycle.keepsNoticeLaws {s t : State} (h : s.OnlyCycle t) : s.KeepsNoticeLaws t :=
  .same (by rw [h]; rfl) (by rw [h]; rfl)

/-- Among the notice unit's claims of a port reset, the one report is that of p's emptied fault record (R184). -/
theorem faultReport_mem_resetNotices {pick : Nat → Nat} {p q : Port} {which : ResetClaims} {xs : List Outgoing}
    {occupied : Bool} :
    .faultReport q occupied ∈ resetNotices pick p which xs ↔ which.fault = true ∧ q = p ∧ occupied = false := by
  unfold resetNotices
  cases which.queue <;> cases which.fault <;> simp [(insertAt_perm _ _ _).mem_iff]

/-- Claims of a port reset report the fault record that they empty, and no other (R116, R184). -/
theorem State.resetPort_keepsNoticeLaws (s : State) (pick : Nat → Nat) (p : Port) (which : ResetClaims) :
    s.KeepsNoticeLaws (s.resetPort pick p which) := by
  refine (s.resetBlocks_only (pick 1) p which).keepsNoticeLaws.trans ?_
  unfold State.resetPort
  dsimp only
  generalize (s.resetBlocks (pick 1) p which).1 = u
  split
  · rename_i hfault
    exact u.emptyFault_keepsNoticeLaws p _ fun q b => faultReport_mem_resetNotices.trans (and_iff_right hfault)
  · rename_i hfault
    exact u.setView_takeNotices_keepsNoticeLaws u.view _
      (fun q b hmem => absurd (faultReport_mem_resetNotices.1 hmem).1 hfault) fun _ => .inl rfl

theorem State.takeResetClaims_keepsNoticeLaws (s : State) (p : Port) (left now : ResetClaims) :
    s.KeepsNoticeLaws (s.takeResetClaims p left now) := by
  rw [State.takeResetClaims_eq]
  exact (s.resetPort_keepsNoticeLaws s.draw p now).trans (.same rfl rfl)

theorem State.refuseData_keepsNoticeLaws (s : State) (p : Port) (x : DataCall) (c : FaultCause) :
    s.KeepsNoticeLaws (s.refuseData p x c) := by
  refine (s.recordFault_keepsNoticeLaws p c x).trans ?_
  unfold State.refuseData
  split <;> exact .same rfl rfl

theorem State.takePagePart_keepsNoticeLaws (s : State) (p : Port) (x : DataCall) (i : Page) :
    s.KeepsNoticeLaws (s.takePagePart p x i) := by
  have h := s.takePagePart_cases p x i
  generalize s.takePagePart p x i = t at h
  cases h with
  | refused c => exact s.refuseData_keepsNoticeLaws p x c
  | reads r number t =>
    rw [State.beginRead_eq]
    exact .same rfl rfl
  | answered | refusedWrite | writes | opens | marks | drops => exact .same rfl rfl

theorem State.settle_keepsNoticeLaws (s : State) (p : Port) : s.KeepsNoticeLaws (s.settle p) :=
  State.settle_keeps s.KeepsNoticeLaws p (fun left now h => h.trans (s.takeResetClaims_keepsNoticeLaws p left now))
    (fun x i h => h.trans (s.takePagePart_keepsNoticeLaws p x i)) (.same rfl rfl)

theorem State.settleSome_keepsNoticeLaws (s : State) (p : Port) : s.KeepsNoticeLaws (s.settleSome p) :=
  State.settleSome_keeps s.KeepsNoticeLaws p (fun _ h => h.trans (.same rfl rfl))
    (fun left now h => h.trans (s.takeResetClaims_keepsNoticeLaws p left now))
    (fun x i h => h.trans (s.takePagePart_keepsNoticeLaws p x i)) (.same rfl rfl)

theorem State.acceptCall_keepsNoticeLaws (s : State) (p : Port) (x : DataCall) :
    s.KeepsNoticeLaws (s.acceptCall p x) := by
  unfold State.acceptCall
  split
  · exact s.refuseData_keepsNoticeLaws p x _
  · dsimp only
    split
    · exact State.KeepsNoticeLaws.after (State.takePagePart_keepsNoticeLaws _ p x _) rfl rfl
    · exact .same rfl rfl

/-! ### Events of the schedule -/

/-- The laws hold on where other blocks have moved and messages are sent. -/
theorem State.KeepsNoticeLaws.notify {s t : State} (h : s.KeepsNoticeLaws t) (ms : List Message) :
    s.KeepsNoticeLaws (t.notify ms) :=
  h.trans (t.notify_keepsNoticeLaws ms)

theorem State.startSlot_keepsNoticeLaws (s : State) (pick : Nat → Nat) : s.KeepsNoticeLaws (s.startSlot pick) := by
  unfold State.startSlot State.notifyFrom
  exact (s.takeClaims_only _).keepsNoticeLaws.notify _

theorem State.startCycle_keepsNoticeLaws (s : State) (pick : Nat → Nat) (earlier : List Message) :
    s.KeepsNoticeLaws (s.startCycle pick earlier) := by
  unfold State.startCycle State.notifyFrom
  exact ((State.handOutCycleStart_only _ _ _).keepsNoticeLaws.notify _).after rfl rfl

theorem State.endSlot_keepsNoticeLaws (s : State) (pick : Nat → Nat) : s.KeepsNoticeLaws (s.endSlot pick) := by
  unfold State.endSlot
  split
  · split
    · exact State.KeepsNoticeLaws.after (State.startSlot_keepsNoticeLaws _ pick) rfl rfl
    · split
      · exact s.startCycle_keepsNoticeLaws pick []
      · exact .same rfl rfl
  · exact .same rfl rfl

theorem State.syncEdge_keepsNoticeLaws (s : State) (pick : Nat → Nat) : s.KeepsNoticeLaws (s.syncEdge pick) := by
  unfold State.syncEdge
  split
  · exact s.startCycle_keepsNoticeLaws pick []
  · exact s.notify_keepsNoticeLaws _
  · exact .same rfl rfl

theorem State.takeEdge_keepsNoticeLaws (s : State) : s.KeepsNoticeLaws s.takeEdge :=
  (s.syncEdge_keepsNoticeLaws _).trans (.same rfl rfl)

theorem State.expireGap_keepsNoticeLaws (s : State) (pick : Nat → Nat) : s.KeepsNoticeLaws (s.expireGap pick) := by
  unfold State.expireGap
  split
  · exact s.startCycle_keepsNoticeLaws pick _
  · exact .same rfl rfl

theorem State.startPart_keepsNoticeLaws (s : State) : s.KeepsNoticeLaws s.startPart := by
  unfold State.startPart State.startSchedule
  dsimp only
  split
  · have hcycle : ∀ u : State, u.KeepsNoticeLaws (u.startCycle s.draw []).bump :=
      fun u => (u.startCycle_keepsNoticeLaws s.draw []).trans (.same rfl rfl)
    exact (hcycle _).after rfl rfl
  · exact .same rfl rfl

theorem State.takeSwitch_keepsNoticeLaws (s : State) : s.KeepsNoticeLaws s.takeSwitch.1 := by
  unfold State.takeSwitch
  split
  · exact State.KeepsNoticeLaws.after (State.notify_keepsNoticeLaws _ _) rfl rfl
  · split <;> exact .same rfl rfl

/-! ### Events of the stop unit and the timebase -/

theorem State.passFilter_keepsNoticeLaws (s : State) (l : Line) (level : Level) :
    s.KeepsNoticeLaws (s.passFilter l level) :=
  State.KeepsNoticeLaws.after (State.notify_keepsNoticeLaws _ _) rfl rfl

theorem State.expireFilter_keepsNoticeLaws (s : State) (l : Line) : s.KeepsNoticeLaws (s.expireFilter l) := by
  unfold State.expireFilter
  split
  · exact .same rfl rfl
  · exact s.passFilter_keepsNoticeLaws l _

theorem State.sampleStop_keepsNoticeLaws (s : State) (l : Line) (level : Level) :
    s.KeepsNoticeLaws (s.sampleStop l level) := by
  unfold State.sampleStop
  split
  · exact .same rfl rfl
  · split
    · exact .same rfl rfl
    · dsimp only
      split
      · exact State.KeepsNoticeLaws.after (State.passFilter_keepsNoticeLaws _ l level) rfl rfl
      · exact .same rfl rfl

theorem State.setStopLine_keepsNoticeLaws (s : State) (x : StopParams) : s.KeepsNoticeLaws (s.setStopLine x) := by
  unfold State.setStopLine
  dsimp only
  split
  · exact State.KeepsNoticeLaws.after (State.expireFilter_keepsNoticeLaws _ x.line) rfl rfl
  · exact .same rfl rfl

theorem State.boundary_keepsNoticeLaws (s : State) : s.KeepsNoticeLaws s.boundary := by
  unfold State.boundary State.fireAlarm
  dsimp only
  split
  · exact .same rfl rfl
  · split
    · split
      · exact State.KeepsNoticeLaws.after (State.notify_keepsNoticeLaws _ _) rfl rfl
      · exact .same rfl rfl
    · exact .same rfl rfl

theorem State.answerAlarm_keepsNoticeLaws (s : State) : s.KeepsNoticeLaws s.answerAlarm := by
  unfold State.answerAlarm
  split
  · exact .same rfl rfl
  · exact s.takeSwitch_keepsNoticeLaws.trans ((State.notify_keepsNoticeLaws _ _).after rfl rfl)

/-! ### Events of a tick and of a transaction -/

theorem State.takeEvent_keepsNoticeLaws (s : State) (e : TickEvent) : s.KeepsNoticeLaws (s.takeEvent e) := by
  cases e with
  | slot => exact (s.endSlot_keepsNoticeLaws s.draw).trans (.same rfl rfl)
  | gap => exact (s.expireGap_keepsNoticeLaws s.draw).trans (.same rfl rfl)
  | edge => exact State.KeepsNoticeLaws.after (State.takeEdge_keepsNoticeLaws _) rfl rfl
  | filter l => exact s.expireFilter_keepsNoticeLaws l
  | second => exact s.boundary_keepsNoticeLaws
  | alarmAnswer => exact s.answerAlarm_keepsNoticeLaws
  | sample l => exact s.sampleStop_keepsNoticeLaws l _
  | claims p => exact s.settleSome_keepsNoticeLaws p

theorem State.tick_keepsNoticeLaws (s : State) : s.KeepsNoticeLaws s.tick :=
  State.tick_keeps s.KeepsNoticeLaws (fun _ h => h.trans (.same rfl rfl))
    (fun u e h => h.trans (u.takeEvent_keepsNoticeLaws e)) (.same rfl rfl)

theorem State.completeRead_keepsNoticeLaws (s : State) (p : Port) : s.KeepsNoticeLaws (s.completeRead p) := by
  unfold State.completeRead
  split
  · split <;> exact .same rfl rfl
  · exact .same rfl rfl

theorem State.completeStageRead_keepsNoticeLaws (s : State) (p : Port) :
    s.KeepsNoticeLaws (s.completeStageRead p) := by
  unfold State.completeStageRead
  split
  · split <;> exact .same rfl rfl
  · exact .same rfl rfl

theorem State.dataBytes_keepsNoticeLaws (s : State) (p : Port) (data : List Byte) :
    s.KeepsNoticeLaws (s.dataBytes p data) := by
  rcases s.dataBytes_cases p data with h | ⟨l, h, -⟩ | ⟨w, st, bytes, n, -, -, -, h⟩ <;>
    · rw [h]
      exact .same rfl rfl

theorem State.selectRises_keepsNoticeLaws (s : State) (p : Port) : s.KeepsNoticeLaws (s.selectRises p) := by
  unfold State.selectRises State.endTransaction
  split
  · dsimp only
    split <;> exact .same rfl rfl
  · exact .same rfl rfl

theorem State.responseSent_keepsNoticeLaws (s : State) (p : Port) : s.KeepsNoticeLaws (s.responseSent p) := by
  unfold State.responseSent
  split <;> exact .same rfl rfl

theorem exec_movesOn_keepsNoticeLaws {c : Instr} {p : Port} (hc : c.movesOn = some p) {s t : State}
    (h : exec c s = .next t) : s.KeepsNoticeLaws t := by
  refine (s.settle_keepsNoticeLaws p).trans ?_
  cases c <;> cases hc <;> cases h
  case readCompletion => exact State.completeRead_keepsNoticeLaws _ p
  case stageReadCompletion => exact State.completeStageRead_keepsNoticeLaws _ p
  case stageWriteCompletion data => exact State.dataBytes_keepsNoticeLaws _ p data
  case selectRelease => exact State.selectRises_keepsNoticeLaws _ p
  case lastResponseByte => exact State.responseSent_keepsNoticeLaws _ p

/-! ### Requests served -/

theorem State.switchPlan_keepsNoticeLaws (s : State) (p : Port) : s.KeepsNoticeLaws (s.switchPlan p) := by
  unfold State.switchPlan
  split
  · exact s.takeSwitch_keepsNoticeLaws.trans (.same rfl rfl)
  · exact .same rfl rfl

theorem State.releaseHold_keepsNoticeLaws (s : State) (p : Port) : s.KeepsNoticeLaws (s.releaseHold p) := by
  unfold State.releaseHold State.endHold
  split
  · exact .same rfl rfl
  · exact ((s.takeClaims_only (s.holdRemovalClaims p)).keepsNoticeLaws.notify _).trans (.same rfl rfl)

/-- FAULT_TAKE reports the record that it empties (R112, R113). -/
theorem State.takeFault_keepsNoticeLaws (s : State) (p : Port) : s.KeepsNoticeLaws (s.takeFault p) := by
  unfold State.takeFault
  split
  · exact .same rfl rfl
  · exact (s.emptyFault_keepsNoticeLaws p [.faultReport p false] fun _ _ => by simp).trans (.same rfl rfl)

theorem State.clearStop_keepsNoticeLaws (s : State) (p : Port) (l : Line) : s.KeepsNoticeLaws (s.clearStop p l) := by
  unfold State.clearStop
  split
  · exact (State.KeepsNoticeLaws.after (State.notify_keepsNoticeLaws _ _) rfl rfl).trans (.same rfl rfl)
  · exact .same rfl rfl
  · exact .same rfl rfl

/-- A request served keeps the laws if its own operation does. -/
theorem State.serve_keepsNoticeLaws {α : Type} (s : State) (p : Port) (record : List Byte) (right : Option RightName)
    (params : Option α) (act : α → State → State) (hact : ∀ a u, State.KeepsNoticeLaws u (act a u)) :
    s.KeepsNoticeLaws (s.serve p record right params act) :=
  State.serve_keeps s.KeepsNoticeLaws (fun _ _ _ h => h.trans (.same rfl rfl)) p record right params act
    (.same rfl rfl) fun a _ _ hr => hr.trans (hact a _)

theorem State.inSetup_keepsNoticeLaws {s : State} (p : Port) (act : State → State)
    (hact : s.KeepsNoticeLaws (act s)) : s.KeepsNoticeLaws (s.inSetup p act) :=
  State.inSetup_keeps s.KeepsNoticeLaws (fun _ _ _ h => h.trans (.same rfl rfl)) p act (.same rfl rfl) fun _ => hact

theorem State.unlessReset_keepsNoticeLaws {s : State} (act : State → State) (hact : s.KeepsNoticeLaws (act s)) :
    s.KeepsNoticeLaws (s.unlessReset act) :=
  s.unlessReset_keeps s.KeepsNoticeLaws act (.same rfl rfl) fun _ => hact

/-! ### Every command, and the step -/

/-- The reset values are lawful (R114, R163). -/
theorem State.holdInReset_keepsNoticeLaws (s : State) : s.KeepsNoticeLaws s.holdInReset where
  attention _ := show State.reset.AttentionLaw by decide
  faultReport _ := show State.reset.FaultReportLaw by decide
  queue _ := show State.reset.QueueLaw by decide

theorem exec_keepsNoticeLaws {c : Instr} {s t : State} (h : exec c s = .next t) : s.KeepsNoticeLaws t := by
  cases c
  case readCompletion | stageReadCompletion | stageWriteCompletion | selectRelease | lastResponseByte =>
    exact exec_movesOn_keepsNoticeLaws rfl h
  all_goals cases h
  case partStatus | pageStatus | planRead | groupStatus | watchSet | watchRead | holdRead | viewSet | viewGet | stopRead
      | timeRead | trimSet | timeSet | alarmSet =>
    exact s.serve_keepsNoticeLaws _ _ _ _ _ fun _ _ => .same rfl rfl
  case start =>
    exact s.serve_keepsNoticeLaws _ _ _ _ _ fun _ u =>
      u.inSetup_keepsNoticeLaws _ _ (u.startPart_keepsNoticeLaws.trans (.same rfl rfl))
  case halt =>
    refine s.serve_keepsNoticeLaws _ _ _ _ _ fun _ u => ?_
    split <;> exact .same rfl rfl
  case portReset p => exact s.serve_keepsNoticeLaws _ _ _ _ _ fun _ u => u.takeResetClaims_keepsNoticeLaws p _ _
  case portRightsSet | stageLimit | syncSet | holdLimit =>
    exact s.serve_keepsNoticeLaws _ _ _ _ _ fun _ u => u.inSetup_keepsNoticeLaws _ _ (.same rfl rfl)
  case definePage =>
    refine s.serve_keepsNoticeLaws _ _ _ _ _ fun _ u => ?_
    unfold State.definePage
    split <;> exact .same rfl rfl
  case pageSet | retirePage =>
    refine s.serve_keepsNoticeLaws _ _ _ _ _ fun _ u => ?_
    unfold State.onQuietPage
    split
    · split <;> exact .same rfl rfl
    · exact .same rfl rfl
  case read | stageOpen | stageWrite | stageRead | stageReady | stageDrop =>
    exact s.serve_keepsNoticeLaws _ _ _ _ _ fun _ u => u.acceptCall_keepsNoticeLaws _ _
  case slotSet | planLength =>
    refine s.serve_keepsNoticeLaws _ _ _ _ _ fun _ u => ?_
    unfold State.editPlan
    split <;> exact .same rfl rfl
  case planSwitch p => exact s.serve_keepsNoticeLaws _ _ _ _ _ fun _ u => u.switchPlan_keepsNoticeLaws p
  case hold =>
    refine s.serve_keepsNoticeLaws _ _ _ _ _ fun _ u => ?_
    unfold State.takeHold
    split
    · exact .same rfl rfl
    · split <;> exact .same rfl rfl
  case release p => exact s.serve_keepsNoticeLaws _ _ _ _ _ fun _ u => u.releaseHold_keepsNoticeLaws p
  case faultTake p => exact s.serve_keepsNoticeLaws _ _ _ _ _ fun _ u => u.takeFault_keepsNoticeLaws p
  case stopSet =>
    exact s.serve_keepsNoticeLaws _ _ _ _ _ fun x u =>
      u.inSetup_keepsNoticeLaws _ _ ((u.setStopLine_keepsNoticeLaws x).trans (.same rfl rfl))
  case stopClear p _ => exact s.serve_keepsNoticeLaws _ _ _ _ _ fun l u => u.clearStop_keepsNoticeLaws p l
  case noticePeek =>
    refine s.serve_keepsNoticeLaws _ _ _ _ _ fun _ u => ?_
    unfold State.peekNotice
    split <;> exact .same rfl rfl
  case noticePop p => exact s.serve_keepsNoticeLaws _ _ _ _ _ fun _ u => u.popNotice_keepsNoticeLaws p
  case portSelf p _ _ _ =>
    exact s.serve_keepsNoticeLaws _ _ _ _ _ fun x u => (u.subscribe_keepsNoticeLaws p x).trans (.same rfl rfl)
  case badRequest =>
    unfold State.refuseHeader
    split
    · split <;> exact .same rfl rfl
    · exact .same rfl rfl
  case partReset => exact s.holdInReset_keepsNoticeLaws
  case resetRelease => exact .same rfl rfl
  case endOfSlot =>
    exact s.unlessReset_keepsNoticeLaws _ ((s.endSlot_keepsNoticeLaws s.draw).trans (.same rfl rfl))
  case syncEdge =>
    refine s.unlessReset_keepsNoticeLaws _ ?_
    split
    · exact .same rfl rfl
    · exact s.takeEdge_keepsNoticeLaws
  case gapExpiry =>
    exact s.unlessReset_keepsNoticeLaws _ ((s.expireGap_keepsNoticeLaws s.draw).trans (.same rfl rfl))
  case cyclePulseEnd => exact s.unlessReset_keepsNoticeLaws _ (.same rfl rfl)
  case stopInputChange l level =>
    exact State.KeepsNoticeLaws.after
      (State.unlessReset_keepsNoticeLaws _ (State.sampleStop_keepsNoticeLaws _ l level)) rfl rfl
  case filterTimerExpiry l => exact s.unlessReset_keepsNoticeLaws _ (s.expireFilter_keepsNoticeLaws l)
  case secondBoundary => exact s.unlessReset_keepsNoticeLaws _ s.boundary_keepsNoticeLaws
  case alarmSwitchRequest => exact s.unlessReset_keepsNoticeLaws _ s.answerAlarm_keepsNoticeLaws
  case selectPeriodBegin =>
    unfold State.selectFalls
    split
    · exact .same rfl rfl
    · split <;> exact .same rfl rfl

/-- Settles O46: messages, pops, new subscriptions and reported changes of a fault record keep the laws, and a step
comes to nothing else at the notice unit and the fault records. -/
theorem stepKeepsTheNoticeLaws : Obligations.StepKeepsTheNoticeLaws := by
  intro s t h
  have hkeeps : s.KeepsNoticeLaws t :=
    step_keeps s.KeepsNoticeLaws (fun _ _ h => h.trans (.same rfl rfl))
      (fun _ _ _ hexec h => h.trans (exec_keepsNoticeLaws hexec)) (fun u h => h.trans u.tick_keepsNoticeLaws) h
      (.same rfl rfl)
  exact ⟨hkeeps.attention, hkeeps.faultReport, hkeeps.queue⟩

end Sys2Proof.Machine
end

section
/-! SUPPORT. The bytes of a notice record, spelled out (R155), and a request done at the notice unit. -/

namespace Sys2Proof.Machine

/-- The sixteen bytes of a notice record: kind number, stamp, detail bytes by kind, and four zeros (R155, R167). -/
theorem Notice.bytes_eq (x : Notice) :
    x.bytes =
      (match x.body with
        | .groupPoint .. => 1
        | .late .. => 2
        | .stageExpired .. => 3
        | .holdBroken .. => 4
        | .slot .. => 5
        | .alarm .. => 6
        | .stop .. => 7
        | .planSwitched .. => 8
        | .sync .. => 9) ::
      [x.stamp.cycle.setWidth 8, byteOf x.stamp.slot.val, 0, byteOf x.stamp.second, byteOf (x.stamp.second / 256),
        byteOf (x.stamp.second / 65536), byteOf (x.stamp.second / 16777216)] ++
      (match x.body with
        | .groupPoint g o made missed =>
          [byteOf g.val,
            (match o with
              | .noOutcome => 0 | .published => 1 | .deferred => 2 | .frozen => 3 | .catchUp => 4 | .dropped => 5),
            byteOf made, byteOf missed]
        | .late i g => [byteOf i.val, byteOf (i.val / 256), byteOf g.val, 0]
        | .stageExpired i serial => [byteOf i.val, byteOf (i.val / 256), lowByte serial, highByte serial]
        | .holdBroken groups => [lowByte groups, highByte groups, 0, 0]
        | .slot k => [byteOf k.val, 0, 0, 0]
        | .alarm requested taken => [(if requested then 1 else 0), (if taken then 1 else 0), 0, 0]
        | .stop l e => [byteOf l.val, (match e with | .active => 1 | .inactive => 2 | .inputReleased => 3), 0, 0]
        | .planSwitched n => [(match n with | .a => 0 | .b => 1), 0, 0, 0]
        | .sync d => [(match d with | .early => 1 | .missed => 2), 0, 0, 0]) ++ [0, 0, 0, 0] := by
  obtain ⟨stamp, body⟩ := x
  unfold Notice.bytes
  rw [bytesOf32_eq]
  cases body with
  | late i g | stageExpired i n =>
    rw [NoticeBody.bytes, bytesOf16_eq]
    rfl
  | groupPoint | holdBroken | slot | alarm | stop | planSwitched | sync => rfl

/-- A request received, done at the notice unit and answered. -/
theorem State.answer_setNotice_receive (s : State) (p : Port) (i : Instr) (u : NoticeUnit) (c : Status)
    (b : List Byte) :
    ((s.receive p i.record).setNotice u).answer p c b = (s.setNotice u).answered p i c b := by
  simp [State.answer_eq, State.receive_eq, State.answered]

end Sys2Proof.Machine
end

section
/-! HEADLINE. NOTICE_PEEK and NOTICE_POP (R156, R157). -/

namespace Sys2Proof.Machine

/-! ### The two requests -/

theorem State.peekNotice_nil {s : State} {p : Port} (h : s.notice.ports[p].queue = []) :
    s.peekNotice p = s.answer p .nothingThere [] := by
  rw [State.peekNotice, h]

theorem State.peekNotice_cons {s : State} {p : Port} {x : Notice} {rest : List Notice}
    (h : s.notice.ports[p].queue = x :: rest) :
    s.peekNotice p = s.answer p .ok ([byteOf (rest.length + 1), yesNo s.notice.ports[p].lost] ++ x.bytes) := by
  rw [State.peekNotice, h]

theorem State.popNotice_nil {s : State} {p : Port} (h : s.notice.ports[p].queue = []) :
    s.popNotice p = s.answer p .nothingThere [] := by
  rw [State.popNotice, h]

theorem State.popNotice_cons {s : State} {p : Port} {x : Notice} {rest : List Notice}
    (h : s.notice.ports[p].queue = x :: rest) :
    s.popNotice p =
      (s.setNotice (s.notice.setPort p (NoticePort.pop s.notice.ports[p]))).answer p .ok
        ([byteOf rest.length, yesNo (NoticePort.pop s.notice.ports[p]).lost] ++ x.bytes) := by
  rw [State.popNotice, h]

theorem exec_noticePeek {s : State} {p : Port} (hr : s.ReadyFor p) :
    exec (.noticePeek p) s = .next ((s.receive p (Instr.noticePeek p).record).peekNotice p) :=
  congrArg _ (State.serve_accepted _ hr rfl rfl)

theorem exec_noticePop {s : State} {p : Port} (hr : s.ReadyFor p) :
    exec (.noticePop p) s = .next ((s.receive p (Instr.noticePop p).record).popNotice p) :=
  congrArg _ (State.serve_accepted _ hr rfl rfl)

/-! ### The head removed -/

/-- The head is removed, and the lost flag goes with the last notice (R157). -/
theorem NoticePort.pop_of_cons {n : NoticePort} {x : Notice} {rest : List Notice} (h : n.queue = x :: rest) :
    n.pop = { n with queue := rest, lost := n.lost && !rest.isEmpty, attn := n.pop.attn } := by
  unfold NoticePort.pop NoticePort.refresh
  rw [h]
  rfl

/-- The lost flag after the removal, as sent (R157, R167). -/
theorem NoticePort.pop_lost_sent {n : NoticePort} {x : Notice} {rest : List Notice} (h : n.queue = x :: rest) :
    yesNo n.pop.lost = if n.lost = true ∧ rest ≠ [] then 1 else 0 := by
  rw [NoticePort.pop_of_cons h]
  cases n.lost <;> cases rest <;> rfl

/-- NOTICE_POP on a nonempty queue, received, done and answered (R157). -/
theorem exec_noticePop_cons {s : State} {p : Port} (hr : s.ReadyFor p) {x : Notice} {rest : List Notice}
    (h : s.notice.ports[p].queue = x :: rest) :
    exec (.noticePop p) s =
      .next ((s.setNotice (s.notice.setPort p (NoticePort.pop s.notice.ports[p]))).answered p (.noticePop p) .ok
        ([byteOf rest.length, (if s.notice.ports[p].lost = true ∧ rest ≠ [] then 1 else 0)] ++ x.bytes)) := by
  have hpop := State.popNotice_cons (s := s.receive p (Instr.noticePop p).record) h
  rw [exec_noticePop hr, hpop, State.answer_setNotice_receive, State.receive_notice, NoticePort.pop_lost_sent h]

/-- Settles O44: by whether the queue is empty. -/
theorem noticePeekAndPop : Obligations.NoticePeekAndPop := by
  intro p s hr
  refine ⟨fun hnil => ⟨?_, ?_⟩, fun x rest b hcons hb => ?_⟩
  · have hpeek := State.peekNotice_nil (s := s.receive p (Instr.noticePeek p).record) hnil
    rw [exec_noticePeek hr, hpeek, State.answer_receive]
  · have hpop := State.popNotice_nil (s := s.receive p (Instr.noticePop p).record) hnil
    rw [exec_noticePop hr, hpop, State.answer_receive]
  · obtain rfl : b = x.bytes := hb.trans x.bytes_eq.symm
    refine ⟨?_, _, exec_noticePop_cons hr hcons, rfl, ?_, ?_, fun q hq => s.notice.setPort_ne _ hq⟩
    · have hpeek := State.peekNotice_cons (s := s.receive p (Instr.noticePeek p).record) hcons
      rw [exec_noticePeek hr, hpeek, State.answer_receive]
      rfl
    · rw [State.answered_notice, State.setNotice_notice, NoticeUnit.setPort_same]
      exact NoticePort.pop_of_cons hcons
    · rw [State.answered_notice, State.setNotice_notice, NoticeUnit.setPort_same]
      exact NoticePort.refresh_attentive _

end Sys2Proof.Machine
end

section
/-! HEADLINE. PORT_SELF (R159, R161). -/

namespace Sys2Proof.Machine

/-- The fields of a subscription part in range are those that its bytes spell (R159, R167). -/
theorem selfParams_of (groups : GroupSet) (kinds : KindSet) (attention : AttentionSet) :
    selfParams groups (kinds.setWidth 8) (attention.setWidth 16) =
      some { subscription := groups, kinds := kinds, attention := attention } := by
  have hkinds : maskOf? 4 (kinds.setWidth 8) = some kinds := maskOf?_setWidth (by decide) kinds
  have hlt : (attention.setWidth 16).toNat < 2 ^ 11 := by
    rw [BitVec.toNat_setWidth_of_le (by decide)]
    exact attention.isLt
  have hback : (attention.setWidth 16).setWidth 11 = attention := by
    rw [BitVec.setWidth_setWidth_of_le _ (by decide), BitVec.setWidth_eq]
  rw [selfParams, hkinds, Option.bind_eq_bind, Option.bind_some, if_pos hlt, hback]

theorem exec_portSelf {s : State} {p : Port} (hr : s.ReadyFor p) (groups : GroupSet) (kinds : KindSet)
    (attention : AttentionSet) :
    exec (.portSelf p groups (kinds.setWidth 8) (attention.setWidth 16)) s =
      .next ((s.setNotice (s.notice.setPort p
        (NoticePort.subscribe s.notice.ports[p]
          { subscription := groups, kinds := kinds, attention := attention }))).answered p
            (.portSelf p groups (kinds.setWidth 8) (attention.setWidth 16)) .ok
            (NoticePort.subscriptionBytes s.notice.ports[p])) := by
  refine congrArg Host.Outcome.next
    ((State.serve_accepted _ hr (selfParams_of groups kinds attention) rfl).trans ?_)
  exact State.answer_setNotice_receive s p _ _ _ _

/-- The condition of the attention line, clause by clause (R161). -/
theorem NoticePort.attentionCondition_iff (n : NoticePort) :
    n.attentionCondition = true ↔
      (∃ x ∈ n.queue, n.attention.getLsbD
        (match x.body with
          | .groupPoint .. => 0
          | .late .. => 1
          | .stageExpired .. => 2
          | .holdBroken .. => 3
          | .slot .. => 4
          | .alarm .. => 5
          | .stop .. => 6
          | .planSwitched .. => 7
          | .sync .. => 8) = true) ∨
        (n.faultOccupied = true ∧ n.attention.getLsbD 9 = true) ∨
        (n.lost = true ∧ n.attention.getLsbD 10 = true) := by
  unfold NoticePort.attentionCondition
  rw [Bool.or_eq_true, Bool.or_eq_true, Bool.and_eq_true, Bool.and_eq_true, List.any_eq_true, or_assoc]
  rfl

/-- Settles O45: the port's new part is NoticePort.subscribe, whose attention line is its condition. -/
theorem portSelfReplacesTheSubscription : Obligations.PortSelfReplacesTheSubscription := by
  intro p s groups kinds attention hr
  refine ⟨_, exec_portSelf hr groups kinds attention, rfl, ?_, ?_, fun q hq => s.notice.setPort_ne _ hq⟩
  · rw [State.answered_notice, State.setNotice_notice, NoticeUnit.setPort_same]
    rfl
  · rw [State.answered_notice, State.setNotice_notice, NoticeUnit.setPort_same]
    exact NoticePort.attentionCondition_iff _

end Sys2Proof.Machine
end

section
/-! SUPPORT. The RESET level and the part state through a step: which commands touch them (R178 to R180, R185). -/

namespace Sys2Proof

/-- The commands that can touch the RESET level or the part state. -/
def Instr.movesControl : Instr → Bool
  | .start _ | .halt _ | .partReset | .resetRelease => true
  | _ => false

end Sys2Proof

namespace Sys2Proof.Machine

/-- From s to t the RESET level and the part state stay. -/
abbrev State.KeepsControl (s t : State) : Prop := t.inReset = s.inReset ∧ t.part = s.part

theorem State.KeepsControl.trans {s t u : State} (h : s.KeepsControl t) (h' : t.KeepsControl u) : s.KeepsControl u :=
  ⟨h'.1.trans h.1, h'.2.trans h.2⟩

/-! ### Claims -/

theorem State.takeClaims_keepsControl (s : State) (cs : List Claim) : s.KeepsControl (s.takeClaims cs).1 :=
  ⟨(s.takeClaims_only cs).inReset, (s.takeClaims_only cs).part⟩

theorem State.takeResetClaims_keepsControl (s : State) (p : Port) (left now : ResetClaims) :
    s.KeepsControl (s.takeResetClaims p left now) := by
  rw [State.takeResetClaims_eq, State.resetPort_only]
  exact ⟨rfl, rfl⟩

theorem State.refuseData_keepsControl (s : State) (p : Port) (x : DataCall) (c : FaultCause) :
    s.KeepsControl (s.refuseData p x c) := by
  rw [State.refuseData_only]
  exact ⟨rfl, rfl⟩

theorem State.takePagePart_keepsControl (s : State) (p : Port) (x : DataCall) (i : Page) :
    s.KeepsControl (s.takePagePart p x i) := by
  have h := s.takePagePart_cases p x i
  generalize s.takePagePart p x i = t at h
  cases h with
  | refused c => exact s.refuseData_keepsControl p x c
  | reads r number t =>
    rw [State.beginRead_eq]
    exact ⟨rfl, rfl⟩
  | answered | refusedWrite | writes | opens | marks | drops => exact ⟨rfl, rfl⟩

theorem State.settle_keepsControl (s : State) (p : Port) : s.KeepsControl (s.settle p) :=
  State.settle_keeps s.KeepsControl p (fun left now h => h.trans (s.takeResetClaims_keepsControl p left now))
    (fun x i h => h.trans (s.takePagePart_keepsControl p x i)) ⟨rfl, rfl⟩

theorem State.settleSome_keepsControl (s : State) (p : Port) : s.KeepsControl (s.settleSome p) :=
  State.settleSome_keeps s.KeepsControl p (fun _ h => h)
    (fun left now h => h.trans (s.takeResetClaims_keepsControl p left now))
    (fun x i h => h.trans (s.takePagePart_keepsControl p x i)) ⟨rfl, rfl⟩

theorem State.acceptCall_keepsControl (s : State) (p : Port) (x : DataCall) : s.KeepsControl (s.acceptCall p x) := by
  unfold State.acceptCall
  split
  · exact s.refuseData_keepsControl p x _
  · dsimp only
    split
    · exact State.KeepsControl.trans (s := s) ⟨rfl, rfl⟩ (State.takePagePart_keepsControl _ p x _)
    · exact ⟨rfl, rfl⟩

/-! ### Events of the schedule, the stop unit and the timebase -/

theorem State.startSlot_keepsControl (s : State) (pick : Nat → Nat) : s.KeepsControl (s.startSlot pick) := by
  rw [s.startSlot_only pick]
  exact ⟨rfl, rfl⟩

theorem State.startCycle_keepsControl (s : State) (pick : Nat → Nat) (earlier : List Message) :
    s.KeepsControl (s.startCycle pick earlier) := by
  exact ⟨by rw [s.startCycle_only pick earlier]; rfl, s.startCycle_part pick earlier⟩

theorem State.endSlot_keepsControl (s : State) (pick : Nat → Nat) : s.KeepsControl (s.endSlot pick) := by
  unfold State.endSlot
  split
  · split
    · exact State.startSlot_keepsControl _ pick
    · split
      · exact s.startCycle_keepsControl pick []
      · exact ⟨rfl, rfl⟩
  · exact ⟨rfl, rfl⟩

theorem State.syncEdge_keepsControl (s : State) (pick : Nat → Nat) : s.KeepsControl (s.syncEdge pick) := by
  unfold State.syncEdge
  split
  · exact s.startCycle_keepsControl pick []
  · exact ⟨rfl, rfl⟩
  · exact ⟨rfl, rfl⟩

theorem State.expireGap_keepsControl (s : State) (pick : Nat → Nat) : s.KeepsControl (s.expireGap pick) := by
  unfold State.expireGap
  split
  · exact s.startCycle_keepsControl pick _
  · exact ⟨rfl, rfl⟩

theorem State.takeSwitch_keepsControl (s : State) : s.KeepsControl s.takeSwitch.1 := by
  rw [s.takeSwitch_only]
  exact ⟨rfl, rfl⟩

theorem State.expireFilter_keepsControl (s : State) (l : Line) : s.KeepsControl (s.expireFilter l) := by
  rw [State.expireFilter_only]
  exact ⟨rfl, rfl⟩

theorem State.sampleStop_keepsControl (s : State) (l : Line) (level : Level) :
    s.KeepsControl (s.sampleStop l level) := by
  rw [State.sampleStop_only]
  exact ⟨rfl, rfl⟩

theorem State.setStopLine_keepsControl (s : State) (x : StopParams) : s.KeepsControl (s.setStopLine x) := by
  unfold State.setStopLine
  dsimp only
  split
  · exact State.KeepsControl.trans (s := s) ⟨rfl, rfl⟩ (State.expireFilter_keepsControl _ _)
  · exact ⟨rfl, rfl⟩

theorem State.boundary_keepsControl (s : State) : s.KeepsControl s.boundary := by
  rw [State.boundary_only]
  exact ⟨rfl, rfl⟩

theorem State.answerAlarm_keepsControl (s : State) : s.KeepsControl s.answerAlarm := by
  unfold State.answerAlarm
  split
  · exact ⟨rfl, rfl⟩
  · exact s.takeSwitch_keepsControl

/-- No event of a tick touches the RESET level or the part state. -/
theorem State.takeEvent_keepsControl (s : State) (e : TickEvent) : s.KeepsControl (s.takeEvent e) := by
  cases e with
  | slot => exact s.endSlot_keepsControl s.draw
  | gap => exact s.expireGap_keepsControl s.draw
  | edge => exact State.syncEdge_keepsControl (s.setSched { s.sched with syncRise := false }) _
  | filter l => exact s.expireFilter_keepsControl l
  | second => exact s.boundary_keepsControl
  | alarmAnswer => exact s.answerAlarm_keepsControl
  | sample l => exact s.sampleStop_keepsControl l _
  | claims p => exact s.settleSome_keepsControl p

/-! ### Events of a transaction -/

theorem State.completeRead_keepsControl (s : State) (p : Port) : s.KeepsControl (s.completeRead p) := by
  unfold State.completeRead
  split
  · split <;> exact ⟨rfl, rfl⟩
  · exact ⟨rfl, rfl⟩

theorem State.completeStageRead_keepsControl (s : State) (p : Port) : s.KeepsControl (s.completeStageRead p) := by
  unfold State.completeStageRead
  split
  · split <;> exact ⟨rfl, rfl⟩
  · exact ⟨rfl, rfl⟩

theorem State.dataBytes_keepsControl (s : State) (p : Port) (data : List Byte) :
    s.KeepsControl (s.dataBytes p data) := by
  rcases s.dataBytes_cases p data with h | ⟨l, h, -⟩ | ⟨w, st, bytes, n, -, -, -, h⟩ <;> rw [h] <;> exact ⟨rfl, rfl⟩

theorem State.selectRises_keepsControl (s : State) (p : Port) : s.KeepsControl (s.selectRises p) := by
  unfold State.selectRises State.endTransaction
  split
  · dsimp only
    split <;> exact ⟨rfl, rfl⟩
  · exact ⟨rfl, rfl⟩

theorem State.responseSent_keepsControl (s : State) (p : Port) : s.KeepsControl (s.responseSent p) := by
  unfold State.responseSent
  split <;> exact ⟨rfl, rfl⟩

theorem exec_movesOn_keepsControl {c : Instr} {p : Port} (hc : c.movesOn = some p) {s t : State}
    (h : exec c s = .next t) : s.KeepsControl t := by
  refine (s.settle_keepsControl p).trans ?_
  cases c <;> cases hc <;> cases h
  case readCompletion => exact State.completeRead_keepsControl _ p
  case stageReadCompletion => exact State.completeStageRead_keepsControl _ p
  case stageWriteCompletion data => exact State.dataBytes_keepsControl _ p data
  case selectRelease => exact State.selectRises_keepsControl _ p
  case lastResponseByte => exact State.responseSent_keepsControl _ p

/-! ### Requests served -/

theorem State.switchPlan_keepsControl (s : State) (p : Port) : s.KeepsControl (s.switchPlan p) := by
  unfold State.switchPlan
  split
  · exact s.takeSwitch_keepsControl
  · exact ⟨rfl, rfl⟩

theorem State.releaseHold_keepsControl (s : State) (p : Port) : s.KeepsControl (s.releaseHold p) := by
  unfold State.releaseHold State.endHold
  split
  · exact ⟨rfl, rfl⟩
  · exact s.takeClaims_keepsControl (s.holdRemovalClaims p)

theorem State.serve_keepsControl {α : Type} (s : State) (p : Port) (record : List Byte) (right : Option RightName)
    (params : Option α) (act : α → State → State) (hact : ∀ a u, State.KeepsControl u (act a u)) :
    s.KeepsControl (s.serve p record right params act) :=
  State.serve_keeps s.KeepsControl (fun _ _ _ h => h) p record right params act ⟨rfl, rfl⟩
    fun a _ _ hr => hr.trans (hact a _)

theorem State.inSetup_keepsControl {s : State} (p : Port) (act : State → State) (hact : s.KeepsControl (act s)) :
    s.KeepsControl (s.inSetup p act) :=
  State.inSetup_keeps s.KeepsControl (fun _ _ _ h => h) p act ⟨rfl, rfl⟩ fun _ => hact

theorem State.unlessReset_keepsControl {s : State} (act : State → State) (hact : s.KeepsControl (act s)) :
    s.KeepsControl (s.unlessReset act) :=
  s.unlessReset_keeps s.KeepsControl act ⟨rfl, rfl⟩ fun _ => hact

/-- A command outside Instr.movesControl leaves the RESET level and the part state alone. -/
theorem exec_keepsControl {c : Instr} {s t : State} (h : exec c s = .next t) (hc : c.movesControl = false) :
    s.KeepsControl t := by
  cases c
  case readCompletion | stageReadCompletion | stageWriteCompletion | selectRelease | lastResponseByte =>
    exact exec_movesOn_keepsControl rfl h
  all_goals cases h
  case start | halt | partReset | resetRelease => cases hc
  case partStatus | pageStatus | planRead | groupStatus | watchSet | watchRead | holdRead | viewSet | viewGet | stopRead
      | trimSet | timeSet | alarmSet | timeRead | portSelf =>
    exact s.serve_keepsControl _ _ _ _ _ fun _ _ => ⟨rfl, rfl⟩
  case portReset p => exact s.serve_keepsControl _ _ _ _ _ fun _ u => u.takeResetClaims_keepsControl p _ _
  case portRightsSet | stageLimit | syncSet | holdLimit =>
    exact s.serve_keepsControl _ _ _ _ _ fun _ u => u.inSetup_keepsControl _ _ ⟨rfl, rfl⟩
  case definePage =>
    refine s.serve_keepsControl _ _ _ _ _ fun _ u => ?_
    unfold State.definePage
    split <;> exact ⟨rfl, rfl⟩
  case pageSet | retirePage =>
    refine s.serve_keepsControl _ _ _ _ _ fun _ u => ?_
    unfold State.onQuietPage
    split
    · split <;> exact ⟨rfl, rfl⟩
    · exact ⟨rfl, rfl⟩
  case read | stageOpen | stageWrite | stageRead | stageReady | stageDrop =>
    exact s.serve_keepsControl _ _ _ _ _ fun _ u => u.acceptCall_keepsControl _ _
  case slotSet | planLength =>
    refine s.serve_keepsControl _ _ _ _ _ fun _ u => ?_
    unfold State.editPlan
    split <;> exact ⟨rfl, rfl⟩
  case planSwitch p => exact s.serve_keepsControl _ _ _ _ _ fun _ u => u.switchPlan_keepsControl p
  case hold =>
    refine s.serve_keepsControl _ _ _ _ _ fun _ u => ?_
    unfold State.takeHold
    split
    · exact ⟨rfl, rfl⟩
    · split <;> exact ⟨rfl, rfl⟩
  case release p => exact s.serve_keepsControl _ _ _ _ _ fun _ u => u.releaseHold_keepsControl p
  case faultTake =>
    refine s.serve_keepsControl _ _ _ _ _ fun _ u => ?_
    unfold State.takeFault
    split <;> exact ⟨rfl, rfl⟩
  case stopSet =>
    exact s.serve_keepsControl _ _ _ _ _ fun x u => u.inSetup_keepsControl _ _ (u.setStopLine_keepsControl x)
  case stopClear =>
    refine s.serve_keepsControl _ _ _ _ _ fun _ u => ?_
    unfold State.clearStop
    split <;> exact ⟨rfl, rfl⟩
  case noticePeek =>
    refine s.serve_keepsControl _ _ _ _ _ fun _ u => ?_
    unfold State.peekNotice
    split <;> exact ⟨rfl, rfl⟩
  case noticePop =>
    refine s.serve_keepsControl _ _ _ _ _ fun _ u => ?_
    unfold State.popNotice
    split <;> exact ⟨rfl, rfl⟩
  case badRequest =>
    unfold State.refuseHeader
    split
    · split <;> exact ⟨rfl, rfl⟩
    · exact ⟨rfl, rfl⟩
  case endOfSlot => exact s.unlessReset_keepsControl _ (s.endSlot_keepsControl s.draw)
  case syncEdge =>
    refine s.unlessReset_keepsControl _ ?_
    split
    · exact ⟨rfl, rfl⟩
    · exact s.syncEdge_keepsControl _
  case gapExpiry => exact s.unlessReset_keepsControl _ (s.expireGap_keepsControl s.draw)
  case cyclePulseEnd => exact s.unlessReset_keepsControl _ ⟨rfl, rfl⟩
  case stopInputChange l level =>
    exact State.KeepsControl.trans (s := s) ⟨rfl, rfl⟩
      (State.unlessReset_keepsControl _ (State.sampleStop_keepsControl _ l level))
  case filterTimerExpiry l => exact s.unlessReset_keepsControl _ (s.expireFilter_keepsControl l)
  case secondBoundary => exact s.unlessReset_keepsControl _ s.boundary_keepsControl
  case alarmSwitchRequest => exact s.unlessReset_keepsControl _ s.answerAlarm_keepsControl
  case selectPeriodBegin =>
    unfold State.selectFalls
    split
    · exact ⟨rfl, rfl⟩
    · split <;> exact ⟨rfl, rfl⟩

end Sys2Proof.Machine
end

section
/-! SUPPORT. The part at rest, which is what the law of SETUP asks of it, passes through everything that does not leave
SETUP (R178). -/

namespace Sys2Proof.Machine

/-- The part in SETUP as its law has it: no staging, no hold record, the engine OFF and no pending switch (R178). -/
structure State.Resting (s : State) : Prop where
  part : s.part = .setup
  staging : ∀ i : Page, (s.map.page i).staging = none
  hold : ∀ p : Port, s.hold.records[p] = none
  engine : s.sched.engine = .off
  switch : s.sched.pendingSwitch = false

theorem State.setupLaw_iff (s : State) : s.SetupLaw ↔ (s.part = .setup → s.Resting) :=
  ⟨fun h hp => ⟨hp, (h hp).1, (h hp).2.1, (h hp).2.2.1, (h hp).2.2.2⟩,
    fun h hp => ⟨(h hp).staging, (h hp).hold, (h hp).engine, (h hp).switch⟩⟩

/-- Resting rests on the part state, the exchange map, the hold table and the schedule alone. -/
theorem State.Resting.congr {s t : State} (hs : s.Resting) (hpart : t.part = s.part) (hmap : t.map = s.map)
    (hhold : t.hold = s.hold) (hsched : t.sched = s.sched) : t.Resting where
  part := hpart.trans hs.part
  staging := hmap ▸ hs.staging
  hold := hhold ▸ hs.hold
  engine := (congrArg Schedule.engine hsched).trans hs.engine
  switch := (congrArg Schedule.pendingSwitch hsched).trans hs.switch

/-! ### Without stagings -/

/-- A move other than a store opens no staging. -/
theorem State.Move.unstaged {s t : State} {k : MoveKind} (h : s.Move k t) (hk : k ≠ .store)
    (hs : ∀ i : Page, (s.map.page i).staging = none) (j : Page) : (t.map.page j).staging = none := by
  cases h with
  | others hmap => exact hmap ▸ hs j
  | port | limit | write => exact hs j
  | beginRead p r l => exact hs j
  | endRead p r l =>
    rw [State.setPort_map, State.setMap_map, ExchangeMap.dropRef_page]
    exact hs j
  | page i r hlaw hlive hsequence hstaging =>
    rw [State.setMap_map, ExchangeMap.page_setPage]
    split
    · rw [hs i] at hstaging
      exact Option.map_eq_none_iff.1 hstaging
    · exact hs j
  | remove i =>
    rw [State.setMap_map, ExchangeMap.removeStaging_page]
    split
    · rfl
    · exact hs j
  | publish i st c hst => exact absurd (hst.symm.trans (hs i)) (by simp)
  | define x =>
    rw [State.setMap_map, ExchangeMap.page_setPage]
    split
    · rfl
    · exact hs j
  | retire i =>
    rw [State.setMap_map, ExchangeMap.retire_page]
    split
    · rfl
    · exact hs j
  | openStaging => exact absurd rfl hk
  | reset =>
    rw [State.holdInReset_page]
    rfl

/-- A run of moves that stores nothing, and leaves the other blocks alone, leaves the part at rest. -/
theorem State.Resting.reaches {K : List MoveKind} {s t : State} (hs : s.Resting) (hK : .store ∉ K) (h : s.Reaches K t)
    (hpart : t.part = s.part) (hhold : ∀ p : Port, t.hold.records[p] = none) (hsched : t.sched = s.sched) :
    t.Resting where
  part := hpart.trans hs.part
  staging := h.keeps (fun s => ∀ i : Page, (s.map.page i).staging = none)
    (fun _ _ _ hk hm hs => hm.unstaged (fun e => hK (e ▸ hk)) hs) hs.staging
  hold := hhold
  engine := (congrArg Schedule.engine hsched).trans hs.engine
  switch := (congrArg Schedule.pendingSwitch hsched).trans hs.switch

end Sys2Proof.Machine
end

section
/-! SUPPORT. Every operation that a part in SETUP can come to leaves it at rest. -/

namespace Sys2Proof.Machine

/-! ### Claims -/

/-- No claim makes a hold record. -/
theorem State.takeClaim_noHolds (s : State) (c : Claim) (hs : ∀ p : Port, s.hold.records[p] = none) (p : Port) :
    (s.takeClaim c).1.hold.records[p] = none := by
  cases c with
  | countHolds =>
    show s.hold.count.records[p] = none
    rw [HoldTable.count_record, hs p]
    rfl
  | rollWatches => exact hs p
  | point g =>
    show (s.takePoint g).1.hold.records[p] = none
    rw [State.takePoint_hold]
    exact hs p
  | report g =>
    show (s.takeReport g).1.hold.records[p] = none
    rw [State.takeReport_hold]
    exact hs p
  | removeHold q =>
    show (s.hold.remove q).records[p] = none
    by_cases hp : p = q
    · rw [hp, HoldTable.remove_same]
    · rw [HoldTable.remove_other _ hp, hs p]

theorem State.Resting.takeClaims {s : State} (hs : s.Resting) (cs : List Claim) : (s.takeClaims cs).1.Resting :=
  hs.reaches (K := [.quiet, .publish]) (by decide) (s.takeClaims_reaches (.head _) (.tail _ (.head _)) cs)
    (s.takeClaims_only cs).part
    (s.takeClaims_keeps (fun s => ∀ p : Port, s.hold.records[p] = none) (fun s c => s.takeClaim_noHolds c) cs hs.hold)
    (s.takeClaims_only cs).sched

theorem State.Resting.resetBlocks {s : State} (hs : s.Resting) (k : Nat) (p : Port) (which : ResetClaims) :
    (s.resetBlocks k p which).1.Resting := by
  have hstrip : ∀ u : State, u.Resting → (u.setMap (u.map.removeStagingsOf p)).Resting := fun u hu =>
    hu.reaches (K := [.quiet]) (by decide) (u.removeStagingsOf_reaches (.head _) p) (u.setMap_part _)
      (fun q => (congrArg (fun h : HoldTable => h.records[q]) (u.setMap_hold _)).trans (hu.hold q)) (u.setMap_sched _)
  unfold State.resetBlocks
  dsimp only
  refine State.Resting.takeClaims ?_ _
  cases which.stagings with
  | true => exact hstrip _ (hs.takeClaims _)
  | false => exact hs.takeClaims _

theorem State.Resting.takeResetClaims {s : State} (hs : s.Resting) (p : Port) (left now : ResetClaims) :
    (s.takeResetClaims p left now).Resting := by
  rw [State.takeResetClaims_eq]
  refine State.Resting.congr (s := s.resetPort s.draw p now) ?_ rfl rfl rfl rfl
  unfold State.resetPort
  dsimp only
  split <;> exact (hs.resetBlocks _ p now).congr rfl rfl rfl rfl

/-! ### Data requests -/

theorem State.Resting.refuseData {s : State} (hs : s.Resting) (p : Port) (x : DataCall) (c : FaultCause) :
    (s.refuseData p x c).Resting := by
  rw [State.refuseData_only]
  exact hs.congr rfl rfl rfl rfl

/-- Without stagings, and with STAGE_OPEN refused in SETUP, the page part of a data request touches no staging (R18). -/
theorem State.Resting.takePagePart {s : State} (hs : s.Resting) (p : Port) (x : DataCall) (i : Page) :
    (s.takePagePart p x i).Resting := by
  by_cases hx : ∃ pp copy, x = .stageOpen pp copy
  · obtain ⟨pp, copy, rfl⟩ := hx
    unfold State.takePagePart
    split
    · exact hs.refuseData p _ _
    · rw [State.acceptData, State.acceptStageOpen_setup p copy _ hs.part]
      exact hs.congr rfl rfl rfl rfl
  · have h := s.takePagePart_cases p x i
    generalize s.takePagePart p x i = t at h
    cases h with
    | refused c => exact hs.refuseData p x c
    | answered | refusedWrite | writes => exact hs.congr rfl rfl rfl rfl
    | reads r number t =>
      rw [State.beginRead_eq]
      exact ⟨hs.part, hs.staging, hs.hold, hs.engine, hs.switch⟩
    | opens pp copy f rest hopen => exact absurd ⟨pp, copy, hopen⟩ hx
    | marks pp st _ hst => exact absurd (hst.symm.trans (hs.staging i)) (by simp)
    | drops =>
      refine ⟨hs.part, fun j => ?_, hs.hold, hs.engine, hs.switch⟩
      rw [State.answer_map, State.setMap_map, ExchangeMap.removeStaging_page]
      split
      · rfl
      · exact hs.staging j

theorem State.Resting.settle {s : State} (hs : s.Resting) (p : Port) : (s.settle p).Resting :=
  State.settle_keeps State.Resting p (fun left now h => h.takeResetClaims p left now) (fun x i h => h.takePagePart p x i)
    hs

theorem State.Resting.settleSome {s : State} (hs : s.Resting) (p : Port) : (s.settleSome p).Resting :=
  State.settleSome_keeps State.Resting p (fun _ h => h.congr rfl rfl rfl rfl)
    (fun left now h => h.takeResetClaims p left now) (fun x i h => h.takePagePart p x i) hs

theorem State.Resting.acceptCall {s : State} (hs : s.Resting) (p : Port) (x : DataCall) : (s.acceptCall p x).Resting := by
  unfold State.acceptCall
  split
  · exact hs.refuseData p x _
  · have ha (l : LinkPort) : (s.setPort p l).bump.Resting := hs.congr rfl rfl rfl rfl
    dsimp only
    split
    · exact (ha _).takePagePart p x _
    · exact ha _

/-! ### The schedule -/

theorem State.Resting.endSlot {s : State} (hs : s.Resting) (pick : Nat → Nat) : s.endSlot pick = s :=
  State.endSlot_idle (by rw [hs.engine]; nofun) pick

theorem State.Resting.syncEdge {s : State} (hs : s.Resting) (pick : Nat → Nat) : s.syncEdge pick = s :=
  State.syncEdge_ignored (Or.inl hs.engine) pick

theorem State.Resting.expireGap {s : State} (hs : s.Resting) (pick : Nat → Nat) : s.expireGap pick = s := by
  simp only [State.expireGap, hs.engine]

theorem State.Resting.takeEdge {s : State} (hs : s.Resting) : s.takeEdge.Resting := by
  unfold State.takeEdge
  rw [hs.syncEdge]
  exact hs.congr rfl rfl rfl rfl

theorem State.Resting.leaveEdge {s : State} (hs : s.Resting) : s.leaveEdge.Resting :=
  ⟨hs.part, hs.staging, hs.hold, hs.engine, hs.switch⟩

theorem State.Resting.takeSwitch {s : State} (hs : s.Resting) : s.takeSwitch.1.Resting := by
  rw [State.takeSwitch_setup hs.part]
  exact ⟨hs.part, hs.staging, hs.hold, hs.engine, hs.switch⟩

theorem State.Resting.answerAlarm {s : State} (hs : s.Resting) : s.answerAlarm.Resting := by
  unfold State.answerAlarm
  split
  · exact hs
  · exact hs.takeSwitch.congr rfl rfl rfl rfl

theorem State.Resting.editPlan {s : State} (hs : s.Resting) (p : Port) (n : PlanName) (edit : Plan → Plan) :
    (s.editPlan p n edit).Resting := by
  unfold State.editPlan
  split
  · exact hs.congr rfl rfl rfl rfl
  · cases n <;> exact ⟨hs.part, hs.staging, hs.hold, hs.engine, hs.switch⟩

/-! ### Every command -/

theorem State.Resting.serve {α : Type} {s : State} (hs : s.Resting) (p : Port) (record : List Byte)
    (right : Option RightName) (params : Option α) (act : α → State → State)
    (hact : ∀ a u, State.Resting u → (act a u).Resting) : (s.serve p record right params act).Resting :=
  State.serve_keeps State.Resting (fun _ _ _ h => h.congr rfl rfl rfl rfl) p record right params act hs
    fun a _ _ hr => hact a _ hr

theorem State.Resting.inSetup {s : State} (hs : s.Resting) (p : Port) (act : State → State) (hact : (act s).Resting) :
    (s.inSetup p act).Resting :=
  State.inSetup_keeps State.Resting (fun _ _ _ h => h.congr rfl rfl rfl rfl) p act hs fun _ => hact

theorem exec_movesOn_rests {c : Instr} {p : Port} (hc : c.movesOn = some p) {s t : State} (h : exec c s = .next t)
    (hs : s.Resting) : t.Resting := by
  have hu := hs.settle p
  have hhold := (exec_movesOn_keepsOutcomes hc h).2
  have hquiet : (s.settle p).Reaches [.quiet] t → t.part = (s.settle p).part → t.sched = (s.settle p).sched →
      t.Resting := fun hr hpart hsched => hu.reaches (by decide) hr hpart (fun q => hhold ▸ hu.hold q) hsched
  cases c <;> cases hc <;> cases h
  case readCompletion =>
    obtain ⟨hsched, hpart⟩ := (s.settle p).completeRead_keepsSchedule p
    exact hquiet (State.completeRead_reaches (.head _) _ p) hpart hsched
  case stageReadCompletion =>
    obtain ⟨hsched, hpart⟩ := (s.settle p).completeStageRead_keepsSchedule p
    exact hquiet (State.completeStageRead_reaches (.head _) _ p) hpart hsched
  case selectRelease =>
    obtain ⟨hsched, hpart⟩ := (s.settle p).selectRises_keepsSchedule p
    exact hquiet (State.selectRises_reaches (.head _) _ p) hpart hsched
  case lastResponseByte =>
    obtain ⟨hsched, hpart⟩ := (s.settle p).responseSent_keepsSchedule p
    exact hquiet (State.responseSent_reaches (.head _) _ p) hpart hsched
  case stageWriteCompletion data =>
    rcases (s.settle p).dataBytes_cases p data with hd | ⟨l, hd, -⟩ | ⟨w, st, bytes, n, -, -, -, hd⟩ <;> rw [hd]
    · exact hu
    · exact hu.congr rfl rfl rfl rfl
    · exact ⟨hu.part, hu.staging, hu.hold, hu.engine, hu.switch⟩

/-- A command that stores nothing, and touches neither schedule nor hold table, leaves the part at rest. -/
theorem exec_rests_of_still {c : Instr} {s t : State} (h : exec c s = .next t)
    (hstore : ∀ p portPage copy, c ≠ .stageOpen p portPage copy) (hon : c.movesOn = none)
    (hsched : c.movesSchedule = false) (hhold : c.movesOutcomes = false) (hs : s.Resting) : t.Resting := by
  obtain ⟨hsched, hpart⟩ := exec_keepsSchedule h hsched
  have hK : .store ∉ c.moves := fun hm => by
    obtain ⟨p, portPage, copy, hc⟩ := Instr.stageOpen_of_store_mem hm hon
    exact hstore p portPage copy hc
  exact hs.reaches hK (exec_reaches h) hpart (fun p => (exec_keepsOutcomes h hhold).2 ▸ hs.hold p) hsched

/-- A command other than START, HALT and part reset leaves the part at rest. -/
theorem exec_rests {c : Instr} {s t : State} (h : exec c s = .next t) (hc : c.movesControl = false)
    (hs : s.Resting) : t.Resting := by
  cases c
  case start | halt | partReset | resetRelease => cases hc
  case readCompletion | stageReadCompletion | stageWriteCompletion | selectRelease | lastResponseByte =>
    exact exec_movesOn_rests rfl h hs
  case slotSet | planLength =>
    cases h
    exact hs.serve _ _ _ _ _ fun _ _ hu => hu.editPlan _ _ _
  case planSwitch p =>
    cases h
    refine hs.serve _ _ _ _ _ fun _ u hu => ?_
    unfold State.switchPlan
    split
    · exact hu.takeSwitch.congr rfl rfl rfl rfl
    · exact hu.congr rfl rfl rfl rfl
  case syncSet =>
    cases h
    exact hs.serve _ _ _ _ _ fun _ u hu =>
      hu.inSetup _ _ ⟨hu.part, hu.staging, hu.hold, hu.engine, hu.switch⟩
  case holdLimit =>
    cases h
    exact hs.serve _ _ _ _ _ fun _ u hu =>
      hu.inSetup _ _ ⟨hu.part, hu.staging, hu.hold, hu.engine, hu.switch⟩
  case watchSet =>
    cases h
    exact hs.serve _ _ _ _ _ fun _ u hu => hu.congr rfl rfl rfl rfl
  case hold p groups =>
    cases h
    refine hs.serve _ _ _ _ _ fun g u hu => ?_
    rw [State.takeHold_setup hu.part]
    exact hu.congr rfl rfl rfl rfl
  case release p =>
    cases h
    refine hs.serve _ _ _ _ _ fun _ u hu => ?_
    unfold State.releaseHold
    split
    · exact hu.congr rfl rfl rfl rfl
    · exact (hu.takeClaims _).congr rfl rfl rfl rfl
  case portReset p =>
    cases h
    exact hs.serve _ _ _ _ _ fun _ u hu => hu.takeResetClaims p _ _
  case stageOpen p portPage copy =>
    cases h
    exact hs.serve _ _ _ _ _ fun _ u hu => hu.acceptCall p _
  case endOfSlot =>
    cases h
    refine s.unlessReset_keeps State.Resting _ hs fun _ => ?_
    rw [hs.endSlot]
    exact hs.congr rfl rfl rfl rfl
  case syncEdge =>
    cases h
    refine s.unlessReset_keeps State.Resting _ hs fun _ => ?_
    split
    · exact hs.leaveEdge
    · exact hs.takeEdge
  case gapExpiry =>
    cases h
    refine s.unlessReset_keeps State.Resting _ hs fun _ => ?_
    rw [hs.expireGap]
    exact hs.congr rfl rfl rfl rfl
  case cyclePulseEnd =>
    cases h
    exact s.unlessReset_keeps State.Resting _ hs fun _ => ⟨hs.part, hs.staging, hs.hold, hs.engine, hs.switch⟩
  case alarmSwitchRequest =>
    cases h
    exact s.unlessReset_keeps State.Resting _ hs fun _ => hs.answerAlarm
  all_goals exact exec_rests_of_still h nofun rfl rfl rfl hs

/-! ### Part control -/

/-- HALT and part reset leave the part at rest, whatever it was (R180, R186). -/
theorem State.haltPart_rests (s : State) : s.haltPart.Resting where
  part := rfl
  staging i := by
    rw [State.haltPart, State.setPub_map, State.setHold_map, State.setMap_map, ExchangeMap.removeAllStagings_page]
  hold := s.haltPart_records
  engine := rfl
  switch := rfl

theorem State.holdInReset_rests (s : State) : s.holdInReset.Resting where
  part := rfl
  staging i := by
    rw [State.holdInReset_page]
    rfl
  hold p := getElem_replicate (none : Option Hold) p
  engine := rfl
  switch := rfl

theorem State.startPart_part (s : State) : s.startPart.part = .run := by
  unfold State.startPart State.startSchedule
  dsimp only
  split
  · rw [State.bump, State.setChoices_part, State.startCycle_part]
    rfl
  · rfl

theorem State.SetupLaw.congr {s t : State} (hs : s.SetupLaw) (hpart : t.part = s.part) (hmap : t.map = s.map)
    (hhold : t.hold = s.hold) (hsched : t.sched = s.sched) : t.SetupLaw := by
  rw [State.setupLaw_iff] at hs ⊢
  exact fun hp => (hs (hpart.symm.trans hp)).congr hpart hmap hhold hsched

theorem State.SetupLaw.setPort {s : State} (hs : s.SetupLaw) (p : Port) (l : LinkPort) : (s.setPort p l).SetupLaw :=
  hs.congr rfl rfl rfl rfl

theorem exec_setupLaw_of_moves {c : Instr} {s t : State} (h : exec c s = .next t) (hc : c.movesControl = true)
    (hs : s.SetupLaw) : t.SetupLaw := by
  cases c <;> cases hc <;> cases h
  case start p =>
    refine State.serve_keeps State.SetupLaw (fun _ p l hu => hu.setPort p l) _ _ _ _ _ hs fun _ _ _ hr => ?_
    refine State.inSetup_keeps State.SetupLaw (fun _ p l hu => hu.setPort p l) _ _ hr fun _ hp => ?_
    exact absurd (hp.symm.trans (State.startPart_part _)) nofun
  case halt p =>
    refine State.serve_keeps State.SetupLaw (fun _ p l hu => hu.setPort p l) _ _ _ _ _ hs fun _ _ _ hr => ?_
    split
    · exact State.SetupLaw.setPort ((State.setupLaw_iff _).2 fun _ => State.haltPart_rests _) p _
    · exact hr.setPort p _
  case partReset => exact (State.setupLaw_iff _).2 fun _ => s.holdInReset_rests
  case resetRelease => exact hs.congr rfl rfl rfl rfl

theorem exec_setupLaw {c : Instr} {s t : State} (h : exec c s = .next t) (hs : s.SetupLaw) : t.SetupLaw := by
  cases hc : c.movesControl with
  | false =>
    rw [State.setupLaw_iff] at hs ⊢
    exact fun hp => exec_rests h hc (hs ((exec_keepsControl h hc).2.symm.trans hp))
  | true => exact exec_setupLaw_of_moves h hc hs

/-! ### A tick -/

theorem State.Resting.takeEvent {s : State} (hs : s.Resting) (e : TickEvent) : (s.takeEvent e).Resting := by
  cases e with
  | slot =>
    show ((s.endSlot s.draw).bump).Resting
    rw [hs.endSlot]
    exact hs.congr rfl rfl rfl rfl
  | gap =>
    show ((s.expireGap s.draw).bump).Resting
    rw [hs.expireGap]
    exact hs.congr rfl rfl rfl rfl
  | edge =>
    exact State.Resting.takeEdge (s := s.setSched { s.sched with syncRise := false })
      ⟨hs.part, hs.staging, hs.hold, hs.engine, hs.switch⟩
  | filter l =>
    show (s.expireFilter l).Resting
    rw [State.expireFilter_only]
    exact hs.congr rfl rfl rfl rfl
  | second =>
    show s.boundary.Resting
    rw [State.boundary_only]
    exact hs.congr rfl rfl rfl rfl
  | alarmAnswer => exact hs.answerAlarm
  | sample l =>
    show (s.sampleStop l _).Resting
    rw [State.sampleStop_only]
    exact hs.congr rfl rfl rfl rfl
  | claims p => exact hs.settleSome p

theorem State.tick_setupLaw {s : State} (hs : s.SetupLaw) : s.tick.SetupLaw := by
  refine State.tick_keeps State.SetupLaw (fun s hs => ?_) (fun s e hs => ?_) hs
  · exact fun hp => hs hp
  · rw [State.setupLaw_iff] at hs ⊢
    exact fun hp => (hs ((s.takeEvent_keepsControl e).2.symm.trans hp)).takeEvent e

end Sys2Proof.Machine
end

section
/-! HEADLINE. Every step keeps the law of SETUP (R178), and the reset values while RESET is held (R185). -/

namespace Sys2Proof.Machine

/-! ### The part held in reset -/

/-- A port of a part held in reset shows its SEL pin and nothing else (R185). -/
theorem State.holdInReset_setPort (s : State) (p : Port) (l : LinkPort) :
    (s.setPort p l).holdInReset = s.holdInReset.setPort p { LinkPort.reset with selected := l.selected } := by
  have hlink : (s.setPort p l).holdInReset.link =
      (s.holdInReset.setPort p { LinkPort.reset with selected := l.selected }).link := by
    refine Vector.ext fun i hi => ?_
    have h := State.port_setPort s.holdInReset p ⟨i, hi⟩ { LinkPort.reset with selected := l.selected }
    have h' := (s.setPort p l).holdInReset_port ⟨i, hi⟩
    rw [State.port_setPort] at h'
    refine h'.trans (Eq.trans ?_ h.symm)
    by_cases hp : (⟨i, hi⟩ : Port) = p
    · rw [if_pos hp, if_pos hp]
    · rw [if_neg hp, if_neg hp, State.holdInReset_port]
  exact congrArg s.holdInReset.setLink hlink

/-- The pins of a part held in reset are as they are driven. -/
theorem State.holdInReset_driveStop (s : State) (l : Line) (level : Level) :
    (s.driveStop l level).holdInReset = s.holdInReset.driveStop l level := by
  have hstop : (s.driveStop l level).holdInReset.stop = (s.holdInReset.driveStop l level).stop := by
    match l with
    | 0 => simp [State.driveStop, State.holdInReset, StopUnit.setLine, StopUnit.line, StopUnit.frozenUnion,
        StopLine.frozenPart, StopLine.reset]
    | 1 => simp [State.driveStop, State.holdInReset, StopUnit.setLine, StopUnit.line, StopUnit.frozenUnion,
        StopLine.frozenPart, StopLine.reset]
  exact congrArg s.holdInReset.setStop hstop

theorem State.holdInReset_holdInReset (s : State) : s.holdInReset.holdInReset = s.holdInReset := by
  have hlink : s.holdInReset.holdInReset.link = s.holdInReset.link := by
    refine Vector.ext fun i hi => ?_
    have h := s.holdInReset.holdInReset_port ⟨i, hi⟩
    have h' := s.holdInReset_port ⟨i, hi⟩
    exact h.trans ((by rw [h'] : _ = { LinkPort.reset with selected := (s.port ⟨i, hi⟩).selected }).trans h'.symm)
  exact congrArg s.holdInReset.setLink hlink

/-- Every block holds its reset values (R185). -/
abbrev State.HeldInReset (s : State) : Prop := s = s.holdInReset

theorem State.HeldInReset.inReset {s : State} (hs : s.HeldInReset) : s.inReset = true := hs ▸ rfl

theorem State.HeldInReset.port {s : State} (hs : s.HeldInReset) (p : Port) :
    s.port p = { LinkPort.reset with selected := (s.port p).selected } :=
  (congrArg (fun u : State => u.port p) hs).trans (s.holdInReset_port p)

theorem State.HeldInReset.tx {s : State} (hs : s.HeldInReset) (p : Port) : (s.port p).tx = .idle := by rw [hs.port p]; rfl

theorem State.HeldInReset.reading {s : State} (hs : s.HeldInReset) (p : Port) : (s.port p).reading = none := by rw [hs.port p]; rfl

theorem State.HeldInReset.not_ready {s : State} (hs : s.HeldInReset) (p : Port) : ¬ s.ReadyFor p :=
  fun h => absurd (hs.inReset.symm.trans h.1) nofun

theorem State.HeldInReset.awaitsRequest {s : State} (hs : s.HeldInReset) (p : Port) : s.awaitsRequest p = false := by
  rw [State.awaitsRequest, hs.inReset]
  rfl

theorem State.HeldInReset.select {s : State} (hs : s.HeldInReset) (p : Port) (b : Bool) :
    State.HeldInReset (s.setPort p { LinkPort.reset with selected := b }) := by
  rw [State.HeldInReset, State.holdInReset_setPort, ← hs]

theorem State.HeldInReset.driveStop {s : State} (hs : s.HeldInReset) (l : Line) (level : Level) : (s.driveStop l level).HeldInReset := by
  rw [State.HeldInReset, State.holdInReset_driveStop, ← hs]

/-- A fall of SEL is not taken, and the port shows its pin (R185). -/
theorem State.HeldInReset.selectFalls {s : State} (hs : s.HeldInReset) (p : Port) : (s.selectFalls p).HeldInReset := by
  unfold State.selectFalls
  split
  · exact hs
  · rw [hs.inReset, hs.port p]
    exact hs.select p true

theorem State.HeldInReset.selectRises {s : State} (hs : s.HeldInReset) (p : Port) : (s.selectRises p).HeldInReset := by
  unfold State.selectRises State.endTransaction
  split
  · rw [hs.reading p, hs.port p]
    exact hs.select p false
  · exact hs

/-- In IDLE nothing of a transaction passes (R168). -/
theorem exec_movesOn_heldInReset {c : Instr} {p : Port} (hc : c.movesOn = some p) {s t : State} (h : exec c s = .next t)
    (hs : s.HeldInReset) : t.HeldInReset := by
  have hsettle : s.settle p = s := State.settle_none (by simp [LinkPort.claimsOutstanding, hs.tx p])
  cases c <;> cases hc <;> cases h <;> rw [hsettle]
  case readCompletion =>
    simpa only [State.completeRead, LinkPort.readInResponse, hs.tx p] using hs
  case stageReadCompletion =>
    simpa only [State.completeStageRead, LinkPort.readInResponse, hs.tx p] using hs
  case stageWriteCompletion data => simpa only [State.dataBytes, hs.tx p] using hs
  case selectRelease => exact hs.selectRises p
  case lastResponseByte => simpa only [State.responseSent, hs.tx p] using hs

/-- While RESET is held no command but RESET_RELEASE takes the part from its reset values (R185). -/
theorem exec_heldInReset {c : Instr} {s t : State} (h : exec c s = .next t) (hc : c ≠ .resetRelease) (hs : s.HeldInReset) :
    t.HeldInReset := by
  cases c
  case resetRelease => exact absurd rfl hc
  case readCompletion | stageReadCompletion | stageWriteCompletion | selectRelease | lastResponseByte =>
    exact exec_movesOn_heldInReset rfl h hs
  case badRequest p a b =>
    cases h
    rw [State.refuseHeader, hs.awaitsRequest p]
    exact hs
  case endOfSlot | syncEdge | gapExpiry | cyclePulseEnd | filterTimerExpiry | secondBoundary | alarmSwitchRequest =>
    cases h
    rw [State.unlessReset_held hs.inReset]
    exact hs
  case stopInputChange l level =>
    cases h
    have hd := hs.driveStop l level
    rw [State.unlessReset_held hd.inReset]
    exact hd
  case selectPeriodBegin p =>
    cases h
    exact hs.selectFalls p
  case partReset =>
    cases h
    exact s.holdInReset_holdInReset.symm
  all_goals
    cases h
    rw [State.serve_ignored _ (hs.not_ready _)]
    exact hs

/-! ### Through a step -/

theorem State.startPart_inReset (s : State) : s.startPart.inReset = s.inReset := by
  unfold State.startPart State.startSchedule
  dsimp only
  split
  · rw [State.bump, State.setChoices_inReset]
    exact (State.startCycle_keepsControl _ _ _).1
  · rfl

/-- Part reset alone begins a hold of RESET (R185). -/
theorem exec_inReset {c : Instr} {s t : State} (h : exec c s = .next t) (hc : c ≠ .partReset)
    (ht : t.inReset = true) : s.inReset = true := by
  have hport : ∀ (s : State) (p : Port) (l : LinkPort), s.inReset = false → (s.setPort p l).inReset = false :=
    fun _ _ _ h => h
  by_contra hs
  rw [Bool.not_eq_true] at hs
  refine absurd (ht.symm.trans (?_ : t.inReset = false)) nofun
  cases c
  case start p =>
    cases h
    exact State.serve_keeps (fun u => u.inReset = false) hport _ _ _ _ _ hs fun _ _ _ hr =>
      State.inSetup_keeps (fun u => u.inReset = false) hport _ _ hr fun _ => (State.startPart_inReset _).trans hr
  case halt p =>
    cases h
    refine State.serve_keeps (fun u => u.inReset = false) hport _ _ _ _ _ hs fun _ _ _ hr => ?_
    split <;> exact hr
  case partReset => exact absurd rfl hc
  case resetRelease =>
    cases h
    rfl
  all_goals exact (exec_keepsControl h rfl).1.trans hs

theorem exec_resetLaw {c : Instr} {s t : State} (h : exec c s = .next t) (hs : s.ResetLaw) : t.ResetLaw := by
  intro ht
  by_cases hreset : c = .partReset
  · subst hreset
    cases h
    exact s.holdInReset_holdInReset.symm
  · refine exec_heldInReset h ?_ (hs (exec_inReset h hreset ht))
    rintro rfl
    cases h
    exact absurd ht nofun

theorem State.tick_resetLaw {s : State} (hs : s.ResetLaw) : s.tick.ResetLaw := by
  cases hr : s.inReset with
  | true =>
    have h : s.tick = s := State.unlessReset_held hr
    exact h.symm ▸ hs
  | false =>
    have h : s.tick.inReset = false :=
      State.tick_keeps (fun u => u.inReset = false) (fun _ h => h)
        (fun u e h => (u.takeEvent_keepsControl e).1.trans h) hr
    exact fun ht => absurd (ht.symm.trans h) nofun

/-- Settles O48: outside START, HALT and part reset a part at rest stays at rest; while RESET is held only its pins
move. -/
theorem stepKeepsTheSetupAndResetLaws : Obligations.StepKeepsTheSetupAndResetLaws := fun _ _ h =>
  ⟨step_keeps State.SetupLaw (fun _ _ hs => hs) (fun _ _ _ => exec_setupLaw) (fun _ => State.tick_setupLaw) h,
    step_keeps State.ResetLaw (fun _ _ hs hr => congrArg (fun u : State => u.setPending _) (hs hr))
      (fun _ _ _ => exec_resetLaw) (fun _ => State.tick_resetLaw) h⟩

end Sys2Proof.Machine
end

section
/-! HEADLINE. The queue's front, the refused header, the end of a select period, PART_STATUS and the settings of SETUP
(R169, R173, R178, R182). -/

namespace Sys2Proof.Machine

/-- Settles O1: the step's own equation on a queue that is not empty. -/
theorem stepTakesFrontCommand : Obligations.StepTakesFrontCommand := fun _ _ _ => rfl

/-! ### The refused header -/

/-- The header check accepts only headers of the table (R169). -/
theorem headerAccepted_of_not_mem {identifier length : Byte} (h : (identifier.toNat, length.toNat) ∉ requestTable) :
    headerAccepted identifier length = false := by
  have hlookup : ∀ {l : List (Nat × Nat)} {k v : Nat}, l.lookup k = some v → (k, v) ∈ l := by
    intro l k v
    induction l with
    | nil => nofun
    | cons x l ih =>
      intro hl
      rw [List.lookup_cons] at hl
      split at hl
      · rename_i hk
        obtain rfl := Option.some.inj hl
        obtain rfl := beq_iff_eq.1 hk
        exact .head _
      · exact .tail _ (ih hl)
  refine Bool.eq_false_iff.2 fun ha => h (hlookup ?_)
  exact beq_iff_eq.1 ha

/-- Settles O6. -/
theorem unknownHeaderIsRefused : Obligations.UnknownHeaderIsRefused := by
  intro p identifier length s hmem hr
  show Host.Outcome.next (s.refuseHeader p identifier length) = _
  rw [State.refuseHeader, hr.awaits, if_pos rfl, headerAccepted_of_not_mem hmem]
  exact congrArg Host.Outcome.next (s.answer_receive p (.badRequest p identifier length) .badRequest [])

/-! ### The end of a select period -/

/-- Nothing is settled where no claims are outstanding. -/
theorem State.settle_of_not_accepted {s : State} {p : Port} (h : ∀ o : Outstanding, (s.port p).tx ≠ .accepted o) :
    s.settle p = s := by
  refine State.settle_none ?_
  unfold LinkPort.claimsOutstanding
  split
  · rename_i o ho
    exact absurd ho (h o)
  · rfl

/-- Settles O8. -/
theorem selectReleaseEndsTheTransaction : Obligations.SelectReleaseEndsTheTransaction := by
  intro p s hsel hacc
  have hexec : exec (.selectRelease p) s = .next (s.endTransaction p) := by
    show Host.Outcome.next ((s.settle p).selectRises p) = _
    rw [State.settle_of_not_accepted hacc, State.selectRises, hsel, if_pos rfl]
  refine ⟨fun hread => ?_, fun r hread => ?_⟩
  · rw [hexec]
    simp only [State.endTransaction, hread]
  · rw [hexec]
    simp only [State.endTransaction, hread, ExchangeMap.dropRef_eq]

/-! ### PART_STATUS -/

/-- Settles O13. -/
theorem partStatusReportsTheState : Obligations.PartStatusReportsTheState := by
  intro p s hr
  have hbody : s.partStatusBody =
      [0xB0, 0x01, 1, s.part.code, s.sched.engine.code, s.sched.active.code, yesNo s.sched.pendingSwitch,
        s.sched.cycleCount.setWidth 8, byteOf s.sched.slotIndex.val, byteOf s.map.freeList.length,
        byteOf (s.map.freeList.length / 256), byteOf s.map.retiring.length] := by
    rw [State.partStatusBody, bytesOf16_eq]
    rfl
  have hexec : exec (.partStatus p) s = .next (s.answered p (.partStatus p) .ok s.partStatusBody) :=
    congrArg Host.Outcome.next (State.serve_answer hr (.partStatus p) rfl fun _ u => u.partStatusBody)
  rw [hexec, hbody]
  cases s.part <;> cases s.sched.engine <;> cases s.sched.active <;> rfl

/-! ### The settings of SETUP -/

/-- A request that SETUP alone allows, answered with what the state held before (section 9.2). -/
theorem State.serve_inSetup {α : Type} {s : State} {p : Port} (hr : s.ReadyFor p) (i : Instr) {params : Option α} {a : α}
    (hp : params = some a) (act : α → State → State) (body : α → State → List Byte) :
    s.serve p i.record none params (fun x u => u.inSetup p fun u => (act x u).answer p .ok (body x u)) =
      if s.part = .setup then
        (act a (s.receive p i.record)).answer p .ok (body a (s.receive p i.record))
      else s.answered p i .wrongState [] := by
  rw [State.serve_accepted _ hr hp (s.lacksRight_none p)]
  cases hpart : s.part with
  | setup => exact State.inSetup_setup hpart
  | run =>
    refine (State.inSetup_run (s := s.receive p i.record) hpart).trans ?_
    exact s.answer_receive p i .wrongState []

/-- Ports that agree one by one are the same link. -/
theorem State.link_eq_of_port {s t : State} (h : ∀ p : Port, s.port p = t.port p) : s.link = t.link :=
  Vector.ext fun i hi => h ⟨i, hi⟩

/-- A port replaced before the answer of a request, whichever port it is (R177). -/
theorem State.answer_setPort_receive (s : State) (p q : Port) (i : Instr) (r : Rights) (c : Status) (b : List Byte) :
    ((s.receive p i.record).setPort q { (s.receive p i.record).port q with rights := r }).answer p c b =
      (s.setPort q { s.port q with rights := r }).answered p i c b := by
  refine congrArg s.setLink (a₁ := State.link (((s.receive p i.record).setPort q _).answer p c b))
    (a₂ := State.link ((s.setPort q _).answered p i c b)) (State.link_eq_of_port fun x => ?_)
  simp only [State.answer_eq, State.receive_eq, State.answered, State.port_setPort]
  by_cases hx : x = p <;> by_cases hq : x = q <;> simp_all

theorem gapLimitOf?_of {n : Nat} (h : n = 0 ∨ (100 ≤ n ∧ n ≤ 1000000)) : gapLimitOf? (BitVec.ofNat 32 n) = some n := by
  have hval : (BitVec.ofNat 32 n).toNat = n := by
    rw [BitVec.toNat_ofNat]
    omega
  unfold gapLimitOf?
  rw [hval]
  split
  · rename_i h0
    rw [h0]
  · exact rangeOf?_in (by omega) (by omega)

theorem exec_syncSet_setting {s : State} {p : Port} (hr : s.ReadyFor p) {b : Byte} {mode : SyncMode}
    (hb : syncModeOf? b = some mode) {n : Nat} (hn : n = 0 ∨ (100 ≤ n ∧ n ≤ 1000000)) :
    exec (.syncSet p b (BitVec.ofNat 32 n)) s =
      if s.part = .setup then
        .next ((s.setSched { s.sched with syncMode := mode, gapLimit := n }).answered p
          (.syncSet p b (BitVec.ofNat 32 n)) .ok [])
      else .next (s.answered p (.syncSet p b (BitVec.ofNat 32 n)) .wrongState []) := by
  have hparams : syncParams b (BitVec.ofNat 32 n) = some (mode, n) := by
    simp [syncParams, hb, gapLimitOf?_of hn]
  have h := State.serve_inSetup hr (.syncSet p b (BitVec.ofNat 32 n)) hparams
    (fun x u => u.setSched { u.sched with syncMode := x.1, gapLimit := x.2 }) (fun _ _ => [])
  refine (congrArg Host.Outcome.next h).trans ?_
  split
  · exact congrArg Host.Outcome.next ((s.setSched { s.sched with syncMode := mode, gapLimit := n }).answer_receive p
      (.syncSet p b (BitVec.ofNat 32 n)) .ok [])
  · rfl

/-- Settles O17. -/
theorem setupSettings : Obligations.SetupSettings := by
  intro p s hr
  refine ⟨fun q m n => ?_, fun limit => ?_, fun n hlo hhi => ?_, fun mode n hn => ?_⟩
  · have hparams : rightsParams (byteOf q.val) (twoFlags m n) = some (q, { map := m, plan := n }) := by
      simp [rightsParams]
    have h := State.serve_inSetup hr (.portRightsSet p (byteOf q.val) (twoFlags m n)) hparams
      (fun x u => u.setPort x.1 { u.port x.1 with rights := x.2 })
      (fun x u => [twoFlags (u.port x.1).rights.map (u.port x.1).rights.plan])
    have hrights : ((s.receive p (Instr.portRightsSet p (byteOf q.val) (twoFlags m n)).record).port q).rights =
        (s.port q).rights := by
      rw [State.receive_eq, State.port_setPort]
      split
      · rename_i hq
        rw [hq]
      · rfl
    rw [State.answer_setPort_receive, hrights] at h
    refine (congrArg Host.Outcome.next h).trans ?_
    split <;> rfl
  · have h := State.serve_inSetup hr (.stageLimit p limit) (params := some limit) rfl
      (fun x u => u.setMap { u.map with stageLimit := x }) (fun _ _ => [])
    refine (congrArg Host.Outcome.next h).trans ?_
    split
    · exact congrArg Host.Outcome.next
        ((s.setMap { s.map with stageLimit := limit }).answer_receive p (.stageLimit p limit) .ok [])
    · rfl
  · have hparams : rangeOf? 1 16 (byteOf n).toNat = some n := by
      rw [byteOf_toNat (by omega), rangeOf?_in hlo hhi]
    have h := State.serve_inSetup hr (.holdLimit p (byteOf n)) hparams
      (fun x u => u.setHold { u.hold with limit := x }) (fun _ _ => [])
    refine (congrArg Host.Outcome.next h).trans ?_
    split
    · exact congrArg Host.Outcome.next
        ((s.setHold { s.hold with limit := n }).answer_receive p (.holdLimit p (byteOf n)) .ok [])
    · rfl
  · cases mode <;> exact exec_syncSet_setting hr rfl hn

end Sys2Proof.Machine
end

section
/-! HEADLINE. The state after reset satisfies every law: it is the part held in reset, released (R186). -/

namespace Sys2Proof.Machine

theorem State.reset_port (p : Port) : State.reset.port p = LinkPort.reset :=
  show (Vector.replicate 4 LinkPort.reset)[p] = _ by simp

theorem State.reset_map : State.reset.map = State.reset.holdInReset.map := by
  simp only [State.holdInReset, State.reset]

theorem State.reset_page (i : Page) : State.reset.map.page i = PageRecord.unused := by
  rw [State.reset_map, State.holdInReset_page]

theorem State.reset_linkLaw : State.reset.LinkLaw := by
  rw [State.linkLaw_iff]
  intro p
  rw [State.reset_port]
  exact ⟨fun _ => rfl, nofun, ⟨nofun, nofun⟩, nofun⟩

theorem State.reset_pageLaw : State.reset.PageLaw := by
  rw [State.pageLaw_iff]
  intro i
  rw [State.reset_page]
  exact PageRecord.law_unused

theorem State.reset_stagerLaw : State.reset.StagerLaw := by
  intro p
  have hcount : State.reset.map.stagingCount p = 0 :=
    List.countP_eq_zero.2 fun i _ => by simp [State.reset_page, PageRecord.stagedBy, PageRecord.unused]
  omega

theorem State.reset_frameLaw : State.reset.FrameLaw := by
  intro f
  have hreaders : State.reset.holdInReset.readersOf f = State.reset.readersOf f :=
    congrFun (State.readersOf_congr fun p => by rw [State.holdInReset_port, State.reset_port]) f
  rw [State.reset_map, ← hreaders]
  exact State.reset.holdInReset_frameLaw f

/-- Settles O4. -/
theorem resetStateSatisfiesEveryLaw : Obligations.ResetStateSatisfiesEveryLaw :=
  ⟨rfl, by decide, by decide, by decide, State.reset.holdInReset_stop,
    (State.setupLaw_iff _).2 fun _ => State.reset.holdInReset_rests.congr rfl State.reset_map rfl rfl, nofun, by decide,
    State.reset_pageLaw, State.reset_stagerLaw, State.reset_linkLaw, State.reset_frameLaw,
    State.reset.holdInReset_scheduleLaw, State.reset.holdInReset_timeLaw, by decide,
    ⟨by decide, fun p h hp => absurd (hp.symm.trans (State.reset.holdInReset_rests.hold p)) nofun⟩, by decide⟩

end Sys2Proof.Machine
end

section
/-! HEADLINE. A request's record spells the request, as bytes and as bits on SDI (R166, R167, R174). -/

namespace Sys2Proof

/-- A record whose header the check accepts spells what its parameters spell. -/
theorem decodeRecord_recordOf (p : Port) {identifier : Byte} {params : List Byte}
    (hlength : (Machine.byteOf params.length).toNat = params.length)
    (hheader : Machine.headerAccepted identifier (Machine.byteOf params.length) = true) :
    decodeRecord p (recordOf identifier params) = decodeParams p identifier.toNat params := by
  rw [recordOf, decodeRecord, if_pos hheader, if_pos hlength.symm]

theorem decodeRecord_record {i : Instr} {p : Port} (hi : i.requestPort? = some p) (hw : i.wellFormed = true) :
    decodeRecord p i.record = some i := by
  cases i <;> cases hi
  case badRequest identifier length =>
    have hheader : Machine.headerAccepted identifier length = false := by simpa [Instr.wellFormed] using hw
    simp [Instr.record, decodeRecord, hheader]
  all_goals refine (decodeRecord_recordOf p rfl rfl).trans ?_
  case definePage | pageSet | retirePage | pageStatus | slotSet | hold | viewSet | stopSet | trimSet | portSelf =>
    simp [decodeParams, Machine.bytes16]
  case syncSet => simp [decodeParams, Machine.bytes32_eq]
  all_goals rfl

end Sys2Proof

namespace Sys2Proof.Machine

/-- Each bit is sampled once, at the rise of its clock pulse (R166). -/
theorem sampledBits_pulses (bits : List Bool) :
    sampledBits (bits.flatMap fun b => [.clockRises b, .clockFalls]) = bits := by
  induction bits with
  | nil => rfl
  | cons b bits ih => exact congrArg (List.cons b) ih

/-- In REQUEST the bits of whole bytes are heard as the command that the bytes spell. -/
theorem State.heard_request {s : State} {p : Port} (hr : s.ReadyFor p) (hsel : (s.port p).selected = true)
    (bytes : List Byte) {cut : List Bool} (hcut : cut.length < 8) :
    s.heard p (bytes.flatMap bitsOf ++ cut) = decodeRecord p bytes := by
  obtain ⟨hreset, htx⟩ := hr
  simp only [State.heard, hreset, hsel, htx, bytesOfBits_flatMap bytes cut hcut]
  rfl

/-- Settles O60. -/
theorem requestRecordsRoundTrip : Obligations.RequestRecordsRoundTrip := by
  intro i p hi hw
  have hdecode := decodeRecord_record hi hw
  refine ⟨hdecode, fun s cut hr hsel hcut => ?_⟩
  rw [sampledBits_pulses]
  have hheard := (State.heard_request hr hsel i.record hcut).trans hdecode
  exact ⟨hheard, hheard⟩

end Sys2Proof.Machine
end

section
/-! SUPPORT. What a request is answered with: a code and a body of the length that its row gives, or the data phase of a
STAGE_WRITE (R168, R172, R175). -/

namespace Sys2Proof.Machine

/-! ### Answers -/

/-- The answer is none of the parameter checks', and its body has the length of its code (R170, R175): the row's own
under OK, and none but under PAGE_BUSY, HELD and STOP_ACTIVE. -/
def Response.Fits (okLength : Nat) (r : Response) : Prop :=
  r.status ≠ .badRange ∧ r.status ≠ .noPermission ∧
    r.body.length =
      if r.status = .ok then okLength
      else if r.status = .pageBusy then 1
      else if r.status = .held then 3
      else if r.status = .stopActive then 2
      else 0

theorem Response.fits_ok {n : Nat} {b : List Byte} (h : b.length = n) : Response.Fits n { status := .ok, body := b } :=
  ⟨nofun, nofun, h⟩

/-- Port p is in RESPONSE with an answer that fits. -/
def State.Replies (s : State) (p : Port) (okLength : Nat) : Prop :=
  ∃ r, (s.port p).tx = .response r ∧ r.Fits okLength

theorem State.answer_replies (s : State) (p : Port) {n : Nat} {c : Status} {b : List Byte}
    (h : Response.Fits n { status := c, body := b }) : (s.answer p c b).Replies p n :=
  ⟨_, congrArg LinkPort.tx (s.port_setPort_same p _), h⟩

theorem State.ok_replies (s : State) (p : Port) {n : Nat} {b : List Byte} (h : b.length = n) :
    (s.answer p .ok b).Replies p n :=
  s.answer_replies p (Response.fits_ok h)

theorem State.inSetup_replies (s : State) (p : Port) {n : Nat} {act : State → State} (h : (act s).Replies p n) :
    (s.inSetup p act).Replies p n := by
  unfold State.inSetup
  split
  · exact h
  · exact s.answer_replies p ⟨nofun, nofun, rfl⟩

/-! ### Bodies -/

theorem Hold.slotBytes_length (h : Option Hold) : (Hold.slotBytes h).length = 4 := by
  cases h <;> rfl

theorem HoldTable.body_length (h : HoldTable) : h.body.length = 17 := by
  simp only [HoldTable.body, List.length_cons, List.length_append, Hold.slotBytes_length]

theorem StopLine.bytes_length (x : StopLine) : x.bytes.length = 10 := by
  rw [StopLine.bytes_eq]
  cases x.pending <;> rfl

theorem StopUnit.body_length (u : StopUnit) : u.body.length = 22 := by
  simp only [StopUnit.body, List.length_append, StopLine.bytes_length, bytes16_length]

theorem Timebase.body_length (t : Timebase) : t.body.length = 29 := by
  rw [Timebase.body]
  cases t.stagedTrim <;> cases t.stagedTime <;> rfl

theorem NoticeBody.bytes_length (b : NoticeBody) : b.bytes.length = 4 := by
  cases b <;> rfl

theorem Notice.bytes_length (n : Notice) : n.bytes.length = 16 := by
  simp only [Notice.bytes, List.length_append, List.length_cons, List.length_nil, bytesOf32_length,
    NoticeBody.bytes_length]

theorem ViewEntry.bytes_length (e : Option ViewEntry) : (ViewEntry.bytes e).length = 4 := by
  cases e <;> rfl

theorem State.viewGetBody_length (s : State) (t : Port) (pp : PortPage) : (s.viewGetBody t pp).length = 5 := by
  unfold State.viewGetBody
  split <;> rfl

theorem State.planReadBody_length (s : State) {plan first number : Byte} {x : PlanReadParams}
    (hx : planReadParams plan first number = some x) : (s.planReadBody x).length = 2 + 6 * number.toNat := by
  simp only [planReadParams, Option.bind_eq_bind, Option.bind_eq_some_iff] at hx
  obtain ⟨n, -, i, -, c, hc, hx⟩ := hx
  split at hx
  · rename_i hsum
    cases hx
    obtain ⟨rfl, -, -⟩ := rangeOf?_eq_some hc
    rw [State.planReadBody_eq, List.length_append, flatMap_width (fun k => SlotEntry.bytes_length _),
      readSlots_length hsum]
    rfl
  · cases hx

/-! ### Requests that answer at once -/

theorem State.haltOrRefuse_replies (s : State) (p : Port) :
    (if s.part = .run then s.haltPart.answer p .ok [] else s.answer p .wrongState []).Replies p 0 := by
  split
  · exact State.ok_replies _ p rfl
  · exact s.answer_replies p ⟨nofun, nofun, rfl⟩

theorem State.definePage_fits (s : State) (p : Port) (x : PageParams) : (s.definePage p x).Replies p 0 := by
  unfold State.definePage
  split
  · exact s.answer_replies p ⟨nofun, nofun, rfl⟩
  · exact State.ok_replies _ p rfl

theorem State.onQuietPage_fits (s : State) (p : Port) (i : Page) (act : State → State) :
    (s.onQuietPage p i act).Replies p 0 := by
  unfold State.onQuietPage
  split
  · split
    · exact s.answer_replies p ⟨nofun, nofun, rfl⟩
    · exact State.ok_replies _ p rfl
  · exact s.answer_replies p ⟨nofun, nofun, rfl⟩

theorem State.editPlan_fits (s : State) (p : Port) (n : PlanName) (edit : Plan → Plan) :
    (s.editPlan p n edit).Replies p 0 := by
  unfold State.editPlan
  split
  · exact s.answer_replies p ⟨nofun, nofun, rfl⟩
  · exact State.ok_replies _ p rfl

theorem State.switchPlan_fits (s : State) (p : Port) : (s.switchPlan p).Replies p 2 := by
  unfold State.switchPlan
  split
  · exact State.ok_replies _ p rfl
  · exact s.answer_replies p ⟨nofun, nofun, rfl⟩

theorem State.takeHold_fits (s : State) (p : Port) (groups : GroupSet) : (s.takeHold p groups).Replies p 3 := by
  unfold State.takeHold
  split
  · exact s.answer_replies p ⟨nofun, nofun, rfl⟩
  · split
    · exact s.answer_replies p ⟨nofun, nofun, rfl⟩
    · exact State.ok_replies _ p rfl

theorem State.releaseHold_fits (s : State) (p : Port) : (s.releaseHold p).Replies p 3 := by
  unfold State.releaseHold
  split
  · exact s.answer_replies p ⟨nofun, nofun, rfl⟩
  · exact State.ok_replies _ p rfl

theorem State.takeFault_fits (s : State) (p : Port) : (s.takeFault p).Replies p 6 := by
  unfold State.takeFault
  split
  · exact s.answer_replies p ⟨nofun, nofun, rfl⟩
  · exact State.ok_replies _ p rfl

theorem State.clearStop_fits (s : State) (p : Port) (l : Line) : (s.clearStop p l).Replies p 2 := by
  unfold State.clearStop
  split
  · exact State.ok_replies _ p rfl
  · exact s.answer_replies p ⟨nofun, nofun, rfl⟩
  · exact s.ok_replies p rfl

theorem State.peekNotice_fits (s : State) (p : Port) : (s.peekNotice p).Replies p 18 := by
  unfold State.peekNotice
  split
  · exact s.answer_replies p ⟨nofun, nofun, rfl⟩
  · exact s.ok_replies p (by rw [List.length_append, Notice.bytes_length]; rfl)

theorem State.popNotice_fits (s : State) (p : Port) : (s.popNotice p).Replies p 18 := by
  unfold State.popNotice
  split
  · exact s.answer_replies p ⟨nofun, nofun, rfl⟩
  · exact State.ok_replies _ p (by rw [List.length_append, Notice.bytes_length]; rfl)

/-! ### Data requests -/

/-- The body length of a data request's OK response (section 9.2). -/
def DataCall.okLength : DataCall → Nat
  | .read t => 2 + t.length
  | .stageOpen _ _ => 4
  | .stageWrite _ => 0
  | .stageRead t => 2 + t.length
  | .stageReady _ => 0
  | .stageDrop _ => 0

/-- Port p is in RESPONSE with an answer that fits data request x, or, of a STAGE_WRITE, in a data phase of its length
(R172). -/
def State.Completes (s : State) (p : Port) (x : DataCall) : Prop :=
  s.Replies p x.okLength ∨ ∃ t code, x = .stageWrite t ∧ (s.port p).tx = .writeData t.length code

theorem State.refuseWrite_completes (s : State) (p : Port) (t : Transfer) (c : Status) :
    (s.refuseWrite p t.length c).Completes p (.stageWrite t) :=
  Or.inr ⟨t, some c, rfl, congrArg LinkPort.tx (s.port_setPort_same p _)⟩

theorem State.refuseData_completes (s : State) (p : Port) (x : DataCall) (c : FaultCause) :
    (s.refuseData p x c).Completes p x := by
  have hfits : ∀ n : Nat, Response.Fits n { status := c.status, body := [] } := fun n => by
    cases c <;> exact ⟨nofun, nofun, rfl⟩
  cases x with
  | stageWrite t => exact State.refuseWrite_completes _ p t _
  | read | stageOpen | stageRead | stageReady | stageDrop => exact Or.inl (State.answer_replies _ p (hfits _))

theorem State.beginRead_fits (s : State) (p : Port) (r : ReadInFlight) (number : Word16) (t : Transfer) :
    (s.beginRead p r number t).Replies p (2 + t.length) :=
  State.ok_replies _ p (by rw [List.length_append, bytes16_length, Memory.readFrame_length])

theorem State.acceptStageOpen_fits (s : State) (p : Port) (copy : Bool) (i : Page) :
    (s.acceptStageOpen p copy i).Replies p 4 := by
  unfold State.acceptStageOpen
  split
  · exact s.answer_replies p ⟨nofun, nofun, rfl⟩
  split
  · exact s.answer_replies p ⟨nofun, nofun, rfl⟩
  split
  · exact s.answer_replies p ⟨nofun, nofun, rfl⟩
  split
  · exact s.answer_replies p ⟨nofun, nofun, rfl⟩
  split
  · exact s.answer_replies p ⟨nofun, nofun, rfl⟩
  · exact State.ok_replies _ p rfl

theorem State.acceptData_completes (s : State) (p : Port) (x : DataCall) (i : Page) :
    (s.acceptData p x i).Completes p x := by
  cases x with
  | read t =>
    refine Or.inl ?_
    simp only [State.acceptData, State.acceptRead]
    split
    · exact s.answer_replies p ⟨nofun, nofun, rfl⟩
    · exact s.beginRead_fits p _ _ t
  | stageOpen pp copy => exact Or.inl (s.acceptStageOpen_fits p copy i)
  | stageWrite t =>
    simp only [State.acceptData, State.acceptStageWrite]
    split
    · exact s.refuseWrite_completes p t _
    · split
      · exact s.refuseWrite_completes p t _
      · exact Or.inr ⟨t, none, rfl, congrArg LinkPort.tx (s.port_setPort_same p _)⟩
  | stageRead t =>
    refine Or.inl ?_
    simp only [State.acceptData, State.acceptStageRead]
    split
    · exact s.answer_replies p ⟨nofun, nofun, rfl⟩
    · exact s.beginRead_fits p _ _ t
  | stageReady pp =>
    refine Or.inl ?_
    simp only [State.acceptData, State.acceptStageReady]
    split
    · exact s.answer_replies p ⟨nofun, nofun, rfl⟩
    · split
      · exact s.answer_replies p ⟨nofun, nofun, rfl⟩
      · exact State.ok_replies _ p rfl
  | stageDrop pp =>
    refine Or.inl ?_
    simp only [State.acceptData, State.acceptStageDrop]
    split
    · exact s.answer_replies p ⟨nofun, nofun, rfl⟩
    · exact State.ok_replies _ p rfl

theorem State.takePagePart_completes (s : State) (p : Port) (x : DataCall) (i : Page) :
    (s.takePagePart p x i).Completes p x := by
  unfold State.takePagePart
  split
  · exact s.refuseData_completes p x _
  · exact s.acceptData_completes p x _

theorem State.Completes.not_accepted {s : State} {p : Port} {x : DataCall} (h : s.Completes p x) (o : Outstanding) :
    (s.port p).tx ≠ .accepted o := by
  rcases h with ⟨r, hr, -⟩ | ⟨t, code, -, ht⟩
  · rw [hr]
    nofun
  · rw [ht]
    nofun

/-- Claims taken leave none outstanding (R171, R183). -/
theorem State.settle_not_accepted (s : State) (p : Port) (o : Outstanding) : ((s.settle p).port p).tx ≠ .accepted o := by
  by_cases h : ∃ o', (s.port p).tx = .accepted o'
  · obtain ⟨o', ho⟩ := h
    cases o' with
    | portReset left =>
      rw [State.settle_portReset_tx ho]
      nofun
    | pagePart x i =>
      rw [State.settle_pagePart ho]
      exact (s.takePagePart_completes p x i).not_accepted o
  · rw [State.settle_of_not_accepted fun o' ho => h ⟨o', ho⟩]
    exact fun ho => h ⟨o, ho⟩

/-- A data request is completed at its acceptance, or when its outstanding claim is taken (R104, R109). -/
theorem State.acceptCall_completes (s : State) (p : Port) (x : DataCall) :
    ((s.acceptCall p x).settle p).Completes p x := by
  have hdone : ∀ u : State, u.Completes p x → (u.settle p).Completes p x := fun u hu => by
    rwa [State.settle_of_not_accepted hu.not_accepted]
  unfold State.acceptCall
  split
  · exact hdone _ (s.refuseData_completes p x _)
  · rename_i i _
    dsimp only
    split
    · exact hdone _ (State.takePagePart_completes _ p x i)
    · rw [State.settle_pagePart (x := x) (i := i)]
      · exact State.takePagePart_completes _ p x i
      · exact congrArg LinkPort.tx (s.port_setPort_same p _)

theorem State.beginReset_settled (s : State) (p : Port) : ((s.beginReset p).settle p).Replies p 0 := by
  have hlink := s.takeResetClaims_link p ResetClaims.all (ResetClaims.all.chosen (s.draw 0))
  have hport : (s.beginReset p).port p = _ :=
    (State.port_congr (t := s.setPort p _) hlink p).trans (s.port_setPort_same p _)
  have htx := congrArg LinkPort.tx hport
  dsimp only at htx
  split at htx
  · rw [State.settle_of_not_accepted (by rw [htx]; nofun)]
    exact ⟨_, htx, Response.fits_ok rfl⟩
  · exact ⟨_, State.settle_portReset_tx htx, Response.fits_ok rfl⟩

end Sys2Proof.Machine
end

section
/-! SUPPORT. The range checks pass exactly the parameters that the owning rules give (R170). -/

namespace Sys2Proof.Machine

theorem any_const {α : Type} (o : Option α) (b : Bool) : (o.any fun _ => b) = (o.isSome && b) := by
  cases o <;> simp

/-- Behind a check whose value the later checks do not read, both must pass. -/
theorem isSome_bind_and {α β : Type} {o : Option α} {f : α → Option β} {b : Bool} (h : ∀ a, (f a).isSome = b) :
    (o.bind f).isSome = (o.isSome && b) := by
  cases o with
  | none => rfl
  | some a => exact (h a).trans (Bool.true_and b).symm

/-! ### One field -/

theorem finOf?_isSome (n x : Nat) : (finOf? n x).isSome = decide (x < n) := by
  unfold finOf?
  split <;> simp_all

theorem rangeOf?_isSome (lo hi x : Nat) : (rangeOf? lo hi x).isSome = decide (lo ≤ x ∧ x ≤ hi) := by
  unfold rangeOf?
  split <;> simp_all

theorem maskOf?_isSome (w : Nat) (b : Byte) : (maskOf? w b).isSome = decide (b.toNat < 2 ^ w) := by
  unfold maskOf?
  split <;> simp_all

theorem twoFlagsOf?_isSome (b : Byte) : (twoFlagsOf? b).isSome = decide (b.toNat < 4) := by
  unfold twoFlagsOf?
  split <;> simp_all

/-- A byte that names one of two values, by 0 and 1. -/
theorem isSome_zeroOne {α : Type} (x y : α) (b : Byte) :
    (if b = 0 then some x else if b = 1 then some y else none).isSome = decide (b.toNat ≤ 1) := by
  have h0 : b = 0 ↔ b.toNat = 0 := by bv_omega
  have h1 : b = 1 ↔ b.toNat = 1 := by bv_omega
  rw [Bool.eq_iff_iff]
  split
  · simp_all
  · split
    · simp_all
    · simp_all
      omega

theorem boolOf?_isSome (b : Byte) : (boolOf? b).isSome = decide (b.toNat ≤ 1) := isSome_zeroOne _ _ b
theorem planOf?_isSome (b : Byte) : (planOf? b).isSome = decide (b.toNat ≤ 1) := isSome_zeroOne _ _ b
theorem syncModeOf?_isSome (b : Byte) : (syncModeOf? b).isSome = decide (b.toNat ≤ 1) := isSome_zeroOne _ _ b
theorem stopModeOf?_isSome (b : Byte) : (stopModeOf? b).isSome = decide (b.toNat ≤ 1) := isSome_zeroOne _ _ b
theorem watchModeOf?_isSome (b : Byte) : (watchModeOf? b).isSome = decide (b.toNat ≤ 1) := isSome_zeroOne _ _ b
theorem alarmActionOf?_isSome (b : Byte) : (alarmActionOf? b).isSome = decide (b.toNat ≤ 1) := isSome_zeroOne _ _ b

theorem watchEventOf?_isSome (b : Byte) : (watchEventOf? b).isSome = decide (b.toNat ≤ 3) := by
  have h (n : Nat) (hn : n < 256) : b = BitVec.ofNat 8 n ↔ b.toNat = n := by
    rw [← BitVec.toNat_inj, BitVec.toNat_ofNat, Nat.mod_eq_of_lt hn]
  have h0 := h 0 (by decide)
  have h1 := h 1 (by decide)
  have h2 := h 2 (by decide)
  have h3 := h 3 (by decide)
  rw [Bool.eq_iff_iff, decide_eq_true_iff]
  unfold watchEventOf?
  split
  · exact ⟨fun _ => by have := h0.1 (by assumption); omega, fun _ => rfl⟩
  split
  · exact ⟨fun _ => by have := h1.1 (by assumption); omega, fun _ => rfl⟩
  split
  · exact ⟨fun _ => by have := h2.1 (by assumption); omega, fun _ => rfl⟩
  split
  · exact ⟨fun _ => by have := h3.1 (by assumption); omega, fun _ => rfl⟩
  · refine ⟨nofun, fun hb => ?_⟩
    rename_i n0 n1 n2 n3
    have := mt h0.2 n0
    have := mt h1.2 n1
    have := mt h2.2 n2
    have := mt h3.2 n3
    omega

theorem slotGroupOf?_isSome (b : Byte) :
    (slotGroupOf? b).isSome = decide (b.toNat ≤ 15 ∨ b.toNat = 255) := by
  have h : b = 255 ↔ b.toNat = 255 := by bv_omega
  rw [Bool.eq_iff_iff, decide_eq_true_iff]
  unfold slotGroupOf?
  split
  · exact ⟨fun _ => Or.inr (h.1 (by assumption)), fun _ => rfl⟩
  · rw [Option.isSome_map, groupOf?, finOf?_isSome, decide_eq_true_iff]
    rename_i hb
    have := mt h.2 hb
    omega

theorem slotCountOf?_isSome (b : Byte) : (slotCountOf? b).isSome = decide (1 ≤ b.toNat ∧ b.toNat ≤ 48) := by
  rw [Bool.eq_iff_iff, decide_eq_true_iff]
  unfold slotCountOf?
  split
  · exact ⟨nofun, fun _ => by omega⟩
  · rw [finOf?_isSome, decide_eq_true_iff]
    omega

theorem gapLimitOf?_isSome (w : Word32) :
    (gapLimitOf? w).isSome = decide (w.toNat = 0 ∨ (100 ≤ w.toNat ∧ w.toNat ≤ 1000000)) := by
  rw [Bool.eq_iff_iff, decide_eq_true_iff]
  unfold gapLimitOf?
  split
  · exact ⟨fun _ => Or.inl (by assumption), fun _ => rfl⟩
  · rw [rangeOf?_isSome, decide_eq_true_iff]
    omega

/-! ### Fields together -/

theorem rightsParams_isSome (target rights : Byte) :
    (rightsParams target rights).isSome = decide (target.toNat ≤ 3 ∧ rights.toNat < 4) := by
  rw [Bool.eq_iff_iff]
  simp [rightsParams, Option.isSome_bind, any_const, portOf?, finOf?_isSome, twoFlagsOf?_isSome]
  omega

theorem pageOf?_isSome (w : Word16) : (pageOf? w).isSome = decide (w.toNat ≤ 319) := by
  rw [pageOf?, finOf?_isSome]
  exact decide_eq_decide.2 (by omega)

theorem groupOf?_isSome (b : Byte) : (groupOf? b).isSome = decide (b.toNat ≤ 15) := by
  rw [groupOf?, finOf?_isSome]
  exact decide_eq_decide.2 (by omega)

theorem portOf?_isSome (b : Byte) : (portOf? b).isSome = decide (b.toNat ≤ 3) := by
  rw [portOf?, finOf?_isSome]
  exact decide_eq_decide.2 (by omega)

theorem portPageOf?_isSome (b : Byte) : (portPageOf? b).isSome = decide (b.toNat ≤ 127) := by
  rw [portPageOf?, finOf?_isSome]
  exact decide_eq_decide.2 (by omega)

theorem lineOf?_isSome (b : Byte) : (lineOf? b).isSome = decide (b.toNat ≤ 1) := by
  rw [lineOf?, finOf?_isSome]
  exact decide_eq_decide.2 (by omega)

theorem slotOf?_isSome (b : Byte) : (slotOf? b).isSome = decide (b.toNat ≤ 47) := by
  rw [slotOf?, finOf?_isSome]
  exact decide_eq_decide.2 (by omega)

theorem watchOf?_isSome (b : Byte) : (watchOf? b).isSome = decide (b.toNat ≤ 3) := by
  rw [watchOf?, finOf?_isSome]
  exact decide_eq_decide.2 (by omega)

theorem pageParams_isSome (page : Word16) (group readers writers : Byte) :
    (pageParams page group readers writers).isSome =
      decide (page.toNat ≤ 319 ∧ group.toNat ≤ 15 ∧ readers.toNat < 16 ∧ writers.toNat < 16) := by
  rw [Bool.eq_iff_iff]
  simp [pageParams, Option.isSome_bind, any_const, pageOf?_isSome, groupOf?_isSome, maskOf?_isSome]

theorem transferParams_isSome (portPage offset length : Byte) :
    (transferParams portPage offset length).isSome =
      decide (portPage.toNat ≤ 127 ∧ 1 ≤ length.toNat ∧ offset.toNat + length.toNat ≤ 64) := by
  have hbytes : ∀ pp : PortPage, Option.isSome (do
      let o ← finOf? 64 offset.toNat
      let n ← rangeOf? 1 (64 - o.val) length.toNat
      return ({ portPage := pp, offset := o, length := n } : Transfer)) =
        decide (1 ≤ length.toNat ∧ offset.toNat + length.toNat ≤ 64) := by
    intro pp
    rw [Bool.eq_iff_iff]
    unfold finOf?
    split
    · rw [Option.bind_eq_bind, Option.bind_some, Option.bind_eq_bind, isSome_bind_and (b := true) fun _ => rfl,
        rangeOf?_isSome]
      simp
      omega
    · simp
      omega
  rw [transferParams, Option.bind_eq_bind, isSome_bind_and hbytes, portPageOf?_isSome, Bool.eq_iff_iff]
  simp

theorem stageOpenParams_isSome (portPage copy : Byte) :
    (stageOpenParams portPage copy).isSome = decide (portPage.toNat ≤ 127 ∧ copy.toNat ≤ 1) := by
  rw [Bool.eq_iff_iff]
  simp [stageOpenParams, Option.isSome_bind, any_const, portPageOf?_isSome, boolOf?_isSome]

theorem slotParams_isSome (plan slot : Byte) (duration : Word16) (group notify value mask : Byte) :
    (slotParams plan slot duration group notify value mask).isSome =
      decide (plan.toNat ≤ 1 ∧ slot.toNat ≤ 47 ∧ 20 ≤ duration.toNat ∧ (group.toNat ≤ 15 ∨ group.toNat = 255) ∧
        notify.toNat < 16 ∧ value.toNat ≤ 63 ∧ mask.toNat ≤ 63) := by
  rw [Bool.eq_iff_iff]
  simp [slotParams, Option.isSome_bind, any_const, planOf?_isSome, slotOf?_isSome, rangeOf?_isSome, maskOf?_isSome,
    slotGroupOf?_isSome]
  omega

theorem planLengthParams_isSome (plan count : Byte) :
    (planLengthParams plan count).isSome = decide (plan.toNat ≤ 1 ∧ 1 ≤ count.toNat ∧ count.toNat ≤ 48) := by
  rw [Bool.eq_iff_iff]
  simp [planLengthParams, Option.isSome_bind, any_const, planOf?_isSome, slotCountOf?_isSome]

theorem planReadParams_isSome (plan first number : Byte) :
    (planReadParams plan first number).isSome =
      decide (plan.toNat ≤ 1 ∧ first.toNat ≤ 47 ∧ 1 ≤ number.toNat ∧ number.toNat ≤ 16 ∧
        first.toNat + number.toNat ≤ 48) := by
  have hbytes : ∀ n : PlanName, Option.isSome (do
      let i ← rangeOf? 0 47 first.toNat
      let c ← rangeOf? 1 16 number.toNat
      if i + c ≤ 48 then some ({ plan := n, first := i, number := c } : PlanReadParams) else none) =
        decide (first.toNat ≤ 47 ∧ 1 ≤ number.toNat ∧ number.toNat ≤ 16 ∧ first.toNat + number.toNat ≤ 48) := by
    intro n
    rw [Bool.eq_iff_iff]
    unfold rangeOf?
    split <;> split <;> simp <;> omega
  rw [planReadParams, Option.bind_eq_bind, isSome_bind_and hbytes, planOf?_isSome, Bool.eq_iff_iff]
  simp

theorem syncParams_isSome (mode : Byte) (gap : Word32) :
    (syncParams mode gap).isSome =
      decide (mode.toNat ≤ 1 ∧ (gap.toNat = 0 ∨ (100 ≤ gap.toNat ∧ gap.toNat ≤ 1000000))) := by
  rw [Bool.eq_iff_iff]
  simp [syncParams, Option.isSome_bind, any_const, syncModeOf?_isSome, gapLimitOf?_isSome]

theorem watchParams_isSome (counter group event mode : Byte) :
    (watchParams counter group event mode).isSome =
      decide (counter.toNat ≤ 3 ∧ group.toNat ≤ 15 ∧ event.toNat ≤ 3 ∧ mode.toNat ≤ 1) := by
  rw [Bool.eq_iff_iff]
  simp [watchParams, Option.isSome_bind, any_const, watchOf?_isSome, groupOf?_isSome, watchEventOf?_isSome,
    watchModeOf?_isSome]

theorem holdParams_isSome (groups : Word16) : (holdParams groups).isSome = decide (groups ≠ 0) := by
  unfold holdParams
  split <;> simp_all

theorem viewEntryOf?_isSome (presence : Byte) (page : Word16) (rights : Byte) :
    (viewEntryOf? presence page rights).isSome =
      decide (presence.toNat = 0 ∨ (presence.toNat = 1 ∧ page.toNat ≤ 319 ∧ rights.toNat < 4)) := by
  have h0 : presence = 0 ↔ presence.toNat = 0 := by bv_omega
  have h1 : presence = 1 ↔ presence.toNat = 1 := by bv_omega
  rw [Bool.eq_iff_iff]
  unfold viewEntryOf? boolOf?
  split
  · simp_all
  split
  · simp_all [Option.isSome_bind, any_const, pageOf?_isSome, twoFlagsOf?_isSome]
  · simp_all

theorem viewParams_isSome (target portPage presence : Byte) (page : Word16) (rights : Byte) :
    (viewParams target portPage presence page rights).isSome =
      decide (target.toNat ≤ 3 ∧ portPage.toNat ≤ 127 ∧
        (presence.toNat = 0 ∨ (presence.toNat = 1 ∧ page.toNat ≤ 319 ∧ rights.toNat < 4))) := by
  rw [Bool.eq_iff_iff]
  simp [viewParams, Option.isSome_bind, any_const, portOf?_isSome, portPageOf?_isSome, viewEntryOf?_isSome]

theorem viewGetParams_isSome (target portPage : Byte) :
    (viewGetParams target portPage).isSome = decide (target.toNat ≤ 3 ∧ portPage.toNat ≤ 127) := by
  rw [Bool.eq_iff_iff]
  simp [viewGetParams, Option.isSome_bind, any_const, portOf?_isSome, portPageOf?_isSome]

theorem stopParams_isSome (line filterTime : Byte) (freeze : Word16) (mode : Byte) :
    (stopParams line filterTime freeze mode).isSome = decide (line.toNat ≤ 1 ∧ mode.toNat ≤ 1) := by
  rw [Bool.eq_iff_iff]
  simp [stopParams, Option.isSome_bind, any_const, lineOf?_isSome, stopModeOf?_isSome]

theorem trimOf?_isSome (w : Word16) : (trimOf? w).isSome = decide (-2000 ≤ w.toInt ∧ w.toInt ≤ 2000) := by
  unfold trimOf?
  split <;> simp_all

theorem timeParams_isSome (year month day hour minute second weekday : Byte) :
    (timeParams year month day hour minute second weekday).isSome =
      decide (year.toNat ≤ 99 ∧ 1 ≤ month.toNat ∧ month.toNat ≤ 12 ∧ 1 ≤ day.toNat ∧
        day.toNat ≤ monthLength year.toNat month.toNat ∧ hour.toNat ≤ 23 ∧ minute.toNat ≤ 59 ∧
        second.toNat ≤ 59 ∧ weekday.toNat ≤ 6) := by
  unfold timeParams
  dsimp only
  rw [Bool.eq_iff_iff]
  split
  · rename_i h
    simpa [Calendar.valid, and_assoc] using h
  · rename_i h
    simpa [Calendar.valid, and_assoc] using h

theorem alarmParams_isSome (enabled weekdays hour minute action : Byte) :
    (alarmParams enabled weekdays hour minute action).isSome =
      decide (enabled.toNat ≤ 1 ∧ weekdays.toNat < 128 ∧ hour.toNat ≤ 23 ∧ minute.toNat ≤ 59 ∧ action.toNat ≤ 1) := by
  rw [Bool.eq_iff_iff]
  simp [alarmParams, Option.isSome_bind, any_const, boolOf?_isSome, maskOf?_isSome, rangeOf?_isSome,
    alarmActionOf?_isSome]

theorem selfParams_isSome (groups : Word16) (kinds : Byte) (attention : Word16) :
    (selfParams groups kinds attention).isSome = decide (kinds.toNat < 16 ∧ attention.toNat < 2048) := by
  rw [Bool.eq_iff_iff]
  unfold selfParams
  split <;> simp_all [Option.isSome_bind, maskOf?_isSome]

end Sys2Proof.Machine
end

section
/-! SUPPORT. Every request is served as its row says: its bytes, its range check, its right, and its block's own operation,
which answers it (R170, R171, R175). -/

namespace Sys2Proof

/-- In state t request i of port p is answered as its row says, or, a STAGE_WRITE, in its data phase (R168). -/
def Instr.CompletedIn (i : Instr) (p : Port) (t : Machine.State) : Prop :=
  t.Replies p i.okBodyLength ∨
    ∃ q pp offset length code, i = .stageWrite q pp offset length ∧ (t.port p).tx = .writeData length.toNat code

/-- Request i of port p is served with the operation act, whose parameters pass their range check where params has
them. -/
structure Instr.ServedBy (i : Instr) (p : Port) {α : Type} (params : Option α)
    (act : α → Machine.State → Machine.State) : Prop where
  exec : ∀ s, Machine.exec i s = .next (s.serve p i.record i.rightNeeded params act)
  range : params.isSome = i.inRange
  completes : ∀ a u, params = some a → i.CompletedIn p ((act a u).settle p)
  atOnce : i.handsOn = false → ∀ a u, params = some a → ∃ r, ((act a u).port p).tx = .response r

end Sys2Proof

namespace Sys2Proof.Machine

theorem State.Replies.settle {s : State} {p : Port} {n : Nat} (h : s.Replies p n) : (s.settle p).Replies p n := by
  obtain ⟨r, hr, -⟩ := id h
  rwa [State.settle_of_not_accepted (by rw [hr]; nofun)]

/-- A request whose operation answers at once. -/
theorem servedBy_of_replies {i : Instr} {p : Port} {α : Type} {params : Option α} {act : α → State → State}
    (hexec : ∀ s, exec i s = .next (s.serve p i.record i.rightNeeded params act)) (hrange : params.isSome = i.inRange)
    (hact : ∀ a u, params = some a → (act a u).Replies p i.okBodyLength) : i.ServedBy p params act where
  exec := hexec
  range := hrange
  completes a u ha := Or.inl (hact a u ha).settle
  atOnce _ a u ha := by
    obtain ⟨r, hr, -⟩ := hact a u ha
    exact ⟨r, hr⟩

/-- A data request. -/
theorem servedBy_of_call {i : Instr} {p : Port} {α : Type} {params : Option α} (call : α → DataCall)
    (hexec : ∀ s, exec i s = .next (s.serve p i.record i.rightNeeded params fun a u => u.acceptCall p (call a)))
    (hrange : params.isSome = i.inRange) (hon : i.handsOn = true)
    (hcall : ∀ a u, params = some a → State.Completes u p (call a) → i.CompletedIn p u) :
    i.ServedBy p params fun a u => u.acceptCall p (call a) where
  exec := hexec
  range := hrange
  completes a u ha := hcall a _ ha (u.acceptCall_completes p (call a))
  atOnce h := absurd (hon.symm.trans h) nofun

/-- A data request other than STAGE_WRITE is answered. -/
theorem State.Completes.replies {s : State} {p : Port} {x : DataCall} (h : s.Completes p x)
    (hx : ∀ t, x ≠ .stageWrite t) : s.Replies p x.okLength :=
  h.resolve_right fun ⟨t, _, ht, _⟩ => hx t ht

theorem transferParams_length {portPage offset length : Byte} {t : Transfer}
    (h : transferParams portPage offset length = some t) : t.length = length.toNat := by
  simp only [transferParams, Option.bind_eq_bind, Option.bind_eq_some_iff] at h
  obtain ⟨pp, -, o, -, n, hn, h⟩ := h
  cases h
  exact (rangeOf?_eq_some hn).1

/-- The data requests are served by the access check and their own rules (R104). -/
theorem dataRequest_servedBy {i : Instr} {p : Port} (hi : i.requestPort? = some p) (hon : i.handsOn = true) :
    ∃ (α : Type) (params : Option α) (act : α → State → State), i.ServedBy p params act := by
  cases i <;> cases hon <;> cases hi
  case portReset =>
    exact ⟨_, some (), fun _ u => u.beginReset p, fun _ => rfl, rfl, fun _ u _ => Or.inl (u.beginReset_settled p),
      nofun⟩
  case read portPage offset length =>
    refine ⟨_, _, _, servedBy_of_call DataCall.read (fun _ => rfl) (transferParams_isSome portPage offset length) rfl
      fun t u ht hu => Or.inl ?_⟩
    have h := hu.replies nofun
    rwa [DataCall.okLength, transferParams_length ht] at h
  case stageOpen portPage copy =>
    exact ⟨_, _, _, servedBy_of_call (fun x : PortPage × Bool => DataCall.stageOpen x.1 x.2) (fun _ => rfl)
      (stageOpenParams_isSome portPage copy) rfl fun _ _ _ hu => Or.inl (hu.replies nofun)⟩
  case stageWrite portPage offset length =>
    refine ⟨_, _, _, servedBy_of_call DataCall.stageWrite (fun _ => rfl) (transferParams_isSome portPage offset length)
      rfl fun t u ht hu => ?_⟩
    refine hu.imp id fun ⟨t', code, ht', htx⟩ => ?_
    cases ht'
    rw [transferParams_length ht] at htx
    exact ⟨p, portPage, offset, length, code, rfl, htx⟩
  case stageRead portPage offset length =>
    refine ⟨_, _, _, servedBy_of_call DataCall.stageRead (fun _ => rfl) (transferParams_isSome portPage offset length)
      rfl fun t u ht hu => Or.inl ?_⟩
    have h := hu.replies nofun
    rwa [DataCall.okLength, transferParams_length ht] at h
  case stageReady portPage =>
    exact ⟨_, _, _, servedBy_of_call DataCall.stageReady (fun _ => rfl) (portPageOf?_isSome portPage) rfl
      fun _ _ _ hu => Or.inl (hu.replies nofun)⟩
  case stageDrop portPage =>
    exact ⟨_, _, _, servedBy_of_call DataCall.stageDrop (fun _ => rfl) (portPageOf?_isSome portPage) rfl
      fun _ _ _ hu => Or.inl (hu.replies nofun)⟩

/-- The other requests are served and answered at once. -/
theorem plainRequest_servedBy {i : Instr} {p : Port} (hi : i.requestPort? = some p) (hon : i.handsOn = false)
    (hbad : ∀ a b, i ≠ .badRequest p a b) :
    ∃ (α : Type) (params : Option α) (act : α → State → State), i.ServedBy p params act := by
  have hplain {α : Type} {params : Option α} {act : α → State → State}
      (hexec : ∀ s, exec i s = .next (s.serve p i.record i.rightNeeded params act))
      (hrange : params.isSome = i.inRange) (hact : ∀ a u, params = some a → (act a u).Replies p i.okBodyLength) :
      ∃ (α : Type) (params : Option α) (act : α → State → State), i.ServedBy p params act :=
    ⟨α, params, act, servedBy_of_replies hexec hrange hact⟩
  cases i <;> cases hi <;> cases hon
  case badRequest a b => exact absurd rfl (hbad a b)
  case partStatus => exact hplain (fun _ => rfl) rfl fun _ u _ => u.ok_replies p rfl
  case start => exact hplain (fun _ => rfl) rfl fun _ u _ => u.inSetup_replies p (State.ok_replies _ p rfl)
  case halt => exact hplain (fun _ => rfl) rfl fun _ u _ => u.haltOrRefuse_replies p
  case portRightsSet =>
    exact hplain (fun _ => rfl) (rightsParams_isSome _ _) fun _ u _ => u.inSetup_replies p (State.ok_replies _ p rfl)
  case definePage => exact hplain (fun _ => rfl) (pageParams_isSome _ _ _ _) fun x u _ => u.definePage_fits p x
  case pageSet => exact hplain (fun _ => rfl) (pageParams_isSome _ _ _ _) fun x u _ => u.onQuietPage_fits p x.page _
  case retirePage => exact hplain (fun _ => rfl) (pageOf?_isSome _) fun i u _ => u.onQuietPage_fits p i _
  case pageStatus => exact hplain (fun _ => rfl) (pageOf?_isSome _) fun _ u _ => u.ok_replies p rfl
  case stageLimit => exact hplain (fun _ => rfl) rfl fun _ u _ => u.inSetup_replies p (State.ok_replies _ p rfl)
  case slotSet => exact hplain (fun _ => rfl) (slotParams_isSome _ _ _ _ _ _ _) fun _ u _ => u.editPlan_fits p _ _
  case planLength => exact hplain (fun _ => rfl) (planLengthParams_isSome _ _) fun _ u _ => u.editPlan_fits p _ _
  case planRead =>
    exact hplain (fun _ => rfl) (planReadParams_isSome _ _ _) fun _ u hx => u.ok_replies p (u.planReadBody_length hx)
  case planSwitch => exact hplain (fun _ => rfl) rfl fun _ u _ => u.switchPlan_fits p
  case syncSet =>
    exact hplain (fun _ => rfl) (syncParams_isSome _ _) fun _ u _ => u.inSetup_replies p (State.ok_replies _ p rfl)
  case groupStatus => exact hplain (fun _ => rfl) (groupOf?_isSome _) fun _ u _ => u.ok_replies p rfl
  case watchSet => exact hplain (fun _ => rfl) (watchParams_isSome _ _ _ _) fun _ u _ => State.ok_replies _ p rfl
  case watchRead => exact hplain (fun _ => rfl) rfl fun _ u _ => u.ok_replies p rfl
  case hold => exact hplain (fun _ => rfl) (holdParams_isSome _) fun _ u _ => u.takeHold_fits p _
  case release => exact hplain (fun _ => rfl) rfl fun _ u _ => u.releaseHold_fits p
  case holdLimit =>
    exact hplain (fun _ => rfl) (rangeOf?_isSome _ _ _) fun _ u _ => u.inSetup_replies p (State.ok_replies _ p rfl)
  case holdRead => exact hplain (fun _ => rfl) rfl fun _ u _ => u.ok_replies p u.hold.body_length
  case viewSet =>
    exact hplain (fun _ => rfl) (viewParams_isSome _ _ _ _ _) fun _ u _ => State.ok_replies _ p (ViewEntry.bytes_length _)
  case viewGet =>
    exact hplain (fun _ => rfl) (viewGetParams_isSome _ _) fun _ u _ => u.ok_replies p (u.viewGetBody_length _ _)
  case faultTake => exact hplain (fun _ => rfl) rfl fun _ u _ => u.takeFault_fits p
  case stopSet =>
    exact hplain (fun _ => rfl) (stopParams_isSome _ _ _ _) fun _ u _ =>
      u.inSetup_replies p (State.ok_replies _ p rfl)
  case stopClear => exact hplain (fun _ => rfl) (lineOf?_isSome _) fun _ u _ => u.clearStop_fits p _
  case stopRead => exact hplain (fun _ => rfl) rfl fun _ u _ => u.ok_replies p u.stop.body_length
  case trimSet => exact hplain (fun _ => rfl) (trimOf?_isSome _) fun _ u _ => State.ok_replies _ p rfl
  case timeSet => exact hplain (fun _ => rfl) (timeParams_isSome _ _ _ _ _ _ _) fun _ u _ => State.ok_replies _ p rfl
  case alarmSet => exact hplain (fun _ => rfl) (alarmParams_isSome _ _ _ _ _) fun _ u _ => State.ok_replies _ p rfl
  case timeRead => exact hplain (fun _ => rfl) rfl fun _ u _ => u.ok_replies p u.time.body_length
  case noticePeek => exact hplain (fun _ => rfl) rfl fun _ u _ => u.peekNotice_fits p
  case noticePop => exact hplain (fun _ => rfl) rfl fun _ u _ => u.popNotice_fits p
  case portSelf => exact hplain (fun _ => rfl) (selfParams_isSome _ _ _) fun _ u _ => State.ok_replies _ p rfl

theorem request_servedBy {i : Instr} {p : Port} (hi : i.requestPort? = some p) (hbad : ∀ a b, i ≠ .badRequest p a b) :
    ∃ (α : Type) (params : Option α) (act : α → State → State), i.ServedBy p params act := by
  cases hon : i.handsOn with
  | false => exact plainRequest_servedBy hi hon hbad
  | true => exact dataRequest_servedBy hi hon

/-- A refused header is answered, and one that the check accepts leaves the port in REQUEST (R169). -/
theorem exec_badRequest {s : State} {p : Port} (hr : s.ReadyFor p) (a b : Byte) :
    exec (.badRequest p a b) s =
      if headerAccepted a b then .next (s.receive p [a, b])
      else .next (s.answered p (.badRequest p a b) .badRequest []) := by
  show Host.Outcome.next (s.refuseHeader p a b) = _
  rw [State.refuseHeader, hr.awaits, if_pos rfl]
  split
  · rfl
  · exact congrArg Host.Outcome.next (s.answer_receive p (.badRequest p a b) .badRequest [])

theorem State.answered_tx (s : State) (p : Port) (i : Instr) (c : Status) (b : List Byte) :
    ((s.answered p i c b).port p).tx = .response { status := c, body := b } :=
  congrArg LinkPort.tx (s.port_setPort_same p _)

theorem State.settle_answered (s : State) (p : Port) (i : Instr) (c : Status) (b : List Byte) :
    (s.answered p i c b).settle p = s.answered p i c b :=
  State.settle_of_not_accepted (by rw [State.answered_tx]; nofun)

/-- A port that is still in REQUEST has nothing to settle. -/
theorem State.settle_request {s : State} {p : Port} (h : (s.port p).tx = .request) : s.settle p = s :=
  State.settle_of_not_accepted (by rw [h]; nofun)

theorem State.receive_tx (s : State) (p : Port) (bytes : List Byte) :
    ((s.receive p bytes).port p).tx = (s.port p).tx := by
  rw [State.receive_eq, State.port_setPort_same]

end Sys2Proof.Machine
end

section
/-! HEADLINE. The parameter checks, the lengths of the answers, the completion of every command, and the course of a
transaction (R166, R168, R170, R171, R175). -/

namespace Sys2Proof.Machine

/-! ### What a request served comes to -/

section

variable {i : Instr} {p : Port} {s : State} {α : Type} {params : Option α} {act : α → State → State}

/-- Out of range: BAD_RANGE (R170). -/
theorem exec_of_badRange (h : i.ServedBy p params act) (hr : s.ReadyFor p) (hi : i.inRange = false) :
    exec i s = .next (s.answered p i .badRange []) := by
  rw [h.exec, State.serve_badRange i hr (Option.not_isSome_iff_eq_none.1 (by rw [h.range, hi]; nofun))]

/-- In range, but without the right: NO_PERMISSION (R170). -/
theorem exec_of_noPermission (h : i.ServedBy p params act) (hr : s.ReadyFor p) (hi : i.inRange = true)
    (hl : s.lacksRight p i.rightNeeded = true) : exec i s = .next (s.answered p i .noPermission []) := by
  obtain ⟨a, ha⟩ := Option.isSome_iff_exists.1 (h.range.trans hi)
  rw [h.exec, State.serve_noPermission i hr ha hl]

/-- Past both checks: the block's own operation. -/
theorem exec_of_accepted (h : i.ServedBy p params act) (hr : s.ReadyFor p) (hi : i.inRange = true)
    (hl : s.lacksRight p i.rightNeeded = false) :
    ∃ a, params = some a ∧ exec i s = .next (act a (s.receive p i.record)) := by
  obtain ⟨a, ha⟩ := Option.isSome_iff_exists.1 (h.range.trans hi)
  exact ⟨a, ha, by rw [h.exec, State.serve_accepted _ hr ha hl]⟩

end

/-- What a request that is no refused header comes to: one of the two refusals of the parameter checks, or its block's
own operation. -/
theorem exec_request {i : Instr} {p : Port} {s : State} (hi : i.requestPort? = some p)
    (hbad : ∀ a b, i ≠ .badRequest p a b) (hr : s.ReadyFor p) :
    exec i s = .next (s.answered p i .badRange []) ∨ exec i s = .next (s.answered p i .noPermission []) ∨
      ∃ t, exec i s = .next t ∧ i.CompletedIn p (t.settle p) ∧
        (i.handsOn = false → ∃ r, (t.port p).tx = .response r) := by
  obtain ⟨α, params, act, h⟩ := request_servedBy hi hbad
  cases hrange : i.inRange with
  | false => exact Or.inl (exec_of_badRange h hr hrange)
  | true =>
    cases hl : s.lacksRight p i.rightNeeded with
    | true => exact Or.inr (Or.inl (exec_of_noPermission h hr hrange hl))
    | false =>
      obtain ⟨a, ha, he⟩ := exec_of_accepted h hr hrange hl
      exact Or.inr (Or.inr ⟨_, he, h.completes a _ ha, fun hon => h.atOnce hon a _ ha⟩)

theorem badRequest_or_not (i : Instr) (p : Port) :
    (∃ a b, i = .badRequest p a b) ∨ ∀ a b, i ≠ .badRequest p a b := by
  by_cases h : ∃ a b, i = .badRequest p a b
  · exact Or.inl h
  · exact Or.inr fun a b hi => h ⟨a, b, hi⟩

/-! ### The parameter checks -/

/-- A completed request shows neither refusal of the parameter checks. -/
theorem completedIn_passes {i : Instr} {p : Port} {t : State} (h : i.CompletedIn p t) (b : List Byte) :
    (t.port p).tx ≠ .response { status := .badRange, body := b } ∧
      (t.port p).tx ≠ .response { status := .noPermission, body := b } := by
  rcases h with ⟨r, hr, hrange, hright, -⟩ | ⟨q, pp, offset, length, code, -, ht⟩
  · rw [hr]
    exact ⟨fun e => hrange (by cases e; rfl), fun e => hright (by cases e; rfl)⟩
  · rw [ht]
    exact ⟨nofun, nofun⟩

/-- Settles O5. -/
theorem rangeThenRightsAreChecked : Obligations.RangeThenRightsAreChecked := by
  intro i p s hi hr
  rcases badRequest_or_not i p with ⟨a, b, rfl⟩ | hbad
  · refine ⟨nofun, nofun, fun _ _ => ?_⟩
    rw [exec_badRequest hr]
    split
    · refine ⟨_, rfl, fun c => ?_⟩
      have htx : ((s.receive p [a, b]).port p).tx = .request := (s.receive_tx p _).trans hr.2
      rw [State.settle_request htx, htx]
      exact ⟨nofun, nofun⟩
    · refine ⟨_, rfl, fun c => ?_⟩
      rw [State.settle_answered, State.answered_tx]
      exact ⟨nofun, nofun⟩
  · obtain ⟨α, params, act, h⟩ := request_servedBy hi hbad
    refine ⟨exec_of_badRange h hr, fun r hrange hneeded hpart hheld => ?_, fun hrange hright => ?_⟩
    · exact exec_of_noPermission h hr hrange (by simp [hneeded, State.lacksRight, hpart, hheld])
    · have hl : s.lacksRight p i.rightNeeded = false := by
        cases hneeded : i.rightNeeded with
        | none => rfl
        | some r =>
          rcases hright with hpart | hheld
          · simp [State.lacksRight, hpart]
          · simp [State.lacksRight, hheld r hneeded]
      obtain ⟨a, ha, he⟩ := exec_of_accepted h hr hrange hl
      exact ⟨_, he, completedIn_passes (h.completes a _ ha)⟩

/-! ### Lengths and completion -/

/-- Settles O11. -/
theorem responseBodyLengths : Obligations.ResponseBodyLengths := by
  intro i p s t r hi hr he ht
  have hempty : ∀ c : Status, exec i s = .next (s.answered p i c []) → r = { status := c, body := [] } := by
    intro c hc
    cases he.symm.trans hc
    rw [State.settle_answered, State.answered_tx] at ht
    exact (TxState.response.inj ht).symm
  rcases badRequest_or_not i p with ⟨a, b, rfl⟩ | hbad
  · rw [exec_badRequest hr] at he
    split at he
    · cases he
      have htx : ((s.receive p [a, b]).port p).tx = .request := (s.receive_tx p _).trans hr.2
      rw [State.settle_request htx, htx] at ht
      cases ht
    · cases he
      rw [State.settle_answered, State.answered_tx] at ht
      cases ht
      rfl
  · rcases exec_request hi hbad hr with hc | hc | ⟨t', ht', hdone, -⟩
    · rw [hempty .badRange hc]
      rfl
    · rw [hempty .noPermission hc]
      rfl
    · cases he.symm.trans ht'
      rcases hdone with ⟨r', hr', -, -, hlength⟩ | ⟨q, pp, offset, length, code, -, hw⟩
      · cases ht.symm.trans hr'
        exact hlength
      · cases ht.symm.trans hw

/-- Settles O12. -/
theorem everyCommandCompletes : Obligations.EveryCommandCompletes := by
  refine ⟨fun c s => ?_, fun i p s hi hw hr => ?_⟩
  · cases c <;> exact ⟨_, rfl⟩
  · have hanswered : ∀ (c : Status) (b : List Byte), exec i s = .next (s.answered p i c b) →
        ∃ t, exec i s = .next t ∧ (i.handsOn = false → ∃ r, (t.port p).tx = .response r) ∧
          ((∃ r, ((t.settle p).port p).tx = .response r) ∨
            ∃ pp offset length code, i = .stageWrite p pp offset length ∧
              ((t.settle p).port p).tx = .writeData length.toNat code) := fun c b hc =>
      ⟨_, hc, fun _ => ⟨_, s.answered_tx p i c b⟩, Or.inl ⟨_, by rw [State.settle_answered, State.answered_tx]⟩⟩
    rcases badRequest_or_not i p with ⟨a, b, rfl⟩ | hbad
    · have hheader : headerAccepted a b = false := by simpa [Instr.wellFormed] using hw
      exact hanswered .badRequest [] (by rw [exec_badRequest hr, hheader]; rfl)
    · rcases exec_request hi hbad hr with hc | hc | ⟨t, ht, hdone, honce⟩
      · exact hanswered _ _ hc
      · exact hanswered _ _ hc
      · refine ⟨t, ht, honce, ?_⟩
        rcases hdone with ⟨r, hr', -⟩ | ⟨q, pp, offset, length, code, rfl, hw'⟩
        · exact Or.inl ⟨r, hr'⟩
        · cases hi
          exact Or.inr ⟨pp, offset, length, code, rfl, hw'⟩

end Sys2Proof.Machine
end

section
/-! HEADLINE. How select edges, the bytes of a response and outstanding claims move a transaction, and what SDO carries
(R166, R168, R171, R183). -/

namespace Sys2Proof.Machine

/-! ### Events -/

theorem exec_selectPeriodBegin {s : State} {p : Port} (hr : s.inReset = false) (hsel : (s.port p).selected = false)
    (htx : (s.port p).tx = .idle) :
    exec (.selectPeriodBegin p) s =
      .next (s.setPort p { s.port p with selected := true, tx := .request, received := [] }) := by
  show Host.Outcome.next (s.selectFalls p) = _
  simp [State.selectFalls, hsel, hr, htx]

theorem exec_lastResponseByte {s : State} {p : Port} {r : Response} (htx : (s.port p).tx = .response r)
    (hread : (s.port p).reading = none) :
    exec (.lastResponseByte p) s = .next (s.setPort p { s.port p with tx := .done }) := by
  show Host.Outcome.next ((s.settle p).responseSent p) = _
  rw [State.settle_of_not_accepted (by rw [htx]; nofun)]
  simp only [State.responseSent, htx, hread, State.done]

/-- Bytes on a port that is not in REQUEST are no request (R168, R185). -/
theorem exec_request_ignored {i : Instr} {p : Port} {s : State} (hi : i.requestPort? = some p) (hr : ¬ s.ReadyFor p) :
    exec i s = .next s := by
  rcases badRequest_or_not i p with ⟨a, b, rfl⟩ | hbad
  · have hawaits : s.awaitsRequest p = false := by
      cases h : s.awaitsRequest p with
      | false => rfl
      | true => exact absurd ((s.readyFor_iff p).2 h) hr
    show Host.Outcome.next (s.refuseHeader p a b) = _
    rw [State.refuseHeader, hawaits]
    rfl
  · obtain ⟨α, params, act, h⟩ := request_servedBy hi hbad
    rw [h.exec, State.serve_ignored _ hr]

/-- Claims once taken, there is nothing more to take. -/
theorem State.settle_settle (s : State) (p : Port) : (s.settle p).settle p = s.settle p :=
  State.settle_of_not_accepted (s.settle_not_accepted p)

/-- An event that moves p's transaction on finds its claims taken (R171, R183). -/
theorem exec_settle {c : Instr} {p : Port} (hc : c.movesOn = some p) (s : State) : exec c s = exec c (s.settle p) := by
  have h := s.settle_settle p
  cases c <;> cases hc
  case readCompletion => exact congrArg (fun u => Host.Outcome.next (State.completeRead u p)) h.symm
  case stageReadCompletion => exact congrArg (fun u => Host.Outcome.next (State.completeStageRead u p)) h.symm
  case stageWriteCompletion data => exact congrArg (fun u => Host.Outcome.next (State.dataBytes u p data)) h.symm
  case selectRelease => exact congrArg (fun u => Host.Outcome.next (State.selectRises u p)) h.symm
  case lastResponseByte => exact congrArg (fun u => Host.Outcome.next (State.responseSent u p)) h.symm

/-! ### SDO -/

theorem State.undriven_iff (s : State) (p : Port) :
    (s.inReset || !(s.port p).selected) = true ↔ s.inReset = true ∨ (s.port p).selected = false := by
  simp

theorem State.driven {s : State} {p : Port} (hr : s.inReset = false) (hsel : (s.port p).selected = true) :
    (s.inReset || !(s.port p).selected) = false := by
  rw [hr, hsel]
  rfl

theorem State.sdo_undriven {s : State} {p : Port} (h : s.inReset = true ∨ (s.port p).selected = false) (n : Nat) :
    s.sdo p n = none :=
  if_pos ((s.undriven_iff p).2 h)

theorem State.drive_undriven {s : State} {p : Port} (h : s.inReset = true ∨ (s.port p).selected = false) (x : OutLine)
    (e : LineEdge) : s.drive p x e = { level := none, setUp := 0 } :=
  if_pos ((s.undriven_iff p).2 h)

theorem State.drive_selectRises (s : State) (p : Port) (x : OutLine) : (s.drive p x .selectRises).level = none := by
  unfold State.drive
  split <;> rfl

section

variable {s : State} {p : Port} (hr : s.inReset = false) (hsel : (s.port p).selected = true)

include hr hsel

theorem State.sdo_response {r : Response} (htx : (s.port p).tx = .response r) (n : Nat) :
    s.sdo p n = some (([byteOf r.status.code, byteOf r.body.length] ++ r.body).getD n 0xFF) := by
  simp only [State.sdo, State.driven hr hsel, htx]
  rfl

theorem State.sdo_nothing (htx : ∀ r, (s.port p).tx ≠ .response r) (n : Nat) : s.sdo p n = some 0xFF := by
  unfold State.sdo
  rw [State.driven hr hsel, if_neg nofun]
  split
  · rename_i r h
    exact absurd h (htx r)
  · rfl

theorem State.drive_selectFalls (x : OutLine) :
    s.drive p x .selectFalls = { level := s.sdoBit p x.setUp, setUp := x.setUp + 1 } :=
  if_neg (by rw [State.driven hr hsel]; nofun)

theorem State.drive_clockFalls (x : OutLine) :
    s.drive p x .clockFalls = { level := s.sdoBit p x.setUp, setUp := x.setUp + 1 } :=
  if_neg (by rw [State.driven hr hsel]; nofun)

theorem State.drive_clockRises (x : OutLine) (sdi : Bool) : s.drive p x (.clockRises sdi) = x :=
  if_neg (by rw [State.driven hr hsel]; nofun)

/-- Over clock edges the bits set up are counted by the falls, and the last of them stands on the line (R166). -/
theorem State.drive_clocks (edges : List LineEdge) (hedges : ∀ e ∈ edges, e = .clockFalls ∨ ∃ sdi, e = .clockRises sdi)
    (x : OutLine) :
    edges.foldl (s.drive p) x =
      { level := if edges.count .clockFalls = 0 then x.level else s.sdoBit p (x.setUp + edges.count .clockFalls - 1)
        setUp := x.setUp + edges.count .clockFalls } := by
  induction edges generalizing x with
  | nil => rfl
  | cons e edges ih =>
    have htail := ih fun e he => hedges e (.tail _ he)
    rw [List.foldl_cons, htail]
    rcases hedges e (.head _) with rfl | ⟨sdi, rfl⟩
    · rw [State.drive_clockFalls hr hsel, List.count_cons_self, if_neg (Nat.succ_ne_zero _)]
      have hsum : x.setUp + 1 + edges.count .clockFalls = x.setUp + (edges.count .clockFalls + 1) := by omega
      split
      · rename_i h
        simp [h]
      · rw [hsum]
    · have hne : LineEdge.clockRises sdi ≠ .clockFalls := nofun
      rw [State.drive_clockRises hr hsel, List.count_cons_of_ne hne]

end

/-- Bit k of a byte as it passes, most significant first (R166). -/
theorem bitsOf_getElem? (b : Byte) {k : Nat} (hk : k < 8) : (bitsOf b)[k]? = some (b.getLsbD (7 - k)) := by
  have h : (bitsOf b)[k]? = some (b.getMsbD k) := by simp [bitsOf, hk]
  rw [h, BitVec.getMsbD_eq_getLsbD]
  simp [hk]

theorem State.sdoBit_eq (s : State) (p : Port) (n : Nat) :
    s.sdoBit p n = (s.sdo p (n / 8)).map fun b => b.getLsbD (7 - n % 8) := by
  unfold State.sdoBit
  cases s.sdo p (n / 8) with
  | none => rfl
  | some b => exact bitsOf_getElem? b (Nat.mod_lt n (by decide))

/-- Settles O7. -/
theorem selectAndResponseMoveTheTransaction : Obligations.SelectAndResponseMoveTheTransaction := by
  refine ⟨fun p s hr hsel htx => exec_selectPeriodBegin hr hsel htx, fun p s r htx hread => exec_lastResponseByte htx hread,
    fun i p s hi hr => exec_request_ignored hi hr, fun p s o data _ => ?_, fun p s n => ?_⟩
  · exact ⟨s.settle_not_accepted p, exec_settle rfl s, exec_settle rfl s, exec_settle rfl s, exec_settle rfl s,
      exec_settle rfl s⟩
  · refine ⟨fun h => State.sdo_undriven h n, fun hr hsel => ⟨fun r htx => State.sdo_response hr hsel htx n,
      fun htx => State.sdo_nothing hr hsel htx n⟩, s.sdoBit_eq p n, fun x e h => State.drive_undriven h x e,
      fun level edges hr hsel hedges => ⟨?_, ?_, ?_⟩⟩
    · simpa [State.driveAll] using State.drive_clocks hr hsel edges hedges { level := level, setUp := 0 }
    · rw [State.driveAll, List.foldl_append, List.foldl_cons, List.foldl_nil]
      exact s.drive_selectRises p _
    · rw [State.driveAll, List.foldl_cons, State.drive_selectFalls hr hsel, State.drive_clocks hr hsel edges hedges]
      have hsum : 0 + 1 + edges.count .clockFalls = edges.count .clockFalls + 1 := by omega
      rw [hsum]
      split
      · rename_i h
        rw [h]
      · rfl

end Sys2Proof.Machine
end

section
/-! SUPPORT. The retiring set after the removal of stagings (R4, R6). -/

namespace Sys2Proof.Machine

/-- What visits add to the retiring set, each by the record that its page had at first. -/
theorem mem_foldl_retiring {visit : ExchangeMap → Page → ExchangeMap} {g : PageRecord → PageRecord}
    {joins : Vector Nat 512 → PageRecord → Frame → Prop}
    (hv : ∀ m i j, (visit m i).page j = if j = i then g (m.page i) else m.page j)
    (hr : ∀ m i, (visit m i).refs = m.refs)
    (hf : ∀ m i f, f ∈ (visit m i).retiring ↔ f ∈ m.retiring ∨ joins m.refs (m.page i) f) {l : List Page}
    (hl : l.Nodup) (m : ExchangeMap) (f : Frame) :
    f ∈ (l.foldl visit m).retiring ↔ f ∈ m.retiring ∨ ∃ i ∈ l, joins m.refs (m.page i) f := by
  induction l generalizing m with
  | nil => simp
  | cons i l ih =>
    obtain ⟨hi, hl⟩ := List.nodup_cons.1 hl
    have hrest : (∃ j ∈ l, joins (visit m i).refs ((visit m i).page j) f) ↔ ∃ j ∈ l, joins m.refs (m.page j) f :=
      exists_congr fun j => and_congr_right fun hj => by rw [hr, hv, if_neg fun h : j = i => hi (h ▸ hj)]
    rw [List.foldl_cons, ih hl, hf, hrest, or_assoc]
    simp only [List.mem_cons, exists_eq_or_imp]

/-- The staging's frame retires with it: it is still referenced (R6). -/
def PageRecord.Retires (refs : Vector Nat 512) (r : PageRecord) (f : Frame) : Prop :=
  ∃ st, r.staging = some st ∧ st.frame = f ∧ refs[f] ≠ 0

theorem ExchangeMap.mem_removeStaging_retiring (m : ExchangeMap) (i : Page) (f : Frame) :
    f ∈ (m.removeStaging i).retiring ↔ f ∈ m.retiring ∨ (m.page i).Retires m.refs f := by
  unfold ExchangeMap.removeStaging PageRecord.Retires
  split
  · rename_i h
    simp [h]
  · rename_i st h
    have hrefs : (m.setPage i { m.page i with staging := none }).refs = m.refs := rfl
    have hretiring : (m.setPage i { m.page i with staging := none }).retiring = m.retiring := rfl
    rw [ExchangeMap.mem_release_retiring, hrefs, hretiring, h]
    refine or_congr_right ⟨?_, ?_⟩
    · rintro ⟨rfl, hne⟩
      exact ⟨st, rfl, rfl, hne⟩
    · rintro ⟨st', hst, rfl, hne⟩
      cases hst
      exact ⟨rfl, hne⟩

theorem ExchangeMap.mem_removeAllStagings_retiring (m : ExchangeMap) (f : Frame) :
    f ∈ m.removeAllStagings.retiring ↔ f ∈ m.retiring ∨ ∃ i : Page, (m.page i).Retires m.refs f := by
  unfold ExchangeMap.removeAllStagings
  rw [mem_foldl_retiring (g := fun r => { r with staging := none }) (joins := PageRecord.Retires)
    ExchangeMap.removeStaging_page (fun m i => (m.removeStaging_store i).2.1) ExchangeMap.mem_removeStaging_retiring
    nodup_pages]
  simp

/-- The free list after the removal of all stagings, as a list of frames (R29). -/
theorem ExchangeMap.removeAllStagings_freeList_eq (m : ExchangeMap) :
    m.removeAllStagings.freeList = m.freeList ++ (List.finRange 320).filterMap fun i =>
      match (m.page i).staging with
      | none => none
      | some st => if m.refs[st.frame] = 0 then some st.frame else none := by
  rw [ExchangeMap.removeAllStagings_freeList, List.filterMap_eq_flatMap_toList]
  congr 2
  funext i
  unfold PageRecord.stagingReleased
  cases (m.page i).staging with
  | none => rfl
  | some st =>
    dsimp only
    split <;> rfl

end Sys2Proof.Machine
end

section
/-! HEADLINE. HALT returns the part to SETUP (R180). -/

namespace Sys2Proof.Machine

theorem exec_halt_setup {s : State} {p : Port} (hr : s.ReadyFor p) (hpart : s.part = .setup) :
    exec (.halt p) s = .next (s.answered p (.halt p) .wrongState []) := by
  show Host.Outcome.next (s.serve p (Instr.halt p).record (some .plan) (some ()) _) = _
  rw [State.serve_accepted _ hr rfl (State.PlanAllowed.lacks (Or.inl hpart)), State.receive_part, hpart,
    if_neg nofun, State.answer_receive]

theorem State.haltPart_receive (s : State) (p : Port) (bytes : List Byte) :
    (s.receive p bytes).haltPart = s.haltPart.receive p bytes := by
  simp only [State.haltPart, State.receive_eq, State.setPort_setPart, State.setPort_setSched, State.setPort_setMap,
    State.setPort_setHold, State.setPort_setPub, State.setPort_sched, State.setPort_map, State.setPort_hold,
    State.setPort_pub, State.port_setPart, State.port_setSched, State.port_setMap, State.port_setHold,
    State.port_setPub]

theorem exec_halt_run {s : State} {p : Port} (hr : s.ReadyFor p) (hpart : s.part = .run) (ha : s.PlanAllowed p) :
    exec (.halt p) s = .next (s.haltPart.answered p (.halt p) .ok []) := by
  show Host.Outcome.next (s.serve p (Instr.halt p).record (some .plan) (some ()) _) = _
  rw [State.serve_accepted _ hr rfl ha.lacks, State.receive_part, hpart, if_pos rfl, State.haltPart_receive,
    State.answer_receive]

/-- HALT's claim over the other blocks, where the exchange map's part of it leads to m. -/
def State.haltedWith (s : State) (m : ExchangeMap) : State :=
  ((((s.setPart .setup).setSched s.sched.stopEngine).setMap m).setHold s.hold.removeAll).setPub s.pub.clearMarks

theorem State.haltPart_eq (s : State) : s.haltPart = s.haltedWith s.map.removeAllStagings := by
  unfold State.haltPart State.haltedWith
  rfl

/-- Settles O15: the removal of the stagings page by page, and each other block by its own operation. -/
theorem haltReturnsToSetup : Obligations.HaltReturnsToSetup := by
  intro p s hr
  refine ⟨exec_halt_setup hr, fun hpart ha => ⟨_, exec_halt_run hr hpart ha, ?_⟩⟩
  have hrecords := s.haltPart_records
  have hpage := s.map.removeAllStagings_page
  have hfree := s.map.removeAllStagings_freeList_eq
  have hretiring := s.map.mem_removeAllStagings_retiring
  obtain ⟨hframes, hrefs, hserial, hlimit⟩ := s.map.removeAllStagings_store
  rw [State.haltPart_eq] at hrecords ⊢
  generalize s.map.removeAllStagings = m at *
  exact ⟨rfl, rfl, rfl, hpage, hfree, hretiring, hrefs, hframes, hserial, hlimit, hrecords, rfl, s.pub.clearMarks_group,
    s.pub.clearMarks_watches, rfl, rfl, rfl, rfl, hr.1⟩

end Sys2Proof.Machine
end

section
/-! SUPPORT. A cycle start that meets neither stagings nor holds leaves exchange map, hold table and link as they are, and
a group without a point its status (R25, R59, R63, R91). -/

namespace Sys2Proof.Machine

/-- No page has a staging. -/
abbrev ExchangeMap.Unstaged (m : ExchangeMap) : Prop := ∀ i : Page, (m.page i).staging = none

theorem ExchangeMap.countStagings_unstaged {m : ExchangeMap} (h : m.Unstaged) : m.countStagings = (m, []) := by
  refine List.foldlRecOn (motive := fun r => r = (m, [])) _ _ rfl fun r hr i _ => ?_
  rw [hr, ExchangeMap.countPage, h i]

theorem ExchangeMap.swap_unstaged {m : ExchangeMap} (h : m.Unstaged) (g : Group) (c : CycleCount) :
    m.swap g c = { map := m, published := 0, late := [] } := by
  refine List.foldlRecOn (motive := fun r => r = SwapResult.mk m 0 []) _ _ rfl fun r hr i _ => ?_
  rw [hr, ExchangeMap.swapPage, h i]
  exact ite_self _

theorem State.publish_unstaged {s : State} (h : s.map.Unstaged) (g : Group) (o : GroupOutcome) :
    (s.publish g o).1.map = s.map := by
  rw [State.publish_map, ExchangeMap.swap_unstaged h]

theorem State.takeClaim_unstaged {s : State} (h : s.map.Unstaged) (c : Claim) : (s.takeClaim c).1.map = s.map := by
  cases c with
  | countHolds | rollWatches | removeHold => rfl
  | point g =>
    show (s.takePoint g).1.map = s.map
    unfold State.takePoint
    split
    · rfl
    · split
      · rfl
      · exact State.publish_unstaged h g _
  | report g =>
    show (s.takeReport g).1.map = s.map
    unfold State.takeReport
    split
    · split
      · rfl
      · exact State.publish_unstaged (s := s.setPub _) h g .catchUp
    · rfl

theorem State.takeCycleClaims_still {s : State} (h : s.map.Unstaged) (cs : List CycleClaim) :
    (s.takeCycleClaims cs).1.map = s.map ∧ (s.takeCycleClaims cs).1.link = s.link := by
  refine s.takeCycleClaims_keeps (fun u => u.map = s.map ∧ u.link = s.link) (fun u c ⟨hmap, hlink⟩ => ?_) cs ⟨rfl, rfl⟩
  have hu : u.map.Unstaged := hmap ▸ h
  rw [← hmap, ← hlink]
  cases c with
  | block c => exact ⟨State.takeClaim_unstaged hu c, (u.takeClaim_only c).link⟩
  | countStagings =>
    rw [State.takeCycleClaim, ExchangeMap.countStagings_unstaged hu]
    exact ⟨rfl, rfl⟩
  | markReady p =>
    rcases u.markReady_eq p with he | ⟨_, i, st, -, -, hst, -⟩
    · exact ⟨congrArg State.map he, congrArg State.link he⟩
    · exact nomatch (hu i).symm.trans hst

/-- What a cycle start leaves of exchange map and link, and that its notices stand behind those that were queued. -/
theorem State.startCycle_still {s : State} (h : s.map.Unstaged) (pick : Nat → Nat) (earlier : List Message) :
    (s.startCycle pick earlier).map = s.map ∧ (s.startCycle pick earlier).link = s.link ∧
      ∀ q : Port, s.notice.ports[q].queue <+: (s.startCycle pick earlier).notice.ports[q].queue := by
  obtain ⟨u, hu⟩ : ∃ u, u = s.setSched (s.sched.beginCycle s.stop.anyActive) := ⟨_, rfl⟩
  have hmap : u.map = s.map := by rw [hu, State.setSched_map]
  have hlink : u.link = s.link := by rw [hu, State.setSched_link]
  have hnotice : u.notice = s.notice := by rw [hu, State.setSched_notice]
  have hstill := State.takeCycleClaims_still (s := u) (hmap ▸ h) (u.cycleStartClaims pick u.sched.slotPoint)
  have honly := u.takeCycleClaims_only (u.cycleStartClaims pick u.sched.slotPoint)
  rw [s.startCycle_eq pick earlier hu]
  generalize u.takeCycleClaims (u.cycleStartClaims pick u.sched.slotPoint) = r at hstill honly
  refine ⟨hstill.1.trans hmap, hstill.2.trans hlink, fun q => ?_⟩
  have hr : r.1.notice = s.notice := by rw [honly, ← hnotice]; rfl
  rw [← hr]
  exact r.1.notify_prefix _ q

theorem HoldTable.count_of_none {h : HoldTable} (hn : ∀ p : Port, h.records[p] = none) : h.count = h := by
  have hrecords : (forPorts fun p => Hold.count h.records[p]) = h.records := by
    have hcount : (fun p : Port => Hold.count h.records[p]) = fun p => h.records[p] :=
      funext fun p => by rw [hn p, Hold.count]
    rw [hcount, forPorts_eq]
  rw [HoldTable.count, hrecords]

/-- A publication of a cycle start finds no staging on a page that had none. -/
theorem State.Finds.ready_unstaged {s t : State} {g : Group} {m : ExchangeMap} (h : s.Finds t g m)
    (hs : s.map.Unstaged) (i : Page) : m.ready g i = false ∧ m.late g i = false := by
  obtain ⟨_, hm⟩ := h
  obtain ⟨hpage, hstaging⟩ := hm i
  by_cases hg : (s.map.page i).group = g
  · have hnone := hstaging hg
    rw [hs i] at hnone
    simp [ExchangeMap.ready, ExchangeMap.late, hnone]
  · have hne : (m.page i).group ≠ g := by
      rw [hpage]
      exact hg
    exact ⟨ExchangeMap.ready_other hne, ExchangeMap.late_other hne⟩

theorem State.Finds.counts_unstaged {s t : State} {g : Group} {m : ExchangeMap} (h : s.Finds t g m)
    (hs : s.map.Unstaged) : m.readyCount g = 0 ∧ m.lateCount g = 0 := by
  have hnone := h.ready_unstaged hs
  simp [ExchangeMap.readyCount, ExchangeMap.lateCount, hnone]

/-- A group with neither a point nor a break has no outcome in a cycle start. -/
theorem State.TakesOutcomes.nothing {s t : State} {g : Group} (h : s.TakesOutcomes t g) (hpoint : ¬ t.FirstPoint g)
    (hb : ¬ s.Breaks g) :
    t.pub.groups[g] = s.pub.groups[g] ∧
      ∀ n : WatchNo, s.pub.watches[n].group = g → t.pub.watches[n] = s.pub.watches[n].rolled := by
  obtain ⟨point, early, late, m, m', hp, -, -, -, houts, -, -, -, hgroup, hmark, hwatches⟩ := h
  have hfalse : point = false := Bool.eq_false_iff.2 fun e => hpoint (hp.1 e)
  subst hfalse
  generalize houtcomes : (early ++ late).map (fun x => (x.last, x.published, x.late)) = outcomes at houts
  cases houts with
  | catchUp hbreaks | dropped hbreaks => exact absurd hbreaks hb
  | nothing =>
    obtain ⟨rfl, rfl⟩ := List.append_eq_nil_iff.1 (List.map_eq_nil_iff.1 houtcomes)
    have hsame : t.pub.groups[g].mark = s.pub.groups[g].mark :=
      Bool.eq_iff_iff.2 (hmark.trans ⟨fun hm => hm.2.resolve_right fun hx => Bool.false_ne_true hx.1, fun hm => ⟨hb, Or.inl hm⟩⟩)
    exact ⟨by rw [hgroup, hsame]; rfl, hwatches⟩

end Sys2Proof.Machine
end

section
/-! HEADLINE. START begins the run (R35, R179). -/

namespace Sys2Proof.Machine

theorem State.not_held {s : State} (h : ∀ p : Port, s.hold.records[p] = none) (g : Group) : ¬ s.Held g :=
  fun ⟨p, _, hp, _⟩ => nomatch (h p).symm.trans hp

/-- The schedule as START leaves it to its engine: cycle 0 and slot 0 come first (R35). -/
def Schedule.started (c : Schedule) : Schedule := { c with cycleCount := 0, slotIndex := 0, firstCycle := true }

theorem Schedule.beginCycle_started {c : Schedule} (hp : c.pendingSwitch = false) (stopped : Bool) :
    c.started.beginCycle stopped =
      { c with
        cycleCount := 0, slotIndex := 0, firstCycle := false, engine := .inCycle, gapTimer := none
        slotTimer := some { elapsed := 0, duration := c.activePlan.entries[(0 : SlotNo)].duration.toNat }
        cycleOut := !stopped } := by
  rw [Schedule.beginCycle_eq]
  simp [Schedule.started, hp, Schedule.activePlan, Schedule.plan]

theorem State.startPart_triggered {s : State} (h : s.sched.syncMode = .triggered) :
    s.startPart = ((s.setPart .run).setSched s.sched.started.wait).bump := by
  rw [State.startPart, State.startSchedule, State.setPart_sched, h]
  rfl

theorem State.startPart_free {s : State} (h : s.sched.syncMode = .free) :
    s.startPart = (((s.setPart .run).setSched s.sched.started).startCycle s.draw []).bump := by
  rw [State.startPart, State.startSchedule, State.setPart_sched, h]
  rfl

theorem exec_start_eq {s : State} {p : Port} (hr : s.ReadyFor p) :
    exec (.start p) s =
      .next (if s.part = .setup then (s.receive p (Instr.start p).record).startPart.answer p .ok []
        else s.answered p (.start p) .wrongState []) :=
  congrArg Host.Outcome.next (State.serve_inSetup hr (.start p) rfl (fun _ u => u.startPart) fun _ _ => [])

/-- A group of which slot 0 of a first cycle that meets neither stagings nor holds carries a point: FROZEN, or PUBLISHED
without a page (R37, R59, R75, R78). -/
theorem State.startCycle_emptyPoint {s t : State} (pick : Nat → Nat) (earlier : List Message)
    (ht : t = (s.startCycle pick earlier).bump) (hmap : s.map.Unstaged) (hhold : ∀ p : Port, s.hold.records[p] = none)
    {g : Group} (hfirst : t.FirstPoint g) :
    t.pub.groups[g] =
        { last := if s.stop.frozen.getLsbD g.val then .frozen else .published
          cycle := t.sched.cycleCount, published := 0, late := 0, mark := s.pub.groups[g].mark } ∧
      (∀ n : WatchNo, s.pub.watches[n].group = g →
        t.pub.watches[n] = s.pub.watches[n].rolled.after g t.pub.groups[g]) ∧
      ∀ q : Port, s.notice.ports[q].subscription.getLsbD g.val = true →
        t.Found q { stamp := t.stamp, body := .groupPoint g t.pub.groups[g].last 0 0 } := by
  have hheld := State.not_held hhold g
  obtain ⟨hwatches, hfound, hfrozen, -, -, hpublished⟩ := s.startCycle_point pick earlier ht hfirst fun hb => hheld hb.1
  have hgroup : t.pub.groups[g] =
      { last := if s.stop.frozen.getLsbD g.val then .frozen else .published
        cycle := t.sched.cycleCount, published := 0, late := 0, mark := s.pub.groups[g].mark } := by
    cases hf : s.stop.frozen.getLsbD g.val with
    | true => exact hfrozen hf
    | false =>
      obtain ⟨m, hfinds, -, hg⟩ := hpublished hf hheld
      obtain ⟨hready, hlate⟩ := hfinds.counts_unstaged hmap
      rw [hg, hready, hlate]
      rfl
  refine ⟨hgroup, hwatches, fun q hq => ?_⟩
  have h := hfound q hq
  have hnone : t.pub.groups[g].published = 0 ∧ t.pub.groups[g].late = 0 := by
    rw [hgroup]
    exact ⟨rfl, rfl⟩
  rwa [hnone.1, hnone.2] at h

/-- The first cycle begins in t, from s, without a staging or a hold to meet (R36, R37, R59, R75, R79). -/
structure State.BeginsEmpty (s t : State) : Prop where
  sched : t.sched = s.sched.beginCycle s.stop.anyActive
  part : t.part = s.part
  inReset : t.inReset = s.inReset
  link : t.link = s.link
  hold : t.hold = s.hold
  map : t.map = s.map
  view : t.view = s.view
  stop : t.stop = s.stop
  time : t.time = s.time
  slots : t.FirstSlotNotices
  point : ∀ g : Group, t.FirstPoint g →
    t.pub.groups[g] =
        { last := if s.stop.frozen.getLsbD g.val then .frozen else .published
          cycle := t.sched.cycleCount, published := 0, late := 0, mark := s.pub.groups[g].mark } ∧
      (∀ n : WatchNo, s.pub.watches[n].group = g →
        t.pub.watches[n] = s.pub.watches[n].rolled.after g t.pub.groups[g]) ∧
      ∀ q : Port, s.notice.ports[q].subscription.getLsbD g.val = true →
        t.Found q { stamp := t.stamp, body := .groupPoint g t.pub.groups[g].last 0 0 }
  others : ∀ g : Group, ¬ t.FirstPoint g →
    t.pub.groups[g] = s.pub.groups[g] ∧
      ∀ n : WatchNo, s.pub.watches[n].group = g → t.pub.watches[n] = s.pub.watches[n].rolled
  queues : ∀ q : Port, s.notice.ports[q].queue <+: t.notice.ports[q].queue

theorem State.startCycle_firstSlotNotices (s : State) (pick : Nat → Nat) (earlier : List Message) :
    (s.startCycle pick earlier).bump.FirstSlotNotices := by
  obtain ⟨u, hu⟩ : ∃ u, u = s.setSched (s.sched.beginCycle s.stop.anyActive) := ⟨_, rfl⟩
  obtain ⟨hsched, hstamp, -⟩ := s.startCycle_keeps pick earlier rfl
  have husched : u.sched = (s.startCycle pick earlier).bump.sched := by rw [hu, State.setSched_sched, hsched]
  have hslot : u.sched.slotIndex = 0 := by rw [husched, hsched, Schedule.beginCycle_eq]
  intro hacts q hq
  rw [← husched] at hacts hq
  rw [hstamp, ← hu]
  exact s.startCycle_found pick (earlier := earlier) hu (Or.inr (Or.inr (State.mem_slotNotices hslot hacts hq)))
    (decide_eq_true rfl)

theorem State.startCycle_beginsEmpty {s : State} (pick : Nat → Nat) (earlier : List Message) (hmap : s.map.Unstaged)
    (hhold : ∀ p : Port, s.hold.records[p] = none) : s.BeginsEmpty (s.startCycle pick earlier).bump := by
  have hslots := s.startCycle_firstSlotNotices pick earlier
  have hpoint := fun g => s.startCycle_emptyPoint (g := g) pick earlier rfl hmap hhold
  have hinto := s.startCycle_startsInto pick earlier rfl
  obtain ⟨hsched, -, hpart, hreset, hview, hstop, htime⟩ := s.startCycle_keeps pick earlier rfl
  obtain ⟨hstill, hlink, hqueue⟩ := State.startCycle_still hmap pick earlier
  exact ⟨hsched, hpart, hreset, hlink, hinto.counts_holds.trans (HoldTable.count_of_none hhold), hstill, hview, hstop,
    htime, hslots, hpoint,
    fun g hg => (hinto.takesOutcomes g).nothing hg fun hb => State.not_held hhold g hb.1, hqueue⟩

/-- Settles O14: by the law of SETUP the first cycle start meets neither stagings nor holds. -/
theorem startBeginsTheRun : Obligations.StartBeginsTheRun := by
  intro p s hr
  refine ⟨fun hpart => ?_, fun hpart hmode => ?_, fun hpart hmode hlaw => ?_⟩
  · rw [exec_start_eq hr, hpart, if_neg nofun]
  · rw [exec_start_eq hr, hpart, if_pos rfl, State.startPart_triggered (s := s.receive p _) hmode]
    exact congrArg Host.Outcome.next
      ((((s.setPart .run).setSched s.sched.started.wait).setChoices (s.choices + 1)).answer_receive p (.start p) .ok [])
  · obtain ⟨hstaging, hhold, -, hswitch⟩ := hlaw hpart
    rw [exec_start_eq hr, hpart, if_pos rfl, State.startPart_free (s := s.receive p _) hmode]
    have h := State.startCycle_beginsEmpty (s := ((s.receive p (Instr.start p).record).setPart .run).setSched
      (s.receive p (Instr.start p).record).sched.started) (s.receive p (Instr.start p).record).draw [] hstaging hhold
    generalize (State.startCycle _ _ _).bump = w at h
    have hcycle : w.sched.cycleCount = 0 := by
      rw [h.sched, State.setSched_sched, State.receive_sched, Schedule.beginCycle_started hswitch]
    have hpoint := h.point
    rw [hcycle] at hpoint
    refine ⟨_, rfl, h.part, ?_, ?_, h.hold, h.map, h.view, h.stop, h.time, h.inReset.trans hr.1, h.slots, hpoint,
      h.others, h.queues⟩
    · rw [State.answer_link h.link, ← State.answer_receive]
      rfl
    · refine h.sched.trans ?_
      rw [State.setSched_sched, State.receive_sched, Schedule.beginCycle_started hswitch, StopUnit.anyActive, Bool.not_or]
      rfl

end Sys2Proof.Machine
end

section
/-! SUPPORT. The notice unit's claims of a port reset, port by port: what they keep, what they deliver, and what they leave
in the queue that they empty (R154, R162, R165, R184). -/

namespace Sys2Proof.Machine

/-- The claims that a run cs hands to the notice unit, the claims which of p's reset and the messages ms among them. -/
def ResetNotices (p : Port) (which : ResetClaims) (ms : List Message) (cs : List NoticeClaim) : Prop :=
  ∀ c, c ∈ cs ↔
    (∃ m ∈ ms, c = .message m) ∨ (which.queue = true ∧ c = .emptyQueue p) ∨ (which.fault = true ∧ c = .faultReport p false)

theorem resetNotices_mem (pick : Nat → Nat) (p : Port) (which : ResetClaims) (xs : List Outgoing) :
    ResetNotices p which (xs.map Outgoing.message) (resetNotices pick p which xs) := by
  have hsent : ∀ c, (∃ m ∈ xs.map Outgoing.message, c = .message m) ↔
      c ∈ xs.map fun x => NoticeClaim.message x.message := fun c => by simp [eq_comm]
  intro c
  rw [hsent]
  unfold resetNotices
  generalize xs.map (fun x => NoticeClaim.message x.message) = sent
  cases which.queue <;> cases which.fault <;> simp only [if_true, Bool.false_eq_true, if_false, mem_insertAt] <;> tauto

/-- One port through claims in order. -/
abbrev NoticePort.takes (n : NoticePort) (q : Port) (cs : List NoticeClaim) : NoticePort :=
  cs.foldl (fun n c => n.take q c) n

theorem NoticeUnit.takes_port (u : NoticeUnit) (cs : List NoticeClaim) (q : Port) :
    (cs.foldl NoticeUnit.take u).ports[q] = NoticePort.takes u.ports[q] q cs := by
  induction cs generalizing u with
  | nil => rfl
  | cons c cs ih => rw [List.foldl_cons, ih, NoticeUnit.take_ports]; rfl

/-- What each of the claims keeps, the run keeps. -/
theorem NoticePort.takes_keeps (P : NoticePort → Prop) {q : Port} {cs : List NoticeClaim}
    (h : ∀ n, ∀ c ∈ cs, P n → P (n.take q c)) {n : NoticePort} (hn : P n) : P (n.takes q cs) :=
  List.foldlRecOn (motive := P) cs _ hn fun n hP c hc => h n c hc hP

/-! ### One claim -/

theorem NoticePort.take_settings (n : NoticePort) (q : Port) (c : NoticeClaim) :
    (n.take q c).subscription = n.subscription ∧ (n.take q c).kinds = n.kinds ∧
      (n.take q c).attention = n.attention := by
  cases c with
  | message m =>
    rw [NoticePort.take]
    split
    · obtain ⟨hsub, hkinds, hattention, -⟩ := n.append_keeps m.notice
      exact ⟨hsub, hkinds, hattention⟩
    · exact ⟨rfl, rfl, rfl⟩
  | emptyQueue p | faultReport p b =>
    rw [NoticePort.take]
    split <;> exact ⟨rfl, rfl, rfl⟩

/-- A report of the fault record leaves the queue and the lost flag. -/
theorem NoticePort.take_faultReport_queue (n : NoticePort) (q p : Port) (b : Bool) :
    (n.take q (.faultReport p b)).queue = n.queue ∧ (n.take q (.faultReport p b)).lost = n.lost := by
  rw [NoticePort.take]
  split <;> exact ⟨rfl, rfl⟩

/-! ### A run of them -/

theorem NoticePort.takes_settings (n : NoticePort) (q : Port) (cs : List NoticeClaim) :
    (n.takes q cs).subscription = n.subscription ∧ (n.takes q cs).kinds = n.kinds ∧
      (n.takes q cs).attention = n.attention :=
  NoticePort.takes_keeps
    (fun m => m.subscription = n.subscription ∧ m.kinds = n.kinds ∧ m.attention = n.attention)
    (fun m c _ ⟨hsub, hkinds, hattention⟩ => by
      obtain ⟨hsub', hkinds', hattention'⟩ := m.take_settings q c
      exact ⟨hsub'.trans hsub, hkinds'.trans hkinds, hattention'.trans hattention⟩)
    ⟨rfl, rfl, rfl⟩

section
variable {p : Port} {which : ResetClaims} {ms : List Message} {cs : List NoticeClaim}
  (h : ResetNotices p which ms cs)
include h

/-- For a port whose queue is not emptied, a claim of the run is a message or leaves queue and lost flag alone. -/
theorem ResetNotices.message_or_still {q : Port} (hq : q ≠ p ∨ which.queue = false) {c : NoticeClaim} (hc : c ∈ cs)
    (n : NoticePort) :
    (∃ m ∈ ms, c = .message m) ∨ ((n.take q c).queue = n.queue ∧ (n.take q c).lost = n.lost) := by
  rcases (h c).1 hc with hm | ⟨hqueue, rfl⟩ | ⟨-, rfl⟩
  · exact Or.inl hm
  · have hne : q ≠ p := hq.resolve_right (by rw [hqueue]; nofun)
    rw [NoticePort.take, if_neg hne]
    exact Or.inr ⟨rfl, rfl⟩
  · exact Or.inr (n.take_faultReport_queue q p false)

/-- The reported occupancy after the run: p's report of its emptied record, or what it was (R162, R184). -/
theorem ResetNotices.faultOccupied (s : State) (q : Port) :
    (s.takeNotices cs).notice.ports[q].faultOccupied =
      if q = p ∧ which.fault = true then false else s.notice.ports[q].faultOccupied := by
  have hreport : ∀ b, .faultReport q b ∈ cs → (q = p ∧ which.fault = true) ∧ b = false := by
    intro b hc
    rcases (h _).1 hc with ⟨m, -, hm⟩ | ⟨-, he⟩ | ⟨hfault, he⟩
    · cases hm
    · cases he
    · cases he
      exact ⟨⟨rfl, hfault⟩, rfl⟩
  split
  · rename_i hq
    obtain ⟨rfl, hfault⟩ := hq
    exact s.takeNotices_faultOccupied cs q false (fun b hb => (hreport b hb).2)
      (Or.inr ((h _).2 (Or.inr (Or.inr ⟨hfault, rfl⟩))))
  · rename_i hq
    exact s.takeNotices_faultOccupied cs q _ (fun b hb => absurd (hreport b hb).1 hq) (Or.inl rfl)

/-- A queue that is not emptied grows at its tail. -/
theorem ResetNotices.grows (n : NoticePort) {q : Port} (hq : q ≠ p ∨ which.queue = false) :
    n.queue <+: (n.takes q cs).queue := by
  refine NoticePort.takes_keeps (fun m => n.queue <+: m.queue) (fun m c hc hm => hm.trans ?_) List.prefix_rfl
  rcases h.message_or_still hq hc m with ⟨x, -, rfl⟩ | ⟨hsame, -⟩
  · exact m.take_message_prefix q x
  · rw [hsame]

/-- Each message reaches its recipients, but for the port whose queue is emptied (R154). -/
theorem ResetNotices.delivers (n : NoticePort) {q : Port} (hq : q ≠ p ∨ which.queue = false) {m : Message}
    (hm : m ∈ ms) (hreach : m.recipients.reach q n = true) :
    m.notice ∈ (n.takes q cs).queue ∨ ((n.takes q cs).lost = true ∧ 32 ≤ (n.takes q cs).queue.length) := by
  obtain ⟨before, behind, rfl⟩ := List.append_of_mem ((h _).2 (Or.inl ⟨m, hm, rfl⟩))
  rw [NoticePort.takes, List.foldl_append, List.foldl_cons]
  refine NoticePort.takes_keeps
    (fun k => m.notice ∈ k.queue ∨ (k.lost = true ∧ 32 ≤ k.queue.length)) (fun k c hc hk => ?_) ?_
  · rcases h.message_or_still hq (List.mem_append_right _ (.tail _ hc)) k with ⟨x, -, rfl⟩ | ⟨hqueue, hlost⟩
    · exact k.take_message_keeps q x _ hk
    · rwa [hqueue, hlost]
  · have hreach' : m.recipients.reach q (n.takes q before) = true := by
      obtain ⟨hsub, hkinds, -⟩ := n.takes_settings q before
      cases hrec : m.recipients with
      | port r => rwa [hrec] at hreach
      | subscribers g =>
        rw [hrec] at hreach
        rwa [Recipients.reach, hsub]
      | accepting k =>
        rw [hrec] at hreach
        rwa [Recipients.reach, hkinds]
    rw [NoticePort.take, if_pos hreach']
    exact NoticePort.append_delivers _ _

/-- What an emptied queue can hold: messages of the run, up to the limit, with the lost flag at the limit alone (R151,
R165). -/
def NoticePort.RefilledBy (n : NoticePort) (ms : List Message) : Prop :=
  (∀ x ∈ n.queue, ∃ m ∈ ms, m.notice = x) ∧ n.queue.length ≤ 32 ∧ (n.lost = true → n.queue.length = 32)

omit h in
theorem NoticePort.RefilledBy.append {n : NoticePort} (hn : n.RefilledBy ms) {m : Message} (hm : m ∈ ms) :
    (n.append m.notice).RefilledBy ms := by
  obtain ⟨hqueue, hlength, hlost⟩ := hn
  unfold NoticePort.append
  split
  · rename_i hl
    have hl' : n.queue.length < 32 := hl
    refine ⟨fun x hx => ?_, ?_, fun hx => absurd (hlost hx) (by omega)⟩
    · rcases List.mem_append.1 hx with hx | hx
      · exact hqueue x hx
      · exact ⟨m, hm, (List.mem_singleton.1 hx).symm⟩
    · show (n.queue ++ [m.notice]).length ≤ 32
      rw [List.length_append, List.length_singleton]
      omega
  · rename_i hl
    have hl' : ¬ n.queue.length < 32 := hl
    exact ⟨hqueue, hlength, fun _ => show n.queue.length = 32 by omega⟩

theorem ResetNotices.refilled (n : NoticePort) (hqueue : which.queue = true) : (n.takes p cs).RefilledBy ms := by
  obtain ⟨before, behind, rfl⟩ := List.append_of_mem ((h _).2 (Or.inr (Or.inl ⟨hqueue, rfl⟩)))
  have hclear : ∀ k : NoticePort, (k.take p (.emptyQueue p)).RefilledBy ms := fun k => by
    rw [NoticePort.take, if_pos rfl]
    exact ⟨nofun, Nat.zero_le _, nofun⟩
  rw [NoticePort.takes, List.foldl_append, List.foldl_cons]
  refine NoticePort.takes_keeps (fun k => k.RefilledBy ms) (fun k c hc hk => ?_) (hclear _)
  rcases (h c).1 (List.mem_append_right _ (.tail _ hc)) with ⟨m, hm, rfl⟩ | ⟨-, rfl⟩ | ⟨-, rfl⟩
  · rw [NoticePort.take]
    split
    · exact hk.append hm
    · exact hk
  · exact hclear k
  · obtain ⟨hq, hl⟩ := k.take_faultReport_queue p p false
    rwa [NoticePort.RefilledBy, hq, hl]

end

section
variable {p : Port} {which : ResetClaims} {cs : List NoticeClaim} (h : ResetNotices p which [] cs)
include h

/-- Without a message, another port is as it was. -/
theorem ResetNotices.other (n : NoticePort) {q : Port} (hq : q ≠ p) : n.takes q cs = n := by
  refine NoticePort.takes_keeps (fun m => m = n) (fun m c hc hm => ?_) rfl
  rcases (h c).1 hc with ⟨_, hx, -⟩ | ⟨-, rfl⟩ | ⟨-, rfl⟩
  · cases hx
  · rw [NoticePort.take, if_neg hq, hm]
  · rw [NoticePort.take, if_neg hq, hm]

/-- Without a message, p's queue is emptied or as it was. -/
theorem ResetNotices.own (n : NoticePort) :
    (n.takes p cs).queue = (if which.queue then [] else n.queue) ∧
      (n.takes p cs).lost = (if which.queue then false else n.lost) := by
  cases hqueue : which.queue with
  | true =>
    obtain ⟨hmem, -, hlost⟩ := h.refilled n hqueue
    have hnil : (n.takes p cs).queue = [] := List.eq_nil_iff_forall_not_mem.2 fun x hx => by
      obtain ⟨_, hm, -⟩ := hmem x hx
      cases hm
    rw [hnil] at hlost
    exact ⟨hnil, Bool.eq_false_iff.2 fun hl => nomatch hlost hl⟩
  | false =>
    refine NoticePort.takes_keeps (fun m => m.queue = n.queue ∧ m.lost = n.lost) (fun m c hc hm => ?_) ⟨rfl, rfl⟩
    rcases h.message_or_still (Or.inr hqueue) hc m with ⟨_, hx, -⟩ | ⟨hq, hl⟩
    · cases hx
    · exact ⟨hq.trans hm.1, hl.trans hm.2⟩

/-- Where nothing is claimed, the run is empty. -/
theorem ResetNotices.eq_nil (hqueue : which.queue = false) (hfault : which.fault = false) : cs = [] :=
  List.eq_nil_iff_forall_not_mem.2 fun c hc => by
    rcases (h c).1 hc with ⟨_, hx, -⟩ | ⟨hq, -⟩ | ⟨hf, -⟩
    · cases hx
    · rw [hqueue] at hq
      cases hq
    · rw [hfault] at hf
      cases hf

end

end Sys2Proof.Machine
end

section
/-! SUPPORT. p's stagings removed among the reports of a removal (R30, R69). -/

namespace Sys2Proof.Machine

/-! ### Stagings removed or kept -/

/-- The page without p's staging, where strip says that p's stagings go. -/
abbrev PageRecord.stripped (r : PageRecord) (p : Port) (strip : Bool) : PageRecord :=
  if strip then r.withoutStagingOf p else r

theorem PageRecord.stripped_true (r : PageRecord) (p : Port) : r.stripped p true = r.withoutStagingOf p := rfl

theorem PageRecord.stripped_access (r : PageRecord) (p : Port) (strip : Bool) :
    (r.stripped p strip).group = r.group ∧ (r.stripped p strip).defined = r.defined ∧
      (r.stripped p strip).readers = r.readers ∧ (r.stripped p strip).writers = r.writers := by
  cases strip <;> exact ⟨rfl, rfl, rfl, rfl⟩

/-- A page keeps its staging unless it is p's and goes. -/
theorem PageRecord.stripped_kept {r : PageRecord} {p : Port} {strip : Bool} {st : Staging} (hs : r.staging = some st)
    (hkept : st.stager ≠ p ∨ strip = false) : r.stripped p strip = r := by
  cases strip with
  | false => rfl
  | true =>
    have hne : ¬ r.staging.map Staging.stager = some p := by
      rw [hs]
      simpa using hkept
    rw [PageRecord.stripped_true, PageRecord.withoutStagingOf, if_neg hne]

theorem PageRecord.stripped_unstaged {r : PageRecord} (hs : r.staging = none) (p : Port) (strip : Bool) :
    r.stripped p strip = r := by
  cases strip with
  | false => rfl
  | true =>
    rw [PageRecord.stripped_true, PageRecord.withoutStagingOf, hs]
    exact congrArg (fun x => { r with staging := x }) hs.symm

/-- What is left after p's staging has gone stays. -/
theorem PageRecord.stripped_twice (r : PageRecord) (p : Port) (strip : Bool) :
    (r.stripped p strip).stripped p strip = r.stripped p strip := by
  cases strip with
  | false => rfl
  | true =>
    refine (PageRecord.withoutStagingOf_eq (r.withoutStagingOf p) p).trans ?_
    have hnone : ((r.withoutStagingOf p).stagedBy p).isSome = false := by
      rw [PageRecord.withoutStagingOf_eq]
      split
      · rfl
      · rename_i h
        exact Bool.eq_false_iff.2 h
    rw [hnone]
    rfl

theorem PageRecord.stripped_staging {r : PageRecord} {p : Port} {strip : Bool} {st : Staging}
    (hs : (r.stripped p strip).staging = some st) : r.stripped p strip = r := by
  cases strip with
  | false => rfl
  | true =>
    rw [PageRecord.stripped_true, PageRecord.withoutStagingOf] at hs ⊢
    split
    · rename_i h
      rw [if_pos h] at hs
      cases hs
    · rfl

/-- The exchange map without p's stagings, where strip says that they go (R30). -/
def ExchangeMap.stripped (m : ExchangeMap) (p : Port) (strip : Bool) : ExchangeMap :=
  if strip then m.removeStagingsOf p else m

section
variable (m : ExchangeMap) (p : Port) (strip : Bool)

theorem ExchangeMap.stripped_page (i : Page) : (m.stripped p strip).page i = (m.page i).stripped p strip := by
  cases strip with
  | false => rfl
  | true => exact m.removeStagingsOf_page p i

theorem ExchangeMap.stripped_store : m.SameStore (m.stripped p strip) := by
  cases strip with
  | false => exact ⟨rfl, rfl, rfl, rfl⟩
  | true => exact m.removeStagingsOf_store p

end

theorem ExchangeMap.SameGroup.stripped {m m' : ExchangeMap} {g : Group} (h : m.SameGroup m' g) (p : Port)
    (strip : Bool) : (m.stripped p strip).SameGroup (m'.stripped p strip) g := fun i => by
  rw [ExchangeMap.stripped_page, ExchangeMap.stripped_page, (PageRecord.stripped_access ..).1,
    (PageRecord.stripped_access ..).1]
  exact ⟨(h i).1, fun hi => by rw [(h i).2 hi]⟩

/-- A page that is late without p's stagings is late with them. -/
theorem ExchangeMap.stripped_late {m : ExchangeMap} {p : Port} {strip : Bool} {g : Group} {i : Page}
    (h : (m.stripped p strip).late g i = true) : m.late g i = true := by
  have hpage : (m.stripped p strip).page i = m.page i := by
    rw [ExchangeMap.stripped_page]
    unfold ExchangeMap.late at h
    split at h
    · rename_i st hst
      rw [ExchangeMap.stripped_page] at hst
      exact PageRecord.stripped_staging hst
    · cases h
  rwa [ExchangeMap.late, hpage] at h

/-- Whose page it is, in which group, and who may read and stage it. -/
def ExchangeMap.SameAccess (m m' : ExchangeMap) : Prop :=
  ∀ i : Page, (m'.page i).group = (m.page i).group ∧ (m'.page i).defined = (m.page i).defined ∧
    (m'.page i).readers = (m.page i).readers ∧ (m'.page i).writers = (m.page i).writers

theorem ExchangeMap.SameAccess.trans {m m' m'' : ExchangeMap} (h : m.SameAccess m') (h' : m'.SameAccess m'') :
    m.SameAccess m'' := fun i => by
  obtain ⟨hgroup, hdefined, hreaders, hwriters⟩ := h i
  obtain ⟨hgroup', hdefined', hreaders', hwriters'⟩ := h' i
  exact ⟨hgroup'.trans hgroup, hdefined'.trans hdefined, hreaders'.trans hreaders, hwriters'.trans hwriters⟩

theorem ExchangeMap.stripped_sameAccess (m : ExchangeMap) (p : Port) (strip : Bool) :
    m.SameAccess (m.stripped p strip) := fun i => by
  rw [ExchangeMap.stripped_page]
  exact PageRecord.stripped_access ..

/-- One page through a report (R66, R67). -/
theorem State.takeReport_page (u : State) (g : Group) (i : Page) :
    (u.takeReport g).1.map.page i =
      if u.catchesUp g = true ∧ u.map.ready g i = true then (u.map.page i).published u.sched.cycleCount
      else u.map.page i := by
  cases hm : u.pub.groups[g].mark with
  | false =>
    rw [State.takeReport_unmarked hm, if_neg fun h => nomatch hm.symm.trans ((u.catchesUp_iff g).1 h.1).1]
  | true =>
    cases hf : u.stop.frozen.getLsbD g.val with
    | true =>
      rw [(State.takeReport_dropped_leaves hm hf).1,
        if_neg fun h => nomatch hf.symm.trans ((u.catchesUp_iff g).1 h.1).2]
    | false =>
      rw [(State.takeReport_catchUp_leaves hm hf).1, ExchangeMap.swap_page_ready]
      simp only [(u.catchesUp_iff g).2 ⟨hm, hf⟩, true_and]

theorem State.takeReport_sameAccess (u : State) (g : Group) : u.map.SameAccess (u.takeReport g).1.map := fun i => by
  rw [u.takeReport_page g i]
  split <;> exact ⟨rfl, rfl, rfl, rfl⟩

theorem State.takeReports_sameAccess (u : State) (gs : List Group) :
    u.map.SameAccess (u.takeClaims (reportClaims gs)).1.map := by
  induction gs generalizing u with
  | nil => exact fun i => ⟨rfl, rfl, rfl, rfl⟩
  | cons k gs ih => exact (u.takeReport_sameAccess k).trans (ih (u.takeReport k).1)

theorem State.takeReports_store (u : State) (gs : List Group) :
    u.map.SameStore (u.takeClaims (reportClaims gs)).1.map := by
  induction gs generalizing u with
  | nil => exact ⟨rfl, rfl, rfl, rfl⟩
  | cons k gs ih => exact (u.takeReport_frames k).2.2.trans (ih (u.takeReport k).1)

/-! ### Reports in order -/

/-- A group that carries no mark is left by any reports. -/
theorem State.takeReports_leaves_unmarked {u : State} {g : Group} (hg : u.pub.groups[g].mark = false)
    (gs : List Group) : u.Leaves g (u.takeClaims (reportClaims gs)).1 := by
  induction gs generalizing u with
  | nil => exact .refl u g
  | cons k gs ih =>
    have hk : u.Leaves g (u.takeReport k).1 := by
      by_cases h : g = k
      · subst h
        rw [State.takeReport_unmarked hg]
        exact .refl u g
      · exact ⟨u.takeReport_quietIn h, u.takeReport_sameGroup h⟩
    exact hk.trans (ih (by rw [hk.1.1]; exact hg))

/-- Each message of reports in order is one of the report of a group, which meets the group as it was before all of them,
and what it makes of the group stays. -/
theorem State.takeReports_origin (u : State) {gs : List Group} (hgs : gs.Nodup) {x : Message}
    (hx : x ∈ (u.takeClaims (reportClaims gs)).2.map Outgoing.message) :
    ∃ g ∈ gs, ∃ a, u.OnlyClaims a ∧ u.Leaves g a ∧
      (a.takeReport g).1.Leaves g (u.takeClaims (reportClaims gs)).1 ∧ x ∈ (a.takeReport g).2 := by
  induction gs generalizing u with
  | nil => cases hx
  | cons k gs ih =>
    obtain ⟨hk, hgs⟩ := List.nodup_cons.1 hgs
    rw [reportClaims, List.map_cons, State.takeClaims_cons, List.map_append, List.mem_append, List.map_map] at hx
    rcases hx with hx | hx
    · obtain ⟨y, hy, rfl⟩ := List.mem_map.1 hx
      exact ⟨k, .head _, u, .refl u, .refl u k, State.takeReports_leaves _ hk, hy⟩
    · obtain ⟨g, hg, a, honly, hleaves, hends, hmem⟩ := ih (u.takeReport k).1 hgs hx
      have hne : g ≠ k := fun he => hk (he ▸ hg)
      exact ⟨g, .tail _ hg, a, (u.takeReport_only k).trans honly,
        State.Leaves.trans ⟨u.takeReport_quietIn hne, u.takeReport_sameGroup hne⟩ hleaves, hends, hmem⟩

/-! ### The stagings removed among them -/

/-- Reports in order, with the removal of p's stagings, if they go, between the first of them and the rest (R69). -/
def State.reportsAround (s : State) (p : Port) (strip : Bool) (front back : List Group) : State × List Outgoing :=
  let a := s.takeClaims (reportClaims front)
  let b := (a.1.setMap (a.1.map.stripped p strip)).takeClaims (reportClaims back)
  (b.1, a.2 ++ b.2)

section
variable (s : State) (p : Port) (strip : Bool) (front back : List Group)

theorem State.reportsAround_only : s.OnlyClaims (s.reportsAround p strip front back).1 :=
  ((s.takeClaims_only _).trans (State.setMap_only _ _)).trans (State.takeClaims_only _ _)

theorem State.reportsAround_hold : (s.reportsAround p strip front back).1.hold = s.hold :=
  (State.takeReports_hold _ back).trans ((State.setMap_hold _ _).trans (s.takeReports_hold front))

theorem State.reportsAround_store : s.map.SameStore (s.reportsAround p strip front back).1.map :=
  ((s.takeReports_store front).trans (ExchangeMap.stripped_store _ p strip)).trans
    (State.takeReports_store ((s.takeClaims (reportClaims front)).1.setMap _) back)

theorem State.reportsAround_sameAccess : s.map.SameAccess (s.reportsAround p strip front back).1.map :=
  ((s.takeReports_sameAccess front).trans (ExchangeMap.stripped_sameAccess _ p strip)).trans
    (State.takeReports_sameAccess ((s.takeClaims (reportClaims front)).1.setMap _) back)

end

/-- What all of it leaves of a group that none of the reports gives an outcome. -/
theorem State.reportsAround_leaves (s : State) (p : Port) (strip : Bool) {front back : List Group} {g : Group}
    (h : g ∉ front ++ back ∨ s.pub.groups[g].mark = false) :
    s.QuietIn g (s.reportsAround p strip front back).1 ∧
      (s.map.stripped p strip).SameGroup (s.reportsAround p strip front back).1.map g := by
  have hleaves : ∀ (u : State) (gs : List Group), (g ∉ gs ∨ u.pub.groups[g].mark = false) →
      u.Leaves g (u.takeClaims (reportClaims gs)).1 := fun u gs hg =>
    hg.elim (u.takeReports_leaves ·) (State.takeReports_leaves_unmarked · gs)
  have hfront := hleaves s front (h.imp_left fun hn hg => hn (List.mem_append_left _ hg))
  have hback := hleaves ((s.takeClaims (reportClaims front)).1.setMap
      ((s.takeClaims (reportClaims front)).1.map.stripped p strip)) back
    (h.imp (fun hn hg => hn (List.mem_append_right _ hg)) fun hm => by rw [State.setMap_pub, hfront.1.1]; exact hm)
  exact ⟨hfront.1.trans hback.1, (hfront.2.stripped p strip).trans hback.2⟩

/-- One report of group g among them: taken in state a, where the group shows the pages of m, with p's stagings or without
them; what it makes of the group stays, but for p's stagings (R66, R69). -/
structure State.ReportMeets (s : State) (p : Port) (strip : Bool) (r : State) (g : Group) (m : ExchangeMap) (a : State) :
    Prop where
  only : s.OnlyClaims a
  found : m = s.map ∨ m = s.map.stripped p strip
  before : s.QuietIn g a
  same : m.SameGroup a.map g
  after : (a.takeReport g).1.QuietIn g r
  pages : ∀ i : Page, (s.map.page i).group = g → r.map.page i = ((a.takeReport g).1.map.page i).stripped p strip

section
variable {s a : State} {p : Port} {strip : Bool} {front back : List Group} {g : Group}

theorem State.ReportMeets.of_front (honly : s.OnlyClaims a) (hleaves : s.Leaves g a)
    (hends : (a.takeReport g).1.Leaves g (s.takeClaims (reportClaims front)).1) (hback : g ∉ back) :
    s.ReportMeets p strip (s.reportsAround p strip front back).1 g s.map a := by
  obtain ⟨hquiet, hsame⟩ := State.takeReports_leaves ((s.takeClaims (reportClaims front)).1.setMap
    ((s.takeClaims (reportClaims front)).1.map.stripped p strip)) hback
  refine ⟨honly, Or.inl rfl, hleaves.1, hleaves.2, hends.1.trans hquiet, fun i hi => ?_⟩
  have hpages := (hends.2.stripped p strip).trans hsame
  have hgroup : (((a.takeReport g).1.map.stripped p strip).page i).group = g := by
    rw [ExchangeMap.stripped_page, (PageRecord.stripped_access ..).1, (a.takeReport_sameAccess g i).1,
      (hleaves.2 i).1, hi]
  exact ((hpages i).2 hgroup).trans (ExchangeMap.stripped_page ..)

theorem State.ReportMeets.of_back (hfront : g ∉ front)
    (honly : ((s.takeClaims (reportClaims front)).1.setMap
      ((s.takeClaims (reportClaims front)).1.map.stripped p strip)).OnlyClaims a)
    (hleaves : ((s.takeClaims (reportClaims front)).1.setMap
      ((s.takeClaims (reportClaims front)).1.map.stripped p strip)).Leaves g a)
    (hends : (a.takeReport g).1.Leaves g (s.reportsAround p strip front back).1) :
    s.ReportMeets p strip (s.reportsAround p strip front back).1 g (s.map.stripped p strip) a := by
  obtain ⟨hquiet, hsame⟩ := s.takeReports_leaves hfront
  have hfound := (hsame.stripped p strip).trans hleaves.2
  refine ⟨((s.takeClaims_only _).trans (State.setMap_only _ _)).trans honly, Or.inr rfl,
    State.QuietIn.trans hquiet hleaves.1, hfound, hends.1, fun i hi => ?_⟩
  have hstripped : ((s.map.stripped p strip).page i).group = g := by
    rw [ExchangeMap.stripped_page, (PageRecord.stripped_access ..).1, hi]
  have hgroup : ((a.takeReport g).1.map.page i).group = g := by
    rw [(a.takeReport_sameAccess g i).1, (hfound i).1, hstripped]
  rw [(hends.2 i).2 hgroup, a.takeReport_page g i, (hfound i).2 hstripped, ExchangeMap.stripped_page]
  split
  · exact (PageRecord.stripped_unstaged rfl p strip).symm
  · exact (PageRecord.stripped_twice ..).symm

/-- Each of the reports meets its group, and its messages are sent. -/
theorem State.reportsAround_meets (s : State) (p : Port) (strip : Bool) (hgs : (front ++ back).Nodup)
    (hg : g ∈ front ++ back) :
    ∃ m a, s.ReportMeets p strip (s.reportsAround p strip front back).1 g m a ∧
      ∀ x ∈ (a.takeReport g).2, x ∈ (s.reportsAround p strip front back).2.map Outgoing.message := by
  obtain ⟨hfront, hback, hne⟩ := List.nodup_append.1 hgs
  rcases List.mem_append.1 hg with hg | hg
  · obtain ⟨a, honly, hleaves, hends, hsends⟩ := s.takeReports_meets hfront hg
    refine ⟨s.map, a, .of_front honly hleaves hends fun hb => hne g hg g hb rfl, fun x hx => ?_⟩
    exact List.map_append ▸ List.mem_append_left _ (hsends x hx)
  · obtain ⟨a, honly, hleaves, hends, hsends⟩ := State.takeReports_meets _ hback hg
    refine ⟨_, a, .of_back (fun hf => hne g hf g hg rfl) honly hleaves hends, fun x hx => ?_⟩
    exact List.map_append ▸ List.mem_append_right _ (hsends x hx)

/-- Each message comes from one of the reports. -/
theorem State.reportsAround_origin (s : State) (p : Port) (strip : Bool) (hgs : (front ++ back).Nodup) {x : Message}
    (hx : x ∈ (s.reportsAround p strip front back).2.map Outgoing.message) :
    ∃ g ∈ front ++ back, ∃ m a, s.ReportMeets p strip (s.reportsAround p strip front back).1 g m a ∧
      x ∈ (a.takeReport g).2 := by
  obtain ⟨hfront, hback, hne⟩ := List.nodup_append.1 hgs
  rw [State.reportsAround, List.map_append, List.mem_append] at hx
  rcases hx with hx | hx
  · obtain ⟨g, hg, a, honly, hleaves, hends, hmem⟩ := s.takeReports_origin hfront hx
    exact ⟨g, List.mem_append_left _ hg, s.map, a, .of_front honly hleaves hends fun hb => hne g hg g hb rfl, hmem⟩
  · obtain ⟨g, hg, a, honly, hleaves, hends, hmem⟩ := State.takeReports_origin _ hback hx
    exact ⟨g, List.mem_append_right _ hg, _, a, .of_back (fun hf => hne g hf g hg rfl) honly hleaves hends, hmem⟩

end

end Sys2Proof.Machine
end

section
/-! SUPPORT. What a report among the claims of a port reset makes of its group, and what it sends (R64 to R68, R75, R78,
R98). -/

namespace Sys2Proof.Machine

/-- The messages of a marked group's report: its GROUP_POINT, and LATE notices of its late pages (R64, R65, R68). -/
theorem State.takeReport_sends {a : State} {g : Group} {x : Message} (hx : x ∈ (a.takeReport g).2) :
    a.pub.groups[g].mark = true ∧ x.notice.stamp = a.stamp ∧
      (x.notice.body = .groupPoint g (a.takeReport g).1.pub.groups[g].last (a.takeReport g).1.pub.groups[g].published
          (a.takeReport g).1.pub.groups[g].late ∨
        ∃ i : Page, a.map.late g i = true ∧ x.notice.body = .late i g) := by
  cases hm : a.pub.groups[g].mark with
  | false =>
    rw [State.takeReport_unmarked hm] at hx
    cases hx
  | true =>
    refine ⟨rfl, ?_⟩
    cases hf : a.stop.frozen.getLsbD g.val with
    | true =>
      rw [(State.takeReport_dropped_leaves hm hf).2]
      rw [State.takeReport_dropped hm hf] at hx
      cases List.mem_singleton.1 hx
      exact ⟨rfl, Or.inl rfl⟩
    | false =>
      rw [(State.takeReport_catchUp_leaves hm hf).2]
      rw [State.takeReport_catchUp hm hf, (State.publish_spec _ g _).2] at hx
      rcases List.mem_append.1 hx with hx | hx
      · obtain ⟨⟨i, q⟩, hlate, rfl⟩ := List.mem_map.1 hx
        exact ⟨rfl, Or.inr ⟨i, ((ExchangeMap.mem_swap_late ..).1 hlate).1, rfl⟩⟩
      · cases List.mem_singleton.1 hx
        exact ⟨rfl, Or.inl rfl⟩

section
variable {s r a : State} {p : Port} {strip : Bool} {g : Group} {m : ExchangeMap}
  (h : s.ReportMeets p strip r g m a)
include h

/-- The pages that the report finds lack at most p's stagings. -/
theorem State.ReportMeets.found_page (i : Page) :
    m.page i = s.map.page i ∨ m.page i = (s.map.page i).stripped p strip := by
  rcases h.found with rfl | rfl
  · exact Or.inl rfl
  · exact Or.inr (ExchangeMap.stripped_page ..)

theorem State.ReportMeets.found_group (i : Page) : (m.page i).group = (s.map.page i).group := by
  rcases h.found_page i with hi | hi <;> rw [hi]
  exact (PageRecord.stripped_access ..).1

theorem State.ReportMeets.found_stripped (i : Page) : (m.page i).stripped p strip = (s.map.page i).stripped p strip := by
  rcases h.found_page i with hi | hi <;> rw [hi]
  exact PageRecord.stripped_twice ..

theorem State.ReportMeets.found_late {i : Page} (hi : m.late g i = true) : s.map.late g i = true := by
  rcases h.found with rfl | rfl
  · exact hi
  · exact ExchangeMap.stripped_late hi

/-- Every message of the report tells of its group's outcome or of a late page. -/
theorem State.ReportMeets.sends {x : Message} (hx : x ∈ (a.takeReport g).2) :
    s.pub.groups[g].mark = true ∧ x.notice.stamp = s.stamp ∧
      (x.notice.body = .groupPoint g r.pub.groups[g].last r.pub.groups[g].published r.pub.groups[g].late ∨
        ∃ i : Page, s.map.late g i = true ∧ x.notice.body = .late i g) := by
  obtain ⟨hm, hstamp, hbody⟩ := State.takeReport_sends hx
  rw [h.before.1] at hm
  rw [h.only.stamp] at hstamp
  rw [h.after.1]
  exact ⟨hm, hstamp, hbody.imp_right fun ⟨i, hi, hb⟩ => ⟨i, h.found_late (h.same.late i ▸ hi), hb⟩⟩

section
variable (hm : s.pub.groups[g].mark = true)
include hm

theorem State.ReportMeets.marked : a.pub.groups[g].mark = true := by rw [h.before.1, hm]

theorem State.ReportMeets.watches {n : WatchNo} (hn : s.pub.watches[n].group = g) :
    r.pub.watches[n] = s.pub.watches[n].after g r.pub.groups[g] := by
  have hgives := State.takeReport_givesOutcome (h.marked hm)
  have hn' : (a.takeReport g).1.pub.watches[n].group = g := by
    rw [hgives.watches, h.before.2 n hn, Watch.after_group, hn]
  rw [h.after.2 n hn', hgives.watches, h.before.2 n hn, h.after.1]

theorem State.ReportMeets.groupPoint :
    s.groupPoint g r.pub.groups[g].last r.pub.groups[g].published r.pub.groups[g].late ∈ (a.takeReport g).2 := by
  have hsent := (State.takeReport_givesOutcome (h.marked hm)).notice h.after.1.symm
  rwa [State.groupPoint, h.only.stamp] at hsent

theorem State.ReportMeets.dropped (hf : s.stop.frozen.getLsbD g.val = true) :
    r.pub.groups[g] =
        { last := .dropped, cycle := s.sched.cycleCount, published := 0, late := 0, mark := false } ∧
      ∀ i : Page, (s.map.page i).group = g → r.map.page i = (s.map.page i).stripped p strip := by
  obtain ⟨hmap, hgroup⟩ := State.takeReport_dropped_leaves (h.marked hm) (h.only.stop ▸ hf)
  refine ⟨by rw [h.after.1, hgroup, h.only.sched], fun i hi => ?_⟩
  rw [h.pages i hi, hmap, (h.same i).2 ((h.found_group i).trans hi), h.found_stripped]

theorem State.ReportMeets.catchUp (hf : s.stop.frozen.getLsbD g.val = false) :
    r.pub.groups[g] =
        { last := .catchUp, cycle := s.sched.cycleCount, published := m.readyCount g, late := m.lateCount g
          mark := false } ∧
      ∀ i : Page, (s.map.page i).group = g →
        r.map.page i =
          if m.ready g i then (m.page i).published s.sched.cycleCount else (s.map.page i).stripped p strip := by
  have hfa : a.stop.frozen.getLsbD g.val = false := h.only.stop ▸ hf
  obtain ⟨-, hgroup⟩ := State.takeReport_catchUp_leaves (h.marked hm) hfa
  refine ⟨by rw [h.after.1, hgroup, h.only.sched, h.same.readyCount, h.same.lateCount], fun i hi => ?_⟩
  rw [h.pages i hi, State.takeReport_page, (a.catchesUp_iff g).2 ⟨h.marked hm, hfa⟩, h.same.ready i,
    (h.same i).2 ((h.found_group i).trans hi), h.only.sched]
  simp only [true_and]
  split
  · exact PageRecord.stripped_unstaged rfl p strip
  · exact h.found_stripped i

/-- The stager of a late page whose staging stays finds the LATE notice (R64). -/
theorem State.ReportMeets.late (hf : s.stop.frozen.getLsbD g.val = false) {i : Page} {st : Staging}
    (hl : s.map.late g i = true) (hs : (s.map.page i).staging = some st) (hkept : st.stager ≠ p ∨ strip = false) :
    s.address st.stager (.late i g) ∈ (a.takeReport g).2 := by
  have hi := ExchangeMap.late_group hl
  have hpage : m.page i = s.map.page i := (h.found_page i).elim id fun hi => hi.trans (PageRecord.stripped_kept hs hkept)
  have hla : a.map.late g i = true := by
    rw [h.same.late i, ExchangeMap.late, hpage]
    exact hl
  have hsa : (a.map.page i).staging = some st := by rw [(h.same i).2 ((h.found_group i).trans hi), hpage, hs]
  have hsent := State.takeReport_late (h.marked hm) (h.only.stop ▸ hf) hla hsa
  rwa [State.address, h.only.stamp] at hsent

end

end

/-! ### The frames of p's stagings -/

/-- The visit of the removal of p's stagings to one page. -/
def ExchangeMap.removeStagingOf (p : Port) (m : ExchangeMap) (i : Page) : ExchangeMap :=
  if ((m.page i).stagedBy p).isSome then m.removeStaging i else m

theorem ExchangeMap.removeStagingsOf_eq (m : ExchangeMap) (p : Port) :
    m.removeStagingsOf p = (List.finRange 320).foldl (ExchangeMap.removeStagingOf p) m := rfl

section
variable (p : Port) (m : ExchangeMap) (i : Page)

theorem ExchangeMap.removeStagingOf_page (j : Page) :
    (m.removeStagingOf p i).page j = if j = i then (m.page i).withoutStagingOf p else m.page j := by
  rw [ExchangeMap.removeStagingOf, PageRecord.withoutStagingOf_eq]
  split
  · exact m.removeStaging_page i j
  · split
    · rename_i hj
      rw [hj]
    · rfl

theorem ExchangeMap.removeStagingOf_refs : (m.removeStagingOf p i).refs = m.refs := by
  rw [ExchangeMap.removeStagingOf]
  split
  · exact (m.removeStaging_store i).2.1
  · rfl

theorem PageRecord.stagedBy_iff (r : PageRecord) :
    (r.stagedBy p).isSome = true ↔ ∃ st, r.staging = some st ∧ st.stager = p := by
  rw [PageRecord.stagedBy_isSome, decide_eq_true_eq, Option.map_eq_some_iff]

/-- The frame that the removal of p's staging frees (R30). -/
def PageRecord.releasedOf (refs : Vector Nat 512) (r : PageRecord) : List Frame :=
  if (r.stagedBy p).isSome then r.stagingReleased refs else []

theorem ExchangeMap.removeStagingOf_freeList :
    (m.removeStagingOf p i).freeList = m.freeList ++ (m.page i).releasedOf p m.refs := by
  rw [ExchangeMap.removeStagingOf, PageRecord.releasedOf]
  split
  · exact m.removeStaging_freeList i
  · exact (List.append_nil _).symm

theorem ExchangeMap.mem_removeStagingOf_retiring (f : Frame) :
    f ∈ (m.removeStagingOf p i).retiring ↔
      f ∈ m.retiring ∨ (((m.page i).stagedBy p).isSome = true ∧ (m.page i).Retires m.refs f) := by
  rw [ExchangeMap.removeStagingOf]
  split
  · rename_i h
    rw [m.mem_removeStaging_retiring i f, and_iff_right h]
  · rename_i h
    exact (or_iff_left fun hx => h hx.1).symm

end

/-- The frames that the removal of p's stagings frees, in page order (R30). -/
theorem ExchangeMap.removeStagingsOf_freeList (m : ExchangeMap) (p : Port) :
    (m.removeStagingsOf p).freeList = m.freeList ++ (List.finRange 320).filterMap fun i =>
      match (m.page i).staging with
      | none => none
      | some st => if st.stager = p ∧ m.refs[st.frame] = 0 then some st.frame else none := by
  rw [ExchangeMap.removeStagingsOf_eq]
  refine (foldl_freeList (fun m => m) (ExchangeMap.removeStagingOf p) (fun _ r => r.withoutStagingOf p)
    (fun refs _ r => r.releasedOf p refs) (ExchangeMap.removeStagingOf_page p) (ExchangeMap.removeStagingOf_refs p)
    (ExchangeMap.removeStagingOf_freeList p) _ nodup_pages m).trans ?_
  rw [List.filterMap_eq_flatMap_toList]
  congr 2
  funext i
  unfold PageRecord.releasedOf PageRecord.stagingReleased PageRecord.stagedBy
  cases (m.page i).staging with
  | none => rfl
  | some st =>
    by_cases hp : st.stager = p
    · simp only [hp, if_true, Option.isSome_some, true_and]
      split <;> rfl
    · simp [hp]

/-- The frames that the removal of p's stagings retires (R4, R6, R30). -/
theorem ExchangeMap.mem_removeStagingsOf_retiring (m : ExchangeMap) (p : Port) (f : Frame) :
    f ∈ (m.removeStagingsOf p).retiring ↔ f ∈ m.retiring ∨
      ∃ i st, (m.page i).staging = some st ∧ st.stager = p ∧ st.frame = f ∧ m.refs[f] ≠ 0 := by
  rw [ExchangeMap.removeStagingsOf_eq, mem_foldl_retiring (g := fun r => r.withoutStagingOf p)
    (joins := fun refs r f => (r.stagedBy p).isSome = true ∧ r.Retires refs f) (ExchangeMap.removeStagingOf_page p)
    (ExchangeMap.removeStagingOf_refs p) (ExchangeMap.mem_removeStagingOf_retiring p) nodup_pages]
  simp only [List.mem_finRange, true_and, PageRecord.stagedBy_iff, PageRecord.Retires]
  refine or_congr_right (exists_congr fun i => ⟨?_, ?_⟩)
  · rintro ⟨⟨st, hst, hp⟩, st', hst', hf, hr⟩
    cases hst.symm.trans hst'
    exact ⟨st, hst, hp, hf, hr⟩
  · rintro ⟨st, hst, hp, hf, hr⟩
    exact ⟨⟨st, hst, hp⟩, st, hst, hf, hr⟩

end Sys2Proof.Machine
end

section
/-! SUPPORT. The exchange map's and the hold table's claims of a port reset: the reports of the removal with p's stagings
removed among them (R30, R66, R69, R98). -/

namespace Sys2Proof.Machine

/-- The groups whose reports the hold table's claim brings, if it is taken (R86). -/
def State.endedGroups (s : State) (p : Port) (hold : Bool) : List Group := if hold then s.releasedGroups p else []

/-- The state without p's hold record, if the hold table's claim is taken (R98). -/
def State.unheld (s : State) (p : Port) (hold : Bool) : State := s.setHold (if hold then s.hold.remove p else s.hold)

/-- What the exchange map's and the hold table's claims of p's reset can come to, in each order that R69 allows. -/
def State.ResetBlocks (s : State) (p : Port) (which : ResetClaims) (r : State × List Outgoing) : Prop :=
  ∃ front back, front ++ back = s.endedGroups p which.hold ∧
    r = (s.unheld p which.hold).reportsAround p which.stagings front back

theorem State.nodup_endedGroups (s : State) (p : Port) (hold : Bool) : (s.endedGroups p hold).Nodup := by
  cases hold with
  | true => exact s.releasedGroups_nodup p
  | false => exact List.nodup_nil

theorem State.mem_endedGroups (s : State) (p : Port) (hold : Bool) (g : Group) :
    g ∈ s.endedGroups p hold ∧ s.pub.groups[g].mark = true ↔ hold = true ∧ s.EndsDeferral p g := by
  rw [State.endsDeferral_iff]
  cases hold with
  | true => exact (and_iff_right rfl).symm
  | false => exact iff_of_false (fun h => nomatch h.1) nofun

/-- No group is uncovered where the claim is not taken or finds no record (R86, R98). -/
theorem State.endedGroups_nil {s : State} {p : Port} {hold : Bool} (h : hold = false ∨ s.hold.records[p] = none) :
    s.endedGroups p hold = [] := by
  cases hold with
  | false => rfl
  | true =>
    have hnone := h.resolve_left nofun
    refine List.eq_nil_iff_forall_not_mem.2 fun g hg => ?_
    obtain ⟨⟨x, hx, -⟩, -⟩ := (HoldTable.mem_uncovered_remove s.hold p g).1 hg
    exact nomatch hnone.symm.trans hx

theorem State.resetBlocks_run (s : State) (k : Nat) (p : Port) (which : ResetClaims) :
    s.ResetBlocks p which (s.resetBlocks k p which) := by
  obtain ⟨stagings, hold, fault, queue⟩ := which
  have hstrip : ∀ u : State, (if stagings = true then u.setMap (u.map.removeStagingsOf p) else u) =
      u.setMap (u.map.stripped p stagings) := fun u => by cases stagings <;> rfl
  unfold State.resetBlocks
  simp only [hstrip]
  cases hold with
  | false => exact ⟨[], [], rfl, by simp [State.takeClaims, State.reportsAround, State.unheld]⟩
  | true =>
    simp only [if_true]
    generalize k % ((s.holdRemovalClaims p).length + 1) = n
    cases n with
    | zero => exact ⟨[], s.releasedGroups p, rfl, rfl⟩
    | succ n =>
      refine ⟨(s.releasedGroups p).take n, (s.releasedGroups p).drop n, List.take_append_drop _ _, ?_⟩
      rw [State.reportsAround, reportClaims, reportClaims, List.map_take, List.map_drop]
      rfl

section
variable {s : State} {p : Port} {which : ResetClaims} {r : State × List Outgoing} (h : s.ResetBlocks p which r)
include h

theorem State.ResetBlocks.only : s.OnlyClaims r.1 := by
  obtain ⟨front, back, -, rfl⟩ := h
  exact (s.setHold_only _).trans (State.reportsAround_only ..)

theorem State.ResetBlocks.hold :
    r.1.hold = if which.hold then { s.hold with records := s.hold.records.set p none } else s.hold := by
  obtain ⟨front, back, -, rfl⟩ := h
  exact State.reportsAround_hold ..

theorem State.ResetBlocks.store : s.map.SameStore r.1.map := by
  obtain ⟨front, back, -, rfl⟩ := h
  exact State.reportsAround_store (s.unheld p which.hold) ..

theorem State.ResetBlocks.sameAccess : s.map.SameAccess r.1.map := by
  obtain ⟨front, back, -, rfl⟩ := h
  exact State.reportsAround_sameAccess (s.unheld p which.hold) p which.stagings front back

/-- A group whose deferral does not end: at most p's stagings go from its pages. -/
theorem State.ResetBlocks.leaves {g : Group} (hg : ¬ (which.hold = true ∧ s.EndsDeferral p g)) :
    s.QuietIn g r.1 ∧ (s.map.stripped p which.stagings).SameGroup r.1.map g := by
  obtain ⟨front, back, hgs, rfl⟩ := h
  refine State.reportsAround_leaves (s.unheld p which.hold) p which.stagings ?_
  rw [← State.mem_endedGroups, ← hgs] at hg
  by_cases hmem : g ∈ front ++ back
  · exact Or.inr (Bool.eq_false_iff.2 fun hm => hg ⟨hmem, hm⟩)
  · exact Or.inl hmem

omit h in
theorem State.ReportMeets.of_unheld {hold strip : Bool} {u a : State} {g : Group} {m : ExchangeMap}
    (hmeets : (s.unheld p hold).ReportMeets p strip u g m a) : s.ReportMeets p strip u g m a :=
  ⟨(s.setHold_only _).trans hmeets.only, hmeets.found, hmeets.before, hmeets.same, hmeets.after, hmeets.pages⟩

/-- A group whose deferral ends: its report. -/
theorem State.ResetBlocks.meets {g : Group} (hhold : which.hold = true) (hg : s.EndsDeferral p g) :
    s.pub.groups[g].mark = true ∧ ∃ m a, s.ReportMeets p which.stagings r.1 g m a ∧
      ∀ x ∈ (a.takeReport g).2, x ∈ r.2.map Outgoing.message := by
  obtain ⟨front, back, hgs, rfl⟩ := h
  obtain ⟨hmem, hm⟩ := (s.mem_endedGroups p which.hold g).2 ⟨hhold, hg⟩
  rw [← hgs] at hmem
  obtain ⟨m, a, hmeets, hsends⟩ := State.reportsAround_meets (s.unheld p which.hold) p which.stagings
    (hgs ▸ s.nodup_endedGroups p which.hold) hmem
  exact ⟨hm, m, a, hmeets.of_unheld, hsends⟩

/-- Every message tells of the outcome of a group whose deferral ends, or of one of its late pages. -/
theorem State.ResetBlocks.origin {x : Message} (hx : x ∈ r.2.map Outgoing.message) :
    x.notice.stamp = s.stamp ∧ ∃ g : Group, which.hold = true ∧ s.EndsDeferral p g ∧
      (x.notice.body = .groupPoint g r.1.pub.groups[g].last r.1.pub.groups[g].published r.1.pub.groups[g].late ∨
        ∃ i : Page, s.map.late g i = true ∧ x.notice.body = .late i g) := by
  obtain ⟨front, back, hgs, rfl⟩ := h
  obtain ⟨g, hmem, m, a, hmeets, hsent⟩ := State.reportsAround_origin (s.unheld p which.hold) p which.stagings
    (hgs ▸ s.nodup_endedGroups p which.hold) hx
  obtain ⟨hm, hstamp, hbody⟩ := hmeets.of_unheld.sends hsent
  rw [hgs] at hmem
  obtain ⟨hhold, hends⟩ := (s.mem_endedGroups p which.hold g).1 ⟨hmem, hm⟩
  exact ⟨hstamp, g, hhold, hends, hbody⟩

/-- Where no group is uncovered, at most p's stagings go. -/
theorem State.ResetBlocks.still (hnone : which.hold = false ∨ s.hold.records[p] = none) :
    r.1.pub = s.pub ∧ r.1.map = s.map.stripped p which.stagings ∧ r.2 = [] := by
  obtain ⟨front, back, hgs, rfl⟩ := h
  rw [State.endedGroups_nil hnone] at hgs
  obtain ⟨rfl, rfl⟩ := List.append_eq_nil_iff.1 hgs
  exact ⟨rfl, rfl, rfl⟩

end

/-! ### The other blocks beside them -/

/-- The state with another view unit, notice unit, link and counter of choices. -/
def State.beside (s : State) (v : ViewUnit) (n : NoticeUnit) (l : Vector LinkPort 4) (c : Nat) : State :=
  (((s.setView v).setNotice n).setLink l).setChoices c

section
variable (s : State) (v : ViewUnit) (n : NoticeUnit) (l : Vector LinkPort 4) (c : Nat)

theorem State.beside_view : (s.beside v n l c).view = v := rfl

theorem State.beside_notice : (s.beside v n l c).notice = n := rfl

theorem State.beside_beside (v' : ViewUnit) (n' : NoticeUnit) (l' : Vector LinkPort 4) (c' : Nat) :
    (s.beside v n l c).beside v' n' l' c' = s.beside v' n' l' c' := rfl

theorem State.recordQuiet_beside (g : Group) (o : GroupOutcome) :
    (s.beside v n l c).recordQuiet g o = ((s.recordQuiet g o).1.beside v n l c, (s.recordQuiet g o).2) := by
  have hpub : (s.beside v n l c).pub = s.pub := rfl
  have hsched : (s.beside v n l c).sched = s.sched := rfl
  unfold State.recordQuiet
  rw [hpub, hsched]
  generalize s.pub.record g o s.sched.cycleCount 0 0 = w
  rfl

theorem State.publish_beside (g : Group) (o : GroupOutcome) :
    (s.beside v n l c).publish g o = ((s.publish g o).1.beside v n l c, (s.publish g o).2) := by
  have hmap : (s.beside v n l c).map = s.map := rfl
  have hpub : (s.beside v n l c).pub = s.pub := rfl
  have hsched : (s.beside v n l c).sched = s.sched := rfl
  unfold State.publish
  rw [hmap, hpub, hsched]
  generalize s.map.swap g s.sched.cycleCount = w
  dsimp only
  generalize s.pub.record g o s.sched.cycleCount w.published w.late.length = w'
  rfl

theorem State.takeReport_beside (g : Group) :
    (s.beside v n l c).takeReport g = ((s.takeReport g).1.beside v n l c, (s.takeReport g).2) := by
  unfold State.takeReport
  have hpub : (s.beside v n l c).pub = s.pub := rfl
  have hstop : (s.beside v n l c).stop = s.stop := rfl
  rw [hpub, hstop]
  split
  · split
    · exact (s.setPub (s.pub.setMark g false)).recordQuiet_beside v n l c g .dropped
    · exact (s.setPub (s.pub.setMark g false)).publish_beside v n l c g .catchUp
  · rfl

theorem State.takeReports_beside (gs : List Group) :
    (s.beside v n l c).takeClaims (reportClaims gs) =
      ((s.takeClaims (reportClaims gs)).1.beside v n l c, (s.takeClaims (reportClaims gs)).2) := by
  induction gs generalizing s with
  | nil => rfl
  | cons k gs ih =>
    have hk : (s.beside v n l c).takeClaim (.report k) = ((s.takeReport k).1.beside v n l c, (s.takeReport k).2) :=
      s.takeReport_beside v n l c k
    rw [reportClaims, List.map_cons, State.takeClaims_cons, hk, ih]
    rfl

theorem State.reportsAround_beside (p : Port) (strip : Bool) (front back : List Group) :
    (s.beside v n l c).reportsAround p strip front back =
      ((s.reportsAround p strip front back).1.beside v n l c, (s.reportsAround p strip front back).2) := by
  have hback := State.takeReports_beside ((s.takeClaims (reportClaims front)).1.setMap
    ((s.takeClaims (reportClaims front)).1.map.stripped p strip)) v n l c back
  unfold State.reportsAround
  rw [State.takeReports_beside]
  generalize s.takeClaims (reportClaims front) = a at hback ⊢
  exact congrArg (fun b : State × List Outgoing => (b.1, a.2 ++ b.2)) hback

end

/-- The claims do not see what stands beside their blocks. -/
theorem State.ResetBlocks.of_beside {s : State} {p : Port} {which : ResetClaims} {r : State × List Outgoing}
    {v : ViewUnit} {n : NoticeUnit} {l : Vector LinkPort 4} {c : Nat} (h : (s.beside v n l c).ResetBlocks p which r) :
    ∃ r', s.ResetBlocks p which r' ∧ r = (r'.1.beside v n l c, r'.2) := by
  obtain ⟨front, back, hgs, rfl⟩ := h
  exact ⟨_, ⟨front, back, hgs, rfl⟩, (s.unheld p which.hold).reportsAround_beside v n l c p which.stagings front back⟩

/-- Where p's stagings stay, the reports follow one another. -/
theorem State.reportsAround_false (s : State) (p : Port) (front back : List Group) :
    s.reportsAround p false front back = s.takeClaims (reportClaims (front ++ back)) := by
  rw [reportClaims, List.map_append, State.takeClaims_append]
  rfl

/-- Where they go before every report, the reports find the map without them. -/
theorem State.reportsAround_first (s : State) (p : Port) (strip : Bool) (gs : List Group) :
    s.reportsAround p strip [] gs = (s.setMap (s.map.stripped p strip)).takeClaims (reportClaims gs) := by
  show (_, [] ++ _) = _
  rw [List.nil_append]
  rfl

theorem State.unheld_setMap (s : State) (m : ExchangeMap) (p : Port) (hold : Bool) :
    (s.setMap m).unheld p hold = (s.unheld p hold).setMap m := rfl

theorem State.setMap_stripped_false (s : State) (p : Port) : s.setMap (s.map.stripped p false) = s := rfl

/-- Claims of p's stagings alone. -/
theorem State.ResetBlocks.unheld {s : State} {p : Port} {which : ResetClaims} {r : State × List Outgoing}
    (h : s.ResetBlocks p which r) (hhold : which.hold = false) :
    r = (s.setMap (s.map.stripped p which.stagings), []) := by
  obtain ⟨front, back, hgs, rfl⟩ := h
  rw [hhold] at hgs ⊢
  obtain ⟨rfl, rfl⟩ := List.append_eq_nil_iff.1 hgs
  rfl

/-- Some of the claims, and then all that are left. -/
theorem State.ResetBlocks.then {s : State} {p : Port} {left : ResetClaims} {r r' : State × List Outgoing}
    (h : s.ResetBlocks p (ResetClaims.all.without left) r) (h' : r.1.ResetBlocks p left r') :
    s.ResetBlocks p ResetClaims.all (r'.1, r.2 ++ r'.2) := by
  obtain ⟨stagings, hold, fault, queue⟩ := left
  cases hold with
  | true =>
    have hr : r = (s.setMap (s.map.stripped p (!stagings)), []) := h.unheld rfl
    subst hr
    obtain ⟨front, back, hended, hr'⟩ := h'
    have hgs : front ++ back = s.endedGroups p ResetClaims.all.hold := hended
    rw [List.nil_append]
    cases stagings with
    | true =>
      rw [Bool.not_true, State.setMap_stripped_false] at hr'
      exact ⟨front, back, hgs, hr'⟩
    | false =>
      rw [State.reportsAround_false, Bool.not_false, State.unheld_setMap] at hr'
      exact ⟨[], front ++ back, (List.nil_append _).trans hgs, hr'.trans (State.reportsAround_first ..).symm⟩
  | false =>
    rw [h'.unheld rfl, List.append_nil]
    obtain ⟨front, back, hgs, hr⟩ := h
    cases stagings with
    | true =>
      have hr : r = (s.unheld p true).takeClaims (reportClaims (front ++ back)) :=
        hr.trans (State.reportsAround_false ..)
      refine ⟨front ++ back, [], (List.append_nil _).trans hgs, ?_⟩
      rw [hr, State.reportsAround]
      exact Prod.ext rfl (List.append_nil _).symm
    | false => exact ⟨front, back, hgs, hr⟩

/-! ### A run of claims -/

/-- The view unit with p's fault record emptied, if its claim is taken (R116). -/
def ViewUnit.emptied (v : ViewUnit) (p : Port) (fault : Bool) : ViewUnit := if fault then v.emptyFault p else v

theorem ViewUnit.emptied_then (v : ViewUnit) (p : Port) (b : Bool) :
    (v.emptied p (!b)).emptied p b = v.emptied p true := by
  cases b <;> rfl

theorem State.takeNotices_notice (s : State) (cs : List NoticeClaim) :
    (s.takeNotices cs).notice = cs.foldl NoticeUnit.take s.notice := rfl

/-- From s to u the claims which of p's reset have been taken, in some order that the blocks allow, and of the link p's
port alone may have moved. -/
def State.ResetRun (s u : State) (p : Port) (which : ResetClaims) : Prop :=
  ∃ (r : State × List Outgoing) (cs : List NoticeClaim) (l : Vector LinkPort 4) (c : Nat),
    s.ResetBlocks p which r ∧ ResetNotices p which (r.2.map Outgoing.message) cs ∧
      (∀ q : Port, q ≠ p → l[q] = s.port q) ∧
      u = r.1.beside (s.view.emptied p which.fault) (s.takeNotices cs).notice l c

theorem State.resetPort_run (s : State) (pick : Nat → Nat) (p : Port) (which : ResetClaims) {l : Vector LinkPort 4}
    (hl : ∀ q : Port, q ≠ p → l[q] = s.port q) :
    s.ResetRun (((s.resetPort pick p which).bump).setLink l) p which := by
  have hrun := s.resetBlocks_run (pick 1) p which
  refine ⟨_, _, l, (s.resetBlocks (pick 1) p which).1.choices + 1, hrun,
    resetNotices_mem pick p which (s.resetBlocks (pick 1) p which).2, hl, ?_⟩
  have hview := hrun.only.view
  have hnotice := hrun.only.notice
  unfold State.resetPort
  dsimp only
  generalize s.resetBlocks (pick 1) p which = r at hview hnotice
  rw [← hview, State.takeNotices, State.takeNotices, ← hnotice]
  cases which.fault <;> rfl

theorem State.takeResetClaims_run (s : State) (p : Port) (left now : ResetClaims) :
    s.ResetRun (s.takeResetClaims p left now) p now := by
  rw [State.takeResetClaims_eq]
  refine s.resetPort_run s.draw p now fun q hq => ?_
  rw [State.takeResetClaims_link]
  exact Vector.getElem_set_ne _ _ fun h => hq (Fin.ext h.symm)

/-- Notice runs one after another. -/
theorem ResetNotices.then {p : Port} {left : ResetClaims} {ms ms' : List Message} {cs cs' : List NoticeClaim}
    (h : ResetNotices p (ResetClaims.all.without left) ms cs) (h' : ResetNotices p left ms' cs') :
    ResetNotices p ResetClaims.all (ms ++ ms') (cs ++ cs') := by
  intro c
  have hmessages : (∃ m ∈ ms ++ ms', c = .message m) ↔ (∃ m ∈ ms, c = .message m) ∨ ∃ m ∈ ms', c = .message m := by
    simp only [List.mem_append, or_and_right, exists_or]
  rw [List.mem_append, h c, h' c, hmessages]
  generalize (∃ m ∈ ms, c = .message m) = first
  generalize (∃ m ∈ ms', c = .message m) = second
  generalize (c = NoticeClaim.emptyQueue p) = emptied, (c = NoticeClaim.faultReport p false) = reported
  simp only [ResetClaims.without, ResetClaims.all]
  cases left.queue <;> cases left.fault <;> simp <;> tauto

/-- Some of the claims at once, and all that are left of them later, come to all of them. -/
theorem State.ResetRun.then {s t u : State} {p : Port} {left : ResetClaims}
    (h : s.ResetRun t p (ResetClaims.all.without left)) (h' : t.ResetRun u p left) : s.ResetRun u p ResetClaims.all := by
  obtain ⟨r, cs, l, c, hblocks, hnotices, hl, rfl⟩ := h
  obtain ⟨r', cs', l', c', hblocks', hnotices', hl', rfl⟩ := h'
  obtain ⟨r'', hr'', rfl⟩ := hblocks'.of_beside
  refine ⟨_, cs ++ cs', l', c', hblocks.then hr'', ?_, fun q hq => (hl' q hq).trans (hl q hq), ?_⟩
  · rw [List.map_append]
    exact hnotices.then hnotices'
  · have hview : (s.view.emptied p (ResetClaims.all.without left).fault).emptied p left.fault =
        s.view.emptied p ResetClaims.all.fault := ViewUnit.emptied_then ..
    simp only [State.beside_beside, State.beside_view, State.beside_notice, State.takeNotices_notice, hview,
      List.foldl_append]

end Sys2Proof.Machine
end

section
/-! SUPPORT. What claims of a port reset leave, read off the run of them (R30, R69, R84, R98, R116, R165, R184). -/

namespace Sys2Proof.Machine

/-- A state after claims of p's reset, as its blocks tell: the claims of exchange map and hold table came to r, and the
notice unit took the claims cs. -/
structure State.ResetShows (s u : State) (p : Port) (which : ResetClaims) (r : State × List Outgoing)
    (cs : List NoticeClaim) : Prop where
  blocks : s.ResetBlocks p which r
  notices : ResetNotices p which (r.2.map Outgoing.message) cs
  map : u.map = r.1.map
  pub : u.pub = r.1.pub
  notice : u.notice = (s.takeNotices cs).notice

section
variable {s u : State} {p : Port} {which : ResetClaims} {r : State × List Outgoing} {cs : List NoticeClaim}
  (h : s.ResetShows u p which r cs)
include h

theorem State.ResetShows.port (q : Port) : u.notice.ports[q] = NoticePort.takes s.notice.ports[q] q cs := by
  rw [h.notice]
  exact s.notice.takes_port cs q

theorem State.ResetShows.delivers {x : Message} (hx : x ∈ r.2.map Outgoing.message) {q : Port}
    (hq : q ≠ p ∨ which.queue = false) (hreach : x.recipients.reach q s.notice.ports[q] = true) :
    u.Found q x.notice := by
  rw [State.Found, h.port q]
  exact h.notices.delivers _ hq hx hreach

/-- Each port's part of the notice unit. -/
theorem State.ResetShows.settings (q : Port) :
    u.notice.ports[q].subscription = s.notice.ports[q].subscription ∧
      u.notice.ports[q].kinds = s.notice.ports[q].kinds ∧
      u.notice.ports[q].attention = s.notice.ports[q].attention ∧
      u.notice.ports[q].faultOccupied =
        (if q = p ∧ which.fault = true then false else s.notice.ports[q].faultOccupied) ∧
      (q ≠ p ∨ which.queue = false → s.notice.ports[q].queue <+: u.notice.ports[q].queue) := by
  have hfault := h.notices.faultOccupied s q
  rw [← h.notice] at hfault
  obtain ⟨hsub, hkinds, hattention⟩ := NoticePort.takes_settings s.notice.ports[q] q cs
  rw [h.port q] at hfault ⊢
  exact ⟨hsub, hkinds, hattention, hfault, fun hq => h.notices.grows _ hq⟩

/-- A group whose deferral does not end loses at most p's stagings. -/
theorem State.ResetShows.unmoved {g : Group} (hg : ¬ (which.hold = true ∧ s.EndsDeferral p g)) :
    u.pub.groups[g] = s.pub.groups[g] ∧
      (∀ i : Page, (s.map.page i).group = g → u.map.page i = (s.map.page i).stripped p which.stagings) ∧
      ∀ n : WatchNo, s.pub.watches[n].group = g → u.pub.watches[n] = s.pub.watches[n] := by
  obtain ⟨⟨hgroup, hwatches⟩, hpages⟩ := h.blocks.leaves hg
  rw [h.map, h.pub]
  refine ⟨hgroup, fun i hi => ?_, hwatches⟩
  rw [(hpages i).2 (by rw [ExchangeMap.stripped_page, (PageRecord.stripped_access ..).1, hi]),
    ExchangeMap.stripped_page]

/-- Where no deferral can end, p's stagings, its fault record and its queue alone are touched. -/
theorem State.ResetShows.still (hnone : which.hold = false ∨ s.hold.records[p] = none) :
    u.pub = s.pub ∧
      u.notice.ports[p].queue = (if which.queue then [] else s.notice.ports[p].queue) ∧
      u.notice.ports[p].lost = (if which.queue then false else s.notice.ports[p].lost) ∧
      (∀ q : Port, q ≠ p → u.notice.ports[q] = s.notice.ports[q]) ∧
      u.map = s.map.stripped p which.stagings := by
  obtain ⟨hpub, hmap, hnil⟩ := h.blocks.still hnone
  have hnotices := h.notices
  rw [hnil] at hnotices
  rw [h.map, h.pub, h.port p]
  obtain ⟨hqueue, hlost⟩ := hnotices.own s.notice.ports[p]
  exact ⟨hpub, hqueue, hlost, fun q hq => (h.port q).trans (hnotices.other _ hq), hmap⟩

theorem State.ResetShows.notice_unmoved (hqueue : which.queue = false) (hhold : which.hold = false)
    (hfault : which.fault = false) : u.notice = s.notice := by
  have hnotices := h.notices
  rw [(h.blocks.still (Or.inl hhold)).2.2] at hnotices
  rw [h.notice, hnotices.eq_nil hqueue hfault]
  rfl

/-- A group whose deferral the removal of p's record ends (R66 to R68, R75, R78). -/
theorem State.ResetShows.ends {g : Group} (hhold : which.hold = true) (hg : s.EndsDeferral p g) :
    (∀ n : WatchNo, s.pub.watches[n].group = g →
      u.pub.watches[n] = s.pub.watches[n].after g u.pub.groups[g]) ∧
    (∀ q : Port, q ≠ p ∨ which.queue = false → s.notice.ports[q].subscription.getLsbD g.val = true →
      u.Found q
        { stamp := s.stamp
          body := .groupPoint g u.pub.groups[g].last u.pub.groups[g].published u.pub.groups[g].late }) ∧
    (s.stop.frozen.getLsbD g.val = true →
      u.pub.groups[g] =
        { last := .dropped, cycle := s.sched.cycleCount, published := 0, late := 0, mark := false } ∧
      ∀ i : Page, (s.map.page i).group = g → u.map.page i = (s.map.page i).stripped p which.stagings) ∧
    (s.stop.frozen.getLsbD g.val = false →
      (∃ m : ExchangeMap,
        ((∀ i : Page, m.page i = s.map.page i) ∨
          (which.stagings = true ∧ ∀ i : Page, m.page i = (s.map.page i).withoutStagingOf p)) ∧
        u.pub.groups[g] =
          { last := .catchUp, cycle := s.sched.cycleCount, published := m.readyCount g, late := m.lateCount g
            mark := false } ∧
        ∀ i : Page, (s.map.page i).group = g →
          u.map.page i =
            if m.ready g i then (m.page i).published s.sched.cycleCount
            else (s.map.page i).stripped p which.stagings) ∧
      ∀ (i : Page) (st : Staging), s.map.late g i = true → (s.map.page i).staging = some st →
        st.stager ≠ p ∨ (which.queue = false ∧ which.stagings = false) →
        u.Found st.stager { stamp := s.stamp, body := .late i g }) := by
  obtain ⟨hm, m, a, hmeets, hsends⟩ := h.blocks.meets hhold hg
  rw [h.map, h.pub]
  refine ⟨fun n hn => hmeets.watches hm hn,
    fun q hq hsub => h.delivers (hsends _ (hmeets.groupPoint hm)) hq hsub, hmeets.dropped hm, fun hf => ⟨?_, ?_⟩⟩
  · obtain ⟨hgroup, hpages⟩ := hmeets.catchUp hm hf
    refine ⟨m, ?_, hgroup, hpages⟩
    rcases hmeets.found with rfl | rfl
    · exact Or.inl fun i => rfl
    · have hpage := s.map.stripped_page p which.stagings
      cases hstrip : which.stagings with
      | false =>
        rw [hstrip] at hpage
        exact Or.inl hpage
      | true =>
        rw [hstrip] at hpage
        exact Or.inr ⟨rfl, hpage⟩
  · intro i st hl hs hkept
    exact h.delivers (hsends _ (hmeets.late hm hf hl hs (hkept.imp_right And.right))) (hkept.imp_right And.left)
      (decide_eq_true rfl)

/-- What an emptied queue holds in the end. -/
theorem State.ResetShows.refilled (hqueue : which.queue = true) :
    (∀ x ∈ u.notice.ports[p].queue, x.stamp = s.stamp ∧ ∃ g : Group, which.hold = true ∧ s.EndsDeferral p g ∧
      (x.body = .groupPoint g u.pub.groups[g].last u.pub.groups[g].published u.pub.groups[g].late ∨
        ∃ i : Page, s.map.late g i = true ∧ x.body = .late i g)) ∧
    (u.notice.ports[p].lost = true → u.notice.ports[p].queue.length = 32) := by
  obtain ⟨hmem, -, hlost⟩ := h.notices.refilled s.notice.ports[p] hqueue
  rw [h.port p, h.pub]
  refine ⟨fun x hx => ?_, hlost⟩
  obtain ⟨m, hm, rfl⟩ := hmem x hx
  exact h.blocks.origin hm

end

/-- A run of claims, as its blocks tell it, and what it leaves of the others. -/
theorem State.ResetRun.shows {s u : State} {p : Port} {which : ResetClaims} (h : s.ResetRun u p which) :
    (∃ r cs, s.ResetShows u p which r cs ∧ u.hold = r.1.hold) ∧ u.view = s.view.emptied p which.fault ∧
      u.pending = s.pending ∧ u.inReset = s.inReset ∧ u.part = s.part ∧ u.sched = s.sched ∧ u.stop = s.stop ∧
      u.time = s.time ∧ ∀ q : Port, q ≠ p → u.port q = s.port q := by
  obtain ⟨r, cs, l, c, hblocks, hnotices, hl, rfl⟩ := h
  have honly := hblocks.only
  exact ⟨⟨r, cs, ⟨hblocks, hnotices, rfl, rfl, rfl⟩, rfl⟩, rfl, honly.pending, honly.inReset, honly.part, honly.sched,
    honly.stop, honly.time, hl⟩

/-- Every run of the claims leaves what section 9.6 says of them (R183, R184). -/
theorem State.ResetRun.leaves {s u : State} {p : Port} {which : ResetClaims} (h : s.ResetRun u p which) :
    s.ResetLeaves u p which := by
  obtain ⟨⟨r, cs, hshows, hheld⟩, hview, hpending, hreset, hpart, hsched, hstop, htime, hports⟩ := h.shows
  have hhold := hheld.trans hshows.blocks.hold
  have haccess := hshows.blocks.sameAccess
  obtain ⟨hframes, hrefs, hserial, hlimit⟩ := hshows.blocks.store
  rw [← hshows.map] at haccess hframes hrefs hserial hlimit
  refine ⟨hpending, hreset, hpart, hsched, hstop, htime, hports, haccess, hrefs, hframes, hserial, hlimit, hhold, hview,
    hshows.settings, fun hq hh hf => hshows.notice_unmoved hq hh hf, fun hs hh => ?_, fun hnone => ?_,
    fun g hg => hshows.unmoved hg, fun g hh hg => hshows.ends hh hg, fun hq => hshows.refilled hq⟩
  · obtain ⟨-, -, -, -, hmap⟩ := hshows.still (Or.inl hh)
    rw [hmap, hs]
    rfl
  · obtain ⟨hpub, hqueue, hlost, hothers, hmap⟩ := hshows.still hnone
    refine ⟨hpub, hqueue, hlost, hothers, fun hs => ?_, fun hs => ⟨fun i => ?_, ?_, fun f => ?_⟩⟩
    · rw [hmap, hs]
      rfl
    · rw [hmap, hs]
      exact s.map.removeStagingsOf_page p i
    · rw [hmap, hs]
      exact s.map.removeStagingsOf_freeList p
    · rw [hmap, hs]
      exact s.map.mem_removeStagingsOf_retiring p f

end Sys2Proof.Machine
end

section
/-! HEADLINE. PORT_RESET clears the port, its claims each in its own time (R183, R184). -/

namespace Sys2Proof.Machine

/-- The claims that are not chosen are among those that were left. -/
theorem ResetClaims.without_within (x y : ResetClaims) : (x.without y).Within x := by
  simp only [ResetClaims.Within, ResetClaims.without, Bool.and_eq_true]
  exact ⟨And.left, And.left, And.left, And.left⟩

theorem ResetClaims.without_without_chosen (x : ResetClaims) (k : Nat) :
    x.without (x.without (x.chosen k)) = x.chosen k := by
  have hbool : ∀ a b : Bool, (a && !(a && !(a && b))) = (a && b) := by decide
  simp only [ResetClaims.without, ResetClaims.chosen, hbool]

/-- Where p's port ends up when claims of its reset are taken. -/
abbrev LinkPort.afterClaims (l : LinkPort) (still : ResetClaims) : LinkPort :=
  { l with
    tx :=
      if still = ResetClaims.none then .response { status := .ok, body := [] } else .accepted (.portReset still) }

theorem State.takeResetClaims_setPort_link (s : State) (p : Port) (left now : ResetClaims) :
    (s.takeResetClaims p left now).link = (s.setPort p ((s.port p).afterClaims (left.without now))).link :=
  s.takeResetClaims_link p left now

/-- All the claims that are left. -/
theorem State.settle_resets {s : State} {p : Port} {left : ResetClaims}
    (h : (s.port p).tx = .accepted (.portReset left)) :
    (s.settle p).link = (s.setPort p { s.port p with tx := .response { status := .ok, body := [] } }).link ∧
      s.ResetRun (s.settle p) p left := by
  rw [State.settle_portReset h]
  refine ⟨?_, s.takeResetClaims_run p left left⟩
  rw [State.takeResetClaims_setPort_link, ResetClaims.without_self]
  rfl

theorem State.settleSome_portReset {s : State} {p : Port} {left : ResetClaims}
    (h : (s.port p).tx = .accepted (.portReset left)) :
    s.settleSome p = s.takeResetClaims p left (left.chosen (s.draw 0)) := by
  simp only [State.settleSome, h]

/-- The claims do not see that the request has been received. -/
theorem State.ResetRun.of_receive {s u : State} {p : Port} {bytes : List Byte} {which : ResetClaims}
    (h : (s.receive p bytes).ResetRun u p which) : s.ResetRun u p which := by
  obtain ⟨r, cs, l, c, hblocks, hnotices, hl, rfl⟩ := h
  have hbeside : s.receive p bytes = s.beside s.view s.notice (s.receive p bytes).link s.choices := rfl
  rw [hbeside] at hblocks
  obtain ⟨r', hr', rfl⟩ := hblocks.of_beside
  refine ⟨r', cs, l, c, hr', hnotices, fun q hq => (hl q hq).trans ?_, rfl⟩
  rw [State.receive_eq, State.port_setPort_ne _ _ hq]

theorem exec_portReset {s : State} {p : Port} (hr : s.ReadyFor p) :
    exec (.portReset p) s = .next ((s.receive p (Instr.portReset p).record).beginReset p) :=
  congrArg Host.Outcome.next (State.serve_accepted _ hr (rfl : some () = some ()) (s.lacksRight_none p))

/-- p's port once PORT_RESET has been received. -/
def LinkPort.askedReset (l : LinkPort) (p : Port) : LinkPort := { l with received := (Instr.portReset p).record }

/-- What an accepted PORT_RESET has done: some claims are taken, and the others are left (R183). -/
theorem State.beginReset_resets (s : State) (p : Port) :
    ∃ left : ResetClaims,
      ((s.receive p (Instr.portReset p).record).beginReset p).link =
        (s.setPort p (((s.port p).askedReset p).afterClaims left)).link ∧
      s.ResetRun ((s.receive p (Instr.portReset p).record).beginReset p) p (ResetClaims.all.without left) := by
  obtain ⟨u, hu⟩ : ∃ u, u = s.receive p (Instr.portReset p).record := ⟨_, rfl⟩
  refine ⟨ResetClaims.all.without (ResetClaims.all.chosen (u.draw 0)), ?_, ?_⟩
  · rw [← hu, State.beginReset, State.takeResetClaims_setPort_link, hu, State.receive_eq, State.port_setPort_same]
    rw [State.setPort_twice]
    rfl
  · rw [ResetClaims.without_without_chosen, ← hu]
    refine State.ResetRun.of_receive (bytes := (Instr.portReset p).record) ?_
    rw [← hu]
    exact u.takeResetClaims_run p _ _

/-- A port written anew over a link that was written at the same port. -/
theorem State.setPort_link_of {s t : State} {p : Port} {l : LinkPort} (h : t.link = (s.setPort p l).link)
    (l' : LinkPort) : (t.setPort p l').link = (s.setPort p l').link := by
  have htwice := congrArg State.link (s.setPort_twice p l l')
  rw [← htwice]
  show t.link.set p l' = (s.setPort p l).link.set p l'
  rw [h]

/-- And when the transaction moves on, all of them are taken. -/
theorem State.settle_beginReset {s t : State} {p : Port} {left : ResetClaims}
    (hlink : t.link = (s.setPort p (((s.port p).askedReset p).afterClaims left)).link)
    (hrun : s.ResetRun t p (ResetClaims.all.without left)) :
    (t.settle p).link =
        (s.setPort p { (s.port p).askedReset p with tx := .response { status := .ok, body := [] } }).link ∧
      s.ResetRun (t.settle p) p ResetClaims.all := by
  have hport : t.port p = ((s.port p).askedReset p).afterClaims left := by
    rw [State.port_congr hlink, State.port_setPort_same]
  by_cases hleft : left = ResetClaims.none
  · subst hleft
    have htx : (t.port p).tx = .response { status := .ok, body := [] } := by rw [hport]; rfl
    rw [State.settle_of_not_accepted (by rw [htx]; nofun)]
    rw [ResetClaims.without_none] at hrun
    exact ⟨hlink, hrun⟩
  · have htx : (t.port p).tx = .accepted (.portReset left) := by
      rw [hport]
      exact if_neg hleft
    obtain ⟨hsettled, hrest⟩ := t.settle_resets htx
    refine ⟨hsettled.trans ?_, hrun.then hrest⟩
    rw [hport, State.setPort_link_of hlink]

/-- Settles O16: the claims taken at once and those left for later come to a run of all four. -/
theorem portResetClearsThePort : Obligations.PortResetClearsThePort := by
  refine ⟨fun p s hr hlaw => ⟨_, exec_portReset hr, ?_⟩, fun p s left htx => ?_⟩
  · obtain ⟨left, hlink, hrun⟩ := s.beginReset_resets p
    generalize (s.receive p (Instr.portReset p).record).beginReset p = t at hlink hrun
    obtain ⟨hsettled, hall⟩ := State.settle_beginReset hlink hrun
    have hport : (t.settle p).port p =
        { (s.port p).askedReset p with tx := .response { status := .ok, body := [] } } := by
      rw [State.port_congr hsettled, State.port_setPort_same]
    obtain ⟨hselected, hreading, hwrite, -⟩ := hlaw p
    rw [hr.2] at hselected hreading hwrite
    have hsel : (s.port p).selected = true := by
      cases h : (s.port p).selected with
      | true => rfl
      | false => exact absurd (hselected h) nofun
    have hread : (s.port p).reading = none := by
      cases h : (s.port p).reading with
      | none => rfl
      | some r => exact absurd (hreading (by rw [h]; rfl)) nofun
    have hunwritten : (s.port p).write = none := by
      cases h : (s.port p).write with
      | none => rfl
      | some w => exact absurd (hwrite.1 (by rw [h]; rfl)) nofun
    refine ⟨⟨left, hlink, hrun.leaves⟩, hsettled, ?_, ?_, hall.leaves⟩
    · rw [exec_settle rfl t, exec_lastResponseByte (by rw [hport]) (by rw [hport]; exact hread), hport]
      rfl
    · have hend := (selectReleaseEndsTheTransaction p (t.settle p) (by rw [hport]; exact hsel)
        (t.settle_not_accepted p)).1 (by rw [hport]; exact hread)
      rw [exec_settle rfl t, hend, hport]
      simp only [LinkPort.askedReset, ← hunwritten]
  · obtain ⟨hlink, hrun⟩ := s.settle_resets htx
    have hevent : s.takeEvent (.claims p) = s.takeResetClaims p left (left.chosen (s.draw 0)) :=
      State.settleSome_portReset htx
    refine ⟨hlink, hrun.leaves, left.without (left.chosen (s.draw 0)), ResetClaims.without_within _ _, ?_, ?_⟩
    · rw [hevent]
      exact s.takeResetClaims_setPort_link p left _
    · rw [hevent, ResetClaims.without_without_chosen]
      exact (s.takeResetClaims_run p left _).leaves

end Sys2Proof.Machine
end
